-- ==== Sys2Proof/Word.lean ====
section
/-! DEFINITION. The word types of both lines (spec 11 R196): bytes, and the 2 and 4 byte fields made of them. -/

namespace Sys2Proof

/-- One byte of a frame. -/
abbrev Byte := BitVec 8

/-- A 2-byte field. -/
abbrev Half := BitVec 16

/-- A 4-byte field: clocks, lot ids, doses, sequence numbers, check words. -/
abbrev Word := BitVec 32

end Sys2Proof
end

