-- ==== Sys2Proof/Config.lean ====
section
/-! DEFINITION. The constants of the part's size, and the free values: what the manual leaves open (log 7 to 10). -/

namespace Sys2Proof

/-- R184: the places of the outbound queue. -/
def Config.queueCap : Nat := 24

/-- R161: the places of the custody journal. -/
def Config.journalCap : Nat := 6144

/-- R19: the places of the through queue. -/
def Config.throughCap : Nat := 4

/-- R152: the places of the proof list. -/
def Config.proofCap : Nat := 16

/-- R136: the most lots in Handover. -/
def Config.handoverCap : Nat := 8

/-- R187: the bytes of a read that one MG_RSP carries. -/
def Config.readPiece : Nat := 52

/-- R197: the bytes of a statement that one CLAIM_RSP carries. -/
def Config.claimPiece : Nat := 49

/-- R176: a walk over a full journal completes within this many milliseconds. -/
def Config.walkLimit : Nat := 50

/-- Free value (log 8): a byte of a POLL or CLAIM_RSP payload that no rule states, by its place and
the counter of free values. -/
opaque Config.openByte : Nat → Nat → BitVec 8

/-- Free value (log 9): how many further entries the statement builder's walk has taken when an entry
is removed from the journal (R176), by the counter of free values. -/
opaque Config.walkAdvance : Nat → Nat

/-- Free value (log 10): what a 32-bit count of seconds holds when the seconds pass its range. -/
opaque Config.overflow32 : Nat → BitVec 32

end Sys2Proof
end

