-- ==== Sys2Proof/Syntax.lean ====
section
/-! DEFINITION. The commands: one constructor of Instr for each row of spec/opcode_table.json, with the
operands that the row's frame or event carries. -/

namespace Sys2Proof

/-- R196: a frame of either line, its Check apart. Length is the number of payload bytes. -/
structure Frame where
  dest    : Byte
  src     : Byte
  kind    : Byte
  tag     : Byte
  payload : List Byte
  deriving DecidableEq, Repr

/-- The head of a fleet-side request. A destination of 0x80 and above is an alias, or foreign, and makes
another row (THROUGH_FRAME, FRAME_ERROR), so a request's destination has 7 bits. -/
structure ReqHdr where
  dest : BitVec 7
  src  : Byte
  tag  : Byte
  deriving DecidableEq, Repr

/-- R2: the fields of a node table write, in wire order. -/
structure NodeFields where
  enabled     : Byte
  address     : Byte
  kind        : Byte
  zone        : Byte
  offset      : Byte
  dwell       : Byte
  policy      : Byte
  policyParam : Byte
  aliasAddr      : Option Byte
  lostLimit   : Byte
  deriving DecidableEq, Repr

/-- R5: the fields of a line settings write. -/
structure LineFields where
  roundFloor  : Byte
  replyWindow : Byte
  deriving DecidableEq, Repr

/-- R26: the fields of a zone table write. -/
structure ZoneFields where
  enabled   : Byte
  staleness : Half
  step      : Byte
  deriving DecidableEq, Repr

/-- R41: the fields of a class table write. -/
structure ClassFields where
  tw    : Half
  ts    : Half
  lag   : Byte
  watch : Word
  hold  : Word
  shock : Byte
  deriving DecidableEq, Repr

/-- R43: the fields of an engine settings write. -/
structure EngineFields where
  period     : Byte
  interval   : Byte
  lastUpdate : Word
  deriving DecidableEq, Repr

/-- R68: the fields of a manifest add. -/
structure ManifestFields where
  lot       : Word
  cls       : Byte
  zone      : Byte
  planned   : Option Byte
  inherited : Option Word
  arrival   : Option Half
  deriving DecidableEq, Repr

/-- R86: the fields of a door table write. -/
structure DoorFields where
  mode     : Byte
  polarity : Byte
  debounce : Byte
  zones    : Half
  recovery : Half
  assumed  : Half
  deriving DecidableEq, Repr

/-- R102: the fields of a beacon table write; the inhibit is a door line and an active level. -/
structure BeaconFields where
  causes  : Half
  onTime  : Byte
  offTime : Byte
  count   : Byte
  inhibit : Option (Byte × Byte)
  deriving DecidableEq, Repr

/-- R116: the fields of a stop table write. -/
structure StopFields where
  stopId  : Word
  doors   : Byte
  budget  : Half
  settle  : Half
  visited : Byte
  deriving DecidableEq, Repr

/-- R110: the parameters of TRIP_OPEN. -/
structure TripOpenParams where
  tripId    : Word
  mode      : Byte
  sealWord  : Word
  retention : Option Byte
  stopCount : Option Byte
  deriving DecidableEq, Repr

/-- R126: the fields of a REPLY_SCAN, in wire order (R197). -/
structure ScanFields where
  number : Byte
  action : Byte
  lot    : Word
  token  : Word
  reason : Byte
  deriving DecidableEq, Repr

/-- The commands of the block: the rows of the table of operations and events. -/
inductive Instr where
  /-- R195: the reset input, with the level of the two strap lines. -/
  | powerOnReset (straps : BitVec 2)
  /-- R11 -/
  | roundStart
  /-- R12 -/
  | poll
  /-- R20 -/
  | thruOut
  /-- R15: a REPLY_READING with a good Check, from a source. -/
  | replyReading (src tag : Byte) (raw : Half) (quality : Byte)
  /-- R126: a REPLY_SCAN with a good Check, from a source. -/
  | replyScan (src tag : Byte) (scan : ScanFields)
  /-- R15: a REPLY_IDLE with a good Check, from a source. -/
  | replyIdle (src tag : Byte)
  /-- R14: any frame received in a poll's window, with its Check as received. -/
  | badReply (frame : Frame) (check : Half)
  /-- R13 -/
  | replyWindowExpiry
  /-- R13: a frame received while no window is open. -/
  | straySensorFrame (frame : Frame) (check : Half)
  /-- R21: a THRU_BACK with a good Check, from a source. -/
  | thruBack (src tag : Byte) (payload : List Byte)
  /-- R21: any frame received in a through window, with its Check as received. -/
  | thruWindowOtherFrame (frame : Frame) (check : Half)
  /-- R21 -/
  | throughWindowExpiry
  /-- R19: a good inbound trunk frame addressed to an alias. -/
  | throughFrame (frame : Frame)
  /-- R11 -/
  | roundEnd
  /-- R45 -/
  | updateEvent
  /-- R187: the payload, whose Length R183 judges: table, first index, count. -/
  | mgRead (h : ReqHdr) (payload : List Byte)
  /-- R187 -/
  | mgReadNextFrame
  /-- R188 rows 1 and 2: the whole payload. -/
  | mgWriteRefused (h : ReqHdr) (payload : List Byte)
  /-- R3 -/
  | nodeTableWrite (h : ReqHdr) (index : Byte) (f : NodeFields)
  /-- R5 -/
  | lineSettingsWrite (h : ReqHdr) (index : Byte) (f : LineFields)
  /-- R27 -/
  | zoneTableWrite (h : ReqHdr) (index : Byte) (f : ZoneFields)
  /-- R42 -/
  | classTableWrite (h : ReqHdr) (index : Byte) (f : ClassFields)
  /-- R43 -/
  | engineSettingsWrite (h : ReqHdr) (index : Byte) (f : EngineFields)
  /-- R68 -/
  | manifestAdd (h : ReqHdr) (index : Byte) (f : ManifestFields)
  /-- R73 -/
  | manifestDelete (h : ReqHdr) (index : Byte) (lot : Word)
  /-- R100 -/
  | doorTableWrite (h : ReqHdr) (index : Byte) (f : DoorFields)
  /-- R102 -/
  | beaconTableWrite (h : ReqHdr) (index : Byte) (f : BeaconFields)
  /-- R116 -/
  | stopTableWrite (h : ReqHdr) (index : Byte) (f : StopFields)
  /-- R125 -/
  | scanSettingsWrite (h : ReqHdr) (index : Byte) (window : Byte)
  /-- R151 -/
  | proofSettingsWrite (h : ReqHdr) (index : Byte) (window : Half)
  /-- R173 -/
  | claimSettingsWrite (h : ReqHdr) (index : Byte) (window : Half)
  /-- R192 -/
  | eventSettingsWrite (h : ReqHdr) (index : Byte) (kinds : Half)
  /-- R189: the whole payload. -/
  | mgCmdInvalid (h : ReqHdr) (payload : List Byte)
  /-- R111 -/
  | tripOpen (h : ReqHdr) (p : TripOpenParams)
  /-- R112 -/
  | depart (h : ReqHdr)
  /-- R113 -/
  | arrive (h : ReqHdr) (stop : Byte)
  /-- R114 -/
  | tripClose (h : ReqHdr)
  /-- R76 -/
  | moveLot (h : ReqHdr) (lot : Word) (zone : Byte)
  /-- R91 -/
  | armSeal (h : ReqHdr) (door : Byte)
  /-- R105 -/
  | beaconClear (h : ReqHdr) (beacons : Byte)
  /-- R119 -/
  | timeSet (h : ReqHdr) (clock : Word)
  /-- R192 -/
  | eventClear (h : ReqHdr) (kinds : Half)
  /-- R193 -/
  | setAddress (h : ReqHdr) (address : Byte)
  /-- R194 -/
  | resetLink (h : ReqHdr)
  /-- R195 -/
  | resetFull (h : ReqHdr)
  /-- R195 -/
  | resetFullTakesEffect
  /-- R87: the level that the line of a door takes. -/
  | doorLineChange (door : Fin 4) (high : Bool)
  /-- R87 -/
  | debounceExpiry (door : Fin 4)
  /-- R89 -/
  | assumedOpenTimeExpiry (door : Fin 4)
  /-- R97 -/
  | recoveryWindowEnd (door : Fin 4)
  /-- R99 -/
  | doorOverlong (door : Fin 4)
  /-- R103 -/
  | beaconPhaseEnd (beacon : Fin 2)
  /-- R132: the scanner's node table index. -/
  | advisoryExpiry (node : Fin 32)
  /-- R139: the lot table index. -/
  | settleDeadline (lot : Fin 96)
  /-- R153: the lot table index of the proof list entry. -/
  | ackDeadline (lot : Fin 96)
  /-- R154: the payload: proof number, check word. -/
  | proofAck (h : ReqHdr) (payload : List Byte)
  /-- R82 -/
  | retentionExpiry (lot : Fin 96)
  /-- R165: the payload: mode, from sequence, count. -/
  | jrnlReq (h : ReqHdr) (payload : List Byte)
  /-- R174: the payload: lot id, query tag. -/
  | claimQ (h : ReqHdr) (payload : List Byte)
  /-- R176 -/
  | buildCompletion
  /-- R177 -/
  | claimWindowDeadline (slot : Fin 4)
  /-- R183: any inbound trunk frame, with its Check as received. -/
  | frameError (frame : Frame) (check : Half)
  /-- R184 -/
  | transmissionEnd
  deriving DecidableEq, Repr

end Sys2Proof
end

