-- ==== Sys2Proof/Machine/State.lean ====
section
/-! DEFINITION. Everything the manual makes the part hold, as plain data, unit by unit (spec 00 Blocks), and the
state right after power-on reset. Zones, doors and beacons are numbered from 0 inside (zone z of the manual is z - 1). -/

namespace Sys2Proof.Machine

/-- R118: a device clock value, in seconds. -/
abbrev Clock := Word

/-- A set of zones: zone 1 in bit 0 (R196). -/
abbrev ZoneSet := BitVec 12

/-- A set of doors: D1 in bit 0 (R196). -/
abbrev DoorSet := BitVec 4

/-- A set of event kinds, in the order of R102's list from bit 0 (R197). -/
abbrev KindSet := BitVec 13

/-! ### Trunk port (spec 11) -/

/-- R102: the event kinds, in the order that numbers them. -/
inductive EventKind where
  | nodeLost | nodeBack | zoneStale | step | unexplainedStep | doorUnauthorized | doorOverlong | sealBroken
  | gradeWatch | gradeHold | journalFull | proofUnconfirmed | timeJump
  deriving DecidableEq, Repr

/-- R191, R197: the subject of a raising. -/
inductive Subject where
  | none
  | node (address : Byte)
  | zone (z : Fin 12)
  | door (d : Fin 4)
  | lot (id : Word)
  deriving DecidableEq, Repr

/-- R191: a raw flag and the subject of its most recent raising. -/
structure EventFlag where
  raised  : Bool
  subject : Subject
  deriving DecidableEq, Repr

/-- R184: the classes of outbound frames. -/
inductive FrameClass where
  | reply | event | journal | report
  deriving DecidableEq, Repr

/-- R165: the modes of an export that runs. -/
inductive ExportMode where
  | single | block | follow
  deriving DecidableEq, Repr

/-- R165: the export record; `frames` counts the frames admitted (R186). `remaining` is read in Block mode. `place` is
the place in the journal of the entry whose number the cursor is (R159). -/
structure ExportRec where
  mode      : ExportMode
  dest      : Byte
  cursor    : Word
  place     : Nat
  remaining : Nat
  gap       : Bool
  firstSent : Bool
  frames    : Nat
  deriving DecidableEq, Repr

/-- What the trunk port knows of a queued frame: the read it belongs to (R187), the export's state before it
was admitted (R168), or that it is the Done of a RESET_FULL (R195). -/
inductive FrameOrigin where
  | plain
  | read (id : Nat)
  | journal (epoch : Nat) (before : ExportRec)
  | resetDone
  deriving DecidableEq, Repr

/-- A frame of the outbound queue. Its Source is the trunk address, written when its transmission begins (R186),
unless it is forwarded from an alias. -/
structure OutFrame where
  cls     : FrameClass
  dest    : Byte
  aliasAddr  : Option Byte
  kind    : Byte
  tag     : Byte
  payload : List Byte
  origin  : FrameOrigin
  deriving DecidableEq, Repr

/-- R184: the frame that the outbound line carries. -/
structure TxFrame where
  frame  : Frame
  origin : FrameOrigin
  deriving DecidableEq, Repr

/-- Whom an MG_RSP answers: the request's source, kind and sequence (R186, R197). -/
structure ReplyTo where
  dest : Byte
  kind : Byte
  seq  : Byte
  deriving DecidableEq, Repr

/-- R187: the read in progress. `carry` holds the bytes encoded and not yet sent, `left` the entries of the
count not yet encoded, `due` says that the frame before the next one has begun its transmission. -/
structure ReadRec where
  id     : Nat
  target : ReplyTo
  table  : Nat
  next   : Nat
  left   : Nat
  carry  : List Byte
  frames : Nat
  due    : Bool
  deriving DecidableEq, Repr

/-- R195: whether a RESET_FULL is pending, and whether its Done has been sent. -/
inductive ResetPhase where
  | none | pending | doneSent
  deriving DecidableEq, Repr

/-- The trunk port. -/
structure Trunk where
  addr       : Byte
  errors     : Nat
  queue      : List OutFrame
  tx         : Option TxFrame
  read       : Option ReadRec
  reads      : Nat
  flags      : Vector EventFlag 13
  reportBits : KindSet
  reset      : ResetPhase
  deriving DecidableEq, Repr

/-! ### Sensor line controller (spec 01) -/

/-- R2 -/
inductive NodeKind where
  | probe | scanner
  deriving DecidableEq, Repr

/-- R2: the report policies. -/
inductive Policy where
  | pass
  | everyN (n : Nat)
  | change (delta : Nat)
  | silent
  deriving DecidableEq, Repr

/-- R2: a node table entry; temperatures and differences are whole tenths. -/
structure NodeEntry where
  enabled   : Bool
  address   : Byte
  kind      : NodeKind
  zone      : Fin 12
  offset    : Int
  dwell     : Nat
  policy    : Policy
  aliasAddr    : Option Byte
  lostLimit : Nat
  deriving DecidableEq, Repr

/-- R4 -/
inductive NodeState where
  | new | alive | lost
  deriving DecidableEq, Repr

/-- R4: a calibrated temperature and the clock at which it was stored. -/
structure Reading where
  value : Int
  clock : Clock
  deriving DecidableEq, Repr

/-- R4: a node runtime record. -/
structure NodeRt where
  state        : NodeState
  misses       : Nat
  last         : Option Reading
  everyN       : Nat
  lastReported : Option Int
  deriving DecidableEq, Repr

/-- R5 -/
structure LineSettings where
  roundFloor  : Nat
  replyWindow : Nat
  deriving DecidableEq, Repr

/-- R17 -/
inductive MissKind where
  | noReply | badCheck | wrongSource | wrongKind | none
  deriving DecidableEq, Repr

/-- R17: the link fault record. -/
structure LinkFault where
  kind    : MissKind
  address : Byte
  clock   : Clock
  deriving DecidableEq, Repr

/-- R19: a through queue entry, the frame as received and the node entry whose alias it matched. -/
structure ThroughEntry where
  frame : Frame
  node  : Fin 32
  deriving DecidableEq, Repr

/-- R6: the exchange in flight, with the frame sent and the end of its window in reference milliseconds. -/
inductive Exchange where
  | poll (node : Fin 32) (accessory : Bool) (sent : Frame) (windowEnd : Nat)
  | through (node : Fin 32) (request : Frame) (sent : Frame) (windowEnd : Nat)
  deriving DecidableEq, Repr

/-- R6: what has just ended when the line is free; `idle` when nothing was there to follow it. -/
inductive Arbiter where
  | idle | pollEnded | throughEnded
  deriving DecidableEq, Repr

/-- R10: the accessory turn in progress and the polls it has left. -/
structure Turn where
  node : Fin 32
  left : Nat
  deriving DecidableEq, Repr

/-- R7, R9: a round in progress. The walk has reached the entries below `walked`; `count` is the probe polls
since the last turn, `polled` whether the round made a probe poll. -/
structure Round where
  began     : Nat
  walked    : Nat
  count     : Nat
  polled    : Bool
  walkEnded : Bool
  turn      : Option Turn
  deriving DecidableEq, Repr

/-- R11: between rounds the start of the next one is held; else the round. -/
inductive RoundPhase where
  | waiting (startAt : Nat)
  | running (r : Round)
  deriving DecidableEq, Repr

/-- The sensor line controller. -/
structure Sensor where
  nodes    : Vector NodeEntry 32
  rts      : Vector NodeRt 32
  settings : LineSettings
  rotation : List (Fin 32)
  throughQ : List ThroughEntry
  fault    : LinkFault
  exchange : Option Exchange
  arbiter  : Arbiter
  roundNo  : Fin 8
  phase    : RoundPhase
  deriving DecidableEq, Repr

/-! ### Zone unit (spec 02) -/

/-- R26 -/
structure ZoneEntry where
  enabled   : Bool
  staleness : Nat
  step      : Nat
  deriving DecidableEq, Repr

/-- R27 -/
inductive ZoneState where
  | unset | live | stale
  deriving DecidableEq, Repr

/-- R27: a zone runtime record. -/
structure ZoneRt where
  state    : ZoneState
  air      : Option Int
  stepFlag : Bool
  deriving DecidableEq, Repr

/-- The zone unit. -/
structure Zones where
  entries : Vector ZoneEntry 12
  rts     : Vector ZoneRt 12
  deriving DecidableEq, Repr

/-! ### Exposure engine (spec 03) -/

/-- R41: a class entry; the lag mask holds 1/2 in bit 0 to 1/32 in bit 4. -/
structure ClassEntry where
  tw    : Int
  ts    : Int
  lag   : BitVec 5
  watch : Nat
  hold  : Nat
  shock : Nat
  deriving DecidableEq, Repr

/-- The engine: class table, settings (R43) and the reference milliseconds at which the update timer
started (R44). -/
structure Engine where
  classes    : Vector ClassEntry 8
  period     : Nat
  interval   : Nat
  lastUpdate : Clock
  timerStart : Nat
  deriving DecidableEq, Repr

/-! ### Lot table (spec 04) -/

/-- R66 -/
inductive LotState where
  | free | expected | onBoard | handover | delivered | short | returned
  deriving DecidableEq, Repr

/-- R56 -/
inductive Grade where
  | good | watch | hold
  deriving DecidableEq, Repr

/-- R141: the seal causes. -/
inductive SealCause where
  | doorClose | settle | depart | closure
  deriving DecidableEq, Repr

/-- R135: the handover record. -/
structure Handover where
  scanner  : Byte
  token    : Word
  clock    : Clock
  stop     : Fin 25
  hold     : Bool
  misdrop  : Bool
  settleAt : Clock
  deriving DecidableEq, Repr

/-- R147: the proof record, and the refusal count that R65 has carried into it beside the 18 fields of R147 (log 50). Doses
are as shown. -/
structure ProofRecord where
  tripId    : Word
  number    : Nat
  lot       : Word
  cls       : Fin 8
  stopId    : Word
  scanner   : Byte
  token     : Word
  scanClock : Clock
  sealClock : Clock
  cause     : SealCause
  grade     : Grade
  total     : Nat
  handling  : Nat
  equipment : Nat
  inherited : Nat
  peak      : Int
  cycles    : Nat
  blind     : Bool
  gap       : Bool
  hold      : Bool
  misdrop   : Bool
  unsynced  : Bool
  refusals  : Nat
  deriving DecidableEq, Repr

/-- R149: the proof fields of a lot entry. -/
structure ProofFields where
  number    : Nat
  sealClock : Clock
  cause     : SealCause
  check     : Word
  record    : ProofRecord
  deriving DecidableEq, Repr

/-- R63: a lot entry. Doses are in tenth-degree-seconds. -/
structure LotEntry where
  lot        : Word
  state      : LotState
  cls        : Fin 8
  zone       : Fin 12
  planned    : Option (Fin 25)
  inherited  : Word
  arrival    : Option Int
  core       : Int
  handling   : Word
  equipment  : Word
  grade      : Grade
  soft       : Bool
  cycles     : Nat
  peak       : Int
  peakClock  : Clock
  blind      : Bool
  unconfirmed : Bool
  refusals   : Nat
  gaps       : Nat
  updates    : Word
  loadClock  : Option Clock
  handover   : Option Handover
  proof      : Option ProofFields
  retention  : Option Clock
  deriving DecidableEq, Repr

/-! ### Door and beacon units (spec 05) -/

/-- R86 -/
inductive DoorMode where
  | off | contact | seal | count | inhibit
  deriving DecidableEq, Repr

/-- R86 -/
inductive Polarity where
  | highIsOpen | lowIsOpen
  deriving DecidableEq, Repr

/-- R86: a door table entry. -/
structure DoorEntry where
  mode     : DoorMode
  polarity : Polarity
  debounce : Nat
  zones    : ZoneSet
  recovery : Nat
  assumed  : Nat
  deriving DecidableEq, Repr

/-- R93 -/
inductive DoorState where
  | opened | closed | armed | broken | unused
  deriving DecidableEq, Repr

/-- R87, R93: a door's line level, the reference milliseconds of a change being timed, and its runtime record.
A level is true when high. `stretchAt` is the start of the open stretch in elapsed time (R94). -/
structure DoorRt where
  line        : Bool
  changedAt   : Option Nat
  state       : DoorState
  level       : Bool
  openSince   : Option Clock
  stretchAt   : Option Nat
  lastOpen    : Option Clock
  lastClose   : Option Clock
  recoveryAt  : Option Clock
  openUntil   : Option Clock
  armedLevel  : Bool
  armingClock : Clock
  visit       : Option (Fin 25)
  openings    : Nat
  openSeconds : Word
  overlong    : Bool
  deriving DecidableEq, Repr

/-- The door unit. -/
structure Doors where
  entries : Vector DoorEntry 4
  rts     : Vector DoorRt 4
  deriving DecidableEq, Repr

/-- R102: a beacon's inhibit: a door line and its active level. -/
structure Inhibit where
  door : Fin 4
  high : Bool
  deriving DecidableEq, Repr

/-- R102: a beacon table entry. -/
structure BeaconEntry where
  causes  : KindSet
  onTime  : Nat
  offTime : Nat
  count   : Nat
  inhibit : Option Inhibit
  deriving DecidableEq, Repr

/-- R103: a running train: its phase, the reference milliseconds at which the phase ends, and the pulses
remaining of a counted train (none: continuous). -/
structure Running where
  on        : Bool
  endsAt    : Nat
  remaining : Option Nat
  deriving DecidableEq, Repr

/-- The beacon unit; a train that is absent is Stopped (R103). -/
structure Beacons where
  entries : Vector BeaconEntry 2
  trains  : Vector (Option Running) 2
  deriving DecidableEq, Repr

/-! ### Trip unit (spec 06) -/

/-- R108 -/
inductive TripMode where
  | van | room
  deriving DecidableEq, Repr

/-- R109 -/
inductive TripState where
  | noTrip | loading | transit
  | atStop (k : Fin 25)
  | dock
  deriving DecidableEq, Repr

/-- R108: the trip record. -/
structure TripRecord where
  tripId    : Word
  mode      : TripMode
  sealWord  : Word
  retention : Nat
  stopCount : Nat
  state     : TripState
  nextProof : Nat
  deriving DecidableEq, Repr

/-- R115: a stop table entry. -/
structure StopEntry where
  stopId  : Word
  doors   : DoorSet
  budget  : Nat
  settle  : Nat
  visited : Bool
  deriving DecidableEq, Repr

/-- The trip unit; `visitStart` is the reference milliseconds at which the visit began (R98). -/
structure Trip where
  record     : TripRecord
  stops      : Vector StopEntry 25
  clock      : Clock
  unsynced   : Bool
  visitStart : Nat
  deriving DecidableEq, Repr

/-! ### Scan and handover unit (spec 07) -/

/-- R126: the actions of a scan. -/
inductive ScanAction where
  | load | unload | confirm | refuse
  deriving DecidableEq, Repr

/-- R127: the reasons of a rejection, in the order that numbers them. -/
inductive Reject where
  | noSuchLot | wrongState | wrongTripState | noPending | busy | notManifested
  deriving DecidableEq, Repr

/-- R131: the advisory kinds. -/
structure Advisory where
  hold    : Bool
  misdrop : Bool
  deriving DecidableEq, Repr

/-- R127: the outcome of a verdict. -/
inductive ScanOutcome where
  | accepted
  | advise (kinds : Advisory)
  | rejected (why : Reject)
  deriving DecidableEq, Repr

/-- R127: a verdict. -/
structure Verdict where
  action  : ScanAction
  lot     : Word
  outcome : ScanOutcome
  deriving DecidableEq, Repr

/-- R132: a pending advisory. -/
structure Pending where
  lot       : Word
  kinds     : Advisory
  token     : Word
  confirmBy : Clock
  deriving DecidableEq, Repr

/-- R124: a scan memory. -/
structure ScanMem where
  number  : Byte
  verdict : Option Verdict
  pending : Option Pending
  deriving DecidableEq, Repr

/-- The scan and handover unit: the scan memories and the advisory window (R125). -/
structure Scans where
  mem      : Vector ScanMem 32
  advisory : Nat
  deriving DecidableEq, Repr

/-! ### Proof unit (spec 08) -/

/-- R152: a proof list entry. -/
structure ProofItem where
  index  : Fin 96
  lot    : Word
  number : Nat
  check  : Word
  ackBy  : Clock
  deriving DecidableEq, Repr

/-- The proof unit: the proof list, oldest first, and the ack window (R151). -/
structure Proofs where
  list   : List ProofItem
  window : Nat
  deriving DecidableEq, Repr

/-! ### Journal (spec 09) -/

/-- R160: the entry kinds, in the order that numbers them. -/
inductive EntryKind where
  | tripOpen | depart | arrive | tripClose | load | move | gradeRaise | handoverOpen | handoverCancel | seal
  | confirm | short | returned | doorOpen | doorClose | sealBroken | doorOverlong | unexplainedStep | nodeLost
  | nodeBack | timeJump | summary
  deriving DecidableEq, Repr

/-- R158: a journal entry. `place` counts the entries placed before it since the last reset: it keeps the order of two
entries, and tells them apart when they carry one number (R159). -/
structure JEntry where
  place    : Nat
  seq      : Word
  clock    : Clock
  unsynced : Bool
  kind     : EntryKind
  lot      : Option Word
  zone     : Option (Fin 12)
  zones    : Option ZoneSet
  door     : Option (Fin 4)
  v1       : Word
  v2       : Word
  deriving DecidableEq, Repr

/-- The journal: the entries held, oldest first, and the next sequence number (R159); `appended` counts the entries
placed since the last reset, and is the place of the next one. -/
structure Journal where
  entries  : List JEntry
  nextSeq  : Word
  appended : Nat
  deriving DecidableEq, Repr

/-- The journal export: its record while one runs (R165), and the count of the events after which a frame
removed from the queue has no effect on it (R168). -/
structure Export where
  run   : Option ExportRec
  epoch : Nat
  deriving DecidableEq, Repr

/-! ### Claim unit (spec 10) -/

/-- R180: the cancellation of a Handover item. -/
structure Cancel where
  clock   : Clock
  reason  : Byte
  scanner : Byte
  deriving DecidableEq, Repr

/-- R180: the custody items of a statement. -/
inductive Item where
  | load (clock : Clock) (zone : Fin 12) (core : Half) (scanner : Byte)
  | move (clock : Clock) (new old : Byte)
  | handover (clock : Clock) (token : Word) (scanner stop : Byte) (hold misdrop : Bool) (cancel : Option Cancel)
  | ret (clock : Clock) (zone : Fin 12) (grade : Byte) (total : Word)
  | short (clock : Clock) (zone : Fin 12) (stop : Byte)
  deriving DecidableEq, Repr

/-- R180: how a custody stands at the end of a statement. -/
inductive End where
  | sealed (cause : SealCause) (clock : Clock)
  | short (clock : Clock)
  | returned (clock : Clock)
  | inCustody (clock : Clock)
  deriving DecidableEq, Repr

/-- R181: a door opening of a statement; no duration means it is listed as open. -/
structure Opening where
  door       : Fin 4
  clock      : Clock
  authorized : Bool
  duration   : Option Word
  deriving DecidableEq, Repr

/-- R179: the proof as a statement gives it. -/
structure ProofMark where
  number : Nat
  cause  : SealCause
  check  : Word
  deriving DecidableEq, Repr

/-- R179: a claim statement. Doses are as shown. -/
structure Statement where
  lot         : Word
  tag         : Byte
  clock       : Clock
  unsynced    : Bool
  reach       : Option Word
  oldest      : Option Word
  cls         : Fin 8
  state       : LotState
  zone        : Fin 12
  inherited   : Nat
  handling    : Nat
  equipment   : Nat
  total       : Nat
  peak        : Int
  peakClock   : Clock
  cycles      : Nat
  grade       : Grade
  blind       : Bool
  unconfirmed : Bool
  gaps        : Nat
  refusals    : Nat
  loadClock   : Option Clock
  proof       : Option ProofMark
  incomplete  : Bool
  items       : List Item
  passedOver  : Nat
  ending      : End
  openings    : List Opening
  beyond      : Nat
  deriving DecidableEq, Repr

/-- R172 -/
inductive SlotState where
  | queued | building | ready
  deriving DecidableEq, Repr

/-- R172: a slot in use. -/
structure Slot where
  lot       : Word
  tag       : Byte
  state     : SlotState
  reach     : Option Word
  deadline  : Option Clock
  statement : Option Statement
  deriving DecidableEq, Repr

/-- R176: the build in progress: its slot, the reference milliseconds at which it began, the entries the walk
has taken and those it has yet to take. -/
structure Build where
  slot  : Fin 4
  began : Nat
  taken : List JEntry
  left  : List JEntry
  deriving DecidableEq, Repr

/-- The claim unit: the slots (a slot that is absent is free), the opening order of those in use, the
builder and the claim window (R173). -/
structure Claims where
  slots   : Vector (Option Slot) 4
  order   : List (Fin 4)
  builder : Option Build
  window  : Nat
  deriving DecidableEq, Repr

/-! ### The whole part -/

/-- The state of the part. `ref` counts the milliseconds of the reference clock since power-on reset (log 36),
`free` is the model's own counter of free values (log 7), `pending` the commands that wait (log 30). -/
structure State where
  pending : List Instr
  ref     : Nat
  straps  : BitVec 2
  free    : Nat
  sensor  : Sensor
  zones   : Zones
  engine  : Engine
  lots    : Vector LotEntry 96
  doors   : Doors
  beacons : Beacons
  trip    : Trip
  scans   : Scans
  proofs  : Proofs
  journal : Journal
  exporter : Export
  claims  : Claims
  trunk   : Trunk
  deriving DecidableEq, Repr

/-- The part describes no state in which it stops, so nothing raises a fault: there is no constructor. -/
inductive Fault : Type
  deriving DecidableEq, Repr

/-- Why a command is refused. -/
inductive Refusal where
  /-- Raised by an arm of exec whose command has no meaning yet. Safe: nothing is claimed of it. -/
  | notModelled (mnemonic : String)
  /-- Raised by FRAME_ERROR, THROUGH_FRAME, MG_WRITE_REFUSED and MG_CMD_INVALID when the frame given is not one of
  that row, but of another row of the table (log 4). Safe: the frame is run by its own row's command. -/
  | notThisRow
  deriving DecidableEq, Repr

/-- What a command answers. -/
abbrev Answer := Host.Outcome State Fault Refusal

/-! ### Power-on values -/

/-- R2 -/
def NodeEntry.powerOn : NodeEntry :=
  { enabled := false, address := 0, kind := .probe, zone := 0, offset := 0, dwell := 1, policy := .pass,
    aliasAddr := none, lostLimit := 3 }

/-- R4 -/
def NodeRt.reset : NodeRt := { state := .new, misses := 0, last := none, everyN := 0, lastReported := none }

/-- R17 -/
def LinkFault.cleared : LinkFault := { kind := .none, address := 0, clock := 0 }

/-- R11: a round that begins at the given time. -/
def Round.start (at_ : Nat) : Round :=
  { began := at_, walked := 0, count := 0, polled := false, walkEnded := false, turn := none }

/-- R23: the controller after power-on reset or RESET Full, at a reference time; round 0 starts at once. -/
def Sensor.powerOn (now : Nat) : Sensor :=
  { nodes := Vector.replicate 32 NodeEntry.powerOn, rts := Vector.replicate 32 NodeRt.reset,
    settings := { roundFloor := 5, replyWindow := 10 }, rotation := [], throughQ := [], fault := LinkFault.cleared,
    exchange := none, arbiter := .idle, roundNo := 0, phase := .running (Round.start now) }

/-- R40 -/
def Zones.powerOn : Zones :=
  { entries := Vector.replicate 12 { enabled := false, staleness := 60, step := 30 },
    rts := Vector.replicate 12 { state := .unset, air := none, stepFlag := false } }

/-- R61 -/
def Engine.powerOn (now : Nat) : Engine :=
  { classes := Vector.replicate 8 { tw := -180, ts := -120, lag := 0b01010, watch := 600, hold := 3000, shock := 2 },
    period := 15, interval := 20, lastUpdate := 0, timerStart := now }

/-- R63: the last column. -/
def LotEntry.free : LotEntry :=
  { lot := 0, state := .free, cls := 0, zone := 0, planned := none, inherited := 0, arrival := none, core := 0,
    handling := 0, equipment := 0, grade := .good, soft := false, cycles := 0, peak := -600, peakClock := 0,
    blind := false, unconfirmed := false, refusals := 0, gaps := 0, updates := 0, loadClock := none,
    handover := none, proof := none, retention := none }

/-- R93: a door's runtime after power-on reset or RESET Full, sampled from its line (R87). -/
def DoorRt.sampled (line : Bool) : DoorRt :=
  { line := line, changedAt := none, state := .unused, level := line, openSince := none, stretchAt := none,
    lastOpen := none, lastClose := none, recoveryAt := none, openUntil := none, armedLevel := false,
    armingClock := 0, visit := none, openings := 0, openSeconds := 0, overlong := false }

/-- R86 -/
def DoorEntry.powerOn : DoorEntry :=
  { mode := .off, polarity := .highIsOpen, debounce := 50, zones := 0, recovery := 120, assumed := 60 }

/-- R107, from the levels of the lines D1 to D4. -/
def Doors.powerOn (d1 d2 d3 d4 : Bool) : Doors :=
  { entries := Vector.replicate 4 DoorEntry.powerOn,
    rts := #v[DoorRt.sampled d1, DoorRt.sampled d2, DoorRt.sampled d3, DoorRt.sampled d4] }

/-- R107 -/
def Beacons.powerOn : Beacons :=
  { entries := Vector.replicate 2 { causes := 0, onTime := 4, offTime := 16, count := 5, inhibit := none },
    trains := Vector.replicate 2 none }

/-- R108 -/
def TripRecord.powerOn : TripRecord :=
  { tripId := 0, mode := .van, sealWord := 0, retention := 72, stopCount := 0, state := .noTrip, nextProof := 1 }

/-- R115 -/
def StopEntry.powerOn : StopEntry := { stopId := 0, doors := 0, budget := 0, settle := 120, visited := false }

/-- R123, with the clock and the unsynced mark given: RESET Full keeps them. -/
def Trip.powerOn (clock : Clock) (unsynced : Bool) : Trip :=
  { record := TripRecord.powerOn,
    stops := (Vector.replicate 25 StopEntry.powerOn).set 0 { StopEntry.powerOn with doors := 0b1111 },
    clock := clock, unsynced := unsynced, visitStart := 0 }

/-- R124 -/
def ScanMem.cleared : ScanMem := { number := 0, verdict := none, pending := none }

/-- R144 -/
def Scans.powerOn : Scans := { mem := Vector.replicate 32 ScanMem.cleared, advisory := 30 }

/-- R157 -/
def Proofs.powerOn : Proofs := { list := [], window := 300 }

/-- R171 -/
def Journal.powerOn : Journal := { entries := [], nextSeq := 1, appended := 0 }

/-- R182 -/
def Claims.powerOn : Claims := { slots := Vector.replicate 4 none, order := [], builder := none, window := 60 }

/-- R191: a lowered raw flag. -/
def EventFlag.lowered : EventFlag := { raised := false, subject := .none }

/-- R195, with the trunk address given. -/
def Trunk.powerOn (addr : Byte) : Trunk :=
  { addr := addr, errors := 0, queue := [], tx := none, read := none, reads := 0,
    flags := Vector.replicate 13 EventFlag.lowered, reportBits := 0x1FFF, reset := .none }

/-- R193: the trunk address of the strap lines. -/
def strapAddress (straps : BitVec 2) : Byte := 0x70 + straps.setWidth 8

/-- The part right after power-on reset. The straps and the door lines are at the levels of log 1: the manual
states none. -/
def State.reset : State :=
  { pending := [], ref := 0, straps := 0, free := 0, sensor := Sensor.powerOn 0, zones := Zones.powerOn,
    engine := Engine.powerOn 0, lots := Vector.replicate 96 LotEntry.free,
    doors := Doors.powerOn false false false false, beacons := Beacons.powerOn, trip := Trip.powerOn 0 true,
    scans := Scans.powerOn, proofs := Proofs.powerOn, journal := Journal.powerOn,
    exporter := { run := none, epoch := 0 }, claims := Claims.powerOn, trunk := Trunk.powerOn (strapAddress 0) }

end Sys2Proof.Machine
end

