-- ==== Sys2Proof/Machine/Operands.lean ====
section
/-! DEFINITION. The operand forms: bytes and fields of frames (spec 11 R196), ranges and clamping (R188),
saturating counts and deadlines (R118), check words (R148, R196), and the numbers that name things. -/

namespace Sys2Proof.Machine

/-! ### Bytes -/

/-- R196: a number in one byte. -/
def b1 (n : Nat) : List Byte := [BitVec.ofNat 8 n]

/-- R196: two bytes, most significant first. -/
def b2 (x : Half) : List Byte := [x.extractLsb' 8 8, x.extractLsb' 0 8]

/-- R196: four bytes, most significant first. -/
def b4 (x : Word) : List Byte :=
  [x.extractLsb' 24 8, x.extractLsb' 16 8, x.extractLsb' 8 8, x.extractLsb' 0 8]

/-- R196: a number in two bytes. -/
def n2 (n : Nat) : List Byte := b2 (BitVec.ofNat 16 n)

/-- R196: a number in four bytes. -/
def n4 (n : Nat) : List Byte := b4 (BitVec.ofNat 32 n)

/-- Log 11: yes and set are 1. -/
def flag (b : Bool) : List Byte := [if b then 1 else 0]

/-- R196: a temperature is 16-bit two's complement tenths. -/
def temp2 (t : Int) : List Byte := b2 (BitVec.ofInt 16 t)

/-- R197: a value that holds a temperature is 32-bit two's complement tenths. -/
def tempWord (t : Int) : Word := BitVec.ofInt 32 t

/-- R196: an optional field: its presence byte, then its value when present. -/
def optional {α : Type} (f : α → List Byte) : Option α → List Byte
  | none => [0]
  | some a => 1 :: f a

/-- Two bytes as a field, the first the most significant. -/
def half (x y : Byte) : Half := x ++ y

/-- Four bytes as a field, the first the most significant. -/
def word (x y z w : Byte) : Word := (x ++ y) ++ (z ++ w)

/-- A number as a 32-bit word. -/
def natWord (n : Nat) : Word := BitVec.ofNat 32 n

/-- Log 10: a count of seconds in 32 bits; what it holds past its range is open. -/
def countWord (n : Nat) : Word := if n < 4294967296 then BitVec.ofNat 32 n else Config.overflow32 n

/-! ### Ranges -/

/-- R188: a number brought to its nearest limit. -/
def clamp (lo hi n : Nat) : Nat := max lo (min hi n)

/-- R188: a signed number brought to its nearest limit. -/
def clampInt (lo hi n : Int) : Int := max lo (min hi n)

/-- R43: the nearest multiple of 5 within 5 to 60. -/
def nearestPeriod (n : Nat) : Nat := clamp 5 60 ((n + 2) / 5 * 5)

/-- R86: the nearest multiple of 10 up to 250, a halfway value going to the greater. -/
def nearestDebounce (n : Nat) : Nat := min 250 ((n + 5) / 10 * 10)

/-- A yes or no byte; any other value is one that no state can have (log 15). -/
def boolOf (x : Byte) : Option Bool := if x = 0 then some false else if x = 1 then some true else none

/-- A zone number 1 to 12. -/
def zoneOf (x : Byte) : Option (Fin 12) :=
  if h : 1 ≤ x.toNat ∧ x.toNat ≤ 12 then some ⟨x.toNat - 1, by omega⟩ else none

/-- The number by which the manual names a zone. -/
def zoneNo (z : Fin 12) : Nat := z.val + 1

/-- A door number 1 to 4. -/
def doorOf (x : Byte) : Option (Fin 4) :=
  if h : 1 ≤ x.toNat ∧ x.toNat ≤ 4 then some ⟨x.toNat - 1, by omega⟩ else none

/-- The number by which the manual names a door line. -/
def doorNo (d : Fin 4) : Nat := d.val + 1

/-- A stop index 0 to 24. -/
def stopOf (x : Byte) : Option (Fin 25) := if h : x.toNat < 25 then some ⟨x.toNat, h⟩ else none

/-- R86, R116, R192: a set mask that names only members that exist. -/
def maskOf (n : Nat) {w : Nat} (x : BitVec w) : Option (BitVec n) :=
  if x.toNat < 2 ^ n then some (BitVec.ofNat n x.toNat) else none

/-- Whether an alias address (R183). -/
def isAlias (x : Byte) : Bool := decide (0x80 ≤ x.toNat ∧ x.toNat ≤ 0xBF)

/-! ### Counts and deadlines -/

/-- R51: a 32-bit count that saturates. -/
def satAdd (a : Word) (n : Nat) : Word := BitVec.ofNat 32 (min (a.toNat + n) 4294967295)

/-- R118: a deadline, the clock plus a stated time, held at the clock's greatest value. -/
def deadline (c : Clock) (seconds : Nat) : Clock := satAdd c seconds

/-- R118: a deadline is reached when the device clock is at or past it. -/
def reached (clock d : Clock) : Bool := decide (d.toNat ≤ clock.toNat)

/-- A count raised by one up to its limit. -/
def satSucc (limit n : Nat) : Nat := min limit (n + 1)

/-- R60: a dose as shown, in tenth-degree-minutes. -/
def shown (dose : Word) : Nat := dose.toNat / 60

/-- R12: the seconds left to a deadline, 0 when it has passed, at most 255. -/
def secondsLeft (clock d : Clock) : Nat := min 255 (d.toNat - clock.toNat)

/-! ### Check words -/

/-- R148, R196: one bit into a CRC register, most significant bit first. -/
def crcBit {w : Nat} (poly reg : BitVec w) (bit : Bool) : BitVec w :=
  if reg.msb = bit then reg <<< 1 else (reg <<< 1) ^^^ poly

/-- R148, R196: the bits of one byte, most significant first. -/
def crcByte {w : Nat} (poly reg : BitVec w) (x : Byte) : BitVec w :=
  [7, 6, 5, 4, 3, 2, 1, 0].foldl (fun r i => crcBit poly r (x.getLsbD i)) reg

/-- R148: the check word of a proof record's bytes under a seal word. -/
def crc32 (sealWord : Word) (bytes : List Byte) : Word := bytes.foldl (crcByte 0x04C11DB7) sealWord

/-- R196: the Check of a frame's bytes. -/
def crc16 (bytes : List Byte) : Half := bytes.foldl (crcByte 0x1021) 0xFFFF

end Sys2Proof.Machine

namespace Sys2Proof

/-- R196: the bytes over which a frame's Check is taken. -/
def Frame.body (f : Frame) : List Byte :=
  [f.dest, f.src, f.kind, f.tag, BitVec.ofNat 8 f.payload.length] ++ f.payload

/-- R196: the Check of a frame as sent. -/
def Frame.check (f : Frame) : Half := Machine.crc16 f.body

/-- R196: a frame as the line carries it. -/
def Frame.bytes (f : Frame) : List Byte := f.body ++ Machine.b2 f.check

end Sys2Proof

namespace Sys2Proof.Machine

/-! ### Numbered names (R196: from 0 in the order of their rule's table, unless R197 says otherwise) -/

/-- R196: the frame kinds. -/
def kPoll : Byte := 0x01
/-- R196 -/
def kReplyIdle : Byte := 0x02
/-- R196 -/
def kReplyReading : Byte := 0x03
/-- R196 -/
def kReplyScan : Byte := 0x04
/-- R196 -/
def kThruOut : Byte := 0x05
/-- R196 -/
def kThruBack : Byte := 0x06
/-- R196 -/
def kMgWrite : Byte := 0x10
/-- R196 -/
def kMgRead : Byte := 0x11
/-- R196 -/
def kMgCmd : Byte := 0x12
/-- R196 -/
def kClaimQ : Byte := 0x13
/-- R196 -/
def kProofAck : Byte := 0x14
/-- R196 -/
def kJrnlReq : Byte := 0x15
/-- R196 -/
def kMgRsp : Byte := 0x20
/-- R196 -/
def kReport : Byte := 0x21
/-- R196 -/
def kEvent : Byte := 0x22
/-- R196 -/
def kProof : Byte := 0x23
/-- R196 -/
def kClaimRsp : Byte := 0x24
/-- R196 -/
def kJrnlData : Byte := 0x25

/-- R197: the MG_RSP reply codes. -/
inductive ReplyCode where
  | done | adjusted | badValue | locked | inUse | noEntry | tableFull | duplicate | badState | busy
  | noSuchAlias | throughFail | mismatch | tooLate | noSuchProof
  deriving DecidableEq, Repr

/-- R197: the codes are numbered from 0. -/
def ReplyCode.number : ReplyCode → Nat
  | .done => 0 | .adjusted => 1 | .badValue => 2 | .locked => 3 | .inUse => 4 | .noEntry => 5 | .tableFull => 6
  | .duplicate => 7 | .badState => 8 | .busy => 9 | .noSuchAlias => 10 | .throughFail => 11 | .mismatch => 12
  | .tooLate => 13 | .noSuchProof => 14

/-- R188: Adjusted when a field was brought into range, else Done. -/
def doneOr (adjusted : Bool) : ReplyCode := if adjusted then .adjusted else .done

/-- R196: First, Last and the sequence modulo 64. -/
def tagOf (first last : Bool) (seq : Nat) : Byte :=
  BitVec.ofNat 8 ((if first then 128 else 0) + (if last then 64 else 0) + seq % 64)

/-- R186: a single-frame record carries First and Last and sequence 0. -/
def tagSingle : Byte := 0xC0

/-- R196: the sequence of a tag. -/
def tagSeq (tag : Byte) : Byte := tag &&& 0x3F

/-- R102: the kinds in order, from 0; R197 numbers them from 1. -/
def EventKind.index : EventKind → Fin 13
  | .nodeLost => 0 | .nodeBack => 1 | .zoneStale => 2 | .step => 3 | .unexplainedStep => 4 | .doorUnauthorized => 5
  | .doorOverlong => 6 | .sealBroken => 7 | .gradeWatch => 8 | .gradeHold => 9 | .journalFull => 10
  | .proofUnconfirmed => 11 | .timeJump => 12

/-- R197: the subject type and the subject of an EVENT. -/
def Subject.bytes : Subject → List Byte
  | .none => b1 0 ++ n4 0
  | .node a => b1 1 ++ n4 a.toNat
  | .zone z => b1 2 ++ n4 (zoneNo z)
  | .door d => b1 3 ++ n4 (doorNo d)
  | .lot id => b1 4 ++ b4 id

/-- R2 -/
def NodeKind.number : NodeKind → Nat | .probe => 0 | .scanner => 1
/-- R4 -/
def NodeState.number : NodeState → Nat | .new => 0 | .alive => 1 | .lost => 2
/-- R17 -/
def MissKind.number : MissKind → Nat
  | .noReply => 0 | .badCheck => 1 | .wrongSource => 2 | .wrongKind => 3 | .none => 4
/-- R27 -/
def ZoneState.number : ZoneState → Nat | .unset => 0 | .live => 1 | .stale => 2
/-- R197: the proof record's code. -/
def Grade.number : Grade → Nat | .good => 0 | .watch => 1 | .hold => 2
/-- R63 -/
def LotState.number : LotState → Nat
  | .free => 0 | .expected => 1 | .onBoard => 2 | .handover => 3 | .delivered => 4 | .short => 5 | .returned => 6
/-- R197: the proof record's code. -/
def SealCause.number : SealCause → Nat | .doorClose => 1 | .settle => 2 | .depart => 3 | .closure => 4
/-- R86 -/
def DoorMode.number : DoorMode → Nat | .off => 0 | .contact => 1 | .seal => 2 | .count => 3 | .inhibit => 4
/-- R86 -/
def Polarity.number : Polarity → Nat | .highIsOpen => 0 | .lowIsOpen => 1
/-- R93 -/
def DoorState.number : DoorState → Nat | .opened => 0 | .closed => 1 | .armed => 2 | .broken => 3 | .unused => 4
/-- R197: TRIP_OPEN's mode. -/
def TripMode.number : TripMode → Nat | .van => 0 | .room => 1
/-- R197: a scan's action. -/
def ScanAction.number : ScanAction → Nat | .load => 1 | .unload => 2 | .confirm => 3 | .refuse => 4
/-- R197: a rejection's reason. -/
def Reject.number : Reject → Nat
  | .noSuchLot => 1 | .wrongState => 2 | .wrongTripState => 3 | .noPending => 4 | .busy => 5 | .notManifested => 6
/-- R172 -/
def SlotState.number : SlotState → Nat | .queued => 0 | .building => 1 | .ready => 2
/-- R197: the journal entry kinds, from 1. -/
def EntryKind.number : EntryKind → Nat
  | .tripOpen => 1 | .depart => 2 | .arrive => 3 | .tripClose => 4 | .load => 5 | .move => 6 | .gradeRaise => 7
  | .handoverOpen => 8 | .handoverCancel => 9 | .seal => 10 | .confirm => 11 | .short => 12 | .returned => 13
  | .doorOpen => 14 | .doorClose => 15 | .sealBroken => 16 | .doorOverlong => 17 | .unexplainedStep => 18
  | .nodeLost => 19 | .nodeBack => 20 | .timeJump => 21 | .summary => 22

/-- R160: every kind is of class Key except Summary. -/
def EntryKind.isKey : EntryKind → Bool
  | .summary => false
  | _ => true

/-- R197: a scan's action byte. -/
def scanActionOf (x : Byte) : Option ScanAction :=
  if x = 1 then some .load else if x = 2 then some .unload else if x = 3 then some .confirm
  else if x = 4 then some .refuse else none

/-- R2: a node kind byte. -/
def nodeKindOf (x : Byte) : Option NodeKind := if x = 0 then some .probe else if x = 1 then some .scanner else none

/-- R86: a door mode byte. -/
def doorModeOf (x : Byte) : Option DoorMode :=
  if x = 0 then some .off else if x = 1 then some .contact else if x = 2 then some .seal
  else if x = 3 then some .count else if x = 4 then some .inhibit else none

/-- R86: a polarity byte. -/
def polarityOf (x : Byte) : Option Polarity :=
  if x = 0 then some .highIsOpen else if x = 1 then some .lowIsOpen else none

/-- R197: a trip mode byte. -/
def tripModeOf (x : Byte) : Option TripMode := if x = 0 then some .van else if x = 1 then some .room else none

/-! ### Tables -/

/-- An entry of a table replaced by a function of itself. -/
def upd {α : Type} {n : Nat} (v : Vector α n) (i : Fin n) (f : α → α) : Vector α n := v.set i.val (f (v.get i)) i.isLt

/-- Every entry of a table replaced by a function of itself. -/
def mapV {α β : Type} {n : Nat} (f : α → β) (v : Vector α n) : Vector β n := ⟨⟨v.toList.map f⟩, by simp⟩

/-- The first index, in order, whose entry satisfies a test. -/
def findIndex {α : Type} {n : Nat} (p : α → Bool) (v : Vector α n) : Option (Fin n) :=
  (List.finRange n).find? (fun i => p (v.get i))

/-- How many entries satisfy a test. -/
def countV {α : Type} {n : Nat} (p : α → Bool) (v : Vector α n) : Nat := v.toList.countP p

end Sys2Proof.Machine
end

