-- ==== Sys2Proof/Decode.lean ====
section
/-! DEFINITION. The table of operations gives no row bits, so no word spells a command (log 30). What does spell
commands are the frames of the trunk line: here are their payload layouts (spec 11 R183, R188, R189, R197). -/

namespace Sys2Proof

/-- No row of the table of operations gives bits: no word spells a command. -/
def decodeTableWord (_nbits _w : Nat) : Option Instr := none

open Machine (word half)

/-! ### Table writes (R188, R197) -/

/-- R2: the fields of a node table write. -/
def decodeNode : List Byte → Option NodeFields
  | [en, addr, kind, zone, off, dwell, pol, par, 0, lost] =>
    some { enabled := en, address := addr, kind := kind, zone := zone, offset := off, dwell := dwell, policy := pol,
           policyParam := par, aliasAddr := none, lostLimit := lost }
  | [en, addr, kind, zone, off, dwell, pol, par, 1, al, lost] =>
    some { enabled := en, address := addr, kind := kind, zone := zone, offset := off, dwell := dwell, policy := pol,
           policyParam := par, aliasAddr := some al, lostLimit := lost }
  | _ => none

/-- R197: an optional byte at the head of a list of bytes. -/
def optByte : List Byte → Option (Option Byte × List Byte)
  | p :: rest =>
    if p = 0 then some (none, rest)
    else if p = 1 then
      match rest with
      | x :: rest' => some (some x, rest')
      | [] => none
    else none
  | [] => none

/-- R197: an optional two-byte field at the head of a list of bytes. -/
def optHalf : List Byte → Option (Option Half × List Byte)
  | p :: rest =>
    if p = 0 then some (none, rest)
    else if p = 1 then
      match rest with
      | x :: y :: rest' => some (some (half x y), rest')
      | _ => none
    else none
  | [] => none

/-- R197: an optional four-byte field at the head of a list of bytes. -/
def optWord : List Byte → Option (Option Word × List Byte)
  | p :: rest =>
    if p = 0 then some (none, rest)
    else if p = 1 then
      match rest with
      | x :: y :: z :: w :: rest' => some (some (word x y z w), rest')
      | _ => none
    else none
  | [] => none

/-- R197: the optional fields of a manifest add, which end the payload. -/
def decodeManifestTail (lot : Word) (cls zone : Byte) (bytes : List Byte) : Option ManifestFields :=
  match optByte bytes with
  | none => none
  | some (planned, b1) =>
    match optWord b1 with
    | none => none
    | some (inherited, b2) =>
      match optHalf b2 with
      | some (arrival, []) =>
        some { lot := lot, cls := cls, zone := zone, planned := planned, inherited := inherited, arrival := arrival }
      | _ => none

/-- R197: the fields of a write to the lot view: a manifest add, or a manifest delete. -/
def decodeLotWrite (h : ReqHdr) (index : Byte) : List Byte → Option Instr
  | [l3, l2, l1, l0, 1] => some (.manifestDelete h index (word l3 l2 l1 l0))
  | l3 :: l2 :: l1 :: l0 :: 0 :: cls :: zone :: rest =>
    (decodeManifestTail (word l3 l2 l1 l0) cls zone rest).map (.manifestAdd h index)
  | _ => none

/-- R102: the fields of a beacon table write. -/
def decodeBeacon : List Byte → Option BeaconFields
  | [c1, c0, on, off, n, 0] => some { causes := half c1 c0, onTime := on, offTime := off, count := n, inhibit := none }
  | [c1, c0, on, off, n, 1, d, l] =>
    some { causes := half c1 c0, onTime := on, offTime := off, count := n, inhibit := some (d, l) }
  | _ => none

/-- R188: the write that a table, an index and field bytes spell; none is refused by the trunk port. -/
def decodeFields (h : ReqHdr) (table : Nat) (index : Byte) (fields : List Byte) : Option Instr :=
  match table with
  | 1 => (decodeNode fields).map (.nodeTableWrite h index)
  | 3 =>
    (match fields with
     | [a, b] => some (.lineSettingsWrite h index { roundFloor := a, replyWindow := b })
     | _ => none)
  | 4 =>
    (match fields with
     | [en, s1, s0, t] => some (.zoneTableWrite h index { enabled := en, staleness := half s1 s0, step := t })
     | _ => none)
  | 6 =>
    (match fields with
     | [a1, a0, t1, t0, lag, w3, w2, w1, w0, h3, h2, h1, h0, k] =>
       some (.classTableWrite h index
         { tw := half a1 a0, ts := half t1 t0, lag := lag, watch := word w3 w2 w1 w0, hold := word h3 h2 h1 h0, shock := k })
     | _ => none)
  | 7 =>
    (match fields with
     | [p, n, l3, l2, l1, l0] =>
       some (.engineSettingsWrite h index { period := p, interval := n, lastUpdate := word l3 l2 l1 l0 })
     | _ => none)
  | 8 => decodeLotWrite h index fields
  | 9 =>
    (match fields with
     | [m, p, d, z1, z0, r1, r0, a1, a0] =>
       some (.doorTableWrite h index
         { mode := m, polarity := p, debounce := d, zones := half z1 z0, recovery := half r1 r0, assumed := half a1 a0 })
     | _ => none)
  | 11 => (decodeBeacon fields).map (.beaconTableWrite h index)
  | 13 =>
    (match fields with
     | [i3, i2, i1, i0, d, b1, b0, s1, s0, v] =>
       some (.stopTableWrite h index
         { stopId := word i3 i2 i1 i0, doors := d, budget := half b1 b0, settle := half s1 s0, visited := v })
     | _ => none)
  | 14 => (match fields with | [w] => some (.scanSettingsWrite h index w) | _ => none)
  | 16 => (match fields with | [w1, w0] => some (.proofSettingsWrite h index (half w1 w0)) | _ => none)
  | 18 => (match fields with | [w1, w0] => some (.claimSettingsWrite h index (half w1 w0)) | _ => none)
  | 20 => (match fields with | [k1, k0] => some (.eventSettingsWrite h index (half k1 k0)) | _ => none)
  | _ => none

/-- R188: the write that the payload of an MG_WRITE spells. -/
def decodeWrite (h : ReqHdr) : List Byte → Option Instr
  | table :: index :: fields => decodeFields h table.toNat index fields
  | _ => none

/-! ### Commands (R189, R197) -/

/-- R197: the optional fields of TRIP_OPEN, which end the payload. -/
def decodeTripTail (id : Word) (mode : Byte) (sealWord : Word) (bytes : List Byte) : Option TripOpenParams :=
  match optByte bytes with
  | none => none
  | some (retention, rest) =>
    match optByte rest with
    | some (stops, []) =>
      some { tripId := id, mode := mode, sealWord := sealWord, retention := retention, stopCount := stops }
    | _ => none

/-- R189, R197: the command that a number and parameter bytes spell. -/
def decodeParams (h : ReqHdr) (command : Nat) (params : List Byte) : Option Instr :=
  match command with
  | 1 =>
    (match params with
     | i3 :: i2 :: i1 :: i0 :: m :: w3 :: w2 :: w1 :: w0 :: rest =>
       (decodeTripTail (word i3 i2 i1 i0) m (word w3 w2 w1 w0) rest).map (.tripOpen h)
     | _ => none)
  | 2 => (match params with | [] => some (.depart h) | _ => none)
  | 3 => (match params with | [k] => some (.arrive h k) | _ => none)
  | 4 => (match params with | [] => some (.tripClose h) | _ => none)
  | 5 => (match params with | [l3, l2, l1, l0, z] => some (.moveLot h (word l3 l2 l1 l0) z) | _ => none)
  | 6 => (match params with | [d] => some (.armSeal h d) | _ => none)
  | 7 => (match params with | [b] => some (.beaconClear h b) | _ => none)
  | 8 => (match params with | [c3, c2, c1, c0] => some (.timeSet h (word c3 c2 c1 c0)) | _ => none)
  | 9 => (match params with | [k1, k0] => some (.eventClear h (half k1 k0)) | _ => none)
  | 10 => (match params with | [a] => some (.setAddress h a) | _ => none)
  | 11 => (match params with | [] => some (.resetLink h) | _ => none)
  | 12 => (match params with | [] => some (.resetFull h) | _ => none)
  | _ => none

/-- R189: the command that the payload of an MG_CMD spells. -/
def decodeCommand (h : ReqHdr) : List Byte → Option Instr
  | command :: params => decodeParams h command.toNat params
  | [] => none

/-! ### Inbound trunk frames (R183) -/

/-- R183: the kinds of a request to the trunk address. -/
def isRequestKind (k : Byte) : Bool :=
  [Machine.kMgRead, Machine.kMgWrite, Machine.kMgCmd, Machine.kClaimQ, Machine.kProofAck, Machine.kJrnlReq].contains k

/-- R183: whether a frame, with its Check as received, is discarded and counted. -/
def isFrameError (addr : Byte) (f : Frame) (check : Half) : Bool :=
  decide (check ≠ f.check) || decide (56 < f.payload.length)
    || (!Machine.isAlias f.dest && (decide (f.dest ≠ addr) || !isRequestKind f.kind))

/-- The head of a request frame. -/
def Frame.hdr (f : Frame) : ReqHdr := { dest := f.dest.setWidth 7, src := f.src, tag := f.tag }

/-- R183: the command that an inbound trunk frame spells, under the trunk address as it stands. -/
def trunkCommand (addr : Byte) (f : Frame) (check : Half) : Instr :=
  if isFrameError addr f check then .frameError f check
  else if Machine.isAlias f.dest then .throughFrame f
  else if f.kind = Machine.kMgRead then .mgRead f.hdr f.payload
  else if f.kind = Machine.kMgWrite then (decodeWrite f.hdr f.payload).getD (.mgWriteRefused f.hdr f.payload)
  else if f.kind = Machine.kMgCmd then (decodeCommand f.hdr f.payload).getD (.mgCmdInvalid f.hdr f.payload)
  else if f.kind = Machine.kClaimQ then .claimQ f.hdr f.payload
  else if f.kind = Machine.kProofAck then .proofAck f.hdr f.payload
  else .jrnlReq f.hdr f.payload

end Sys2Proof
end

