-- ==== Sys2Proof/Machine/Ops.lean ====
section
/-! DEFINITION. The shared operations over the outbound queue and the journal export (spec 11 R184 to R187,
spec 09 R165 to R170), the replies, and the plain updates of the state's tables. -/

namespace Sys2Proof.Machine

/-! ### The outbound queue -/

/-- R184: Reply highest, Report lowest. -/
def FrameClass.rank : FrameClass → Nat
  | .reply => 3 | .event => 2 | .journal => 1 | .report => 0

/-- R184: the highest rank present. -/
def highestRank (q : List OutFrame) : Nat := q.foldl (fun m f => max m f.cls.rank) 0

/-- R185: the lowest rank present. -/
def lowestRank (q : List OutFrame) : Nat := q.foldl (fun m f => min m f.cls.rank) 3

/-- R184: the oldest frame of the highest class present. -/
def nextOut (q : List OutFrame) : Option OutFrame := q.find? (fun f => f.cls.rank == highestRank q)

/-- R184: the queue without its next frame. -/
def dropNext (q : List OutFrame) : List OutFrame := q.eraseP (fun f => f.cls.rank == highestRank q)

/-- R185: the most recently admitted frame of the lowest class present. -/
def newestLowest (q : List OutFrame) : Option OutFrame := q.reverse.find? (fun f => f.cls.rank == lowestRank q)

/-- R185: the queue without that frame. -/
def dropNewestLowest (q : List OutFrame) : List OutFrame :=
  (q.reverse.eraseP (fun f => f.cls.rank == lowestRank q)).reverse

/-- R186: a frame as the line carries it, its Source written when its transmission begins. -/
def OutFrame.onLine (f : OutFrame) (addr : Byte) : Frame :=
  { dest := f.dest, src := f.aliasAddr.getD addr, kind := f.kind, tag := f.tag, payload := f.payload }

/-- R187: the next frame of a read is due when the frame before it has begun its transmission. -/
def markBegun (o : FrameOrigin) (r : Option ReadRec) : Option ReadRec :=
  match o, r with
  | .read id, some x => if x.id = id then some { x with due := true } else some x
  | _, r => r

/-- R184: on an idle line the next frame leaves the queue and its transmission begins. -/
def Trunk.begin (t : Trunk) : Trunk :=
  match t.tx with
  | some _ => t
  | none =>
    match nextOut t.queue with
    | none => t
    | some f =>
      { t with queue := dropNext t.queue, tx := some { frame := f.onLine t.addr, origin := f.origin },
               read := markBegun f.origin t.read }

/-- R185: a frame placed at the tail; R184: an empty queue on an idle line sends it at once. -/
def Trunk.place (f : OutFrame) (t : Trunk) : Trunk := Trunk.begin { t with queue := t.queue ++ [f] }

/-- R185: the admission of a frame, with the frame removed for it, if any. -/
def Trunk.enqueue (f : OutFrame) (t : Trunk) : Option (Trunk × Option OutFrame) :=
  if t.reset ≠ .none then none
  else if t.queue.length < Config.queueCap then some (t.place f, none)
  else if lowestRank t.queue < f.cls.rank then
    some (Trunk.place f { t with queue := dropNewestLowest t.queue }, newestLowest t.queue)
  else none

/-! ### The journal export -/

/-- R159: a number's age. -/
def Journal.age (j : Journal) (n : Word) : Word := j.nextSeq - n

/-- R165, R167: the entry held at a place, where a cursor stands. -/
def Journal.entryAt (j : Journal) (place : Nat) : Option JEntry := j.entries.find? (fun e => e.place == place)

/-- R167: the entries held after the one at a place. -/
def Journal.after (j : Journal) (place : Nat) : List JEntry := (j.entries.dropWhile (fun e => e.place != place)).drop 1

/-- R165, R167: the cursor at an entry, or at the next sequence number. -/
def ExportRec.moveTo (j : Journal) (e : Option JEntry) (x : ExportRec) : ExportRec :=
  match e with
  | some e => { x with cursor := e.seq, place := e.place }
  | none => { x with cursor := j.nextSeq, place := j.appended }

/-- R169: a cursor whose entry has been removed moves to the next entry held that is newer, in the order of the journal
(R159), and sets gap pending. -/
def ExportRec.skip (j : Journal) (x : ExportRec) : ExportRec :=
  match j.entryAt x.place with
  | some _ => x
  | none =>
    if x.place = j.appended then x
    else { x.moveTo j (j.entries.find? (fun e => decide (x.place < e.place))) with gap := true }

/-- R168: the removal of an admitted frame returns the export to its state before it. -/
def Export.stepBack (j : Journal) (removed : Option OutFrame) (x : Export) : Export :=
  match removed with
  | some f =>
    match f.origin with
    | .journal epoch before => if epoch = x.epoch then { x with run := some (before.skip j) } else x
    | _ => x
  | none => x

/-- R197: the journal entry as JRNL_DATA carries it. -/
def JEntry.bytes (e : JEntry) (gap : Bool) : List Byte :=
  b4 e.seq ++ b4 e.clock
  ++ b1 ((if e.unsynced then 128 else 0) + (if e.kind.isKey then 0 else 64) + (if e.lot.isSome then 32 else 0)
    + (if e.zone.isSome then 16 else 0) + (if e.zones.isSome then 8 else 0) + (if e.door.isSome then 4 else 0)
    + (if gap then 2 else 0))
  ++ b1 e.kind.number ++ b4 (e.lot.getD 0)
  ++ (match e.zone, e.zones with
      | some z, _ => n2 (zoneNo z)
      | none, some m => b2 (m.setWidth 16)
      | none, none => n2 0)
  ++ b1 ((e.door.map doorNo).getD 0) ++ b4 e.v1 ++ b4 e.v2

/-- R167: whether the frame of the cursor's entry carries Last. -/
def ExportRec.isLast (j : Journal) (x : ExportRec) : Bool :=
  match x.mode with
  | .single => true
  | .block => decide (x.remaining ≤ 1) || (j.after x.place).isEmpty
  | .follow => false

/-- R167, R186: the JRNL_DATA frame that the export offers. -/
def ExportRec.frame (j : Journal) (epoch : Nat) (x : ExportRec) (e : JEntry) : OutFrame :=
  { cls := .journal, dest := x.dest, aliasAddr := none, kind := kJrnlData,
    tag := tagOf (!x.firstSent) (x.isLast j) x.frames, payload := e.bytes x.gap, origin := .journal epoch x }

/-- R167: the export after its frame has been admitted. -/
def ExportRec.advance (j : Journal) (x : ExportRec) (e : JEntry) : Option ExportRec :=
  if x.isLast j then none
  else
    let y := x.moveTo j (j.after x.place).head?
    some { y with firstSent := true, frames := x.frames + 1, gap := decide (y.cursor ≠ e.seq + 1),
                  remaining := if x.mode = .block then x.remaining - 1 else x.remaining }

/-- R167, R168: the export offers the entry at its cursor, and after each admission the next one at once, until
the queue admits no more, the export ends, or no entry stands at the cursor. -/
def offer : Nat → State → State
  | 0, s => s
  | n + 1, s =>
    match s.exporter.run with
    | none => s
    | some x =>
      match s.journal.entryAt x.place with
      | none => s
      | some e =>
        match s.trunk.enqueue (x.frame s.journal s.exporter.epoch e) with
        | none => s
        | some (t, _) =>
          offer n { s with trunk := t, exporter := { s.exporter with run := x.advance s.journal e } }

/-- The most offers one event can bring: each takes a place of the queue, of the line, or of a Report. -/
def offerFuel : Nat := 64

/-! ### Handing frames to the trunk port -/

/-- R185: the admission of a frame, with the export's return when its frame was removed (R168). -/
def admitFrame (f : OutFrame) (s : State) : Option State :=
  match s.trunk.enqueue f with
  | none => none
  | some (t, removed) => some { s with trunk := t, exporter := s.exporter.stepBack s.journal removed }

/-- R185: a frame is handed to the trunk port; after an admission a waiting export offers again (R184, R168).
The answer says whether the frame was admitted. -/
def hand (f : OutFrame) (s : State) : State × Bool :=
  match admitFrame f s with
  | none => (s, false)
  | some s' => (offer offerFuel s', true)

/-- R187, R197: an MG_RSP frame. -/
def rspFrame (to_ : ReplyTo) (code : ReplyCode) (tag : Byte) (endMark : Bool) (body : List Byte)
    (origin : FrameOrigin) : OutFrame :=
  { cls := .reply, dest := to_.dest, aliasAddr := none, kind := kMgRsp, tag := tag,
    payload := [to_.kind, to_.seq] ++ b1 code.number ++ flag endMark ++ body, origin := origin }

/-- R188, R189: a request answered by one MG_RSP. -/
def replyBody (to_ : ReplyTo) (code : ReplyCode) (body : List Byte) (s : State) : State :=
  (hand (rspFrame to_ code tagSingle false body .plain) s).1

/-- R188, R189: a request answered by one MG_RSP with no body. -/
def reply (to_ : ReplyTo) (code : ReplyCode) (s : State) : State := replyBody to_ code [] s

/-- R186, R197: whom the answer to a request goes to. -/
def replyTo (h : ReqHdr) (kind : Byte) : ReplyTo := { dest := h.src, kind := kind, seq := tagSeq h.tag }

/-- R183: the frame error count rises by one, saturating. -/
def countError (s : State) : State := { s with trunk := { s.trunk with errors := satSucc 65535 s.trunk.errors } }

/-- R183: an inbound request is discarded while a RESET Full is pending, discarded and counted when its
destination is not the trunk address, and else taken. -/
def onRequest (h : ReqHdr) (s : State) (taken : State → State) : Answer :=
  .next (if s.trunk.reset ≠ .none then s
         else if h.dest.setWidth 8 = s.trunk.addr then taken s
         else countError s)

/-- R189: a command taken: its effects and its reply code, then its MG_RSP. -/
def answered (h : ReqHdr) (kind : Byte) (r : State × ReplyCode) : State := reply (replyTo h kind) r.2 r.1

/-! ### Plain updates -/

/-- A lot entry changed. -/
def State.modLot (s : State) (i : Fin 96) (f : LotEntry → LotEntry) : State := { s with lots := upd s.lots i f }

/-- A node runtime changed. -/
def State.modNodeRt (s : State) (i : Fin 32) (f : NodeRt → NodeRt) : State :=
  { s with sensor := { s.sensor with rts := upd s.sensor.rts i f } }

/-- A scan memory changed. -/
def State.modMem (s : State) (i : Fin 32) (f : ScanMem → ScanMem) : State :=
  { s with scans := { s.scans with mem := upd s.scans.mem i f } }

/-- A zone runtime changed. -/
def State.modZoneRt (s : State) (z : Fin 12) (f : ZoneRt → ZoneRt) : State :=
  { s with zones := { s.zones with rts := upd s.zones.rts z f } }

/-- A door runtime changed. -/
def State.modDoorRt (s : State) (d : Fin 4) (f : DoorRt → DoorRt) : State :=
  { s with doors := { s.doors with rts := upd s.doors.rts d f } }

/-- The trip record changed. -/
def State.modTrip (s : State) (f : TripRecord → TripRecord) : State :=
  { s with trip := { s.trip with record := f s.trip.record } }

/-- R118: the device clock. -/
abbrev State.clock (s : State) : Clock := s.trip.clock

/-- R62: the entry that a lot id finds; lot id 0 finds none. -/
def findLot (lots : Vector LotEntry 96) (id : Word) : Option (Fin 96) :=
  findIndex (fun l => decide (l.state ≠ .free) && (l.lot == id)) lots

/-- R66: a lot in OnBoard or Handover is in custody. -/
def LotEntry.inCustody (l : LotEntry) : Bool :=
  match l.state with
  | .onBoard | .handover => true
  | _ => false

/-- R109: the current stop index, which names the visit; none when no visit is open. -/
def TripState.stop : TripState → Option (Fin 25)
  | .noTrip => none
  | .loading => some 0
  | .transit => none
  | .atStop k => some k
  | .dock => some 0

/-- R56: the total dose, saturating. -/
def LotEntry.total (l : LotEntry) : Word := satAdd (satAdd l.inherited l.handling.toNat) l.equipment.toNat

end Sys2Proof.Machine
end

