-- ==== Sys2Proof/Machine/Flags.lean ====
section
/-! DEFINITION. The raw flags and their raising (spec 11 R191), the beacons' reaction to a raising (spec 05 R104),
and the clearing of flags (R192, R105). -/

namespace Sys2Proof.Machine

/-- R191 step 1: the raw flag is set, or left set, and the subject recorded. -/
def Trunk.setFlag (k : EventKind) (sub : Subject) (t : Trunk) : Trunk :=
  { t with flags := upd t.flags k.index (fun _ => { raised := true, subject := sub }) }

/-- R102: a time of a beacon entry in reference milliseconds. -/
def beaconMs (units : Nat) : Nat := 50 * units

/-- R104: how one beacon takes a raising of a kind in its cause set. -/
def BeaconEntry.onRaise (e : BeaconEntry) (now : Nat) : Option Running → Option Running
  | none =>
    some { on := true, endsAt := now + beaconMs e.onTime,
           remaining := if e.count = 255 then none else some e.count }
  | some r =>
    match r.remaining with
    | some _ => if e.count = 255 then some r else some { r with remaining := some e.count }
    | none => some r

/-- R104: both beacons take a raising, each on its own. -/
def Beacons.onRaise (b : Beacons) (k : EventKind) (now : Nat) : Beacons :=
  { b with trains := Vector.ofFn fun i : Fin 2 =>
      if (b.entries.get i).causes.getLsbD k.index.val then (b.entries.get i).onRaise now (b.trains.get i)
      else b.trains.get i }

/-- R191, R197: the EVENT frame of a raising. -/
def eventFrame (k : EventKind) (sub : Subject) (clock : Clock) : OutFrame :=
  { cls := .event, dest := 0, aliasAddr := none, kind := kEvent, tag := tagSingle,
    payload := b1 (k.index.val + 1) ++ b4 clock ++ sub.bytes, origin := .plain }

/-- R191: a raising: the flag, its EVENT frame when the report bit is set, and the beacon unit. -/
def raise (k : EventKind) (sub : Subject) (s : State) : State :=
  let s1 := { s with trunk := s.trunk.setFlag k sub }
  let s2 := if s.trunk.reportBits.getLsbD k.index.val then (hand (eventFrame k sub s.clock) s1).1 else s1
  { s2 with beacons := s2.beacons.onRaise k s.ref }

/-- R190: the set of kinds whose raw flag is raised. -/
def raisedSet (flags : Vector EventFlag 13) : KindSet :=
  (List.finRange 13).foldl (fun m i => if (flags.get i).raised then m ||| (1#13 <<< i.val) else m) 0

/-- R192: each named raw flag is lowered and its subject removed. -/
def lowerFlags (kinds : KindSet) (flags : Vector EventFlag 13) : Vector EventFlag 13 :=
  Vector.ofFn fun i : Fin 13 => if kinds.getLsbD i.val then EventFlag.lowered else flags.get i

/-- R105: after a clearing, a continuous train stops when no kind in its cause set has its flag raised. -/
def Beacons.onClear (b : Beacons) (raised : KindSet) : Beacons :=
  { b with trains := Vector.ofFn fun i : Fin 2 =>
      match b.trains.get i with
      | some r =>
        if r.remaining = none ∧ (b.entries.get i).causes &&& raised = 0 then none else some r
      | none => none }

/-- R103, R106: the level of a beacon's output. -/
def Beacons.output (b : Beacons) (doors : Doors) (i : Fin 2) : Bool :=
  match b.trains.get i with
  | none => false
  | some r =>
    r.on && !(match (b.entries.get i).inhibit with
              | none => false
              | some h =>
                decide ((doors.entries.get h.door).mode = .inhibit) && ((doors.rts.get h.door).level == h.high))

end Sys2Proof.Machine
end

