-- ==== Sys2Proof/Machine/ClaimOps.lean ====
section
/-! DEFINITION. The statement builder and the discards of claim slots (spec 10 R172, R176, R177), and the statement
(R179 to R181). -/

namespace Sys2Proof.Machine

/-! ### The walk (R180, R181) -/

/-- What the walk has gathered: items and openings in the order found, the walk's own marks of R181, whether a
Seal entry was found, and whether a cancellation found no open Handover item. -/
structure Walk where
  items      : List Item
  openings   : List Opening
  inCustody  : Bool
  zone       : Option (Fin 12)
  sealFound  : Bool
  cancelLost : Bool
  deriving DecidableEq, Repr

/-- R180: the zone of an entry, or zone 1 where it holds none. -/
def JEntry.zoneOr (e : JEntry) : Fin 12 := e.zone.getD 0

/-- A byte of a value, from its lowest bit. -/
def byteAt (w : Word) (lo : Nat) : Byte := w.extractLsb' lo 8

/-- R180: whether the last Handover item has no cancellation, the list newest first. -/
def openHandover : List Item → Bool
  | [] => false
  | .handover _ _ _ _ _ _ c :: _ => c.isNone
  | _ :: rest => openHandover rest

/-- R180: the cancellation written into the last Handover item, the list newest first. -/
def cancelLast (c : Cancel) : List Item → List Item
  | [] => []
  | .handover k t a p h m none :: rest => .handover k t a p h m (some c) :: rest
  | .handover k t a p h m (some d) :: rest => .handover k t a p h m (some d) :: rest
  | i :: rest => i :: cancelLast c rest

/-- R181: the first DoorClose of a door gives its duration to the openings of that door that have none. -/
def closeOpenings (d : Fin 4) (seconds : Word) (os : List Opening) : List Opening :=
  os.map fun o => if o.door = d ∧ o.duration = none then { o with duration := some seconds } else o

/-- R180, R181: the walk takes an entry that names the lot. A Short entry is an item found, which the statement of a lot
never in custody does not list (R179, log 46). -/
def Walk.own (w : Walk) (e : JEntry) : Walk :=
  match e.kind with
  | .load =>
    { w with items := w.items ++ [.load e.clock e.zoneOr (e.v1.setWidth 16) (byteAt e.v2 0)],
             inCustody := true, zone := e.zone }
  | .move => { w with items := w.items ++ [.move e.clock (BitVec.ofNat 8 (zoneNo e.zoneOr)) (byteAt e.v1 0)], zone := e.zone }
  | .handoverOpen =>
    { w with items := w.items ++ [.handover e.clock e.v1 (byteAt e.v2 24) (byteAt e.v2 16)
                                   (e.v2.getLsbD 1) (e.v2.getLsbD 0) none] }
  | .handoverCancel =>
    if openHandover w.items.reverse then
      { w with items := (cancelLast { clock := e.clock, reason := byteAt e.v1 0, scanner := byteAt e.v2 0 }
                          w.items.reverse).reverse }
    else { w with cancelLost := true }
  | .seal => { w with sealFound := true, inCustody := false }
  | .returned => { w with items := w.items ++ [.ret e.clock e.zoneOr (byteAt e.v1 0) e.v2], inCustody := false }
  | .short => { w with items := w.items ++ [.short e.clock e.zoneOr (byteAt e.v1 0)], inCustody := false }
  | _ => w

/-- R181: the walk takes an entry of a door. -/
def Walk.door (w : Walk) (e : JEntry) : Walk :=
  match e.kind, e.door with
  | .doorOpen, some d =>
    match w.zone, e.zones with
    | some z, some m =>
      if w.inCustody ∧ m.getLsbD z.val then
        { w with openings := w.openings ++ [{ door := d, clock := e.clock, authorized := decide (e.v1 ≠ 0), duration := none }] }
      else w
    | _, _ => w
  | .doorClose, some d => { w with openings := closeOpenings d e.v1 w.openings }
  | _, _ => w

/-- R176, R180, R181: the walk takes one entry for a lot. -/
def Walk.take (lot : Word) (w : Walk) (e : JEntry) : Walk :=
  if e.lot = some lot then w.own e else w.door e

/-- R176: the walk over the entries taken, in order. -/
def walkOver (lot : Word) (es : List JEntry) : Walk :=
  es.foldl (Walk.take lot)
    { items := [], openings := [], inCustody := false, zone := none, sealFound := false, cancelLost := false }

/-! ### The statement (R179) -/

/-- R180: at most 24 items: the first 23 and the last one found. -/
def keptItems (items : List Item) : List Item :=
  if items.length ≤ 24 then items else items.take 23 ++ items.drop (items.length - 1)

/-- R180: the clock of the last Short item, or 0. -/
def lastShortClock (items : List Item) : Clock :=
  items.foldl (fun c i => match i with | .short k _ _ => k | _ => c) 0

/-- R180: the clock of the last Return item, or 0. -/
def lastReturnClock (items : List Item) : Clock :=
  items.foldl (fun c i => match i with | .ret k _ _ _ => k | _ => c) 0

/-- A Load item. -/
def Item.isLoad : Item → Bool | .load .. => true | _ => false
/-- A Short item. -/
def Item.isShort : Item → Bool | .short .. => true | _ => false
/-- A Return item. -/
def Item.isReturn : Item → Bool | .ret .. => true | _ => false

/-- R180: when the statement is Incomplete. -/
def incomplete (l : LotEntry) (w : Walk) : Bool :=
  (l.loadClock.isSome && !w.items.any Item.isLoad)
  || (decide (l.state = .short) && !w.items.any Item.isShort)
  || (decide (l.state = .returned) && !w.items.any Item.isReturn)
  || (decide (l.state = .delivered) && !w.sealFound)
  || w.cancelLost

/-- R180: the end of the custody, from the lot's state at the completion. -/
def endOf (clock : Clock) (l : LotEntry) (items : List Item) : End :=
  match l.state, l.proof with
  | .delivered, some p => .sealed p.cause p.sealClock
  | .short, _ => .short (lastShortClock items)
  | .returned, _ => .returned (lastReturnClock items)
  | _, _ => .inCustody clock

/-- R179: a Short lot that was never in custody: it has no load clock. -/
def LotEntry.neverInCustody (l : LotEntry) : Bool := decide (l.state = .short) && l.loadClock.isNone

/-- R179: the custody segments that a statement lists, and the number passed over: R180's, but none for a Short lot that
was never in custody; its end and Incomplete go by the items found all the same (log 46). -/
def segments (l : LotEntry) (items : List Item) : List Item × Nat :=
  if l.neverInCustody then ([], 0) else (keptItems items, items.length - 24)

/-- R179: the statement of a lot, at a build completion. -/
def buildStatement (clock : Clock) (unsynced : Bool) (x : Slot) (l : LotEntry) (es : List JEntry) : Statement :=
  let w := walkOver x.lot es
  { lot := x.lot, tag := x.tag, clock := clock, unsynced := unsynced, reach := x.reach,
    oldest := es.head?.map JEntry.seq, cls := l.cls, state := l.state, zone := l.zone,
    inherited := shown l.inherited, handling := shown l.handling, equipment := shown l.equipment,
    total := shown l.total, peak := l.peak, peakClock := l.peakClock, cycles := l.cycles, grade := l.grade,
    blind := l.blind, unconfirmed := l.unconfirmed, gaps := l.gaps, refusals := l.refusals,
    loadClock := l.loadClock, proof := l.proof.map (fun p => { number := p.number, cause := p.cause, check := p.check }),
    incomplete := incomplete l w, items := (segments l w.items).1, passedOver := (segments l w.items).2,
    ending := endOf clock l w.items, openings := w.openings.take 16, beyond := w.openings.length - 16 }

/-! ### Slots and the builder (R172, R176, R177) -/

/-- The slot in use that holds a lot id (R172: at most one). -/
def Claims.slotFor (c : Claims) (lot : Word) : Option (Fin 4) :=
  findIndex (fun x => match x with | some y => y.lot == lot | none => false) c.slots

/-- R177: a slot becomes free; a build of it is abandoned. -/
def Claims.release (c : Claims) (k : Fin 4) : Claims :=
  { c with slots := upd c.slots k (fun _ => none), order := c.order.filter (fun i => i != k),
           builder := match c.builder with
             | some b => if b.slot = k then none else some b
             | none => none }

/-- R176: the oldest Queued slot in the opening order. -/
def Claims.oldestQueued (c : Claims) : Option (Fin 4) :=
  c.order.find? (fun k => match c.slots.get k with | some x => decide (x.state = .queued) | none => false)

/-- R176: the builder takes a slot: it becomes Building, its reach is set and the walk begins. -/
def Claims.start (c : Claims) (k : Fin 4) (now : Nat) (entries : List JEntry) : Claims :=
  { c with slots := upd c.slots k (fun o => o.map fun x => { x with state := .building, reach := entries.getLast?.map JEntry.seq }),
           builder := some { slot := k, began := now, taken := [], left := entries } }

/-- R176: the build completion of a slot: Ready with its statement, or discarded. -/
def Claims.complete (c : Claims) (b : Build) (clock : Clock) (unsynced : Bool) (lots : Vector LotEntry 96) : Claims :=
  match c.slots.get b.slot with
  | none => { c with builder := none }
  | some x =>
    match findLot lots x.lot with
    | none => c.release b.slot
    | some i =>
      match (lots.get i).state with
      | .onBoard | .delivered | .short | .returned =>
        { c with builder := none,
                 slots := upd c.slots b.slot (fun _ => some { x with
                   state := .ready, deadline := some (deadline clock c.window),
                   statement := some (buildStatement clock unsynced x (lots.get i) (b.taken ++ b.left)) }) }
      | _ => c.release b.slot

/-- R176: an idle builder takes the oldest Queued slot; with no reach its walk completes when it begins, and the
builder goes on to the next slot. -/
def Claims.run : Nat → Claims → Nat → Clock → Bool → Vector LotEntry 96 → List JEntry → Claims
  | 0, c, _, _, _, _, _ => c
  | n + 1, c, now, clock, unsynced, lots, entries =>
    match c.builder with
    | some _ => c
    | none =>
      match c.oldestQueued with
      | none => c
      | some k =>
        let c' := c.start k now entries
        if entries.isEmpty then
          Claims.run n (c'.complete { slot := k, began := now, taken := [], left := [] } clock unsynced lots)
            now clock unsynced lots entries
        else c'

/-- R176: the builder goes on, in the state of the part; it can take each of the four slots once. -/
def runBuilder (s : State) : State :=
  { s with claims := s.claims.run 5 s.ref s.clock s.trip.unsynced s.lots s.journal.entries }

/-- R177: a slot is discarded, and the builder takes the oldest Queued slot when it has become idle. -/
def discardSlot (k : Fin 4) (s : State) : State := runBuilder { s with claims := s.claims.release k }

/-- R177: the slot for a lot is discarded, if there is one. -/
def discardFor (lot : Word) (s : State) : State :=
  match s.claims.slotFor lot with
  | some k => discardSlot k s
  | none => s

/-- R176, log 9: before an entry is removed from the journal the walk has taken a free number of further entries;
an entry it has not taken by then is not taken. -/
def Build.onEvict (b : Build) (e : JEntry) (advance : Nat) : Build :=
  let taken := b.taken ++ b.left.take advance
  let left := b.left.drop advance
  { b with taken := taken, left := if e ∈ taken then left else left.erase e }

end Sys2Proof.Machine
end

