-- ==== Sys2Proof/Machine/JournalOps.lean ====
section
/-! DEFINITION. Appending to the custody journal: room, the pin horizon, refusal (spec 09 R161 to R164, R169). -/

namespace Sys2Proof.Machine

/-- R161: what a block hands the journal; a value left blank is 0 (R160). -/
structure Draft where
  kind  : EntryKind
  lot   : Option Word := none
  zone  : Option (Fin 12) := none
  zones : Option ZoneSet := none
  door  : Option (Fin 4) := none
  v1    : Word := 0
  v2    : Word := 0
  deriving DecidableEq, Repr

/-- R162: the lots whose load clocks fix the pin horizon, and R164: those whose gap counts a refusal raises. -/
def LotEntry.pins (l : LotEntry) : Bool :=
  match l.state with
  | .onBoard | .handover | .delivered | .returned => true
  | _ => false

/-- R162: the earlier of a horizon and a lot's load clock. -/
def earlier (h : Option Clock) (l : LotEntry) : Option Clock :=
  if l.pins then
    match l.loadClock, h with
    | some c, some d => if c.toNat < d.toNat then some c else some d
    | some c, none => some c
    | none, h => h
  else h

/-- R162: the pin horizon of the lot table. -/
def pinHorizon (lots : Vector LotEntry 96) : Option Clock := lots.toList.foldl earlier none

/-- R162: a Key entry whose clock is at or after the pin horizon is pinned. -/
def JEntry.pinned (horizon : Option Clock) (e : JEntry) : Bool :=
  e.kind.isKey && (match horizon with
                   | some h => decide (h.toNat ≤ e.clock.toNat)
                   | none => false)

/-- R163: the entry that makes room: the oldest Summary entry, else the oldest Key entry that is not pinned. -/
def removable (horizon : Option Clock) (es : List JEntry) : Option JEntry :=
  match es.find? (fun e => !e.kind.isKey) with
  | some e => some e
  | none => es.find? (fun e => !e.pinned horizon)

/-- R163: an entry removed from wherever it stands; the others keep their order and their numbers. -/
def Journal.remove (j : Journal) (e : JEntry) : Journal := { j with entries := j.entries.erase e }

/-- R163, R169, R176: the removal of an entry, with the skip of a running export whose cursor stood on it and what
the statement builder's walk then lacks. -/
def evict (e : JEntry) (s : State) : State :=
  let j := s.journal.remove e
  { s with journal := j,
           exporter := { s.exporter with run := s.exporter.run.map (fun x => x.skip j) },
           claims := { s.claims with builder := s.claims.builder.map (fun b => b.onEvict e (Config.walkAdvance s.free)) },
           free := if s.claims.builder.isSome then s.free + 1 else s.free }

/-- R159, R161: the entry that an append places. -/
def entryOf (d : Draft) (s : State) : JEntry :=
  { place := s.journal.appended, seq := s.journal.nextSeq, clock := s.clock, unsynced := s.trip.unsynced, kind := d.kind, lot := d.lot,
    zone := d.zone, zones := d.zones, door := d.door, v1 := d.v1, v2 := d.v2 }

/-- R161: the entry at the tail with the next sequence number. -/
def Journal.push (j : Journal) (e : JEntry) : Journal :=
  { entries := j.entries ++ [e], nextSeq := j.nextSeq + 1, appended := j.appended + 1 }

/-- R161 step 1, R177: a Key entry that names a lot discards the slot for that lot. -/
def claimsOnEntry (e : JEntry) (s : State) : State :=
  match e.lot with
  | some l => if e.kind.isKey then discardFor l s else s
  | none => s

/-- R161 step 2, R167: the new entry is offered when it stands at the cursor of the export. -/
def exportOnEntry (e : JEntry) (s : State) : State :=
  match s.exporter.run with
  | some x => if x.place = e.place then offer offerFuel s else s
  | none => s

/-- R161: an entry placed at the tail and handed on. -/
def placeEntry (d : Draft) (s : State) : State :=
  let e := entryOf d s
  exportOnEntry e (claimsOnEntry e { s with journal := s.journal.push e })

/-- R164: a refused append raises the gap counts and JournalFull. -/
def refuseAppend (s : State) : State :=
  raise .journalFull .none
    { s with lots := mapV (fun l => if l.pins then { l with gaps := satSucc 65535 l.gaps } else l) s.lots }

/-- R161: an append, taken whole. -/
def append (d : Draft) (s : State) : State :=
  if s.journal.entries.length < Config.journalCap then placeEntry d s
  else
    match removable (pinHorizon s.lots) s.journal.entries with
    | some e => placeEntry d (evict e s)
    | none => refuseAppend s

end Sys2Proof.Machine
end

