-- ==== Sys2Proof/Machine/SealOps.lean ====
section
/-! DEFINITION. Sealing a handover: proof number, proof record, check word, proof list, PROOF frame
(spec 08 R145 to R153; spec 07 R138 to R141). -/

namespace Sys2Proof.Machine

/-- R146: whether an occupied lot entry holds a proof of the trip with a number. -/
def numberTaken (lots : Vector LotEntry 96) (tripId : Word) (n : Nat) : Bool :=
  lots.toList.any fun l => decide (l.state ≠ .free) && (match l.proof with
    | some p => decide (p.record.tripId = tripId) && decide (p.record.number = n)
    | none => false)

/-- R146 step 1: numbers that lots of the same trip id hold are passed over, below 65,535. Each lot can hold one
number, so 96 passes suffice. -/
def freeNumber (lots : Vector LotEntry 96) (tripId : Word) : Nat → Nat → Nat
  | 0, n => n
  | k + 1, n => if n < 65535 ∧ numberTaken lots tripId n then freeNumber lots tripId k (n + 1) else n

/-- R146: the proof number of the next seal. -/
def takeNumber (lots : Vector LotEntry 96) (r : TripRecord) : Nat := freeNumber lots r.tripId 96 r.nextProof

/-- R147, R197: the bytes of a proof record, in layout order; the layout has no byte for the refusal count (log 50). -/
def ProofRecord.bytes (r : ProofRecord) : List Byte :=
  b4 r.tripId ++ n2 r.number ++ b4 r.lot ++ b1 r.cls.val ++ b4 r.stopId ++ [r.scanner] ++ b4 r.token
  ++ b4 r.scanClock ++ b4 r.sealClock ++ b1 r.cause.number ++ b1 r.grade.number ++ n4 r.total ++ n4 r.handling
  ++ n4 r.equipment ++ n4 r.inherited ++ temp2 r.peak ++ b1 r.cycles
  ++ b1 ((if r.blind then 1 else 0) + (if r.gap then 2 else 0) + (if r.hold then 4 else 0)
    + (if r.misdrop then 8 else 0) + (if r.unsynced then 16 else 0))

/-- R148: the check word of a proof record, keyed by the trip's seal word. -/
def ProofRecord.check (r : ProofRecord) (sealWord : Word) : Word := crc32 sealWord r.bytes

/-- R147, R65: the proof record of a seal. It carries the marks of R65: Blind, the gap count as Gap (R164), and the refusal
count; Unconfirmed is never set at a seal (R147). -/
def buildRecord (trip : Trip) (l : LotEntry) (h : Handover) (number : Nat) (cause : SealCause) : ProofRecord :=
  { tripId := trip.record.tripId, number := number, lot := l.lot, cls := l.cls,
    stopId := (trip.stops.get h.stop).stopId, scanner := h.scanner, token := h.token, scanClock := h.clock,
    sealClock := trip.clock, cause := cause, grade := l.grade, total := shown l.total,
    handling := shown l.handling, equipment := shown l.equipment, inherited := shown l.inherited, peak := l.peak,
    cycles := l.cycles, blind := l.blind, gap := decide (l.gaps ≠ 0), hold := h.hold, misdrop := h.misdrop,
    unsynced := trip.unsynced, refusals := l.refusals }

/-- R81: a retention deadline, from the trip's retention hours. -/
def retentionDeadline (trip : Trip) : Clock := deadline trip.clock (trip.record.retention * 3600)

/-- R150, R197: the PROOF frame. -/
def proofFrame (r : ProofRecord) (check : Word) : OutFrame :=
  { cls := .reply, dest := 0, aliasAddr := none, kind := kProof, tag := tagSingle, payload := r.bytes ++ b4 check,
    origin := .plain }

/-- R153: a lot is marked Unconfirmed, and ProofUnconfirmed is raised for it. -/
def markUnconfirmed (p : ProofItem) (s : State) : State :=
  raise .proofUnconfirmed (.lot p.lot) (s.modLot p.index (fun l => { l with unconfirmed := true }))

/-- R152: a proof added at the tail; a full list first loses its head, whose lot is marked Unconfirmed. -/
def addProof (p : ProofItem) (s : State) : State :=
  let s' :=
    if s.proofs.list.length < Config.proofCap then s
    else
      match s.proofs.list with
      | [] => s
      | old :: rest => markUnconfirmed old { s with proofs := { s.proofs with list := rest } }
  { s' with proofs := { s'.proofs with list := s'.proofs.list ++ [p] } }

/-- R149: a lot entry as a seal writes it. -/
def LotEntry.sealed (l : LotEntry) (p : ProofFields) (retention : Clock) : LotEntry :=
  { l with state := .delivered, handover := none, proof := some p, retention := some retention }

/-- R141, R145: the seal of a lot's handover, its seven steps in order. A lot with no open handover is left
as it stands. -/
def sealLot (cause : SealCause) (i : Fin 96) (s : State) : State :=
  let l := s.lots.get i
  match l.state, l.handover with
  | .handover, some h =>
    let n := takeNumber s.lots s.trip.record
    let r := buildRecord s.trip l h n cause
    let check := r.check s.trip.record.sealWord
    let p : ProofFields := { number := n, sealClock := s.clock, cause := cause, check := check, record := r }
    let s1 := (s.modTrip (fun t => { t with nextProof := min 65535 (n + 1) })).modLot i
                (fun l => l.sealed p (retentionDeadline s.trip))
    let s2 := append { kind := .seal, lot := some l.lot, zone := some l.zone, v1 := natWord n, v2 := check } s1
    let s3 := addProof { index := i, lot := l.lot, number := n, check := check,
                         ackBy := deadline s.clock s.proofs.window } s2
    (hand (proofFrame r check) s3).1
  | _, _ => s

/-- R138, R140: every lot in Handover that a test picks is sealed, in lot table index order. -/
def sealLots (cause : SealCause) (pick : LotEntry → Bool) (s : State) : State :=
  (List.finRange 96).foldl (fun s i => if pick (s.lots.get i) then sealLot cause i s else s) s

/-- R138: a door's closing seals the lots in Handover whose zone is in its zone set. -/
def sealByDoor (zones : ZoneSet) (s : State) : State :=
  sealLots .doorClose (fun l => zones.getLsbD l.zone.val) s

end Sys2Proof.Machine
end

