-- ==== Sys2Proof/Machine/DoorOps.lean ====
section
/-! DEFINITION. Door states, openings, closings, edges and visits (spec 05 R87 to R99). -/

namespace Sys2Proof.Machine

/-- R97: whether a door serves as open. -/
def serves (clock : Clock) (e : DoorEntry) (r : DoorRt) : Bool :=
  (decide (e.mode = .contact) || decide (e.mode = .count)) &&
  (match r.state with
   | .opened => true
   | .closed => (match r.recoveryAt with | some d => !reached clock d | none => false)
   | _ => false)

/-- R34, R52: whether a door whose zone set holds the zone serves as open. -/
def zoneServed (clock : Clock) (d : Doors) (z : Fin 12) : Bool :=
  (List.finRange 4).any fun i => (d.entries.get i).zones.getLsbD z.val && serves clock (d.entries.get i) (d.rts.get i)

/-- R98: the whole seconds of the current open stretch that lie within the visit. -/
def stretchInVisit (now visitStart : Nat) (r : DoorRt) : Nat :=
  match r.stretchAt with
  | some t => (now - max t visitStart) / 1000
  | none => 0

/-- R98: the visit open seconds as judged now. -/
def visitSeconds (s : State) (d : Fin 4) : Nat :=
  let r := s.doors.rts.get d
  r.openSeconds.toNat +
    (if r.state = .opened ∧ s.trip.record.state.stop.isSome then stretchInVisit s.ref s.trip.visitStart r else 0)

/-- R94 step 2: whether an opening is authorized. -/
def authorized (trip : Trip) (d : Fin 4) : Bool :=
  match trip.record.state with
  | .loading | .dock => true
  | .atStop k => (trip.stops.get k).doors.getLsbD d.val
  | .transit | .noTrip => false

/-- R94 steps 1 and 3: the runtime of a door at an opening. -/
def DoorRt.opening (r : DoorRt) (clock : Clock) (now : Nat) (inVisit : Bool) : DoorRt :=
  { r with state := .opened, lastOpen := some clock,
           openSince := if r.state = .opened then r.openSince else some clock,
           stretchAt := if r.state = .opened then r.stretchAt else some now,
           openings := if inVisit then satSucc 65535 r.openings else r.openings }

/-- R94: an opening of a door. -/
def openDoor (d : Fin 4) (s : State) : State :=
  let ok := authorized s.trip d
  let stop := s.trip.record.state.stop
  let s1 := s.modDoorRt d (fun r => r.opening s.clock s.ref stop.isSome)
  let s2 := append { kind := .doorOpen, zones := some (s.doors.entries.get d).zones, door := some d,
                     v1 := if ok then 1 else 0, v2 := natWord ((stop.map Fin.val).getD 255) } s1
  if ok then s2 else raise .doorUnauthorized (.door d) s2

/-- R95: the duration of the open stretch, in whole seconds. -/
def stretchSeconds (now : Nat) (r : DoorRt) : Nat :=
  match r.stretchAt with
  | some t => (now - t) / 1000
  | none => 0

/-- R95 steps 1, 2 and 4: the runtime of a door at a closing, with the recovery window of its entry. -/
def DoorRt.closing (r : DoorRt) (clock : Clock) (recovery : Nat) (visit : Nat) : DoorRt :=
  { r with state := .closed, lastClose := some clock, recoveryAt := some (deadline clock recovery),
           openSeconds := countWord (r.openSeconds.toNat + visit), openSince := none, stretchAt := none,
           openUntil := none }

/-- R95: a closing of a door. -/
def closeDoor (d : Fin 4) (s : State) : State :=
  let e := s.doors.entries.get d
  let r := s.doors.rts.get d
  let within := if s.trip.record.state.stop.isSome then stretchInVisit s.ref s.trip.visitStart r else 0
  let s1 := append { kind := .doorClose, zones := some e.zones, door := some d,
                     v1 := countWord (stretchSeconds s.ref r), v2 := r.openSince.getD 0 }
              (s.modDoorRt d (fun r => r.closing s.clock e.recovery within))
  sealByDoor e.zones s1

/-- R88: whether a level shows open under a polarity. -/
def Polarity.showsOpen : Polarity → Bool → Bool
  | .highIsOpen, level => level
  | .lowIsOpen, level => !level

/-- R88, R101: a Contact door's state judged from its debounced level. -/
def judgeContact (d : Fin 4) (s : State) : State :=
  let r := s.doors.rts.get d
  if (s.doors.entries.get d).polarity.showsOpen r.level then
    (if r.state = .opened then s else openDoor d s)
  else
    (if r.state = .opened then closeDoor d s else s)

/-- R90: the first edge of an Armed seal breaks it. -/
def breakSeal (d : Fin 4) (s : State) : State :=
  let r := s.doors.rts.get d
  let s1 := raise .sealBroken (.door d) (s.modDoorRt d (fun r => { r with state := .broken }))
  append { kind := .sealBroken, zones := some (s.doors.entries.get d).zones, door := some d,
           v1 := if r.armedLevel then 1 else 0, v2 := r.armingClock } s1

/-- R87: a line's timed change becomes the debounced level, an edge, which acts under the door's mode
(R88 to R90, R92). -/
def edge (d : Fin 4) (s : State) : State :=
  let r := s.doors.rts.get d
  let e := s.doors.entries.get d
  let s1 := s.modDoorRt d (fun r => { r with level := r.line, changedAt := none })
  match e.mode with
  | .contact => judgeContact d s1
  | .count =>
    if r.line then
      (openDoor d s1).modDoorRt d (fun x => { x with openUntil := some (deadline s.clock e.assumed) })
    else s1
  | .seal => if r.state = .armed then breakSeal d s1 else s1
  | .inhibit | .off => s1

/-- R87: whether the change being timed has held for the entry's debounce time. -/
def debounceHeld (s : State) (d : Fin 4) : Bool :=
  match (s.doors.rts.get d).changedAt with
  | some t => decide (t + (s.doors.entries.get d).debounce ≤ s.ref)
  | none => false

/-- R87: the change being timed acts when it has held for the debounce time. -/
def settleLine (d : Fin 4) (s : State) : State := if debounceHeld s d then edge d s else s

/-- R98: the per-visit runtime of every door is reset for a visit that begins. -/
def beginVisit (k : Fin 25) (s : State) : State :=
  { s with doors := { s.doors with rts := mapV (fun r => { r with visit := some k, openings := 0, openSeconds := 0, overlong := false }) s.doors.rts },
           trip := { s.trip with visitStart := s.ref } }

/-- R98: the visit of every door ends; the open stretches count up to this moment. -/
def endVisit (s : State) : State :=
  { s with doors := { s.doors with rts := mapV (fun r =>
      { r with visit := none,
               openSeconds := if r.state = .opened then
                   countWord (r.openSeconds.toNat + stretchInVisit s.ref s.trip.visitStart r)
                 else r.openSeconds }) s.doors.rts } }

end Sys2Proof.Machine
end

