-- ==== Sys2Proof/Machine/Zones.lean ====
section
/-! DEFINITION. The zone unit (spec 02): readings and reports, zone air at a round end, steps, and the zone table
write. -/

namespace Sys2Proof.Machine

/-! ### Readings (R24 to R25) -/

/-- R24: whether a reading is valid. -/
def readingValid (raw : Half) (quality : Byte) : Bool :=
  quality.getLsbD 0 && decide (-600 ≤ raw.toInt ∧ raw.toInt ≤ 600)

/-- R25: the calibrated value. -/
def calibrated (raw : Half) (offset : Int) : Int := clampInt (-600) 600 (raw.toInt + offset)

/-- R39, R197: the REPORT frame of a reading. -/
def reportFrame (e : NodeEntry) (value : Int) (clock : Clock) (z : ZoneState) : OutFrame :=
  { cls := .report, dest := 0, aliasAddr := none, kind := kReport, tag := tagSingle,
    payload := [e.address] ++ b1 (zoneNo e.zone) ++ temp2 value ++ b4 clock ++ b1 z.number, origin := .plain }

/-- R36: a report; when its frame is admitted its value becomes the last reported value. -/
def report (n : Fin 32) (value : Int) (s : State) : State :=
  let e := s.sensor.nodes.get n
  let r := hand (reportFrame e value s.clock (s.zones.rts.get e.zone).state) s
  if r.2 then r.1.modNodeRt n (fun x => { x with lastReported := some value }) else r.1

/-- R38: whether the Change policy reports a value. -/
def changed (delta : Nat) (value : Int) : Option Int → Bool
  | none => true
  | some last => decide (delta ≤ (value - last).natAbs)

/-- R36 to R38: a valid reading passes through the node's report policy. -/
def applyPolicy (n : Fin 32) (value : Int) (s : State) : State :=
  let rt := s.sensor.rts.get n
  match (s.sensor.nodes.get n).policy with
  | .pass => report n value s
  | .silent => s
  | .everyN k =>
    if rt.everyN + 1 = k then report n value (s.modNodeRt n (fun x => { x with everyN := 0 }))
    else s.modNodeRt n (fun x => { x with everyN := x.everyN + 1 })
  | .change delta => if changed delta value rt.lastReported then report n value s else s

/-- R24, R25: the zone unit takes a reading of a probe. -/
def takeReading (n : Fin 32) (raw : Half) (quality : Byte) (s : State) : State :=
  if readingValid raw quality then
    let v := calibrated raw (s.sensor.nodes.get n).offset
    applyPolicy n v (s.modNodeRt n (fun x => { x with last := some { value := v, clock := s.clock } }))
  else s

/-! ### Zone air (R28 to R34) -/

/-- R29: the age of a stored reading. -/
def age (clock : Clock) (r : Reading) : Nat := clock.toNat - r.clock.toNat

/-- R28, R29: the calibrated value of a node's reading when it counts for a zone and is fresh. -/
def freshValue (s : State) (z : Fin 12) (n : Fin 32) : Option Int :=
  let e := s.sensor.nodes.get n
  if e.enabled ∧ e.kind = .probe ∧ e.zone = z then
    match (s.sensor.rts.get n).last with
    | some r => if age s.clock r < (s.zones.entries.get z).staleness then some r.value else none
    | none => none
  else none

/-- R30: the fresh readings of a zone. -/
def freshValues (s : State) (z : Fin 12) : List Int := (List.finRange 32).filterMap (freshValue s z)

/-- R30: the mean rounded to the nearest tenth, a halfway mean to the warmer. -/
def roundedMean (vs : List Int) : Int := (2 * vs.sum + vs.length) / (2 * vs.length)

/-- R33: whether a new air value makes a step. -/
def isStep (threshold : Nat) (held : Option Int) (new : Int) : Bool :=
  match held with
  | some h => decide (threshold ≤ (new - h).natAbs)
  | none => false

/-- R34: a step that no door explains: raised, and then appended (log 52). -/
def unexplained (z : Fin 12) (held new : Int) (s : State) : State :=
  append { kind := .unexplainedStep, zone := some z, v1 := tempWord held, v2 := tempWord new }
    (raise .unexplainedStep (.zone z) s)

/-- R33, R34: what a step brings. -/
def takeStep (z : Fin 12) (held new : Int) (s : State) : State :=
  let s1 := raise .step (.zone z) (s.modZoneRt z (fun r => { r with stepFlag := true }))
  if zoneServed s.clock s.doors z then s1 else unexplained z held new s1

/-- R30, R31, R33: one enabled zone at a round end. -/
def computeZone (z : Fin 12) (s : State) : State :=
  let rt := s.zones.rts.get z
  match freshValues s z with
  | [] =>
    if rt.state = .live then raise .zoneStale (.zone z) (s.modZoneRt z (fun r => { r with state := .stale })) else s
  | vs =>
    let new := roundedMean vs
    let s1 := s.modZoneRt z (fun r => { r with state := .live, air := some new })
    if isStep (s.zones.entries.get z).step rt.air new then takeStep z (rt.air.getD 0) new s1 else s1

/-- R30: the round end: each enabled zone is computed, in zone order (log 17). -/
def computeZones (s : State) : State :=
  (List.finRange 12).foldl (fun s z => if (s.zones.entries.get z).enabled then computeZone z s else s) s

/-! ### The zone table (R26, R27) -/

/-- R26: whether a zone holds a lot in custody. -/
def zoneInUse (lots : Vector LotEntry 96) (z : Fin 12) : Bool :=
  lots.toList.any fun l => l.inCustody && decide (l.zone = z)

/-- R26, R27: a write to a zone entry, and its answer. NoEntry is judged before BadValue (log 49). -/
def zoneWrite (index : Byte) (f : ZoneFields) (s : State) : State × ReplyCode :=
  match zoneOf index with
  | none => (s, .noEntry)
  | some z =>
    match boolOf f.enabled with
    | none => (s, .badValue)
    | some enabled =>
      if (s.zones.entries.get z).enabled ∧ !enabled ∧ zoneInUse s.lots z then (s, .inUse)
      else
        let stale := clamp 10 600 f.staleness.toNat
        let step := clamp 1 200 f.step.toNat
        ({ s with zones :=
            { entries := s.zones.entries.set z.val { enabled := enabled, staleness := stale, step := step } z.isLt,
              rts := upd s.zones.rts z (fun r => { r with state := .unset, air := none }) } },
         doneOr (decide (stale ≠ f.staleness.toNat ∨ step ≠ f.step.toNat)))

/-- ZONE_TABLE_WRITE (R27). -/
def execZoneTableWrite (h : ReqHdr) (index : Byte) (f : ZoneFields) (s : State) : Answer :=
  onRequest h s fun s => answered h kMgWrite (zoneWrite index f s)

end Sys2Proof.Machine
end

