-- ==== Sys2Proof/Machine/Engine.lean ====
section
/-! DEFINITION. The exposure engine (spec 03): the update event and its seven stages, the class table and the engine
settings. -/

namespace Sys2Proof.Machine

/-! ### Stages 2 to 6 of one lot (R48 to R57) -/

/-- R48: the sum of the terms of D over the fractions 1/2^(i+1) of the mask, each truncated toward zero. -/
def lagChange (mask : BitVec 5) (d : Int) : Int :=
  ([0, 1, 2, 3, 4].map fun i => if mask.getLsbD i then Int.tdiv d (2 ^ (i + 1)) else 0).sum

/-- R48: the new core estimate. -/
def nextCore (mask : BitVec 5) (core air : Int) : Int := if mask = 0 then air else core + lagChange mask (air - core)

/-- R50: the dose increment. -/
def increment (c : ClassEntry) (period : Nat) (core : Int) : Nat :=
  if core ≤ c.tw then 0 else period * ((min core c.ts - c.tw) + 4 * (max 0 (core - c.ts))).toNat

/-- R52: the increment goes to one of the two shares. -/
def LotEntry.addDose (l : LotEntry) (handling : Bool) (inc : Nat) : LotEntry :=
  if handling then { l with handling := satAdd l.handling inc } else { l with equipment := satAdd l.equipment inc }

/-- R54: Soft and shock cycles. -/
def LotEntry.soften (l : LotEntry) (c : ClassEntry) : LotEntry :=
  if c.ts < l.core then { l with soft := true }
  else if c.tw < l.core then l
  else if l.soft then { l with soft := false, cycles := satSucc 255 l.cycles }
  else l

/-- R55, R75: the peak. -/
def LotEntry.raisePeak (l : LotEntry) (clock : Clock) : LotEntry :=
  if l.peak < l.core then { l with peak := l.core, peakClock := clock } else l

/-- R56: the computed grade. -/
def computedGrade (c : ClassEntry) (l : LotEntry) : Grade :=
  if 60 * c.hold ≤ l.total.toNat ∨ (c.shock ≠ 0 ∧ c.shock ≤ l.cycles) then .hold
  else if 60 * c.watch ≤ l.total.toNat then .watch
  else .good

/-- R48 to R55: stages 2 to 5 of a lot. -/
def LotEntry.expose (l : LotEntry) (c : ClassEntry) (period : Nat) (air : Int) (handling : Bool) (clock : Clock) : LotEntry :=
  let core := nextCore c.lag l.core air
  ((({ l with core := core }).addDose handling (increment c period core)).soften c).raisePeak clock

/-- R57: the event of a raised grade. -/
def gradeEvent : Grade → EventKind
  | .hold => .gradeHold
  | _ => .gradeWatch

/-- R57: stage 6. -/
def gradeLot (i : Fin 96) (s : State) : State :=
  let l := s.lots.get i
  let g := computedGrade (s.engine.classes.get l.cls) l
  if l.grade.number < g.number then
    append { kind := .gradeRaise, lot := some l.lot, zone := some l.zone, v1 := natWord g.number, v2 := natWord (shown l.total) }
      (raise (gradeEvent g) (.lot l.lot) (s.modLot i (fun l => { l with grade := g })))
  else s

/-- R197: a Summary's first value: the grade in the upper half, C in the lower. -/
def summaryValue (l : LotEntry) : Word := (BitVec.ofNat 16 l.grade.number) ++ (BitVec.ofInt 16 l.core)

/-- R58: stage 7. -/
def countUpdate (i : Fin 96) (s : State) : State :=
  let s1 := s.modLot i (fun l => { l with updates := l.updates + 1 })
  let l := s1.lots.get i
  if l.updates.toNat % s1.engine.interval = 0 then
    append { kind := .summary, lot := some l.lot, zone := some l.zone, v1 := summaryValue l, v2 := natWord (shown l.total) } s1
  else s1

/-- R46, R47: one lot passes through the seven stages. -/
def updateLot (i : Fin 96) (s : State) : State :=
  let l := s.lots.get i
  let z := s.zones.rts.get l.zone
  let expose (blind : Bool) :=
    gradeLot i (s.modLot i fun l =>
      ({ l with blind := l.blind || blind }).expose (s.engine.classes.get l.cls) s.engine.period (z.air.getD 0)
        (zoneServed s.clock s.doors l.zone) s.clock)
  countUpdate i (match z.state with
    | .live => expose false
    | .stale => expose true
    | .unset => s.modLot i (fun l => { l with blind := true }))

/-- R45: every lot in custody is updated, in lot table index order. -/
def updateLots (s : State) : State :=
  (List.finRange 96).foldl (fun s i => if (s.lots.get i).inCustody then updateLot i s else s) s

/-- R44: whether the update timer has run P seconds. -/
def updateDue (s : State) : Bool := decide (s.engine.timerStart + s.engine.period * 1000 ≤ s.ref)

/-- UPDATE_EVENT (R44, R45). -/
def execUpdateEvent (s : State) : Answer :=
  .next (if updateDue s then
    let s1 := updateLots s
    { s1 with engine := { s1.engine with lastUpdate := s1.clock,
                                         timerStart := s1.engine.timerStart + s1.engine.period * 1000 } }
  else s)

/-! ### Class table and engine settings (R42, R43) -/

/-- R109: a trip is open in every state except NoTrip. -/
def tripIsOpen (s : State) : Bool := decide (s.trip.record.state ≠ .noTrip)

/-- R42: the fields brought to their limits. -/
def ClassFields.clamped (f : ClassFields) : ClassEntry :=
  { tw := clampInt (-300) 0 f.tw.toInt, ts := clampInt (-299) 100 f.ts.toInt, lag := f.lag.setWidth 5,
    watch := clamp 0 999999 f.watch.toNat, hold := clamp 0 999999 f.hold.toNat, shock := clamp 0 15 f.shock.toNat }

/-- R42 row 5: whether a field lay outside its range. -/
def ClassFields.adjusted (f : ClassFields) : Bool :=
  let c := ClassFields.clamped f
  decide (c.tw ≠ f.tw.toInt ∨ c.ts ≠ f.ts.toInt ∨ c.watch ≠ f.watch.toNat ∨ c.hold ≠ f.hold.toNat ∨ c.shock ≠ f.shock.toNat)

/-- R42: a write to a class entry, and its answer. -/
def classWrite (index : Byte) (f : ClassFields) (s : State) : State × ReplyCode :=
  if h : index.toNat < 8 then
    let c := ClassFields.clamped f
    if tripIsOpen s then (s, .locked)
    else if 32 ≤ f.lag.toNat then (s, .badValue)
    else if c.ts ≤ c.tw ∨ c.hold < c.watch then (s, .badValue)
    else ({ s with engine := { s.engine with classes := s.engine.classes.set index.toNat c h } }, doneOr (ClassFields.adjusted f))
  else (s, .noEntry)

/-- CLASS_TABLE_WRITE (R42). -/
def execClassTableWrite (h : ReqHdr) (index : Byte) (f : ClassFields) (s : State) : Answer :=
  onRequest h s fun s => answered h kMgWrite (classWrite index f s)

/-- R43: a write to the engine settings, and its answer; a taken write restarts the update timer (R44). An index that
does not exist is judged before Locked (log 47). -/
def engineWrite (index : Byte) (f : EngineFields) (s : State) : State × ReplyCode :=
  if index ≠ 0 then (s, .noEntry)
  else if tripIsOpen s then (s, .locked)
  else
    let p := nearestPeriod f.period.toNat
    let n := clamp 1 255 f.interval.toNat
    ({ s with engine := { s.engine with period := p, interval := n, timerStart := s.ref } },
     doneOr (decide (p ≠ f.period.toNat ∨ n ≠ f.interval.toNat)))

/-- ENGINE_SETTINGS_WRITE (R43). -/
def execEngineSettingsWrite (h : ReqHdr) (index : Byte) (f : EngineFields) (s : State) : Answer :=
  onRequest h s fun s => answered h kMgWrite (engineWrite index f s)

end Sys2Proof.Machine
end

