-- ==== Sys2Proof/Machine/Lots.lean ====
section
/-! DEFINITION. The lot table (spec 04): manifest add and delete, load, move, the Short and Returned conversions,
retention. -/

namespace Sys2Proof.Machine

/-! ### Manifest (R68 to R73) -/

/-- R68: a temperature of a manifest brought to its nearer limit. -/
def arrivalOf (x : Option Half) : Option Int := x.map fun h => clampInt (-600) 600 h.toInt

/-- R68, R71: whether a planned stop index is given that Room mode does not store. -/
def plannedDropped (s : State) (f : ManifestFields) : Bool :=
  f.planned.isSome && tripIsOpen s && decide (s.trip.record.mode = .room)

/-- R68: what makes a taken add Adjusted, the inherited dose apart. -/
def manifestAdjusted (s : State) (f : ManifestFields) : Bool :=
  plannedDropped s f || (match f.arrival with | some h => decide (h.toInt < -600 ∨ 600 < h.toInt) | none => false)

/-- R69: an inherited dose as held, after clamping. -/
def inheritedOf (x : Option Word) : Word := natWord (60 * (match x with | some d => min 999999 d.toNat | none => 0))

/-- R69: a Free entry occupied. -/
def occupied (f : ManifestFields) (cls : Fin 8) (zone : Fin 12) (planned : Option (Fin 25)) : LotEntry :=
  { LotEntry.free with lot := f.lot, state := .expected, cls := cls, zone := zone, planned := planned,
                       inherited := inheritedOf f.inherited, arrival := arrivalOf f.arrival }

/-- R70: a Returned entry manifested again. -/
def LotEntry.remanifest (l : LotEntry) (f : ManifestFields) (cls : Fin 8) (zone : Fin 12) (planned : Option (Fin 25)) :
    LotEntry :=
  { l with state := .expected, cls := cls, zone := zone, planned := planned, arrival := arrivalOf f.arrival, retention := none }

/-- R68 rows 2 to 6, the fields of row 1 having been judged. -/
def manifestPlace (f : ManifestFields) (cls : Fin 8) (zone : Fin 12) (given : Option (Fin 25)) (s : State) :
    State × ReplyCode :=
  let planned := if plannedDropped s f then none else given
  if s.trip.record.state = .transit then (s, .badState)
  else
    match findLot s.lots f.lot with
    | some i =>
      if (s.lots.get i).state = .returned then
        (s.modLot i (fun l => l.remanifest f cls zone planned), doneOr (manifestAdjusted s f))
      else (s, .duplicate)
    | none =>
      match findIndex (fun l => decide (l.state = .free)) s.lots with
      | none => (s, .tableFull)
      | some i =>
        (s.modLot i (fun _ => occupied f cls zone planned),
         doneOr (manifestAdjusted s f || (match f.inherited with | some d => decide (999999 < d.toNat) | none => false)))

/-- R68: a planned stop index as given; the outer none is one outside 0 to 24. -/
def plannedOf (x : Option Byte) : Option (Option (Fin 25)) :=
  match x with
  | none => some none
  | some b => (stopOf b).map some

/-- R68: a manifest add, and its answer. The index of the write is not used. -/
def manifestAdd (f : ManifestFields) (s : State) : State × ReplyCode :=
  if f.lot = 0 then (s, .badValue)
  else if h : f.cls.toNat < 8 then
    match zoneOf f.zone, plannedOf f.planned with
    | some z, some p => manifestPlace f ⟨f.cls.toNat, h⟩ z p s
    | _, _ => (s, .badValue)
  else (s, .badValue)

/-- MANIFEST_ADD (R68). -/
def execManifestAdd (h : ReqHdr) (_index : Byte) (f : ManifestFields) (s : State) : Answer :=
  onRequest h s fun s => answered h kMgWrite (manifestAdd f s)

/-- R63, R73, R82: an entry becomes Free. -/
def freeLot (i : Fin 96) (s : State) : State := s.modLot i (fun _ => LotEntry.free)

/-- R73: a manifest delete, and its answer. -/
def manifestDelete (lot : Word) (s : State) : State × ReplyCode :=
  match findLot s.lots lot with
  | none => (s, .noEntry)
  | some i => if (s.lots.get i).state = .expected then (freeLot i (discardFor lot s), .done) else (s, .inUse)

/-- MANIFEST_DELETE (R73). -/
def execManifestDelete (h : ReqHdr) (_index : Byte) (lot : Word) (s : State) : Answer :=
  onRequest h s fun s => answered h kMgWrite (manifestDelete lot s)

/-! ### Load (R74, R75) -/

/-- R74: the core estimate of a load, and whether it sets Blind. -/
def loadCore (l : LotEntry) (z : ZoneRt) (c : ClassEntry) : Int × Bool :=
  match l.arrival with
  | some t => (t, false)
  | none =>
    match z.state with
    | .live => (z.air.getD 0, false)
    | .stale => (z.air.getD 0, true)
    | .unset => (c.tw, true)

/-- R74, R75: a lot entry as a load writes it. -/
def LotEntry.loaded (l : LotEntry) (core : Int) (blind : Bool) (clock : Clock) : LotEntry :=
  LotEntry.raisePeak
    { l with state := .onBoard, core := core, blind := l.blind || blind, updates := 0,
             loadClock := some (l.loadClock.getD clock) } clock

/-- R74, R75: a load of a lot by the scan of a scanner. -/
def loadLot (i : Fin 96) (scanner : Byte) (s : State) : State :=
  let l := s.lots.get i
  let c := loadCore l (s.zones.rts.get l.zone) (s.engine.classes.get l.cls)
  append { kind := .load, lot := some l.lot, zone := some l.zone, v1 := tempWord c.1, v2 := scanner.setWidth 32 }
    (s.modLot i (fun l => l.loaded c.1 c.2 s.clock))

/-! ### Moving (R76, R77) -/

/-- R77: a move. -/
def moveTo (i : Fin 96) (zone : Fin 12) (s : State) : State :=
  let l := s.lots.get i
  append { kind := .move, lot := some l.lot, zone := some zone, v1 := natWord (zoneNo l.zone) }
    (s.modLot i (fun l => { l with zone := zone }))

/-- R76: MOVE_LOT, and its answer. -/
def moveLot (lot : Word) (zone : Byte) (s : State) : State × ReplyCode :=
  match zoneOf zone with
  | none => (s, .badValue)
  | some z =>
    match findLot s.lots lot with
    | none => (s, .noEntry)
    | some i =>
      if !(s.lots.get i).inCustody then (s, .badState)
      else if !(s.zones.entries.get z).enabled then (s, .badValue)
      else if z = (s.lots.get i).zone then (s, .done)
      else (moveTo i z s, .done)

/-- MOVE_LOT (R76). -/
def execMoveLot (h : ReqHdr) (lot : Word) (zone : Byte) (s : State) : Answer :=
  onRequest h s fun s => answered h kMgCmd (moveLot lot zone s)

/-! ### Short and Returned (R78, R79) -/

/-- R78: one Expected lot becomes Short. -/
def makeShort (stop : Nat) (i : Fin 96) (s : State) : State :=
  let l := s.lots.get i
  append { kind := .short, lot := some l.lot, zone := some l.zone, v1 := natWord stop }
    (s.modLot i (fun l => { l with state := .short, retention := some (retentionDeadline s.trip) }))

/-- R78: the Short conversion, in index order. -/
def shortAll (stop : Nat) (s : State) : State :=
  (List.finRange 96).foldl (fun s i => if (s.lots.get i).state = .expected then makeShort stop i s else s) s

/-- R79: one OnBoard lot becomes Returned. -/
def makeReturned (i : Fin 96) (s : State) : State :=
  let l := s.lots.get i
  append { kind := .returned, lot := some l.lot, zone := some l.zone, v1 := natWord l.grade.number, v2 := natWord (shown l.total) }
    (s.modLot i (fun l => { l with state := .returned, retention := some (retentionDeadline s.trip) }))

/-- R79: the Returned conversion, in index order. -/
def returnAll (s : State) : State :=
  (List.finRange 96).foldl (fun s i => if (s.lots.get i).state = .onBoard then makeReturned i s else s) s

/-! ### Retention (R82) -/

/-- R82: whether an entry's retention deadline is reached. -/
def retentionDue (s : State) (i : Fin 96) : Bool :=
  match (s.lots.get i).retention with
  | some d => reached s.clock d
  | none => false

/-- R82: the retention expiry of an entry. -/
def expireLot (i : Fin 96) (s : State) : State :=
  let s1 := discardFor (s.lots.get i).lot s
  freeLot i { s1 with proofs := { s1.proofs with list := s1.proofs.list.filter (fun p => p.index != i) } }

/-- RETENTION_EXPIRY (R82). -/
def execRetentionExpiry (i : Fin 96) (s : State) : Answer := .next (if retentionDue s i then expireLot i s else s)

end Sys2Proof.Machine
end

