-- ==== Sys2Proof/Machine/Scans.lean ====
section
/-! DEFINITION. The scan and handover unit (spec 07): scan judging, advisories, opening, cancelling and settling
handovers, the scan settings. -/

namespace Sys2Proof.Machine

/-! ### Handovers (R131, R135, R137) -/

/-- R136: the number of lots in Handover. -/
def handovers (lots : Vector LotEntry 96) : Nat := countV (fun l => decide (l.state = .handover)) lots

/-- R109, R135: the current stop index, 0 where none is named. -/
def currentStop (s : State) : Fin 25 := s.trip.record.state.stop.getD 0

/-- R131: the advisory kinds of a lot at an Unload. -/
def advisoryKinds (s : State) (l : LotEntry) : Advisory :=
  { hold := decide (l.grade = .hold),
    misdrop := match l.planned with | some k => decide (k ≠ currentStop s) | none => false }

/-- R131: whether a lot has an advisory kind. -/
def Advisory.any (a : Advisory) : Bool := a.hold || a.misdrop

/-- R133: the kinds of two advisories together. -/
def Advisory.both (a b : Advisory) : Advisory := { hold := a.hold || b.hold, misdrop := a.misdrop || b.misdrop }

/-- R135: the handover record of an opening. -/
def openingRecord (s : State) (scanner : Byte) (token : Word) (marks : Advisory) : Handover :=
  { scanner := scanner, token := token, clock := s.clock, stop := currentStop s, hold := marks.hold,
    misdrop := marks.misdrop, settleAt := deadline s.clock (s.trip.stops.get (currentStop s)).settle }

/-- R197: a HandoverOpen entry's second value. -/
def handoverValue (h : Handover) : Word :=
  (h.scanner ++ BitVec.ofNat 8 h.stop.val) ++ ((0 : Byte) ++ BitVec.ofNat 8 ((if h.hold then 2 else 0) + (if h.misdrop then 1 else 0)))

/-- R135: a handover opens. -/
def openHandoverOf (i : Fin 96) (scanner : Byte) (token : Word) (marks : Advisory) (s : State) : State :=
  let l := s.lots.get i
  let h := openingRecord s scanner token marks
  append { kind := .handoverOpen, lot := some l.lot, zone := some l.zone, v1 := token, v2 := handoverValue h }
    (s.modLot i (fun l => { l with state := .handover, handover := some h }))

/-- R137: a handover is cancelled. -/
def cancelHandover (i : Fin 96) (scanner reason : Byte) (s : State) : State :=
  let l := s.lots.get i
  append { kind := .handoverCancel, lot := some l.lot, zone := some l.zone, v1 := reason.setWidth 32, v2 := scanner.setWidth 32 }
    (s.modLot i (fun l => { l with state := .onBoard, handover := none, refusals := satSucc 255 l.refusals }))

/-! ### Judging (R128, R129, R133, R137) -/

/-- R128: a Load scan. -/
def judgeLoad (scanner : Byte) (lot : Word) (s : State) : State × ScanOutcome :=
  if s.trip.record.state.stop.isNone then (s, .rejected .wrongTripState)
  else
    match findLot s.lots lot with
    | none => (s, .rejected .notManifested)
    | some i =>
      if (s.lots.get i).state ≠ .expected then (s, .rejected .wrongState)
      else (loadLot i scanner s, .accepted)

/-- R129: whether the trip state takes an Unload. -/
def unloadState (t : TripState) : Bool :=
  match t with
  | .atStop _ | .dock => true
  | _ => false

/-- R129 row 3: whether a lot is in Handover under a scanner. -/
def heldBy (l : LotEntry) (scanner : Byte) : Bool :=
  decide (l.state = .handover) && (match l.handover with | some h => h.scanner == scanner | none => false)

/-- R132: the pending advisory of an Advise verdict. -/
def adviseRecord (s : State) (f : ScanFields) (kinds : Advisory) : Pending :=
  { lot := f.lot, kinds := kinds, token := f.token, confirmBy := deadline s.clock s.scans.advisory }

/-- R129: an Unload scan of a lot, the scanner's advisory removed. -/
def judgeUnload (n : Fin 32) (scanner : Byte) (f : ScanFields) (s : State) : State × ScanOutcome :=
  if !unloadState s.trip.record.state then (s, .rejected .wrongTripState)
  else
    match findLot s.lots f.lot with
    | none => (s, .rejected .noSuchLot)
    | some i =>
      let l := s.lots.get i
      let kinds := advisoryKinds s l
      if heldBy l scanner then (s, .accepted)
      else if l.state ≠ .onBoard then (s, .rejected .wrongState)
      else if Config.handoverCap ≤ handovers s.lots then (s, .rejected .busy)
      else if kinds.any then
        (s.modMem n (fun m => { m with pending := some (adviseRecord s f kinds) }), .advise kinds)
      else (openHandoverOf i scanner f.token { hold := false, misdrop := false } s, .accepted)

/-- R133: a Confirm scan. -/
def judgeConfirm (n : Fin 32) (scanner : Byte) (f : ScanFields) (s : State) : State × ScanOutcome :=
  match (s.scans.mem.get n).pending with
  | none => (s, .rejected .noPending)
  | some p =>
    if p.lot ≠ f.lot then (s, .rejected .noPending)
    else
      let s1 := s.modMem n (fun m => { m with pending := none })
      match findLot s.lots f.lot with
      | none => (s1, .rejected .noSuchLot)
      | some i =>
        let l := s.lots.get i
        if l.state ≠ .onBoard then (s1, .rejected .wrongState)
        else if Config.handoverCap ≤ handovers s.lots then (s1, .rejected .busy)
        else (openHandoverOf i scanner p.token (p.kinds.both (advisoryKinds s l)) s1, .accepted)

/-- R137: a Refuse scan. -/
def judgeRefuse (scanner : Byte) (f : ScanFields) (s : State) : State × ScanOutcome :=
  match findLot s.lots f.lot with
  | none => (s, .rejected .noSuchLot)
  | some i =>
    if (s.lots.get i).state ≠ .handover then (s, .rejected .wrongState)
    else (cancelHandover i scanner f.reason s, .accepted)

/-- R126: a new scan judged by its action. -/
def judgeScan (n : Fin 32) (scanner : Byte) (a : ScanAction) (f : ScanFields) (s : State) : State × ScanOutcome :=
  match a with
  | .load => judgeLoad scanner f.lot s
  | .unload => judgeUnload n scanner f (s.modMem n (fun m => { m with pending := none }))
  | .confirm => judgeConfirm n scanner f s
  | .refuse => judgeRefuse scanner f s

/-- R126: the action of a well-formed scan; none when the scan is malformed. -/
def wellFormedScan (f : ScanFields) : Option ScanAction :=
  if f.number = 0 then none
  else
    match scanActionOf f.action with
    | some .refuse => if 1 ≤ f.reason.toNat ∧ f.reason.toNat ≤ 15 then some .refuse else none
    | a => a

/-- R126: the unit takes a scan of a scanner: malformed, duplicate, or judged, with the verdict stored. -/
def takeScan (n : Fin 32) (f : ScanFields) (s : State) : State :=
  match wellFormedScan f with
  | none => s
  | some a =>
    if f.number = (s.scans.mem.get n).number then s
    else
      let r := judgeScan n (s.sensor.nodes.get n).address a f s
      r.1.modMem n (fun m => { m with number := f.number, verdict := some { action := a, lot := f.lot, outcome := r.2 } })

/-! ### Advisories and deadlines (R132, R139) -/

/-- R124: the pending advisory of every entry is removed, that of one rewritten as a Probe too (log 42). -/
def dropAdvisories (s : State) : State :=
  { s with scans := { s.scans with mem := mapV (fun m => { m with pending := none }) s.scans.mem } }

/-- R132: whether an entry's confirm deadline is reached, be it rewritten as a Probe since (log 42); a clock set back
before the event is taken puts it off (log 43). -/
def advisoryDue (s : State) (n : Fin 32) : Bool :=
  match (s.scans.mem.get n).pending with
  | some p => reached s.clock p.confirmBy
  | none => false

/-- ADVISORY_EXPIRY (R132). -/
def execAdvisoryExpiry (n : Fin 32) (s : State) : Answer :=
  .next (if advisoryDue s n then s.modMem n (fun m => { m with pending := none }) else s)

/-- R139: whether a lot's settle deadline is reached; a clock set back before the event is taken puts it off
(log 43). -/
def settleDue (s : State) (i : Fin 96) : Bool :=
  match (s.lots.get i).state, (s.lots.get i).handover with
  | .handover, some h => reached s.clock h.settleAt
  | _, _ => false

/-- SETTLE_DEADLINE (R139). -/
def execSettleDeadline (i : Fin 96) (s : State) : Answer := .next (if settleDue s i then sealLot .settle i s else s)

/-- R125: a write to the scan settings, and its answer. -/
def scanSettingsWrite (index window : Byte) (s : State) : State × ReplyCode :=
  if index ≠ 0 then (s, .noEntry)
  else
    let w := clamp 5 120 window.toNat
    ({ s with scans := { s.scans with advisory := w } }, doneOr (decide (w ≠ window.toNat)))

/-- SCAN_SETTINGS_WRITE (R125). -/
def execScanSettingsWrite (h : ReqHdr) (index window : Byte) (s : State) : Answer :=
  onRequest h s fun s => answered h kMgWrite (scanSettingsWrite index window s)

end Sys2Proof.Machine
end

