-- ==== Sys2Proof/Machine/SensorLine.lean ====
section
/-! DEFINITION. The sensor line controller (spec 01): node table writes, the arbiter, poll rounds and accessory turns,
replies, misses and node states, through exchanges. -/

namespace Sys2Proof.Machine

/-! ### Rounds, turns and the arbiter (R6 to R11) -/

/-- What the round in progress has next: a probe poll or an accessory poll, with the round once it is made, or
its end. -/
inductive Plan where
  | probe (n : Fin 32) (r : Round)
  | accessory (n : Fin 32) (r : Round)
  | roundEnd
  deriving DecidableEq, Repr

/-- R7: whether the walk polls an entry in this round. -/
def Sensor.walkPolls (x : Sensor) (r : Round) (n : Fin 32) : Bool :=
  let e := x.nodes.get n
  decide (r.walked ≤ n.val) && e.enabled && decide (e.kind = .probe)
    && (decide (x.roundNo = 0) || decide ((x.rts.get n).state ≠ .lost))

/-- R10: the polls of a turn: dwell, or one for a Lost node. -/
def Sensor.turnPolls (x : Sensor) (n : Fin 32) : Nat :=
  if (x.rts.get n).state = .lost then 1 else (x.nodes.get n).dwell

/-- R9, R10: an accessory turn; with an empty rotation it is made with no exchange, and the round goes on. The head of
the rotation, its dwell and its state are read when the turn's first poll is made (log 25, log 37). -/
def Sensor.planTurn (x : Sensor) (r : Round) (goOn : Plan) : Plan :=
  match x.rotation with
  | [] => goOn
  | n :: _ => .accessory n { r with count := 0, turn := some { node := n, left := x.turnPolls n - 1 } }

/-- R9: the end of the walk: a turn when 1, 2 or 3 probe polls were made since the last, or none at all. -/
def Sensor.planEnd (x : Sensor) (r : Round) : Plan :=
  if (1 ≤ r.count ∧ r.count ≤ 3) ∨ r.polled = false then x.planTurn { r with walkEnded := true } .roundEnd
  else .roundEnd

/-- R7: the walk's next probe poll, or the end of the walk. -/
def Sensor.planWalk (x : Sensor) (r : Round) : Plan :=
  if r.walkEnded then .roundEnd
  else
    match (List.finRange 32).find? (x.walkPolls r) with
    | some n => .probe n { r with walked := n.val + 1, count := r.count + 1, polled := true }
    | none => x.planEnd r

/-- R7, R9, R10: the next scheduled poll of a round, or its end. -/
def Sensor.plan (x : Sensor) (r : Round) : Plan :=
  match r.turn with
  | some t => if 0 < t.left then .accessory t.node { r with turn := some { t with left := t.left - 1 } } else x.planWalk r
  | none => if r.count = 4 then x.planTurn r (x.planWalk { r with count := 0 }) else x.planWalk r

/-- R6: whether a scheduled poll is due. -/
def Sensor.pollDue (x : Sensor) : Bool :=
  match x.phase with
  | .waiting _ => false
  | .running r => decide (x.plan r ≠ .roundEnd)

/-- R10: a turn that has made its last poll ends, and its entry goes from the head of the rotation to the tail. -/
def Sensor.closeTurn (x : Sensor) : Sensor :=
  match x.phase with
  | .waiting _ => x
  | .running r =>
    match r.turn with
    | some t =>
      if t.left = 0 then
        { x with phase := .running { r with turn := none },
                 rotation := match x.rotation with
                   | n :: rest => if n = t.node then rest ++ [n] else n :: rest
                   | [] => [] }
      else x
    | none => x

/-- R6: the line becomes free; `idle` when neither a through frame nor a poll is there to follow. -/
def Sensor.free (x : Sensor) (ended : Arbiter) : Sensor :=
  let x1 := { x with exchange := none }
  { x1 with arbiter := if x1.throughQ.isEmpty ∧ x1.pollDue = false then .idle else ended }

/-- R6, R10: a scheduled poll ends; its turn ends with its last poll. -/
def Sensor.endPoll (x : Sensor) (accessory : Bool) : Sensor :=
  Sensor.free (if accessory then x.closeTurn else x) .pollEnded

/-- R6: a through exchange ends. -/
def Sensor.endThrough (x : Sensor) : Sensor := x.free .throughEnded

/-- The controller's part of the state changed. -/
def State.modSensor (s : State) (f : Sensor → Sensor) : State := { s with sensor := f s.sensor }

/-! ### Polling (R12) -/

/-- R12, R197: the verdict that a POLL carries to a scanner; bytes that no rule states are free values (log 8). -/
def pollVerdict (clock : Clock) (m : ScanMem) (free : Nat) : List Byte :=
  let o (k : Nat) := Config.openByte k free
  match m.verdict with
  | none => [m.number, 0, o 0, o 1, o 2, o 3, o 4, o 5, o 6]
  | some v =>
    if m.number = 0 then [0, 0, o 0, o 1, o 2, o 3, o 4, o 5, o 6]
    else
      [m.number] ++ (match v.outcome with
        | .accepted => b1 1 ++ b1 v.action.number ++ b4 v.lot ++ [o 5, o 6]
        | .advise k => b1 2 ++ b1 v.action.number ++ b4 v.lot ++ b1 ((if k.hold then 1 else 0) + (if k.misdrop then 2 else 0))
            ++ b1 (match m.pending with | some p => secondsLeft clock p.confirmBy | none => 0)
        | .rejected why => b1 3 ++ b1 v.action.number ++ b4 v.lot ++ b1 why.number ++ [o 6])

/-- R1, R12: the POLL frame to a node. -/
def pollFrame (s : State) (n : Fin 32) : Frame :=
  let e := s.sensor.nodes.get n
  { dest := e.address, src := 0, kind := kPoll, tag := tagSingle,
    payload := match e.kind with
      | .probe => []
      | .scanner => pollVerdict s.clock (s.scans.mem.get n) s.free }

/-- R5, R13: the end of a reply window that opens now. -/
def windowEnd (s : State) : Nat := s.ref + s.sensor.settings.replyWindow

/-- R12: a scheduled poll begins. -/
def beginPoll (n : Fin 32) (accessory : Bool) (r : Round) (s : State) : State :=
  { s with sensor := { s.sensor with phase := .running r, exchange := some (.poll n accessory (pollFrame s n) (windowEnd s)) },
           free := s.free + 1 }

/-- R6: whether the arbiter takes a scheduled poll now. -/
def pollFree (s : State) : Bool :=
  s.sensor.exchange.isNone && !(decide (s.sensor.arbiter = .pollEnded) && !s.sensor.throughQ.isEmpty)

/-- POLL (R12). -/
def execPoll (s : State) : Answer :=
  .next (if pollFree s then
      (match s.sensor.phase with
       | .waiting _ => s
       | .running r =>
         match s.sensor.plan r with
         | .probe n r' => beginPoll n false r' s
         | .accessory n r' => beginPoll n true r' s
         | .roundEnd => s)
    else s)

/-! ### Node states and misses (R15 to R18) -/

/-- R18: the journal entry of a lost or found node. -/
def nodeEntryDraft (kind : EntryKind) (e : NodeEntry) : Draft :=
  { kind := kind, zone := if e.kind = .probe then some e.zone else none, v1 := e.address.setWidth 32 }

/-- R18: NodeLost or NodeBack is raised, and then journalled (log 52). -/
def nodeEvent (n : Fin 32) (k : EventKind) (kind : EntryKind) (s : State) : State :=
  let e := s.sensor.nodes.get n
  append (nodeEntryDraft kind e) (raise k (.node e.address) s)

/-- R15, R18: a good reply: misses to 0, and the node state transition. -/
def goodNode (n : Fin 32) (s : State) : State :=
  let s1 := s.modNodeRt n (fun x => { x with misses := 0, state := .alive })
  if (s.sensor.rts.get n).state = .lost then nodeEvent n .nodeBack .nodeBack s1 else s1

/-- R16, R17, R18: a miss of the polled node. -/
def takeMiss (n : Fin 32) (address : Byte) (kind : MissKind) (s : State) : State :=
  let rt := s.sensor.rts.get n
  let m := satSucc 255 rt.misses
  let lost := decide (rt.state ≠ .lost) && decide ((s.sensor.nodes.get n).lostLimit ≤ m)
  let s1 := (s.modNodeRt n (fun x => { x with misses := m, state := if lost then .lost else x.state })).modSensor
    (fun y => { y with fault := { kind := kind, address := address, clock := s.clock } })
  if lost then nodeEvent n .nodeLost .nodeLost s1 else s1

/-! ### Received frames (R13, R14, R21) -/

/-- R14 row 5: the payload length of a reply kind. -/
def replyLength (kind : Byte) : Nat := if kind = kReplyReading then 3 else if kind = kReplyScan then 11 else 0

/-- R14 rows 3 and 4: whether a node may send a kind. -/
def mayReply (k : NodeKind) (kind : Byte) : Bool :=
  decide (kind = kReplyIdle) || (match k with
    | .probe => decide (kind = kReplyReading)
    | .scanner => decide (kind = kReplyScan))

/-- R14: the outcome of a frame in a poll's window: a miss, or none for a good reply. -/
def judgeReply (k : NodeKind) (polled : Byte) (checkOk : Bool) (f : Frame) : Option MissKind :=
  if !checkOk ∨ 56 < f.payload.length then some .badCheck
  else if f.src ≠ polled then some .wrongSource
  else if !mayReply k f.kind then some .wrongKind
  else if f.payload.length ≠ replyLength f.kind then some .wrongKind
  else none

/-- R15: a good reply handed on by its kind. -/
def handOn (n : Fin 32) (f : Frame) (s : State) : State :=
  if f.kind = kReplyReading then
    match f.payload with
    | [x, y, q] => takeReading n (half x y) q s
    | _ => s
  else if f.kind = kReplyScan then
    match f.payload with
    | [num, act, l3, l2, l1, l0, t3, t2, t1, t0, why] =>
      takeScan n { number := num, action := act, lot := word l3 l2 l1 l0, token := word t3 t2 t1 t0, reason := why } s
    | _ => s
  else s

/-- R14, R15, R16: a frame received in the window of a poll. -/
def takeReply (n : Fin 32) (accessory : Bool) (polled : Byte) (checkOk : Bool) (f : Frame) (s : State) : State :=
  let s1 := s.modSensor (fun x => x.endPoll accessory)
  match judgeReply (s.sensor.nodes.get n).kind polled checkOk f with
  | some m => takeMiss n polled m s1
  | none => handOn n f (goodNode n s1)

/-- R21: whether a frame ends a through exchange with a node. -/
def endsThrough (address : Byte) (checkOk : Bool) (f : Frame) : Bool :=
  checkOk && decide (f.payload.length ≤ 56) && decide (f.kind = kThruBack) && decide (f.src = address)

/-- R21: the forwarded answer of a through exchange. -/
def forwarded (request f : Frame) : OutFrame :=
  { cls := .reply, dest := request.src, aliasAddr := some request.dest, kind := kThruBack, tag := f.tag,
    payload := f.payload, origin := .plain }

/-- R13, R14, R21: a frame received on the sensor line, whatever window is open. -/
def takeSensorFrame (checkOk : Bool) (f : Frame) (s : State) : State :=
  match s.sensor.exchange with
  | none => s
  | some (.poll n acc sent _) => takeReply n acc sent.dest checkOk f s
  | some (.through _ request sent _) =>
    if endsThrough sent.dest checkOk f then (hand (forwarded request f) (s.modSensor Sensor.endThrough)).1 else s

/-- R197: a REPLY_READING frame. -/
def readingFrame (src tag : Byte) (raw : Half) (quality : Byte) : Frame :=
  { dest := 0, src := src, kind := kReplyReading, tag := tag, payload := b2 raw ++ [quality] }

/-- R197: a REPLY_SCAN frame. -/
def scanFrame (src tag : Byte) (f : ScanFields) : Frame :=
  { dest := 0, src := src, kind := kReplyScan, tag := tag,
    payload := [f.number, f.action] ++ b4 f.lot ++ b4 f.token ++ [f.reason] }

/-- REPLY_READING (R15, R24, R25). -/
def execReplyReading (src tag : Byte) (raw : Half) (quality : Byte) (s : State) : Answer :=
  .next (takeSensorFrame true (readingFrame src tag raw quality) s)

/-- REPLY_SCAN (R15, R126). -/
def execReplyScan (src tag : Byte) (f : ScanFields) (s : State) : Answer :=
  .next (takeSensorFrame true (scanFrame src tag f) s)

/-- REPLY_IDLE (R15). -/
def execReplyIdle (src tag : Byte) (s : State) : Answer :=
  .next (takeSensorFrame true { dest := 0, src := src, kind := kReplyIdle, tag := tag, payload := [] } s)

/-- BAD_REPLY (R14): the frame is judged with its Check as received. -/
def execBadReply (f : Frame) (check : Half) (s : State) : Answer :=
  .next (takeSensorFrame (decide (check = f.check)) f s)

/-- STRAY_SENSOR_FRAME (R13): with no window open the frame is discarded. -/
def execStraySensorFrame (f : Frame) (check : Half) (s : State) : Answer :=
  .next (takeSensorFrame (decide (check = f.check)) f s)

/-- THRU_BACK (R21). -/
def execThruBack (src tag : Byte) (payload : List Byte) (s : State) : Answer :=
  .next (takeSensorFrame true { dest := 0, src := src, kind := kThruBack, tag := tag, payload := payload } s)

/-- THRU_WINDOW_OTHER_FRAME (R21): the window keeps running. -/
def execThruWindowOtherFrame (f : Frame) (check : Half) (s : State) : Answer :=
  .next (takeSensorFrame (decide (check = f.check)) f s)

/-- R13: whether the window of the poll in flight has passed. -/
def pollExpired (s : State) : Bool :=
  match s.sensor.exchange with
  | some (.poll _ _ _ e) => decide (e ≤ s.ref)
  | _ => false

/-- REPLY_WINDOW_EXPIRY (R13): a NoReply miss. -/
def execReplyWindowExpiry (s : State) : Answer :=
  .next (match s.sensor.exchange with
    | some (.poll n acc sent e) =>
      if e ≤ s.ref then takeMiss n sent.dest .noReply (s.modSensor (fun x => x.endPoll acc)) else s
    | _ => s)

/-! ### Through exchanges (R19 to R22) -/

/-- R19, R197: the MG_RSP to a through frame, which names the alias. -/
def throughReply (f : Frame) (code : ReplyCode) (s : State) : State :=
  replyBody { dest := f.src, kind := f.kind, seq := tagSeq f.tag } code [f.dest] s

/-- R19: the enabled entry that holds an alias. -/
def aliasNode (nodes : Vector NodeEntry 32) (a : Byte) : Option (Fin 32) :=
  findIndex (fun e => e.enabled && (e.aliasAddr == some a)) nodes

/-- R19: a frame for an alias is queued or refused. -/
def takeThrough (f : Frame) (s : State) : State :=
  match aliasNode s.sensor.nodes f.dest with
  | none => throughReply f .noSuchAlias s
  | some n =>
    if Config.throughCap ≤ s.sensor.throughQ.length then throughReply f .busy s
    else s.modSensor (fun x => { x with throughQ := x.throughQ ++ [{ frame := f, node := n }] })

/-- THROUGH_FRAME (R19); a frame that is not addressed to an alias, or is too long, is of another row (log 4). -/
def execThroughFrame (f : Frame) (s : State) : Answer :=
  if isAlias f.dest ∧ f.payload.length ≤ 56 then
    .next (if s.trunk.reset ≠ .none then s else takeThrough f s)
  else .refused .notThisRow

/-- R20: the THRU_OUT frame of a through queue entry. -/
def thruOutFrame (address : Byte) (f : Frame) : Frame :=
  { dest := address, src := 0, kind := kThruOut, tag := f.tag, payload := f.payload }

/-- R6: whether the arbiter takes a through exchange now. -/
def thruFree (s : State) : Bool :=
  s.sensor.exchange.isNone && !(decide (s.sensor.arbiter = .throughEnded) && s.sensor.pollDue)

/-- R20: the through exchange at the head of the queue begins. -/
def beginThrough (s : State) : State :=
  match s.sensor.throughQ with
  | [] => s
  | q :: rest =>
    { s with sensor := { s.sensor with throughQ := rest, exchange := some (.through q.node q.frame (thruOutFrame (s.sensor.nodes.get q.node).address q.frame) (windowEnd s)) } }

/-- THRU_OUT (R20). -/
def execThruOut (s : State) : Answer := .next (if thruFree s then beginThrough s else s)

/-- R21: whether the window of the through exchange in flight has passed. -/
def thruExpired (s : State) : Bool :=
  match s.sensor.exchange with
  | some (.through _ _ _ e) => decide (e ≤ s.ref)
  | _ => false

/-- THROUGH_WINDOW_EXPIRY (R21). -/
def execThroughWindowExpiry (s : State) : Answer :=
  .next (match s.sensor.exchange with
    | some (.through _ request _ e) =>
      if e ≤ s.ref then throughReply request .throughFail (s.modSensor Sensor.endThrough) else s
    | _ => s)

/-! ### Round start and end (R11) -/

/-- R11: whether the time set for the next round has come. -/
def roundStartDue (s : State) : Bool :=
  match s.sensor.phase with
  | .waiting t => decide (t ≤ s.ref)
  | .running _ => false

/-- ROUND_START (R11): the round begins at the time it was set for. -/
def execRoundStart (s : State) : Answer :=
  .next (match s.sensor.phase with
    | .waiting t => if t ≤ s.ref then s.modSensor (fun x => { x with phase := .running (Round.start t) }) else s
    | .running _ => s)

/-- R11: whether a poll is in flight. -/
def polling (x : Sensor) : Bool :=
  match x.exchange with
  | some (.poll ..) => true
  | _ => false

/-- R11: whether the round in progress has ended its walk and its last turn. -/
def roundEndDue (s : State) : Bool :=
  !polling s.sensor && (match s.sensor.phase with
    | .running r => decide (s.sensor.plan r = .roundEnd)
    | .waiting _ => false)

/-- R11 step 3: the start of the next round. -/
def nextStart (now began floorSeconds : Nat) : Nat := max now (began + floorSeconds * 1000)

/-- ROUND_END (R11): zone air, the round number, the start of the next round. -/
def execRoundEnd (s : State) : Answer :=
  .next (match s.sensor.phase with
    | .waiting _ => s
    | .running r =>
      if roundEndDue s then
        (computeZones s).modSensor (fun x =>
          { x with roundNo := x.roundNo + 1, phase := .waiting (nextStart s.ref r.began x.settings.roundFloor) })
      else s)

/-! ### Node table and line settings (R2, R3, R5) -/

/-- R2: a report policy; an N or delta out of range is brought to its nearest limit. -/
def policyOf (kind param : Byte) : Option (Policy × Bool) :=
  if kind = 0 then some (.pass, false)
  else if kind = 1 then some (.everyN (clamp 2 255 param.toNat), decide (clamp 2 255 param.toNat ≠ param.toNat))
  else if kind = 2 then some (.change (clamp 1 100 param.toNat), decide (clamp 1 100 param.toNat ≠ param.toNat))
  else if kind = 3 then some (.silent, false)
  else none

/-- R2: the entry of a write, and whether a field was brought into range; none when a field has a value that no
state can have. The calibration offset is 8-bit two's complement (log 41). -/
def nodeOf (f : NodeFields) : Option (NodeEntry × Bool) :=
  match boolOf f.enabled, nodeKindOf f.kind, zoneOf f.zone, policyOf f.policy f.policyParam with
  | some enabled, some kind, some zone, some (policy, adjusted) =>
    let offset := clampInt (-50) 50 f.offset.toInt
    let dwell := clamp 1 4 f.dwell.toNat
    let limit := clamp 1 15 f.lostLimit.toNat
    some ({ enabled := enabled, address := f.address, kind := kind, zone := zone, offset := offset, dwell := dwell,
            policy := policy, aliasAddr := f.aliasAddr, lostLimit := limit },
          adjusted || decide (offset ≠ f.offset.toInt ∨ dwell ≠ f.dwell.toNat ∨ limit ≠ f.lostLimit.toNat))
  | _, _, _, _ => none

/-- R2: whether another enabled entry holds the address or the alias of an entry written at an index. -/
def nodeClash (nodes : Vector NodeEntry 32) (n : Fin 32) (e : NodeEntry) : Bool :=
  e.enabled && (List.finRange 32).any fun m =>
    decide (m ≠ n) && (nodes.get m).enabled &&
      (decide ((nodes.get m).address = e.address) || (e.aliasAddr.isSome && decide ((nodes.get m).aliasAddr = e.aliasAddr)))

/-- R2: whether an entry's address and alias are ones a node entry can hold (log 13). -/
def nodeNames (e : NodeEntry) : Bool :=
  decide (e.address.toNat ≤ 62) && (!e.enabled || decide (1 ≤ e.address.toNat)) &&
    (match e.aliasAddr with | some a => isAlias a | none => true)

/-- R3, R10: the rotation after a taken write. -/
def rotationAfter (n : Fin 32) (e : NodeEntry) (rotation : List (Fin 32)) : List (Fin 32) :=
  rotation.filter (fun m => m != n) ++ (if e.enabled ∧ e.kind = .scanner then [n] else [])

/-- R10: a write to the entry of the turn in progress ends the turn. -/
def endTurnOf (n : Fin 32) : RoundPhase → RoundPhase
  | .waiting t => .waiting t
  | .running r =>
    match r.turn with
    | some t => if t.node = n then .running { r with turn := none } else .running r
    | none => .running r

/-- R8: a poll in flight to the node is abandoned, and counts as ended. -/
def Sensor.abandonPoll (n : Fin 32) (x : Sensor) : Sensor :=
  match x.exchange with
  | some (.poll m _ _ _) => if m = n then x.free .pollEnded else x
  | _ => x

/-- R22: a through exchange in flight for the node is abandoned, and its sender told. -/
def abandonThrough (n : Fin 32) (s : State) : State :=
  match s.sensor.exchange with
  | some (.through m request _ _) =>
    if m = n then throughReply request .noSuchAlias (s.modSensor Sensor.endThrough) else s
  | _ => s

/-- R22: the queued through frames of the node are removed, each answered NoSuchAlias in queue order. -/
def dropThrough (n : Fin 32) (s : State) : State :=
  (s.sensor.throughQ.filter (fun q => q.node == n)).foldl (fun s q => throughReply q.frame .noSuchAlias s)
    (s.modSensor (fun x => { x with throughQ := x.throughQ.filter (fun q => q.node != n) }))

/-- R3, R8, R22: a taken write to a node entry. An exchange in flight for the node ends with the through queue as the
write leaves it (log 16). -/
def writeNode (n : Fin 32) (e : NodeEntry) (s : State) : State :=
  let s1 := s.modSensor (fun x =>
    { x with nodes := x.nodes.set n.val e n.isLt, rts := x.rts.set n.val NodeRt.reset n.isLt,
             rotation := rotationAfter n e x.rotation, phase := endTurnOf n x.phase })
  let s2 := if e.kind = .scanner then s1.modMem n (fun _ => ScanMem.cleared) else s1
  abandonThrough n ((dropThrough n s2).modSensor (Sensor.abandonPoll n))

/-- R2, R3: a write to the node table, and its answer. NoEntry is judged before BadValue (log 49). -/
def nodeWrite (index : Byte) (f : NodeFields) (s : State) : State × ReplyCode :=
  if h : index.toNat < 32 then
    match nodeOf f with
    | none => (s, .badValue)
    | some (e, adjusted) =>
      if !nodeNames e ∨ nodeClash s.sensor.nodes ⟨index.toNat, h⟩ e then (s, .badValue)
      else (writeNode ⟨index.toNat, h⟩ e s, doneOr adjusted)
  else (s, .noEntry)

/-- NODE_TABLE_WRITE (R2, R3). -/
def execNodeTableWrite (h : ReqHdr) (index : Byte) (f : NodeFields) (s : State) : Answer :=
  onRequest h s fun s => answered h kMgWrite (nodeWrite index f s)

/-- R5: a write to the line settings, and its answer. -/
def lineWrite (index : Byte) (f : LineFields) (s : State) : State × ReplyCode :=
  if index ≠ 0 then (s, .noEntry)
  else
    let floor := clamp 1 60 f.roundFloor.toNat
    let window := clamp 2 50 f.replyWindow.toNat
    (s.modSensor (fun x => { x with settings := { roundFloor := floor, replyWindow := window } }),
     doneOr (decide (floor ≠ f.roundFloor.toNat ∨ window ≠ f.replyWindow.toNat)))

/-- LINE_SETTINGS_WRITE (R5). -/
def execLineSettingsWrite (h : ReqHdr) (index : Byte) (f : LineFields) (s : State) : Answer :=
  onRequest h s fun s => answered h kMgWrite (lineWrite index f s)

end Sys2Proof.Machine
end

