-- ==== Sys2Proof/Machine/Doors.lean ====
section
/-! DEFINITION. The door unit's commands and events (spec 05 R86 to R101). -/

namespace Sys2Proof.Machine

/-- R87: a level taken by a line; a change starts to be timed, a reversal ends the timing. -/
def DoorRt.setLine (r : DoorRt) (high : Bool) (now : Nat) : DoorRt :=
  { r with line := high, changedAt := if high = r.level then none else some now }

/-- DOOR_LINE_CHANGE (R87). A change timed before that has held its time has become the debounced level first
(log 31); with a debounce of 0 the level follows the line at once. -/
def execDoorLineChange (d : Fin 4) (high : Bool) (s : State) : Answer :=
  .next (if (s.doors.rts.get d).line = high then s
         else
           let s1 := settleLine d s
           settleLine d (s1.modDoorRt d (fun r => r.setLine high s1.ref)))

/-- DEBOUNCE_EXPIRY (R87). -/
def execDebounceExpiry (d : Fin 4) (s : State) : Answer := .next (settleLine d s)

/-- R89: whether a Count door's open-until clock is reached. -/
def assumedDue (s : State) (d : Fin 4) : Bool :=
  let r := s.doors.rts.get d
  decide ((s.doors.entries.get d).mode = .count) && decide (r.state = .opened)
    && (match r.openUntil with | some c => reached s.clock c | none => false)

/-- ASSUMED_OPEN_TIME_EXPIRY (R89). -/
def execAssumedOpenTimeExpiry (d : Fin 4) (s : State) : Answer := .next (if assumedDue s d then closeDoor d s else s)

/-- RECOVERY_WINDOW_END (R97): the judgment changes with the clock and nothing else does: `serves` reads the
deadline, so no field is written (log 28). -/
def execRecoveryWindowEnd (_d : Fin 4) (s : State) : Answer := .next s

/-- R99: whether a door is overlong now. -/
def overlongDue (s : State) (d : Fin 4) : Bool :=
  let r := s.doors.rts.get d
  let m := (s.doors.entries.get d).mode
  match s.trip.record.state.stop with
  | none => false
  | some v =>
    let budget := (s.trip.stops.get v).budget
    (decide (m = .contact) || decide (m = .count)) && decide (budget ≠ 0) && decide (r.state = .opened)
      && decide (budget ≤ visitSeconds s d) && !r.overlong

/-- DOOR_OVERLONG (R99): the mark, the raising and the append, in the order of the text (log 52). -/
def execDoorOverlong (d : Fin 4) (s : State) : Answer :=
  .next (if overlongDue s d then
    append { kind := .doorOverlong, zones := some (s.doors.entries.get d).zones, door := some d,
             v1 := natWord ((s.trip.record.state.stop.map Fin.val).getD 0), v2 := countWord (visitSeconds s d) }
      (raise .doorOverlong (.door d) (s.modDoorRt d (fun r => { r with overlong := true })))
  else s)

/-! ### ARM_SEAL (R91) -/

/-- R90: a door armed at its debounced level. -/
def DoorRt.arm (r : DoorRt) (clock : Clock) : DoorRt :=
  { r with state := .armed, armedLevel := r.level, armingClock := clock }

/-- R91: ARM_SEAL, and its answer. -/
def armSeal (door : Byte) (s : State) : State × ReplyCode :=
  match doorOf door with
  | none => (s, .badValue)
  | some d =>
    let r := s.doors.rts.get d
    if (s.doors.entries.get d).mode ≠ .seal then (s, .badState)
    else if r.state = .broken ∧ r.level ≠ r.armedLevel then (s, .badState)
    else (s.modDoorRt d (fun r => r.arm s.clock), .done)

/-- ARM_SEAL (R91). -/
def execArmSeal (h : ReqHdr) (door : Byte) (s : State) : Answer :=
  onRequest h s fun s => answered h kMgCmd (armSeal door s)

/-! ### The door table (R86, R100, R101) -/

/-- R86: the entry of a write, and whether a field was brought into range; none for a value that no state can have. -/
def doorEntryOf (f : DoorFields) : Option (DoorEntry × Bool) :=
  match doorModeOf f.mode, polarityOf f.polarity, maskOf 12 f.zones with
  | some mode, some polarity, some zones =>
    let debounce := nearestDebounce f.debounce.toNat
    let recovery := clamp 0 900 f.recovery.toNat
    let assumed := clamp 1 600 f.assumed.toNat
    some ({ mode := mode, polarity := polarity, debounce := debounce, zones := zones, recovery := recovery, assumed := assumed },
          decide (debounce ≠ f.debounce.toNat ∨ recovery ≠ f.recovery.toNat ∨ assumed ≠ f.assumed.toNat))
  | _, _, _ => none

/-- A door's entry replaced. -/
def setDoorEntry (d : Fin 4) (e : DoorEntry) (s : State) : State :=
  { s with doors := { s.doors with entries := s.doors.entries.set d.val e d.isLt } }

/-- R100: what a change of mode sets to its reset value (log 21). -/
def DoorRt.leave (r : DoorRt) (old : DoorMode) : DoorRt :=
  { r with openSince := none, stretchAt := none, openUntil := none,
           armedLevel := if old = .seal then false else r.armedLevel }

/-- R100 step 2: the state a door takes in its new mode. -/
def enterMode (d : Fin 4) (mode : DoorMode) (s : State) : State :=
  match mode with
  | .contact => judgeContact d (s.modDoorRt d (fun r => { r with state := .closed }))
  | .count => s.modDoorRt d (fun r => { r with state := .closed })
  | .seal => s.modDoorRt d (fun r => r.arm s.clock)
  | .inhibit | .off => s.modDoorRt d (fun r => { r with state := .unused })

/-- R100: a write that changes the mode: an Open door is closed first, under its old entry (log 19). -/
def changeMode (d : Fin 4) (e : DoorEntry) (s : State) : State :=
  let old := (s.doors.entries.get d).mode
  let s1 := if (s.doors.rts.get d).state = .opened then closeDoor d s else s
  enterMode d e.mode ((setDoorEntry d e s1).modDoorRt d (fun r => r.leave old))

/-- R101: a write that leaves the mode as it was. -/
def keepMode (d : Fin 4) (e : DoorEntry) (s : State) : State :=
  let s1 := setDoorEntry d e s
  if e.mode = .contact ∧ (s.doors.entries.get d).polarity ≠ e.polarity then judgeContact d s1 else s1

/-- R87, R100, R101: a taken write to a door entry; a debounce that it changes acts on the change being timed, under
the new entry (log 20). -/
def writeDoor (d : Fin 4) (e : DoorEntry) (s : State) : State :=
  let old := s.doors.entries.get d
  let s1 := if old.mode ≠ e.mode then changeMode d e s else keepMode d e s
  if old.debounce ≠ e.debounce then settleLine d s1 else s1

/-- R86: a write to the door table, and its answer. -/
def doorWrite (index : Byte) (f : DoorFields) (s : State) : State × ReplyCode :=
  match doorOf index with
  | none => (s, .noEntry)
  | some d =>
    match doorEntryOf f with
    | none => (s, .badValue)
    | some (e, adjusted) => (writeDoor d e s, doneOr adjusted)

/-- DOOR_TABLE_WRITE (R86, R100, R101). -/
def execDoorTableWrite (h : ReqHdr) (index : Byte) (f : DoorFields) (s : State) : Answer :=
  onRequest h s fun s => answered h kMgWrite (doorWrite index f s)

end Sys2Proof.Machine
end

