-- ==== Sys2Proof/Machine/Beacons.lean ====
section
/-! DEFINITION. The beacon unit's commands and events (spec 05 R102 to R106). -/

namespace Sys2Proof.Machine

/-- R103: the end of a train's phase; none when the train stops. -/
def Running.phaseEnd (r : Running) (e : BeaconEntry) : Option Running :=
  if r.on then some { r with on := false, endsAt := r.endsAt + beaconMs e.offTime }
  else
    match r.remaining with
    | none => some { r with on := true, endsAt := r.endsAt + beaconMs e.onTime }
    | some k => if k ≤ 1 then none else some { on := true, endsAt := r.endsAt + beaconMs e.onTime, remaining := some (k - 1) }

/-- A beacon's train replaced. -/
def setTrain (b : Fin 2) (t : Option Running) (s : State) : State :=
  { s with beacons := { s.beacons with trains := s.beacons.trains.set b.val t b.isLt } }

/-- R103: whether the phase of a beacon's train has run its time. -/
def phaseDue (s : State) (b : Fin 2) : Bool :=
  match s.beacons.trains.get b with
  | some r => decide (r.endsAt ≤ s.ref)
  | none => false

/-- BEACON_PHASE_END (R103). -/
def execBeaconPhaseEnd (b : Fin 2) (s : State) : Answer :=
  .next (match s.beacons.trains.get b with
    | some r => if r.endsAt ≤ s.ref then setTrain b (r.phaseEnd (s.beacons.entries.get b)) s else s
    | none => s)

/-- R102: a beacon index 1 to 2. -/
def beaconOf (x : Byte) : Option (Fin 2) := if x = 1 then some 0 else if x = 2 then some 1 else none

/-- R102: an inhibit as given; the outer none is one that names no door line or no level. -/
def inhibitOf (x : Option (Byte × Byte)) : Option (Option Inhibit) :=
  match x with
  | none => some none
  | some (d, l) =>
    match doorOf d, boolOf l with
    | some d, some high => some (some { door := d, high := high })
    | _, _ => none

/-- R102: a write to the beacon table, and its answer; a taken write stops the train. -/
def beaconWrite (index : Byte) (f : BeaconFields) (s : State) : State × ReplyCode :=
  match beaconOf index with
  | none => (s, .noEntry)
  | some b =>
    match maskOf 13 f.causes, inhibitOf f.inhibit with
    | some causes, some inhibit =>
      let e : BeaconEntry := { causes := causes, onTime := max 1 f.onTime.toNat, offTime := max 1 f.offTime.toNat,
                               count := max 1 f.count.toNat, inhibit := inhibit }
      (setTrain b none { s with beacons := { s.beacons with entries := s.beacons.entries.set b.val e b.isLt } },
       doneOr (decide (f.onTime = 0 ∨ f.offTime = 0 ∨ f.count = 0)))
    | _, _ => (s, .badValue)

/-- BEACON_TABLE_WRITE (R102). -/
def execBeaconTableWrite (h : ReqHdr) (index : Byte) (f : BeaconFields) (s : State) : Answer :=
  onRequest h s fun s => answered h kMgWrite (beaconWrite index f s)

/-- R105: the trains of the beacons named by a set stop. -/
def stopTrains (set : Byte) (s : State) : State :=
  let s1 := if set.getLsbD 0 then setTrain 0 none s else s
  if set.getLsbD 1 then setTrain 1 none s1 else s1

/-- R105: BEACON_CLEAR, and its answer; a set naming neither beacon is BadValue (log 24). -/
def beaconClear (set : Byte) (s : State) : State × ReplyCode :=
  if set &&& 3 = 0 then (s, .badValue) else (stopTrains set s, .done)

/-- BEACON_CLEAR (R105). -/
def execBeaconClear (h : ReqHdr) (set : Byte) (s : State) : Answer :=
  onRequest h s fun s => answered h kMgCmd (beaconClear set s)

end Sys2Proof.Machine
end

