-- ==== Sys2Proof/Machine/Proofs.lean ====
section
/-! DEFINITION. The proof unit's commands and events (spec 08 R151 to R156). -/

namespace Sys2Proof.Machine

/-- R151: a write to the proof settings, and its answer. -/
def proofSettingsWrite (index : Byte) (window : Half) (s : State) : State × ReplyCode :=
  if index ≠ 0 then (s, .noEntry)
  else
    let w := clamp 10 3600 window.toNat
    ({ s with proofs := { s.proofs with window := w } }, doneOr (decide (w ≠ window.toNat)))

/-- PROOF_SETTINGS_WRITE (R151). -/
def execProofSettingsWrite (h : ReqHdr) (index : Byte) (window : Half) (s : State) : Answer :=
  onRequest h s fun s => answered h kMgWrite (proofSettingsWrite index window s)

/-- R153: the proof list entry of a lot whose ack deadline is reached. -/
def ackDue (s : State) (i : Fin 96) : Option ProofItem :=
  s.proofs.list.find? (fun p => p.index == i && reached s.clock p.ackBy)

/-- The proof list changed. -/
def State.modList (s : State) (f : List ProofItem → List ProofItem) : State :=
  { s with proofs := { s.proofs with list := f s.proofs.list } }

/-- ACK_DEADLINE (R153). -/
def execAckDeadline (i : Fin 96) (s : State) : Answer :=
  .next (match ackDue s i with
    | some p => markUnconfirmed p (s.modList (fun l => l.erase p))
    | none => s)

/-- R154 row 3: whether a Delivered lot of the trip record's trip holds the number and is Unconfirmed. -/
def tooLate (s : State) (number : Nat) : Bool :=
  s.lots.toList.any fun l => decide (l.state = .delivered) && l.unconfirmed && (match l.proof with
    | some p => decide (p.record.tripId = s.trip.record.tripId) && decide (p.record.number = number)
    | none => false)

/-- R154 row 1: the proof is confirmed: its entry leaves the list and a Confirm entry is appended. -/
def confirmProof (p : ProofItem) (s : State) : State :=
  append { kind := .confirm, lot := some p.lot, zone := some (s.lots.get p.index).zone, v1 := natWord p.number, v2 := p.check }
    (s.modList (fun l => l.erase p))

/-- R154: PROOF_ACK, and its answer. -/
def proofAck (number : Half) (check : Word) (s : State) : State × ReplyCode :=
  match s.proofs.list.find? (fun p => p.number == number.toNat && p.check == check) with
  | some p => (confirmProof p s, .done)
  | none =>
    if s.proofs.list.any (fun p => p.number == number.toNat) then (s, .mismatch)
    else if tooLate s number.toNat then (s, .tooLate)
    else (s, .noSuchProof)

/-- PROOF_ACK (R154); a payload of another length is BadValue (R183). Its MG_RSP is handed over after the frames that
the Confirm entry brings (log 44). -/
def execProofAck (h : ReqHdr) (payload : List Byte) (s : State) : Answer :=
  onRequest h s fun s => answered h kProofAck (match payload with
    | [n1, n0, c3, c2, c1, c0] => proofAck (half n1 n0) (word c3 c2 c1 c0) s
    | _ => (s, .badValue))

/-- R156: the proof list is emptied, oldest first, each lot marked Unconfirmed; one pass for each entry held. -/
def emptyProofs : Nat → State → State
  | 0, s => s
  | n + 1, s =>
    match s.proofs.list with
    | [] => s
    | p :: rest => emptyProofs n (markUnconfirmed p { s with proofs := { s.proofs with list := rest } })

end Sys2Proof.Machine
end

