-- ==== Sys2Proof/Machine/Trips.lean ====
section
/-! DEFINITION. The trip unit (spec 06): trip commands, the stop table, TIME_SET. -/

namespace Sys2Proof.Machine

/-! ### TRIP_OPEN (R110, R111) -/

/-- R110: the stop count as written. -/
def stopCountOf (mode : TripMode) (given : Option Byte) : Nat :=
  match mode with
  | .room => 0
  | .van => match given with | some c => min 24 c.toNat | none => 0

/-- R110: the retention hours as written; 72 when not given. -/
def retentionOf (given : Option Byte) : Nat := match given with | some r => clamp 1 168 r.toNat | none => 72

/-- R110 row 3: whether a parameter was brought into range. -/
def tripAdjusted (mode : TripMode) (p : TripOpenParams) : Bool :=
  (match p.retention with | some r => decide (clamp 1 168 r.toNat ≠ r.toNat) | none => false)
  || (match p.stopCount with | some c => decide (24 < c.toNat) || (decide (mode = .room) && decide (c ≠ 0)) | none => false)

/-- R110: the trip record as written, with R111's state and next proof number. -/
def openedRecord (mode : TripMode) (p : TripOpenParams) : TripRecord :=
  { tripId := p.tripId, mode := mode, sealWord := p.sealWord, retention := retentionOf p.retention,
    stopCount := stopCountOf mode p.stopCount, state := match mode with | .van => .loading | .room => .dock, nextProof := 1 }

/-- R117: the visited mark of every stop entry is cleared. -/
def clearVisited (s : State) : State :=
  { s with trip := { s.trip with stops := mapV (fun e => { e with visited := false }) s.trip.stops } }

/-- R71: in Room mode every Expected entry loses its planned stop index. -/
def dropPlanned (mode : TripMode) (s : State) : State :=
  match mode with
  | .van => s
  | .room => { s with lots := mapV (fun l => if l.state = .expected then { l with planned := none } else l) s.lots }

/-- R160: the trip mode in a TripOpen entry. -/
def TripMode.entryValue : TripMode → Word | .van => 1 | .room => 2

/-- R111: a TRIP_OPEN that is taken. -/
def openTrip (mode : TripMode) (p : TripOpenParams) (s : State) : State :=
  let s1 := dropPlanned mode (clearVisited (s.modTrip (fun _ => openedRecord mode p)))
  append { kind := .tripOpen, v1 := p.tripId, v2 := mode.entryValue } (beginVisit 0 s1)

/-- R110: TRIP_OPEN, and its answer. -/
def tripOpen (p : TripOpenParams) (s : State) : State × ReplyCode :=
  match tripModeOf p.mode with
  | none => (s, .badValue)
  | some mode =>
    if tripIsOpen s then (s, .badState) else (openTrip mode p s, doneOr (tripAdjusted mode p))

/-- TRIP_OPEN (R110, R111). -/
def execTripOpen (h : ReqHdr) (p : TripOpenParams) (s : State) : Answer :=
  onRequest h s fun s => answered h kMgCmd (tripOpen p s)

/-! ### DEPART (R112) -/

/-- R112: whether the trip state lets the van depart, and from which stop index. -/
def departFrom (r : TripRecord) : Option (Fin 25) :=
  match r.mode, r.state with
  | .van, .loading => some 0
  | .van, .atStop k => some k
  | _, _ => none

/-- R112: a DEPART that is taken, from a stop index. -/
def departTrip (k : Fin 25) (s : State) : State :=
  let s1 := sealLots .depart (fun l => decide (l.state = .handover)) (dropAdvisories s)
  let s2 := endVisit (shortAll k.val s1)
  let s3 := s2.modTrip (fun r => { r with state := .transit })
  append { kind := .depart, v1 := natWord k.val, v2 := (s3.trip.stops.get k).stopId } s3

/-- R112: DEPART, and its answer. -/
def depart (s : State) : State × ReplyCode :=
  match departFrom s.trip.record with
  | some k => (departTrip k s, .done)
  | none => (s, .badState)

/-- DEPART (R112). -/
def execDepart (h : ReqHdr) (s : State) : Answer := onRequest h s fun s => answered h kMgCmd (depart s)

/-! ### ARRIVE (R113) -/

/-- R113: an arrival at a stop. -/
def arriveAt (k : Fin 25) (s : State) : State :=
  let s1 := s.modTrip (fun r => { r with state := .atStop k })
  let s2 := { s1 with trip := { s1.trip with stops := upd s1.trip.stops k (fun e => { e with visited := true }) } }
  append { kind := .arrive, v1 := natWord k.val, v2 := (s2.trip.stops.get k).stopId } (beginVisit k s2)

/-- R113: ARRIVE, and its answer. -/
def arrive (stop : Byte) (s : State) : State × ReplyCode :=
  if s.trip.record.mode = .room ∨ s.trip.record.state ≠ .transit then (s, .badState)
  else
    match stopOf stop with
    | some k => if k = 0 ∨ s.trip.record.stopCount < k.val then (s, .badValue) else (arriveAt k s, .done)
    | none => (s, .badValue)

/-- ARRIVE (R113). -/
def execArrive (h : ReqHdr) (stop : Byte) (s : State) : Answer :=
  onRequest h s fun s => answered h kMgCmd (arrive stop s)

/-! ### TRIP_CLOSE (R114) -/

/-- R114: a TRIP_CLOSE that is taken. -/
def closeTrip (s : State) : State :=
  let s1 := sealLots .closure (fun l => decide (l.state = .handover)) (dropAdvisories s)
  let returned := countV (fun l => decide (l.state = .onBoard)) s1.lots
  let s2 := returnAll s1
  let s3 := if s2.trip.record.state.stop.isSome then endVisit s2 else s2
  let s4 := clearVisited (emptyProofs s3.proofs.list.length s3)
  append { kind := .tripClose, v1 := s4.trip.record.tripId, v2 := natWord returned }
    (s4.modTrip (fun r => { r with state := .noTrip }))

/-- R114: TRIP_CLOSE, and its answer. -/
def tripClose (s : State) : State × ReplyCode :=
  if tripIsOpen s then (closeTrip s, .done) else (s, .badState)

/-- TRIP_CLOSE (R114). -/
def execTripClose (h : ReqHdr) (s : State) : Answer := onRequest h s fun s => answered h kMgCmd (tripClose s)

/-! ### The stop table (R116) -/

/-- R116: a write to the stop table, and its answer. -/
def stopWrite (index : Byte) (f : StopFields) (s : State) : State × ReplyCode :=
  match stopOf index with
  | none => (s, .noEntry)
  | some k =>
    if k ≠ 0 ∧ (s.trip.stops.get k).visited then (s, .locked)
    else
      match maskOf 4 f.doors with
      | none => (s, .badValue)
      | some doors =>
        let held : DoorSet := if k = 0 then 0b1111 else doors
        let budget := clamp 0 3600 f.budget.toNat
        let settle := clamp 10 600 f.settle.toNat
        ({ s with trip := { s.trip with stops := upd s.trip.stops k (fun e =>
            { e with stopId := f.stopId, doors := held, budget := budget, settle := settle }) } },
         doneOr (decide (budget ≠ f.budget.toNat ∨ settle ≠ f.settle.toNat ∨ held ≠ doors)))

/-- STOP_TABLE_WRITE (R116). -/
def execStopTableWrite (h : ReqHdr) (index : Byte) (f : StopFields) (s : State) : Answer :=
  onRequest h s fun s => answered h kMgWrite (stopWrite index f s)

/-! ### TIME_SET (R119, R120) -/

/-- R119: the size of a clock step. -/
def stepSize (a b : Clock) : Nat := (a.toNat - b.toNat) + (b.toNat - a.toNat)

/-- R119, R120: TIME_SET is taken. A deadline whose event has not been taken is judged against the clock as set
(log 43). The raising comes before the append (log 52). -/
def setTime (v : Clock) (s : State) : State :=
  let s1 := { s with trip := { s.trip with clock := v, unsynced := false } }
  if tripIsOpen s ∧ 300 < stepSize v s.clock then
    append { kind := .timeJump, v1 := s.clock, v2 := v } (raise .timeJump .none s1)
  else s1

/-- TIME_SET (R119). -/
def execTimeSet (h : ReqHdr) (v : Clock) (s : State) : Answer :=
  onRequest h s fun s => answered h kMgCmd (setTime v s, .done)

end Sys2Proof.Machine
end

