-- ==== Sys2Proof/Machine/Exports.lean ====
section
/-! DEFINITION. JRNL_REQ: the start, replacement and end of a journal export (spec 09 R165, R166, R170). -/

namespace Sys2Proof.Machine

/-- R165: the modes of a JRNL_REQ. -/
inductive JrnlMode where
  | start (m : ExportMode)
  | stop
  deriving DecidableEq, Repr

/-- R197: a JRNL_REQ's mode byte. -/
def jrnlModeOf (x : Byte) : Option JrnlMode :=
  if x = 1 then some (.start .single) else if x = 2 then some (.start .block)
  else if x = 3 then some (.start .follow) else if x = 4 then some .stop else none

/-- R159, R166: whether a number that no entry held carries lies ahead of the journal. -/
def Journal.ahead (j : Journal) (n : Word) : Bool :=
  decide ((j.age n).toNat = 0 ∨ 2147483648 ≤ (j.age n).toNat)

/-- R166: the oldest entry held with a sequence number (log 45). -/
def Journal.numbered (j : Journal) (n : Word) : Option JEntry := j.entries.find? (fun e => e.seq == n)

/-- R166: the oldest entry held that is newer than a number that a request gives, read by age (R159). -/
def Journal.newerThan (j : Journal) (n : Word) : Option JEntry :=
  j.entries.find? (fun e => decide ((j.age e.seq).toNat < (j.age n).toNat))

/-- R166: the entry and gap mark of a start point; none where only a Follow can wait. A number not held that R159 calls
ahead of the journal is row 4's, whatever is held (log 48). -/
def Journal.startPoint (j : Journal) (n : Word) : Option (JEntry × Bool) :=
  match j.numbered n with
  | some e => some (e, false)
  | none => if j.ahead n then none else (j.newerThan n).map (fun e => (e, true))

/-- R165 row 4: the count of a Block brought into 1 to 1024. -/
def blockCount (count : Half) : Nat := clamp 1 1024 count.toNat

/-- R165: the record of an export that starts, waiting at the next sequence number. -/
def startRecord (j : Journal) (m : ExportMode) (dest : Byte) (count : Half) : ExportRec :=
  { mode := m, dest := dest, cursor := j.nextSeq, place := j.appended, remaining := blockCount count, gap := false,
    firstSent := false, frames := 0 }

/-- R165, R166: the record of an export that starts at its start point; a Follow waits where there is none. -/
def Journal.startFor (j : Journal) (m : ExportMode) (n : Word) (dest : Byte) (count : Half) : Option ExportRec :=
  let x := startRecord j m dest count
  match j.startPoint n, m with
  | some (e, gap), _ => some { x.moveTo j (some e) with gap := gap }
  | none, .follow => some x
  | none, _ => none

/-- R168, R170: the export in progress ends; a frame removed later acts on no export. -/
def endExport (s : State) : State := { s with exporter := { run := none, epoch := s.exporter.epoch + 1 } }

/-- R165: the answer of a JRNL_REQ that starts an export. -/
def startAnswer (m : ExportMode) (count : Half) : ReplyCode :=
  doneOr (decide (m = .block) && decide (blockCount count ≠ count.toNat))

/-- R165, R167: the MG_RSP is handed over, and then the new export offers its first frame. -/
def startExport (to_ : ReplyTo) (code : ReplyCode) (x : ExportRec) (s : State) : State :=
  let s1 := reply to_ code (endExport s)
  offer offerFuel { s1 with exporter := { s1.exporter with run := some x } }

/-- R165: a JRNL_REQ of a mode. -/
def jrnlReq (to_ : ReplyTo) (mode : JrnlMode) (n : Word) (count : Half) (s : State) : State :=
  match mode with
  | .stop => reply to_ .done (endExport s)
  | .start m =>
    match s.journal.startFor m n to_.dest count with
    | none => reply to_ .noEntry (endExport s)
    | some x => startExport to_ (startAnswer m count) x s

/-- JRNL_REQ (R165, R166); a payload of another length is BadValue (R183). -/
def execJrnlReq (h : ReqHdr) (payload : List Byte) (s : State) : Answer :=
  onRequest h s fun s =>
    match payload with
    | [m, s3, s2, s1, s0, c1, c0] =>
      (match jrnlModeOf m with
       | none => reply (replyTo h kJrnlReq) .badValue s
       | some mode => jrnlReq (replyTo h kJrnlReq) mode (word s3 s2 s1 s0) (half c1 c0) s)
    | _ => reply (replyTo h kJrnlReq) .badValue s

end Sys2Proof.Machine
end

