-- ==== Sys2Proof/Machine/Claims.lean ====
section
/-! DEFINITION. The claim unit's commands and events (spec 10 R173 to R177) and the bytes of a claim statement
(spec 11 R196, R197). -/

namespace Sys2Proof.Machine

/-! ### The statement's bytes (R179, R196, R197) -/

/-- R197: a cancellation. -/
def Cancel.bytes (c : Cancel) : List Byte := b4 c.clock ++ [c.reason, c.scanner]

/-- R197: a custody item, its kind and clock first. -/
def Item.bytes : Item → List Byte
  | .load k z core sc => b1 1 ++ b4 k ++ b1 (zoneNo z) ++ b2 core ++ [sc]
  | .move k new old => b1 2 ++ b4 k ++ [new, old]
  | .handover k token sc stop hold misdrop c =>
      b1 3 ++ b4 k ++ b4 token ++ [sc, stop] ++ b1 ((if hold then 2 else 0) + (if misdrop then 1 else 0))
      ++ optional Cancel.bytes c
  | .ret k z grade total => b1 4 ++ b4 k ++ b1 (zoneNo z) ++ [grade] ++ b4 total
  | .short k z stop => b1 5 ++ b4 k ++ b1 (zoneNo z) ++ [stop]

/-- R197: the end of the custody: its kind, the seal cause and the end clock. -/
def End.bytes : End → List Byte
  | .sealed c k => b1 1 ++ b1 c.number ++ b4 k
  | .short k => b1 2 ++ b1 0 ++ b4 k
  | .returned k => b1 3 ++ b1 0 ++ b4 k
  | .inCustody k => b1 4 ++ b1 0 ++ b4 k

/-- R197: a door opening. -/
def Opening.bytes (o : Opening) : List Byte :=
  b1 (doorNo o.door) ++ b4 o.clock ++ flag o.authorized ++ optional b4 o.duration

/-- R197: the proof of a statement. -/
def ProofMark.bytes (p : ProofMark) : List Byte := n2 p.number ++ b1 p.cause.number ++ b4 p.check

/-- R179, R197: a claim statement, in the order of R179's fields. -/
def Statement.bytes (x : Statement) : List Byte :=
  b4 x.lot ++ [x.tag] ++ b4 x.clock ++ flag x.unsynced ++ optional b4 x.reach ++ optional b4 x.oldest
  ++ b1 x.cls.val ++ b1 x.state.number ++ b1 (zoneNo x.zone)
  ++ n4 x.inherited ++ n4 x.handling ++ n4 x.equipment ++ n4 x.total
  ++ temp2 x.peak ++ b4 x.peakClock ++ b1 x.cycles ++ b1 x.grade.number ++ flag x.blind ++ flag x.unconfirmed
  ++ n2 x.gaps ++ b1 x.refusals ++ optional b4 x.loadClock ++ optional ProofMark.bytes x.proof ++ flag x.incomplete
  ++ b1 x.items.length ++ x.items.flatMap Item.bytes ++ n2 x.passedOver
  ++ x.ending.bytes
  ++ b1 x.openings.length ++ x.openings.flatMap Opening.bytes ++ n2 x.beyond

/-- R175, R187: bytes cut into consecutive pieces of a size, the last holding what remains; the first argument
bounds their number. -/
def pieces (size : Nat) : Nat → List Byte → List (List Byte)
  | 0, _ => []
  | n + 1, bytes => if bytes.length ≤ size then [bytes] else bytes.take size :: pieces size n (bytes.drop size)

/-! ### Answers (R174, R175) -/

/-- R174, R197: the answers to a CLAIM_Q. -/
inductive ClaimAnswer where
  | statement | deferred | noSuchLot | noCustody | retry | retryLater
  deriving DecidableEq, Repr

/-- R197: the answers' codes. -/
def ClaimAnswer.number : ClaimAnswer → Nat
  | .statement => 0 | .deferred => 1 | .noSuchLot => 2 | .noCustody => 3 | .retry => 4 | .retryLater => 5

/-- R172: a claim query: whom it answers, its lot id and its tag. -/
structure Query where
  dest : Byte
  lot  : Word
  tag  : Byte
  deriving DecidableEq, Repr

/-- R197: a CLAIM_RSP frame. -/
def claimFrame (q : Query) (answer : ClaimAnswer) (slot : Byte) (tag : Byte) (piece : List Byte) : OutFrame :=
  { cls := .reply, dest := q.dest, aliasAddr := none, kind := kClaimRsp, tag := tag,
    payload := b4 q.lot ++ [q.tag] ++ b1 answer.number ++ [slot] ++ piece, origin := .plain }

/-- R174: an answer that names a slot. -/
def answerSlot (q : Query) (k : Fin 4) (s : State) : State :=
  (hand (claimFrame q .deferred (BitVec.ofNat 8 k.val) tagSingle []) s).1

/-- R174: an answer that names no slot: what its slot number holds is a free value (log 8). -/
def answerPlain (q : Query) (answer : ClaimAnswer) (s : State) : State :=
  (hand (claimFrame q answer (Config.openByte 7 s.free) tagSingle []) { s with free := s.free + 1 }).1

/-- R175: the frames of a statement, the sequence of the first and whether it is the first given. -/
def statementFrames (q : Query) (k : Fin 4) : Nat → List (List Byte) → List OutFrame
  | _, [] => []
  | n, p :: rest =>
    claimFrame q .statement (BitVec.ofNat 8 k.val) (tagOf (decide (n = 0)) rest.isEmpty n) p :: statementFrames q k (n + 1) rest

/-- R175: frames handed in order until one is not admitted; the answer says whether all were admitted. -/
def handAll : List OutFrame → State → State × Bool
  | [], s => (s, true)
  | f :: rest, s =>
    let r := hand f s
    if r.2 then handAll rest r.1 else (r.1, false)

/-- R175: a Ready slot's statement sent; the slot is freed when every frame has been admitted. -/
def sendStatement (q : Query) (k : Fin 4) (x : Statement) (s : State) : State :=
  let r := handAll (statementFrames q k 0 (pieces Config.claimPiece x.bytes.length x.bytes)) s
  if r.2 then { r.1 with claims := r.1.claims.release k } else r.1

/-- R172: the lowest-numbered free slot. -/
def Claims.freeSlot (c : Claims) : Option (Fin 4) := findIndex Option.isNone c.slots

/-- R174: a slot opened Queued, at the end of the opening order, and handed to the builder (R176). -/
def openSlot (q : Query) (k : Fin 4) (s : State) : State :=
  runBuilder { s with claims := { s.claims with
    slots := upd s.claims.slots k (fun _ => some { lot := q.lot, tag := q.tag, state := .queued, reach := none, deadline := none, statement := none }),
    order := s.claims.order ++ [k] } }

/-- R174 rows 6 to 8: a new slot opened where one is free. -/
def openFor (q : Query) (s : State) : State :=
  match s.claims.freeSlot with
  | some k => answerSlot q k (openSlot q k s)
  | none => answerPlain q .retryLater s

/-- R174 rows 4 to 8. -/
def answerFromSlots (q : Query) (s : State) : State :=
  match s.claims.slotFor q.lot with
  | none => openFor q s
  | some k =>
    match s.claims.slots.get k with
    | none => openFor q s
    | some x =>
      if x.tag = q.tag then
        match x.state, x.statement with
        | .ready, some t => sendStatement q k t s
        | _, _ => answerSlot q k s
      else openFor q (discardSlot k s)

/-- R174: a claim query, judged when it is taken. -/
def claimQuery (q : Query) (s : State) : State :=
  match findLot s.lots q.lot with
  | none => answerPlain q .noSuchLot s
  | some i =>
    match (s.lots.get i).state with
    | .expected => answerPlain q .noCustody s
    | .handover => answerPlain q .retry s
    | _ => answerFromSlots q s

/-- CLAIM_Q (R174, R175); a payload of another length is MG_RSP BadValue (R183). -/
def execClaimQ (h : ReqHdr) (payload : List Byte) (s : State) : Answer :=
  onRequest h s fun s =>
    match payload with
    | [l3, l2, l1, l0, t] => claimQuery { dest := h.src, lot := word l3 l2 l1 l0, tag := t } s
    | _ => reply (replyTo h kClaimQ) .badValue s

/-! ### The builder, the window and the settings (R173, R176, R177) -/

/-- BUILD_COMPLETION (R176): the walk has taken every entry left to it; the builder then takes the next slot. -/
def execBuildCompletion (s : State) : Answer :=
  .next (match s.claims.builder with
    | none => s
    | some b => runBuilder { s with claims := s.claims.complete b s.clock s.trip.unsynced s.lots })

/-- R177: whether the window deadline of a Ready slot is reached. -/
def claimDue (s : State) (k : Fin 4) : Bool :=
  match s.claims.slots.get k with
  | some x =>
    decide (x.state = .ready) && (match x.deadline with | some d => reached s.clock d | none => false)
  | none => false

/-- CLAIM_WINDOW_DEADLINE (R177). -/
def execClaimWindowDeadline (k : Fin 4) (s : State) : Answer := .next (if claimDue s k then discardSlot k s else s)

/-- R173: a write to the claim settings, and its answer. -/
def claimSettingsWrite (index : Byte) (window : Half) (s : State) : State × ReplyCode :=
  if index ≠ 0 then (s, .noEntry)
  else
    let w := clamp 10 600 window.toNat
    ({ s with claims := { s.claims with window := w } }, doneOr (decide (w ≠ window.toNat)))

/-- CLAIM_SETTINGS_WRITE (R173). -/
def execClaimSettingsWrite (h : ReqHdr) (index : Byte) (window : Half) (s : State) : Answer :=
  onRequest h s fun s => answered h kMgWrite (claimSettingsWrite index window s)

end Sys2Proof.Machine
end

