-- ==== Sys2Proof/Machine/Tables.lean ====
section
/-! DEFINITION. The entries of the 21 tables, views and settings records as a read encodes them (spec 11 R187, R190,
R196, R197; the widths and codes that no rule spells out are those of log 11). -/

namespace Sys2Proof.Machine

/-! ### Entries -/

/-- R197: a report policy; R2. -/
def Policy.bytes : Policy → List Byte
  | .pass => [0, 0]
  | .everyN n => b1 1 ++ b1 n
  | .change d => b1 2 ++ b1 d
  | .silent => [3, 0]

/-- R2: a node table entry; the calibration offset is 8-bit two's complement (log 41). -/
def NodeEntry.bytes (e : NodeEntry) : List Byte :=
  flag e.enabled ++ [e.address] ++ b1 e.kind.number ++ b1 (zoneNo e.zone) ++ [BitVec.ofInt 8 e.offset] ++ b1 e.dwell
  ++ e.policy.bytes ++ optional (fun a => [a]) e.aliasAddr ++ b1 e.lostLimit

/-- R4: a stored reading. -/
def Reading.bytes (r : Reading) : List Byte := temp2 r.value ++ b4 r.clock

/-- R4: a node runtime record. -/
def NodeRt.bytes (r : NodeRt) : List Byte :=
  b1 r.state.number ++ b1 r.misses ++ optional Reading.bytes r.last ++ b1 r.everyN ++ optional temp2 r.lastReported

/-- R5: the line settings. -/
def LineSettings.bytes (x : LineSettings) : List Byte := b1 x.roundFloor ++ b1 x.replyWindow

/-- R26: a zone table entry. -/
def ZoneEntry.bytes (e : ZoneEntry) : List Byte := flag e.enabled ++ n2 e.staleness ++ b1 e.step

/-- R27: a zone runtime record. -/
def ZoneRt.bytes (r : ZoneRt) : List Byte := b1 r.state.number ++ optional temp2 r.air ++ flag r.stepFlag

/-- R41: a class table entry. -/
def ClassEntry.bytes (e : ClassEntry) : List Byte :=
  temp2 e.tw ++ temp2 e.ts ++ [e.lag.setWidth 8] ++ n4 e.watch ++ n4 e.hold ++ b1 e.shock

/-- R43: the engine settings. -/
def Engine.bytes (e : Engine) : List Byte := b1 e.period ++ b1 e.interval ++ b4 e.lastUpdate

/-- R63: a handover record. -/
def Handover.bytes (h : Handover) : List Byte :=
  [h.scanner] ++ b4 h.token ++ b4 h.clock ++ b1 h.stop.val ++ flag h.hold ++ flag h.misdrop ++ b4 h.settleAt

/-- R63: the proof fields. -/
def ProofFields.bytes (p : ProofFields) : List Byte :=
  n2 p.number ++ b4 p.sealClock ++ b1 p.cause.number ++ b4 p.check ++ p.record.bytes

/-- R63, R67: a lot entry, its doses as shown. -/
def LotEntry.bytes (l : LotEntry) : List Byte :=
  b4 l.lot ++ b1 l.state.number ++ b1 l.cls.val ++ b1 (zoneNo l.zone) ++ optional (fun k => b1 k.val) l.planned
  ++ n4 (shown l.inherited) ++ optional temp2 l.arrival ++ temp2 l.core ++ n4 (shown l.handling) ++ n4 (shown l.equipment)
  ++ b1 l.grade.number ++ flag l.soft ++ b1 l.cycles ++ temp2 l.peak ++ b4 l.peakClock ++ flag l.blind
  ++ flag l.unconfirmed ++ b1 l.refusals ++ n2 l.gaps ++ b4 l.updates ++ optional b4 l.loadClock
  ++ optional Handover.bytes l.handover ++ optional ProofFields.bytes l.proof ++ optional b4 l.retention

/-- R86: a door table entry. -/
def DoorEntry.bytes (e : DoorEntry) : List Byte :=
  b1 e.mode.number ++ b1 e.polarity.number ++ b1 e.debounce ++ b2 (e.zones.setWidth 16) ++ n2 e.recovery ++ n2 e.assumed

/-- R93: a door runtime record, its visit open seconds as judged now (log 22), and whether the door serves as open. A
level is 1 when high (log 38); a visit index of none is an absent optional field (log 39). -/
def doorRtBytes (s : State) (d : Fin 4) : List Byte :=
  let r := s.doors.rts.get d
  b1 r.state.number ++ flag r.level ++ optional b4 r.openSince ++ optional b4 r.lastOpen ++ optional b4 r.lastClose
  ++ optional b4 r.recoveryAt ++ optional b4 r.openUntil ++ flag r.armedLevel ++ b4 r.armingClock
  ++ optional (fun k => b1 k.val) r.visit ++ n2 r.openings ++ b4 (countWord (visitSeconds s d)) ++ flag r.overlong
  ++ flag (serves s.clock (s.doors.entries.get d) r)

/-- R197: a beacon's inhibit. -/
def Inhibit.bytes (h : Inhibit) : List Byte := b1 (doorNo h.door) ++ flag h.high

/-- R102: a beacon table entry. -/
def BeaconEntry.bytes (e : BeaconEntry) : List Byte :=
  b2 (e.causes.setWidth 16) ++ b1 e.onTime ++ b1 e.offTime ++ b1 e.count ++ optional Inhibit.bytes e.inhibit

/-- R197: a trip state. -/
def TripState.bytes : TripState → List Byte
  | .noTrip => [0, 0]
  | .loading => [1, 0]
  | .transit => [2, 0]
  | .atStop k => b1 3 ++ b1 k.val
  | .dock => [4, 0]

/-- R108: the trip record; the seal word is read as 0 in every state. -/
def TripRecord.bytes (r : TripRecord) : List Byte :=
  b4 r.tripId ++ b1 r.mode.number ++ b4 0 ++ b1 r.retention ++ b1 r.stopCount ++ r.state.bytes ++ n2 r.nextProof

/-- R115: a stop table entry. -/
def StopEntry.bytes (e : StopEntry) : List Byte :=
  b4 e.stopId ++ [e.doors.setWidth 8] ++ n2 e.budget ++ n2 e.settle ++ flag e.visited

/-- R197: advisory kinds. -/
def Advisory.byte (a : Advisory) : List Byte := b1 ((if a.hold then 1 else 0) + (if a.misdrop then 2 else 0))

/-- R124, log 12: a verdict in the order of a POLL; detail and seconds are 0 where the outcome has none. -/
def verdictBytes (clock : Clock) (pending : Option Pending) (v : Verdict) : List Byte :=
  (match v.outcome with | .accepted => b1 1 | .advise _ => b1 2 | .rejected _ => b1 3)
  ++ b1 v.action.number ++ b4 v.lot
  ++ (match v.outcome with
      | .accepted => [0, 0]
      | .advise k => k.byte ++ b1 (match pending with | some p => secondsLeft clock p.confirmBy | none => 0)
      | .rejected why => b1 why.number ++ [0])

/-- R124: a pending advisory. -/
def Pending.bytes (p : Pending) : List Byte := b4 p.lot ++ p.kinds.byte ++ b4 p.token ++ b4 p.confirmBy

/-- R124: a scan memory. -/
def ScanMem.bytes (clock : Clock) (m : ScanMem) : List Byte :=
  [m.number] ++ optional (verdictBytes clock m.pending) m.verdict ++ optional Pending.bytes m.pending

/-- R152: a proof list entry. -/
def ProofItem.bytes (p : ProofItem) : List Byte := b4 p.lot ++ n2 p.number ++ b4 p.check ++ b4 p.ackBy

/-- R172: a slot in use as the claim slot view gives it, its reach and its window deadline as optional fields (log 51); a
free slot is a presence byte 0 in its place (log 40). -/
def Slot.bytes (x : Slot) : List Byte :=
  b4 x.lot ++ [x.tag] ++ b1 x.state.number ++ optional b4 x.reach ++ optional b4 x.deadline

/-! ### Status (R190) -/

/-- R35: the set of zones whose step flag is set. -/
def stepSet (z : Zones) : ZoneSet :=
  (List.finRange 12).foldl (fun m i => if (z.rts.get i).stepFlag then m ||| (1#12 <<< i.val) else m) 0

/-- R190: the number of lot entries in a state. -/
def lotCount (lots : Vector LotEntry 96) (x : LotState) : Nat := countV (fun l => decide (l.state = x)) lots

/-- R17: the link fault record. -/
def LinkFault.bytes (f : LinkFault) : List Byte := b1 f.kind.number ++ [f.address] ++ b4 f.clock

/-- R158, R190: the journal's length, oldest and newest sequence; 0 while it is empty. -/
def Journal.statusBytes (j : Journal) : List Byte :=
  n2 j.entries.length ++ b4 ((j.entries.head?.map JEntry.seq).getD 0) ++ b4 ((j.entries.getLast?.map JEntry.seq).getD 0)

/-- R190: the status entry. -/
def statusBytes (s : State) : List Byte :=
  s.trip.record.state.bytes ++ b4 s.clock ++ flag s.trip.unsynced
  ++ [LotState.free, .expected, .onBoard, .handover, .delivered, .short, .returned].flatMap (fun x => b1 (lotCount s.lots x))
  ++ b2 ((raisedSet s.trunk.flags).setWidth 16) ++ s.trunk.flags.toList.flatMap (fun f => f.subject.bytes)
  ++ b2 ((stepSet s.zones).setWidth 16) ++ s.sensor.fault.bytes ++ n2 s.trunk.errors
  ++ s.journal.statusBytes ++ b1 s.proofs.list.length ++ b1 s.trunk.queue.length ++ [s.trunk.addr]

/-! ### Tables by number -/

/-- The bytes of a table's entry at a place from 0; none past its end. -/
def rowBytes {α : Type} {n : Nat} (v : Vector α n) (i : Nat) (f : α → List Byte) : List Byte :=
  if h : i < n then f (v.get ⟨i, h⟩) else []

/-- R187: a table's first index and its number of entries; the proof list view holds those of its list now, and its
first index is 0 (log 53). -/
def tableSpan (s : State) (table : Nat) : Option (Nat × Nat) :=
  match table with
  | 1 | 2 | 15 => some (0, 32)
  | 4 | 5 => some (1, 12)
  | 6 => some (0, 8)
  | 8 => some (0, 96)
  | 9 | 10 => some (1, 4)
  | 11 => some (1, 2)
  | 13 => some (0, 25)
  | 17 => some (0, s.proofs.list.length)
  | 19 => some (0, 4)
  | 3 | 7 | 12 | 14 | 16 | 18 | 20 | 21 => some (0, 1)
  | _ => none

/-- R187, R196: the entry at an index of a table, as the state stands. -/
def entryBytes (s : State) (table i : Nat) : List Byte :=
  match table with
  | 1 => rowBytes s.sensor.nodes i NodeEntry.bytes
  | 2 => rowBytes s.sensor.rts i NodeRt.bytes
  | 3 => s.sensor.settings.bytes
  | 4 => rowBytes s.zones.entries (i - 1) ZoneEntry.bytes
  | 5 => rowBytes s.zones.rts (i - 1) ZoneRt.bytes
  | 6 => rowBytes s.engine.classes i ClassEntry.bytes
  | 7 => s.engine.bytes
  | 8 => rowBytes s.lots i LotEntry.bytes
  | 9 => rowBytes s.doors.entries (i - 1) DoorEntry.bytes
  | 10 => if h : i - 1 < 4 then doorRtBytes s ⟨i - 1, h⟩ else []
  | 11 => rowBytes s.beacons.entries (i - 1) BeaconEntry.bytes
  | 12 => s.trip.record.bytes
  | 13 => rowBytes s.trip.stops i StopEntry.bytes
  | 14 => b1 s.scans.advisory
  | 15 => rowBytes s.scans.mem i (ScanMem.bytes s.clock)
  | 16 => n2 s.proofs.window
  | 17 => ((s.proofs.list[i]?).map ProofItem.bytes).getD []
  | 18 => n2 s.claims.window
  | 19 => rowBytes s.claims.slots i (optional Slot.bytes)
  | 20 => b2 (s.trunk.reportBits.setWidth 16)
  | 21 => statusBytes s
  | _ => []

end Sys2Proof.Machine
end

