-- ==== Sys2Proof/Machine/Reads.lean ====
section
/-! DEFINITION. Table reads: MG_READ and its later frames (spec 11 R187). -/

namespace Sys2Proof.Machine

/-- R187: whether a read has an entry of its count left to encode, in the table as it stands. -/
def ReadRec.hasMore (s : State) (r : ReadRec) : Bool :=
  decide (0 < r.left) && (match tableSpan s r.table with
    | some (first, n) => decide (r.next < first + n)
    | none => false)

/-- R187: entries encoded one after another until a piece of 52 bytes is filled or none is left; the first
argument bounds the entries of one piece. -/
def ReadRec.fill : Nat → State → ReadRec → ReadRec
  | 0, _, r => r
  | n + 1, s, r =>
    if r.carry.length < Config.readPiece ∧ r.hasMore s then
      ReadRec.fill n s { r with carry := r.carry ++ entryBytes s r.table r.next, next := r.next + 1, left := r.left - 1 }
    else r

/-- R187: whether a filled read ends with the frame that carries its first piece. -/
def ReadRec.ends (s : State) (r : ReadRec) : Bool := decide (r.carry.length ≤ Config.readPiece) && !r.hasMore s

/-- R187: the frame of a filled read: its first piece, with the End mark on a last frame that the table's last
index ended. -/
def ReadRec.frame (s : State) (r : ReadRec) : OutFrame :=
  rspFrame r.target .done (tagOf (decide (r.frames = 0)) (r.ends s) r.frames) (r.ends s && decide (0 < r.left))
    (r.carry.take Config.readPiece) (.read r.id)

/-- R187: a filled read after its frame. -/
def ReadRec.after (s : State) (r : ReadRec) : Option ReadRec :=
  if r.ends s then none
  else some { r with carry := r.carry.drop Config.readPiece, frames := r.frames + 1, due := false }

/-- The read in progress replaced. -/
def setRead (r : Option ReadRec) (s : State) : State := { s with trunk := { s.trunk with read := r } }

/-- R187: the next frame of a read, built from the tables as they stand and handed over; a frame that is not
admitted is dropped, and the read ends. -/
def sendPiece (r : ReadRec) (s : State) : State :=
  let x := r.fill Config.readPiece s
  let out := hand (x.frame s) (setRead (x.after s) s)
  if out.2 then out.1 else setRead none out.1

/-- R187: a read of a table begins. -/
def beginRead (target : ReplyTo) (table first count : Nat) (s : State) : State :=
  sendPiece { id := s.trunk.reads, target := target, table := table, next := first, left := count, carry := [],
              frames := 0, due := false }
    { s with trunk := { s.trunk with reads := s.trunk.reads + 1 } }

/-- R187: how a read is judged: BadValue, Done with the End mark and no entries, or a read. -/
inductive ReadCase where
  | badValue | empty | entries
  deriving DecidableEq, Repr

/-- R187: the judgment of a table, a first index and a count. -/
def judgeRead (s : State) (table first count : Nat) : ReadCase :=
  match tableSpan s table with
  | none => .badValue
  | some (lo, n) =>
    if count = 0 ∨ first < lo then .badValue
    else if lo + n ≤ first then .empty
    else .entries

/-- R187: an MG_READ; it ends a read in progress (log 26). -/
def tableRead (target : ReplyTo) (table first count : Nat) (s : State) : State :=
  let s1 := setRead none s
  match judgeRead s table first count with
  | .badValue => reply target .badValue s1
  | .empty => (hand (rspFrame target .done tagSingle true [] .plain) s1).1
  | .entries => beginRead target table first count s1

/-- MG_READ (R187); a payload of another length is BadValue (R183). -/
def execMgRead (h : ReqHdr) (payload : List Byte) (s : State) : Answer :=
  onRequest h s fun s =>
    match payload with
    | [table, first, count] => tableRead (replyTo h kMgRead) table.toNat first.toNat count.toNat s
    | _ => reply (replyTo h kMgRead) .badValue s

/-- R187: whether the frame before the read's next one has begun its transmission. -/
def readDue (s : State) : Bool :=
  match s.trunk.read with
  | some r => r.due
  | none => false

/-- MG_READ_NEXT_FRAME (R187). -/
def execMgReadNextFrame (s : State) : Answer :=
  .next (match s.trunk.read with
    | some r => if r.due then sendPiece { r with due := false } s else s
    | none => s)

end Sys2Proof.Machine
end

