-- ==== Sys2Proof/Machine/Management.lean ====
section
/-! DEFINITION. The trunk port's own commands: refused writes and commands, event settings and clears, the trunk
address, frame errors, the end of a transmission (spec 11 R183, R184, R188 to R193). -/

namespace Sys2Proof.Machine

/-- MG_WRITE_REFUSED (R188 rows 1 and 2, R183); a payload that spells a write is of that write's row (log 4). -/
def execMgWriteRefused (h : ReqHdr) (payload : List Byte) (s : State) : Answer :=
  match decodeWrite h payload with
  | none => onRequest h s fun s => reply (replyTo h kMgWrite) .badValue s
  | some _ => .refused .notThisRow

/-- MG_CMD_INVALID (R189, R183); a payload that spells a command is of that command's row (log 4). -/
def execMgCmdInvalid (h : ReqHdr) (payload : List Byte) (s : State) : Answer :=
  match decodeCommand h payload with
  | none => onRequest h s fun s => reply (replyTo h kMgCmd) .badValue s
  | some _ => .refused .notThisRow

/-- FRAME_ERROR (R183); while a RESET Full is pending the frame is not counted. A good frame is of another row
(log 4). -/
def execFrameError (f : Frame) (check : Half) (s : State) : Answer :=
  if isFrameError s.trunk.addr f check then .next (if s.trunk.reset ≠ .none then s else countError s)
  else .refused .notThisRow

/-- R192: a write to the event settings, and its answer. NoEntry is judged before BadValue (log 49). -/
def eventSettingsWrite (index : Byte) (kinds : Half) (s : State) : State × ReplyCode :=
  if index ≠ 0 then (s, .noEntry)
  else
    match maskOf 13 kinds with
    | none => (s, .badValue)
    | some set => ({ s with trunk := { s.trunk with reportBits := set } }, .done)

/-- EVENT_SETTINGS_WRITE (R192). -/
def execEventSettingsWrite (h : ReqHdr) (index : Byte) (kinds : Half) (s : State) : Answer :=
  onRequest h s fun s => answered h kMgWrite (eventSettingsWrite index kinds s)

/-- R35, R192: the step flag of every zone is cleared when Step is named. -/
def clearSteps (set : KindSet) (z : Zones) : Zones :=
  if set.getLsbD EventKind.step.index.val then { z with rts := mapV (fun r => { r with stepFlag := false }) z.rts } else z

/-- R192: a clearing of a set of kinds. -/
def clearEvents (set : KindSet) (s : State) : State :=
  let flags := lowerFlags set s.trunk.flags
  { s with trunk := { s.trunk with flags := flags }, zones := clearSteps set s.zones,
           beacons := s.beacons.onClear (raisedSet flags) }

/-- R192: EVENT_CLEAR, and its answer. -/
def eventClear (kinds : Half) (s : State) : State × ReplyCode :=
  match maskOf 13 kinds with
  | none => (s, .badValue)
  | some set => (clearEvents set s, .done)

/-- EVENT_CLEAR (R192). -/
def execEventClear (h : ReqHdr) (kinds : Half) (s : State) : Answer :=
  onRequest h s fun s => answered h kMgCmd (eventClear kinds s)

/-- R193: SET_ADDRESS, and its answer. -/
def setAddress (a : Byte) (s : State) : State × ReplyCode :=
  if 1 ≤ a.toNat ∧ a.toNat ≤ 0x7F then ({ s with trunk := { s.trunk with addr := a } }, .done) else (s, .badValue)

/-- SET_ADDRESS (R193). -/
def execSetAddress (h : ReqHdr) (a : Byte) (s : State) : Answer :=
  onRequest h s fun s => answered h kMgCmd (setAddress a s)

/-- R184: the outbound line becomes idle and takes the next frame. -/
def Trunk.endTx (t : Trunk) : Trunk := Trunk.begin { t with tx := none }

/-- R195: the end of the transmission of a pending RESET Full's Done. -/
def Trunk.doneSent (t : Trunk) : Trunk :=
  match t.tx with
  | some x => if x.origin = .resetDone ∧ t.reset = .pending then { t with reset := .doneSent } else t
  | none => t

/-- TRANSMISSION_END (R184): the next frame begins its transmission, and a waiting export offers again (R168);
with nothing in transmission there is nothing to end. -/
def execTransmissionEnd (s : State) : Answer :=
  .next (match s.trunk.tx with
    | none => s
    | some _ => offer offerFuel { s with trunk := s.trunk.doneSent.endTx })

end Sys2Proof.Machine
end

