-- ==== Sys2Proof/Machine/Resets.lean ====
section
/-! DEFINITION. The three resets (spec 11 R193 to R195, with the reset rules of every unit: R23, R40, R61, R85, R107,
R123, R144, R157, R171, R182). -/

namespace Sys2Proof.Machine

/-! ### RESET_LINK (R194) -/

/-- R10: the rotation rebuilt: the enabled Scanner entries in index order. -/
def rebuiltRotation (nodes : Vector NodeEntry 32) : List (Fin 32) :=
  (List.finRange 32).filter fun n => (nodes.get n).enabled && decide ((nodes.get n).kind = .scanner)

/-- R23: the controller after RESET Link. -/
def Sensor.resetLink (x : Sensor) (now : Nat) : Sensor :=
  { Sensor.powerOn now with nodes := x.nodes, settings := x.settings, rotation := rebuiltRotation x.nodes }

/-- R182: the claim unit after RESET Link. -/
def Claims.resetLink (c : Claims) : Claims := { Claims.powerOn with window := c.window }

/-- R194 steps 1 to 8. -/
def linkReset (s : State) : State :=
  { s with trunk := { s.trunk with queue := [], read := none },
           sensor := s.sensor.resetLink s.ref,
           claims := s.claims.resetLink,
           exporter := (endExport s).exporter,
           scans := { s.scans with mem := Scans.powerOn.mem },
           beacons := { s.beacons with trains := Beacons.powerOn.trains } }

/-- RESET_LINK (R194); its MG_RSP Done joins the emptied queue. -/
def execResetLink (h : ReqHdr) (s : State) : Answer :=
  onRequest h s fun s => answered h kMgCmd (linkReset s, .done)

/-! ### RESET_FULL (R195) -/

/-- R195: RESET_FULL is taken: the queue holds its MG_RSP Done alone, and the reset is pending. -/
def Trunk.beginFull (target : ReplyTo) (t : Trunk) : Trunk :=
  Trunk.begin { t with queue := [rspFrame target .done tagSingle false [] .resetDone], read := none, reset := .pending }

/-- RESET_FULL (R195). -/
def execResetFull (h : ReqHdr) (s : State) : Answer :=
  onRequest h s fun s => { s with trunk := s.trunk.beginFull (replyTo h kMgCmd) }

/-- R184: a frame in transmission is sent to its end, resets included (log 23); it is no longer the Done of a
pending reset. -/
def keptTx (t : Trunk) : Option TxFrame := t.tx.map fun x => { x with origin := .plain }

/-- R107: the door unit sampled from the lines as they stand. -/
def Doors.resampled (d : Doors) : Doors :=
  Doors.powerOn (d.rts.get 0).line (d.rts.get 1).line (d.rts.get 2).line (d.rts.get 3).line

/-- R195: every block takes its power-on values, at a reference time, with the clock, its mark, the trunk address and
the straps given. -/
def powerOnState (now : Nat) (straps : BitVec 2) (clock : Clock) (unsynced : Bool) (addr : Byte) (s : State) : State :=
  { pending := s.pending, ref := now, straps := straps, free := s.free, sensor := Sensor.powerOn now,
    zones := Zones.powerOn, engine := Engine.powerOn now, lots := Vector.replicate 96 LotEntry.free,
    doors := s.doors.resampled, beacons := Beacons.powerOn, trip := Trip.powerOn clock unsynced, scans := Scans.powerOn,
    proofs := Proofs.powerOn, journal := Journal.powerOn, exporter := (endExport s).exporter, claims := Claims.powerOn,
    trunk := { Trunk.powerOn addr with tx := keptTx s.trunk } }

/-- R195: the reset takes effect: the device clock, its unsynced mark and the trunk address stand. -/
def fullReset (s : State) : State := powerOnState s.ref s.straps s.clock s.trip.unsynced s.trunk.addr s

/-- RESET_FULL_TAKES_EFFECT (R195), when the transmission of the Done has ended. -/
def execResetFullTakesEffect (s : State) : Answer :=
  .next (if s.trunk.reset = .doneSent then fullReset s else s)

/-! ### Power-on reset (R195) -/

/-- POWER_ON_RESET (R195, R193, R118), with the strap lines at a level. -/
def execPowerOnReset (straps : BitVec 2) (s : State) : Answer :=
  .next (powerOnState 0 straps 0 true (strapAddress straps) s)

end Sys2Proof.Machine
end

