-- ==== Sys2Proof/Machine/Dispatch.lean ====
section
/-! DEFINITION. The meaning of every command: one arm per row of the table of operations and events. -/

namespace Sys2Proof.Machine

/-- A command's effect on everything but the queue of waiting commands. -/
def exec (i : Instr) (s : State) : Host.Outcome State Fault Refusal :=
  match i with
  | .powerOnReset straps => Sys2Proof.Machine.execPowerOnReset straps s
  | .roundStart => Sys2Proof.Machine.execRoundStart s
  | .poll => Sys2Proof.Machine.execPoll s
  | .thruOut => Sys2Proof.Machine.execThruOut s
  | .replyReading src tag raw quality => Sys2Proof.Machine.execReplyReading src tag raw quality s
  | .replyScan src tag scan => Sys2Proof.Machine.execReplyScan src tag scan s
  | .replyIdle src tag => Sys2Proof.Machine.execReplyIdle src tag s
  | .badReply frame check => Sys2Proof.Machine.execBadReply frame check s
  | .replyWindowExpiry => Sys2Proof.Machine.execReplyWindowExpiry s
  | .straySensorFrame frame check => Sys2Proof.Machine.execStraySensorFrame frame check s
  | .thruBack src tag payload => Sys2Proof.Machine.execThruBack src tag payload s
  | .thruWindowOtherFrame frame check => Sys2Proof.Machine.execThruWindowOtherFrame frame check s
  | .throughWindowExpiry => Sys2Proof.Machine.execThroughWindowExpiry s
  | .throughFrame frame => Sys2Proof.Machine.execThroughFrame frame s
  | .roundEnd => Sys2Proof.Machine.execRoundEnd s
  | .updateEvent => Sys2Proof.Machine.execUpdateEvent s
  | .mgRead h payload => Sys2Proof.Machine.execMgRead h payload s
  | .mgReadNextFrame => Sys2Proof.Machine.execMgReadNextFrame s
  | .mgWriteRefused h payload => Sys2Proof.Machine.execMgWriteRefused h payload s
  | .nodeTableWrite h index f => Sys2Proof.Machine.execNodeTableWrite h index f s
  | .lineSettingsWrite h index f => Sys2Proof.Machine.execLineSettingsWrite h index f s
  | .zoneTableWrite h index f => Sys2Proof.Machine.execZoneTableWrite h index f s
  | .classTableWrite h index f => Sys2Proof.Machine.execClassTableWrite h index f s
  | .engineSettingsWrite h index f => Sys2Proof.Machine.execEngineSettingsWrite h index f s
  | .manifestAdd h index f => Sys2Proof.Machine.execManifestAdd h index f s
  | .manifestDelete h index lot => Sys2Proof.Machine.execManifestDelete h index lot s
  | .doorTableWrite h index f => Sys2Proof.Machine.execDoorTableWrite h index f s
  | .beaconTableWrite h index f => Sys2Proof.Machine.execBeaconTableWrite h index f s
  | .stopTableWrite h index f => Sys2Proof.Machine.execStopTableWrite h index f s
  | .scanSettingsWrite h index window => Sys2Proof.Machine.execScanSettingsWrite h index window s
  | .proofSettingsWrite h index window => Sys2Proof.Machine.execProofSettingsWrite h index window s
  | .claimSettingsWrite h index window => Sys2Proof.Machine.execClaimSettingsWrite h index window s
  | .eventSettingsWrite h index kinds => Sys2Proof.Machine.execEventSettingsWrite h index kinds s
  | .mgCmdInvalid h payload => Sys2Proof.Machine.execMgCmdInvalid h payload s
  | .tripOpen h p => Sys2Proof.Machine.execTripOpen h p s
  | .depart h => Sys2Proof.Machine.execDepart h s
  | .arrive h stop => Sys2Proof.Machine.execArrive h stop s
  | .tripClose h => Sys2Proof.Machine.execTripClose h s
  | .moveLot h lot zone => Sys2Proof.Machine.execMoveLot h lot zone s
  | .armSeal h door => Sys2Proof.Machine.execArmSeal h door s
  | .beaconClear h beacons => Sys2Proof.Machine.execBeaconClear h beacons s
  | .timeSet h clock => Sys2Proof.Machine.execTimeSet h clock s
  | .eventClear h kinds => Sys2Proof.Machine.execEventClear h kinds s
  | .setAddress h address => Sys2Proof.Machine.execSetAddress h address s
  | .resetLink h => Sys2Proof.Machine.execResetLink h s
  | .resetFull h => Sys2Proof.Machine.execResetFull h s
  | .resetFullTakesEffect => Sys2Proof.Machine.execResetFullTakesEffect s
  | .doorLineChange door high => Sys2Proof.Machine.execDoorLineChange door high s
  | .debounceExpiry door => Sys2Proof.Machine.execDebounceExpiry door s
  | .assumedOpenTimeExpiry door => Sys2Proof.Machine.execAssumedOpenTimeExpiry door s
  | .recoveryWindowEnd door => Sys2Proof.Machine.execRecoveryWindowEnd door s
  | .doorOverlong door => Sys2Proof.Machine.execDoorOverlong door s
  | .beaconPhaseEnd beacon => Sys2Proof.Machine.execBeaconPhaseEnd beacon s
  | .advisoryExpiry node => Sys2Proof.Machine.execAdvisoryExpiry node s
  | .settleDeadline lot => Sys2Proof.Machine.execSettleDeadline lot s
  | .ackDeadline lot => Sys2Proof.Machine.execAckDeadline lot s
  | .proofAck h payload => Sys2Proof.Machine.execProofAck h payload s
  | .retentionExpiry lot => Sys2Proof.Machine.execRetentionExpiry lot s
  | .jrnlReq h payload => Sys2Proof.Machine.execJrnlReq h payload s
  | .claimQ h payload => Sys2Proof.Machine.execClaimQ h payload s
  | .buildCompletion => Sys2Proof.Machine.execBuildCompletion s
  | .claimWindowDeadline slot => Sys2Proof.Machine.execClaimWindowDeadline slot s
  | .frameError frame check => Sys2Proof.Machine.execFrameError frame check s
  | .transmissionEnd => Sys2Proof.Machine.execTransmissionEnd s

end Sys2Proof.Machine
end

