-- ==== Sys2Proof/Machine/Time.lean ====
section
/-! DEFINITION. What the part does when no command waits: an event of its own that is due, or else a millisecond of
the reference clock (log 2, log 5; spec 06 R118, R121, R122). -/

namespace Sys2Proof.Machine

/-- R118: the device clock advances by one and holds at its greatest value. -/
def tickClock (c : Clock) : Clock := satAdd c 1

/-- R118, log 5: one millisecond passes; at each full second the device clock advances. -/
def advance (s : State) : State :=
  let t := s.ref + 1
  { s with ref := t, trip := { s.trip with clock := if t % 1000 = 0 then tickClock s.clock else s.clock } }

/-- The events of a kind that are due, in number order. -/
def dueOf {n : Nat} (p : Fin n → Bool) (c : Fin n → Instr) : List Instr := ((List.finRange n).filter p).map c

/-- An event that is due or not. -/
def dueIf (p : Bool) (c : Instr) : List Instr := if p then [c] else []

/-- R176, log 27: a walk has run the longest time that the manual gives one. -/
def buildDue (s : State) : Bool :=
  match s.claims.builder with
  | some b => decide (b.began + Config.walkLimit ≤ s.ref)
  | none => false

/-- R6: whether a scheduled poll is made now. -/
def pollReady (s : State) : Bool := pollFree s && s.sensor.pollDue

/-- R6: whether a through exchange begins now. -/
def thruReady (s : State) : Bool := thruFree s && !s.sensor.throughQ.isEmpty

/-- Log 2: the events that are due, in the order in which an idle step takes them. -/
def dueEvents (s : State) : List Instr :=
  dueIf (decide (s.trunk.reset = .doneSent)) .resetFullTakesEffect
  ++ dueIf (readDue s) .mgReadNextFrame
  ++ dueOf (debounceHeld s) .debounceExpiry
  ++ dueOf (assumedDue s) .assumedOpenTimeExpiry
  ++ dueOf (overlongDue s) .doorOverlong
  ++ dueOf (phaseDue s) .beaconPhaseEnd
  ++ dueOf (advisoryDue s) .advisoryExpiry
  ++ dueOf (settleDue s) .settleDeadline
  ++ dueOf (fun i => (ackDue s i).isSome) .ackDeadline
  ++ dueOf (retentionDue s) .retentionExpiry
  ++ dueOf (claimDue s) .claimWindowDeadline
  ++ dueIf (buildDue s) .buildCompletion
  ++ dueIf (updateDue s) .updateEvent
  ++ dueIf (pollExpired s) .replyWindowExpiry
  ++ dueIf (thruExpired s) .throughWindowExpiry
  ++ dueIf (roundEndDue s) .roundEnd
  ++ dueIf (roundStartDue s) .roundStart
  ++ dueIf (thruReady s) .thruOut
  ++ dueIf (pollReady s) .poll

/-- Log 2: the event that an idle step takes. -/
def nextDue (s : State) : Option Instr := (dueEvents s).head?

end Sys2Proof.Machine
end

