-- ==== Sys2Proof/WellFormed.lean ====
section
/-! DEFINITION. Which commands are frames that the lines can carry and that belong to their own row of the table
(spec 11 R183, R188, R189, R196). Numbers of doors, beacons, lots, nodes and slots are in range by their types. -/

namespace Sys2Proof

/-- R196: the Length byte of a frame names at most 255 payload bytes. -/
def Frame.carried (f : Frame) : Bool := decide (f.payload.length ≤ 255)

/-- R183: the payload of a frame that is taken has at most 56 bytes. -/
def shortPayload (payload : List Byte) : Bool := decide (payload.length ≤ 56)

/-- Whether a command is well formed. -/
def Instr.wellFormed : Instr → Bool
  | .badReply f _ => f.carried
  | .straySensorFrame f _ => f.carried
  | .thruWindowOtherFrame f _ => f.carried
  | .frameError f _ => f.carried
  | .thruBack _ _ payload => shortPayload payload
  | .throughFrame f => Machine.isAlias f.dest && shortPayload f.payload
  | .mgRead _ payload => shortPayload payload
  | .mgWriteRefused h payload => shortPayload payload && (decodeWrite h payload).isNone
  | .mgCmdInvalid h payload => shortPayload payload && (decodeCommand h payload).isNone
  | .proofAck _ payload => shortPayload payload
  | .jrnlReq _ payload => shortPayload payload
  | .claimQ _ payload => shortPayload payload
  | _ => true

end Sys2Proof
end

