-- ==== Sys2Proof/Safety.lean ====
section
/-! DEFINITION. The words in which statements are made: when a request is taken, what an operation leaves as it was,
and the bounds and agreements that every step keeps. -/

namespace Sys2Proof.Machine

/-! ### When a command is taken -/

/-- R183, R195: a request reaches its block: it is sent to the trunk address and no RESET Full is pending. -/
def Taken (h : ReqHdr) (s : State) : Prop := s.trunk.reset = .none ∧ h.dest.setWidth 8 = s.trunk.addr

/-- R196, R197: the bytes of an optional field: absent, or present and its value. -/
def optionalBytes (x : Option (List Byte)) : List Byte := match x with
  | none => [0]
  | some bytes => 1 :: bytes

/-- R188, R197: the payload of the MG_WRITE that a table write is: its table, its index, and its fields in order. -/
def writePayload : Instr → Option (ReqHdr × List Byte)
  | .nodeTableWrite h i f => some (h, [1, i, f.enabled, f.address, f.kind, f.zone, f.offset, f.dwell, f.policy, f.policyParam]
      ++ optionalBytes (f.aliasAddr.map fun x => [x]) ++ [f.lostLimit])
  | .lineSettingsWrite h i f => some (h, [3, i, f.roundFloor, f.replyWindow])
  | .zoneTableWrite h i f => some (h, [4, i, f.enabled] ++ b2 f.staleness ++ [f.step])
  | .classTableWrite h i f => some (h, [6, i] ++ b2 f.tw ++ b2 f.ts ++ [f.lag] ++ b4 f.watch ++ b4 f.hold ++ [f.shock])
  | .engineSettingsWrite h i f => some (h, [7, i, f.period, f.interval] ++ b4 f.lastUpdate)
  | .manifestAdd h i f => some (h, [8, i] ++ b4 f.lot ++ [0, f.cls, f.zone] ++ optionalBytes (f.planned.map fun x => [x])
      ++ optionalBytes (f.inherited.map b4) ++ optionalBytes (f.arrival.map b2))
  | .manifestDelete h i lot => some (h, [8, i] ++ b4 lot ++ [1])
  | .doorTableWrite h i f => some (h, [9, i, f.mode, f.polarity, f.debounce] ++ b2 f.zones ++ b2 f.recovery ++ b2 f.assumed)
  | .beaconTableWrite h i f => some (h, [11, i] ++ b2 f.causes ++ [f.onTime, f.offTime, f.count]
      ++ optionalBytes (f.inhibit.map fun x => [x.1, x.2]))
  | .stopTableWrite h i f => some (h, [13, i] ++ b4 f.stopId ++ [f.doors] ++ b2 f.budget ++ b2 f.settle ++ [f.visited])
  | .scanSettingsWrite h i window => some (h, [14, i, window])
  | .proofSettingsWrite h i window => some (h, [16, i] ++ b2 window)
  | .claimSettingsWrite h i window => some (h, [18, i] ++ b2 window)
  | .eventSettingsWrite h i kinds => some (h, [20, i] ++ b2 kinds)
  | _ => none

/-- R189, R197: the payload of the MG_CMD that a command is: its number in the order of R189, and its parameters. -/
def commandPayload : Instr → Option (ReqHdr × List Byte)
  | .tripOpen h p => some (h, [1] ++ b4 p.tripId ++ [p.mode] ++ b4 p.sealWord ++ optionalBytes (p.retention.map fun x => [x])
      ++ optionalBytes (p.stopCount.map fun x => [x]))
  | .depart h => some (h, [2])
  | .arrive h stop => some (h, [3, stop])
  | .tripClose h => some (h, [4])
  | .moveLot h lot zone => some (h, [5] ++ b4 lot ++ [zone])
  | .armSeal h door => some (h, [6, door])
  | .beaconClear h beacons => some (h, [7, beacons])
  | .timeSet h clock => some (h, [8] ++ b4 clock)
  | .eventClear h kinds => some (h, [9] ++ b2 kinds)
  | .setAddress h address => some (h, [10, address])
  | .resetLink h => some (h, [11])
  | .resetFull h => some (h, [12])
  | _ => none

/-- R183, R186: the header of the commands that are a request to the trunk address. -/
def requestHeader : Instr → Option ReqHdr
  | .mgRead h _ | .mgWriteRefused h _ | .nodeTableWrite h _ _ | .lineSettingsWrite h _ _ | .zoneTableWrite h _ _
  | .classTableWrite h _ _ | .engineSettingsWrite h _ _ | .manifestAdd h _ _ | .manifestDelete h _ _
  | .doorTableWrite h _ _ | .beaconTableWrite h _ _ | .stopTableWrite h _ _ | .scanSettingsWrite h _ _
  | .proofSettingsWrite h _ _ | .claimSettingsWrite h _ _ | .eventSettingsWrite h _ _ | .mgCmdInvalid h _ | .tripOpen h _
  | .depart h | .arrive h _ | .tripClose h | .moveLot h _ _ | .armSeal h _ | .beaconClear h _ | .timeSet h _
  | .eventClear h _ | .setAddress h _ | .resetLink h | .resetFull h | .proofAck h _ | .jrnlReq h _ | .claimQ h _ => some h
  | _ => none

/-- R185: what a Reply finds: no RESET Full is pending and the queue does not hold 24 Reply frames. -/
def RoomForReply (s : State) : Prop :=
  s.trunk.reset = .none ∧ (s.trunk.queue.length < 24 ∨ ∃ f ∈ s.trunk.queue, f.cls ≠ .reply)

/-- The MG_RSP of one frame and no body that answers a request (R186, R197). -/
def rsp (h : ReqHdr) (kind : Byte) (code : ReplyCode) : OutFrame :=
  rspFrame (replyTo h kind) code tagSingle false [] .plain

/-! ### Frames: what an operation leaves as it was -/

/-- Everything but the outbound queue, the outbound line, the read's mark that its frame has begun, and the export
is as it was: what handing a frame to the trunk port may change. -/
structure Sent (s t : State) : Prop where
  pending : t.pending = s.pending
  ref     : t.ref = s.ref
  straps  : t.straps = s.straps
  free    : t.free = s.free
  sensor  : t.sensor = s.sensor
  zones   : t.zones = s.zones
  engine  : t.engine = s.engine
  lots    : t.lots = s.lots
  doors   : t.doors = s.doors
  beacons : t.beacons = s.beacons
  trip    : t.trip = s.trip
  scans   : t.scans = s.scans
  proofs  : t.proofs = s.proofs
  journal : t.journal = s.journal
  claims  : t.claims = s.claims
  trunk   : t.trunk = { s.trunk with queue := t.trunk.queue, tx := t.trunk.tx, read := t.trunk.read }

/-- A command answers a next state: that of `u` with the frame `f` handed to the trunk port. Nothing but the outbound
queue, the outbound line, the read's mark and the export differs from `u`. -/
def Completes (c : Instr) (s u : State) (f : OutFrame) : Prop :=
  exec c s = .next (hand f u).1 ∧ Sent u (hand f u).1

/-- A request is answered by one MG_RSP of a code, and leaves the state `u` beside it. -/
def Replies (c : Instr) (s u : State) (h : ReqHdr) (kind : Byte) (code : ReplyCode) : Prop :=
  Completes c s u (rsp h kind code)

/-- As Sent, but that raw flags and beacon trains may change too: what a raising may change. -/
structure Raised (s t : State) : Prop where
  pending : t.pending = s.pending
  ref     : t.ref = s.ref
  straps  : t.straps = s.straps
  free    : t.free = s.free
  sensor  : t.sensor = s.sensor
  zones   : t.zones = s.zones
  engine  : t.engine = s.engine
  lots    : t.lots = s.lots
  doors   : t.doors = s.doors
  beacons : t.beacons.entries = s.beacons.entries
  trip    : t.trip = s.trip
  scans   : t.scans = s.scans
  proofs  : t.proofs = s.proofs
  journal : t.journal = s.journal
  claims  : t.claims = s.claims
  trunk   : t.trunk = { s.trunk with queue := t.trunk.queue, tx := t.trunk.tx, read := t.trunk.read, flags := t.trunk.flags }

/-- As Raised, but that the journal, the claim slots and the lots' gap counts may change too: what an append may
change. -/
structure Recorded (s t : State) : Prop where
  pending : t.pending = s.pending
  ref     : t.ref = s.ref
  straps  : t.straps = s.straps
  sensor  : t.sensor = s.sensor
  zones   : t.zones = s.zones
  engine  : t.engine = s.engine
  lots    : ∀ i, t.lots.get i = { s.lots.get i with gaps := (t.lots.get i).gaps }
  doors   : t.doors = s.doors
  beacons : t.beacons.entries = s.beacons.entries
  trip    : t.trip = s.trip
  scans   : t.scans = s.scans
  proofs  : t.proofs = s.proofs
  window  : t.claims.window = s.claims.window
  trunk   : t.trunk = { s.trunk with queue := t.trunk.queue, tx := t.trunk.tx, read := t.trunk.read, flags := t.trunk.flags }

/-- R158, R159, R161: with room in the journal, the state `t` holds one entry more than `s`: the draft given, with the
next sequence number, the clock and the unsynced mark as they stand in `s`. -/
def Appends (s t : State) (d : Draft) : Prop :=
  s.journal.entries.length < 6144 →
    let e : JEntry :=
      { place := s.journal.appended, seq := s.journal.nextSeq, clock := s.trip.clock, unsynced := s.trip.unsynced, kind := d.kind,
        lot := d.lot, zone := d.zone, zones := d.zones, door := d.door, v1 := d.v1, v2 := d.v2 }
    t.journal = { entries := s.journal.entries ++ [e], nextSeq := s.journal.nextSeq + 1, appended := s.journal.appended + 1 }

/-- R172, R176, R177: the claim unit after the slot `k` has been discarded at a time, with entries in the journal: the slot
is free and no longer in the opening order, and a build of it is abandoned. An idle builder takes the first Queued slot of
the opening order; no other slot changes. -/
structure Discarded (k : Fin 4) (now : Nat) (entries : List JEntry) (c c' : Claims) : Prop where
  window : c'.window = c.window
  order  : c'.order = c.order.filter (fun j => decide (j ≠ k))
  slot   : c'.slots.get k = none
  busy   : ∀ b, c.builder = some b → b.slot ≠ k → c'.builder = some b ∧ ∀ j, j ≠ k → c'.slots.get j = c.slots.get j
  idle   : (∀ b, c.builder = some b → b.slot = k) → (∀ j ∈ c'.order, ∀ y, c.slots.get j = some y → y.state ≠ .queued) →
    c'.builder = none ∧ ∀ j, j ≠ k → c'.slots.get j = c.slots.get j
  takes  : (∀ b, c.builder = some b → b.slot = k) → ∀ a m b y, c'.order = a ++ m :: b → c.slots.get m = some y →
    y.state = .queued → (∀ j ∈ a, ∀ z, c.slots.get j = some z → z.state ≠ .queued) →
    c'.builder = some { slot := m, began := now, taken := [], left := entries } ∧
    c'.slots.get m = some { y with state := .building, reach := entries.getLast?.map JEntry.seq } ∧
    ∀ j, j ≠ k → j ≠ m → c'.slots.get j = c.slots.get j

/-- R161: what a block handed the journal for an entry. -/
def JEntry.draft (e : JEntry) : Draft :=
  { kind := e.kind, lot := e.lot, zone := e.zone, zones := e.zones, door := e.door, v1 := e.v1, v2 := e.v2 }

/-- R158, R161: with room in the journal for all of them, the state `t` holds after the entries of `s` one entry for each
draft, in that order, with the clock and the unsynced mark as they stand in `s`. -/
def Tells (s t : State) (ds : List Draft) : Prop :=
  s.journal.entries.length + ds.length ≤ 6144 → ∃ new, t.journal.entries = s.journal.entries ++ new ∧
    new.map JEntry.draft = ds ∧ ∀ e ∈ new, e.clock = s.trip.clock ∧ e.unsynced = s.trip.unsynced

/-- An event answers a next state: that of `u` with one entry handed to the journal. -/
def Records (c : Instr) (s u : State) (d : Draft) : Prop := ∃ t, exec c s = .next t ∧ Recorded u t ∧ Appends u t d

/-- A request answers a next state: that of `u` with one entry handed to the journal, and then its MG_RSP. -/
def RepliesRecording (c : Instr) (s u : State) (h : ReqHdr) (kind : Byte) (code : ReplyCode) (d : Draft) : Prop :=
  ∃ w, Replies c s w h kind code ∧ Recorded u w ∧ Appends u w d

/-- What the shared operations over custody may not change: they act on lots, door runtimes, the trip record, the
proof list, the journal, the claim slots, the raw flags, the beacon trains and the outbound queue. -/
structure CustodyOnly (s t : State) : Prop where
  pending : t.pending = s.pending
  ref     : t.ref = s.ref
  straps  : t.straps = s.straps
  sensor  : t.sensor = s.sensor
  zones   : t.zones = s.zones
  engine  : t.engine = s.engine
  doors   : t.doors.entries = s.doors.entries
  beacons : t.beacons.entries = s.beacons.entries
  clock   : t.trip.clock = s.trip.clock
  unsynced : t.trip.unsynced = s.trip.unsynced
  stops   : t.trip.stops = s.trip.stops
  visit   : t.trip.visitStart = s.trip.visitStart
  scans   : t.scans = s.scans
  acks    : t.proofs.window = s.proofs.window
  window  : t.claims.window = s.claims.window
  trunk   : t.trunk = { s.trunk with queue := t.trunk.queue, tx := t.trunk.tx, read := t.trunk.read, flags := t.trunk.flags }

/-- R95, R138, R149: what a closing leaves once the doors stand as in `s`: with room in the journal for every seal, its
DoorClose entry and then the Seal entries; every lot in Handover in the zones of the closing Delivered with cause
DoorClose; every other lot as it was, but for what a refused append or a full proof list marks. -/
structure Closed (zones : ZoneSet) (d : Draft) (s t : State) : Prop where
  custody : CustodyOnly s t
  doors   : t.doors = s.doors
  lots    : ∀ i, (s.lots.get i).state = .handover → (s.lots.get i).handover ≠ none →
    zones.getLsbD (s.lots.get i).zone.val = true →
    (t.lots.get i).state = .delivered ∧ (t.lots.get i).handover = none ∧
    ∃ p, (t.lots.get i).proof = some p ∧ p.cause = .doorClose ∧ p.sealClock = s.trip.clock
  others  : ∀ i, ((s.lots.get i).state ≠ .handover ∨ (s.lots.get i).handover = none ∨
      zones.getLsbD (s.lots.get i).zone.val = false) →
    t.lots.get i = { s.lots.get i with gaps := (t.lots.get i).gaps, unconfirmed := (t.lots.get i).unconfirmed }
  entries : s.journal.entries.length + 96 < 6144 →
    let e : JEntry :=
      { place := s.journal.appended, seq := s.journal.nextSeq, clock := s.trip.clock, unsynced := s.trip.unsynced, kind := d.kind,
        lot := d.lot, zone := d.zone, zones := d.zones, door := d.door, v1 := d.v1, v2 := d.v2 }
    ∃ more, t.journal.entries = s.journal.entries ++ e :: more ∧ ∀ y ∈ more, y.kind = .seal

/-- R6, R7, R9, R10: a scheduled poll is due: in a round, the turn in progress has a poll left; or the walk reaches a
probe that this round polls; or a turn is owed to a scanner. -/
def PollAwaits (x : Sensor) : Prop :=
  ∃ r : Round, x.phase = .running r ∧
    ((∃ t, r.turn = some t ∧ 0 < t.left) ∨
     (r.walkEnded = false ∧ ∃ m : Fin 32, r.walked ≤ m.val ∧ (x.nodes.get m).enabled = true ∧ (x.nodes.get m).kind = .probe ∧
       (x.roundNo = 0 ∨ (x.rts.get m).state ≠ .lost)) ∨
     (x.rotation ≠ [] ∧ ((r.turn = none ∧ r.count = 4) ∨
       (r.walkEnded = false ∧ ((1 ≤ r.count ∧ r.count ≤ 3) ∨ r.polled = false)))))

/-- R6: what the arbiter holds of the line when an exchange has ended: idle when no through frame waits and no poll is
due, and else which kind of exchange has ended. -/
def LineFree (ended : Arbiter) (x : Sensor) (a : Arbiter) : Prop :=
  (x.throughQ = [] → ¬PollAwaits x → a = .idle) ∧ (x.throughQ ≠ [] ∨ PollAwaits x → a = ended)

/-- R6, R10: the line and the round after a poll has ended: an accessory turn ends with its last poll, and its scanner
goes from the head of the rotation to the tail; the arbiter then chooses anew. -/
def PollEnded (accessory : Bool) (x y : Sensor) : Prop :=
  LineFree .pollEnded { x with phase := y.phase, rotation := y.rotation } y.arbiter ∧
  (accessory = false → y.phase = x.phase ∧ y.rotation = x.rotation) ∧
  ∀ r t, accessory = true → x.phase = .running r → r.turn = some t →
    (t.left ≠ 0 → y.phase = x.phase ∧ y.rotation = x.rotation) ∧
    (t.left = 0 → y.phase = .running { r with turn := none } ∧
      ∀ rest, x.rotation = t.node :: rest → y.rotation = rest ++ [t.node])

/-- R12, R197: what a POLL carries: nothing to a Probe; to a Scanner its last scan number, and the outcome, action, lot,
detail and seconds of its last verdict. Bytes that an outcome has no use for are open (log 8). -/
def PollBody (s : State) (n : Fin 32) (body : List Byte) : Prop :=
  let m := s.scans.mem.get n
  match (s.sensor.nodes.get n).kind with
  | .probe => body = []
  | .scanner =>
    (∃ rest, body = m.number :: rest ∧ rest.length = 8) ∧
    (m.number = 0 ∨ m.verdict = none → ∃ rest, body = [m.number, 0] ++ rest) ∧
    (∀ v, m.number ≠ 0 → m.verdict = some v →
      let said := BitVec.ofNat 8 v.action.number :: b4 v.lot
      (v.outcome = .accepted → ∃ x y, body = [m.number, 1] ++ said ++ [x, y]) ∧
      (∀ kinds, v.outcome = .advise kinds → body = [m.number, 2] ++ said ++
        [BitVec.ofNat 8 ((if kinds.hold then 1 else 0) + (if kinds.misdrop then 2 else 0)),
         match m.pending with
         | some p => BitVec.ofNat 8 (min 255 (p.confirmBy.toNat - s.trip.clock.toNat))
         | none => 0]) ∧
      (∀ why, v.outcome = .rejected why → ∃ x, body = [m.number, 3] ++ said ++ [BitVec.ofNat 8 why.number, x]))

/-- The power-on values of every block, at a reference time, with the lines of the doors as they stand in a state (R2,
R4, R5, R23, R26, R40, R41, R43, R61, R63, R86, R87, R93, R102, R107, R108, R115, R123 to R125, R144, R151, R157, R171, R173,
R182, R192, R195); the model's own fields among them stand as log 36 has them. -/
def PoweredOn (now : Nat) (s t : State) : Prop :=
  t.ref = now ∧ t.pending = s.pending ∧
  (∀ n, t.sensor.nodes.get n =
      { enabled := false, address := 0, kind := .probe, zone := 0, offset := 0, dwell := 1, policy := .pass, aliasAddr := none,
        lostLimit := 3 } ∧
    t.sensor.rts.get n = { state := .new, misses := 0, last := none, everyN := 0, lastReported := none }) ∧
  t.sensor.settings = { roundFloor := 5, replyWindow := 10 } ∧ t.sensor.rotation = [] ∧ t.sensor.throughQ = [] ∧
  t.sensor.fault = { kind := .none, address := 0, clock := 0 } ∧ t.sensor.exchange = none ∧ t.sensor.arbiter = .idle ∧
  t.sensor.roundNo = 0 ∧
  t.sensor.phase = .running { began := now, walked := 0, count := 0, polled := false, walkEnded := false, turn := none } ∧
  (∀ z, t.zones.entries.get z = { enabled := false, staleness := 60, step := 30 } ∧
    t.zones.rts.get z = { state := .unset, air := none, stepFlag := false }) ∧
  (∀ c, t.engine.classes.get c = { tw := -180, ts := -120, lag := 0b01010, watch := 600, hold := 3000, shock := 2 }) ∧
  t.engine.period = 15 ∧ t.engine.interval = 20 ∧ t.engine.lastUpdate = 0 ∧ t.engine.timerStart = now ∧
  (∀ i, t.lots.get i =
    { lot := 0, state := .free, cls := 0, zone := 0, planned := none, inherited := 0, arrival := none, core := 0, handling := 0,
      equipment := 0, grade := .good, soft := false, cycles := 0, peak := -600, peakClock := 0, blind := false,
      unconfirmed := false, refusals := 0, gaps := 0, updates := 0, loadClock := none, handover := none, proof := none,
      retention := none }) ∧
  (∀ d, t.doors.entries.get d =
      { mode := .off, polarity := .highIsOpen, debounce := 50, zones := 0, recovery := 120, assumed := 60 } ∧
    t.doors.rts.get d =
      { line := (s.doors.rts.get d).line, changedAt := none, state := .unused, level := (s.doors.rts.get d).line,
        openSince := none, stretchAt := none, lastOpen := none, lastClose := none, recoveryAt := none, openUntil := none,
        armedLevel := false, armingClock := 0, visit := none, openings := 0, openSeconds := 0, overlong := false }) ∧
  (∀ b, t.beacons.entries.get b = { causes := 0, onTime := 4, offTime := 16, count := 5, inhibit := none } ∧
    t.beacons.trains.get b = none) ∧
  t.trip.record =
    { tripId := 0, mode := .van, sealWord := 0, retention := 72, stopCount := 0, state := .noTrip, nextProof := 1 } ∧
  (∀ k : Fin 25, t.trip.stops.get k =
    { stopId := 0, doors := if k = 0 then 0b1111 else 0, budget := 0, settle := 120, visited := false }) ∧
  (∀ n, t.scans.mem.get n = { number := 0, verdict := none, pending := none }) ∧ t.scans.advisory = 30 ∧
  t.proofs.list = [] ∧ t.proofs.window = 300 ∧
  t.journal.entries = [] ∧ t.journal.nextSeq = 1 ∧ t.journal.appended = 0 ∧ t.exporter.run = none ∧
  (∀ k, t.claims.slots.get k = none) ∧ t.claims.order = [] ∧ t.claims.builder = none ∧ t.claims.window = 60 ∧
  t.trunk.errors = 0 ∧ t.trunk.queue = [] ∧ t.trunk.read = none ∧ t.trunk.reset = .none ∧
  (∀ k, t.trunk.flags.get k = { raised := false, subject := .none }) ∧ t.trunk.reportBits = 0x1FFF ∧
  t.trunk.tx.map TxFrame.frame = s.trunk.tx.map TxFrame.frame

/-! ### Invariants -/

/-- R184: the outbound queue holds at most 24 frames. -/
def QueueBounded (s : State) : Prop := s.trunk.queue.length ≤ 24

/-- R163: the journal holds at most 6144 entries. -/
def JournalBounded (s : State) : Prop := s.journal.entries.length ≤ 6144

/-- R158, R159: the entries held stand in the order of their places, each placed before now, and each number is that of
its place, counted from 1 modulo 2^32. -/
def JournalOrdered (s : State) : Prop :=
  s.journal.entries.Pairwise (fun x y => x.place < y.place) ∧
  (∀ e ∈ s.journal.entries, e.place < s.journal.appended ∧ e.seq = BitVec.ofNat 32 (e.place + 1)) ∧
  s.journal.nextSeq = BitVec.ofNat 32 (s.journal.appended + 1)

/-- R152: the proof list holds at most 16 entries. -/
def ProofsBounded (s : State) : Prop := s.proofs.list.length ≤ 16

/-- R19: the through queue holds at most 4 entries. -/
def ThroughBounded (s : State) : Prop := s.sensor.throughQ.length ≤ 4

/-- R136: at most 8 lots are in Handover. -/
def HandoversBounded (s : State) : Prop := handovers s.lots ≤ 8

/-- R135, R137, R149: a lot holds a handover record exactly while it is in Handover. -/
def HandoversRecorded (s : State) : Prop :=
  ∀ i, (s.lots.get i).state = .handover ↔ (s.lots.get i).handover.isSome = true

/-- R115: the dock's allowed door set is all four doors. -/
def DockOpenToAll (s : State) : Prop := (s.trip.stops.get 0).doors = 0b1111

/-- R41, R42: in every class Ts is above Tw and the hold limit is not below the watch limit. -/
def ClassesOrdered (s : State) : Prop :=
  ∀ c, (s.engine.classes.get c).tw < (s.engine.classes.get c).ts ∧ (s.engine.classes.get c).watch ≤ (s.engine.classes.get c).hold

/-- R27: the air value is absent exactly while the zone state is Unset. -/
def AirWhileSet (s : State) : Prop :=
  ∀ z, (s.zones.rts.get z).air = none ↔ (s.zones.rts.get z).state = .unset

/-- R62: an occupied entry holds a nonzero lot id, a Free one 0, and no lot id stands in two entries. -/
def OneEntryForEachLot (s : State) : Prop :=
  (∀ i, (s.lots.get i).state = .free ↔ (s.lots.get i).lot = 0) ∧
  ∀ i j, (s.lots.get i).lot ≠ 0 → (s.lots.get i).lot = (s.lots.get j).lot → i = j

/-- R172: no lot id has two claim slots. -/
def OneSlotForEachLot (s : State) : Prop :=
  ∀ j k x y, s.claims.slots.get j = some x → s.claims.slots.get k = some y → x.lot = y.lot → j = k

/-- R132: an advisory is pending only while the trip state takes an Unload: at a stop or at the dock. -/
def AdvisoriesAtStops (s : State) : Prop :=
  ∀ n, (s.scans.mem.get n).pending ≠ none → (∃ k, s.trip.record.state = .atStop k) ∨ s.trip.record.state = .dock

/-- R114: with no trip open, no lot is in Handover. -/
def HandoversInTrips (s : State) : Prop := s.trip.record.state = .noTrip → ∀ i, (s.lots.get i).state ≠ .handover

/-- R147, R153: only a Delivered lot is Unconfirmed, so none is at its seal. -/
def UnconfirmedWhenDelivered (s : State) : Prop := ∀ i, (s.lots.get i).unconfirmed = true → (s.lots.get i).state = .delivered

/-- R152: no lot has two entries of the proof list; each names a Delivered lot of the trip record's trip, by its index and its
lot id, with the number and the check word of its proof, and that lot is not Unconfirmed; with no trip open there is
none. -/
def ProofsNameTheirLots (s : State) : Prop :=
  s.proofs.list.Pairwise (fun p q => p.index ≠ q.index) ∧
  (∀ p ∈ s.proofs.list, ∃ f : ProofFields, (s.lots.get p.index).state = .delivered ∧ (s.lots.get p.index).lot = p.lot ∧
    (s.lots.get p.index).unconfirmed = false ∧ (s.lots.get p.index).proof = some f ∧ f.number = p.number ∧ f.check = p.check ∧
    f.record.tripId = s.trip.record.tripId) ∧
  (s.trip.record.state = .noTrip → s.proofs.list = [])

/-- What the lot table, the scan memories, the proof list and the claim slots hold of one another: agreements that every
step keeps together. -/
structure CustodyHeld (s : State) : Prop where
  recorded    : HandoversRecorded s
  advisories  : AdvisoriesAtStops s
  inTrips     : HandoversInTrips s
  unconfirmed : UnconfirmedWhenDelivered s
  proofs      : ProofsNameTheirLots s
  oneEntry    : OneEntryForEachLot s
  oneSlot     : OneSlotForEachLot s

/-- R193: the trunk address is one from 0x01 to 0x7F. -/
def AddressInRange (s : State) : Prop := 1 ≤ s.trunk.addr.toNat ∧ s.trunk.addr.toNat ≤ 0x7F

end Sys2Proof.Machine
end

