-- ==== Sys2Proof/Certificates/Slice0/Obligations.lean ====
section
/-! DEFINITION. The statements for the provers. `Replies c s u h k code` says that exec answers a next state, that of
`u` with one MG_RSP handed to the trunk port, and that nothing outside the outbound queue and line differs from `u`. -/

open Sys2Proof Sys2Proof.Machine

/-! ### The step -/

/-- A step takes the command at the front of the queue and runs it with the queue's rest. -/
def Obligations.StepRunsTheFrontCommand : Prop :=
  ∀ (c : Instr) (rest : List Instr) (s : State), step { s with pending := c :: rest } = exec c { s with pending := rest }

/-- The model's choice (log 2): with no command waiting, the first event that is due is taken; when none is, one
millisecond passes, and at a full second the device clock advances, holding at its greatest value (log 5, R118). -/
def Obligations.IdleStepTakesADueEventOrAMillisecond : Prop :=
  ∀ s : State, s.pending = [] →
    (∀ c, nextDue s = some c → step s = exec c s) ∧
    (nextDue s = none →
      step s = .next { s with ref := s.ref + 1, trip := { s.trip with
        clock := if (s.ref + 1) % 1000 = 0 ∧ s.trip.clock ≠ 4294967295#32 then s.trip.clock + 1 else s.trip.clock } })

/-- No well-formed command but a FRAME_ERROR that holds a good frame is refused, in any state (log 4). -/
def Obligations.WellFormedCommandsComplete : Prop :=
  ∀ (c : Instr) (s : State), c.wellFormed = true →
    (∀ f check, c = .frameError f check → isFrameError s.trunk.addr f check = true) → ∃ t, exec c s = .next t

/-! ### The outbound queue -/

/-- R184, R185: the four rows of the admission of a frame to the outbound queue, with the classes in their order: Reply
highest, then Event, Journal and Report. -/
def Obligations.AdmissionFollowsTheFourRows : Prop :=
  ∀ (f : OutFrame) (t : Trunk),
    let rank (x : OutFrame) : Nat := match x.cls with
      | .reply => 3 | .event => 2 | .journal => 1 | .report => 0
    (t.reset ≠ .none → t.enqueue f = none) ∧
    (t.reset = .none → t.queue.length < 24 → t.enqueue f = some (Trunk.begin { t with queue := t.queue ++ [f] }, none)) ∧
    (t.reset = .none → t.queue.length = 24 → (∀ g ∈ t.queue, rank f ≤ rank g) → t.enqueue f = none) ∧
    (t.reset = .none → t.queue.length = 24 → ∀ (a b : List OutFrame) (g : OutFrame), t.queue = a ++ g :: b →
      rank g < rank f → (∀ x ∈ a, rank g ≤ rank x) → (∀ x ∈ b, rank g < rank x) →
      t.enqueue f = some (Trunk.begin { t with queue := a ++ b ++ [f] }, some g))

/-- R184, R186: the frame that leaves the queue is the oldest of the highest class present, of Reply, Event, Journal and
Report in that order, and the others keep their order. When a transmission ends, the next frame of the queue leaves it and is sent, with the trunk address as it
stands for its Source unless an alias is; with an empty queue the line is idle until the export offers a frame. The
part is otherwise as it was, but that the end of a RESET Full's Done is noted (R195), and that the read in progress is
due its next frame when the frame begun is its own (R187). -/
def Obligations.TransmissionEndSendsTheNextFrame : Prop :=
  (∀ (q a b : List OutFrame) (f : OutFrame), q = a ++ f :: b →
     let rank (x : OutFrame) : Nat := match x.cls with
       | .reply => 3 | .event => 2 | .journal => 1 | .report => 0
     (∀ x ∈ a, rank x < rank f) → (∀ x ∈ b, rank x ≤ rank f) →
     nextOut q = some f ∧ dropNext q = a ++ b) ∧
  ∀ (s : State) (x : TxFrame), s.trunk.tx = some x →
    ∃ u t : State, exec .transmissionEnd s = .next t ∧ Sent u t ∧ t = offer offerFuel u ∧
      u = { s with trunk := u.trunk } ∧
      u.trunk.reset = (if x.origin = .resetDone ∧ s.trunk.reset = .pending then .doneSent else s.trunk.reset) ∧
      u.trunk.addr = s.trunk.addr ∧ u.trunk.errors = s.trunk.errors ∧ u.trunk.flags = s.trunk.flags ∧
      u.trunk.reportBits = s.trunk.reportBits ∧ u.trunk.reads = s.trunk.reads ∧
      (s.trunk.read = none → u.trunk.read = none) ∧
      (nextOut s.trunk.queue = none → u.trunk.tx = none ∧ u.trunk.queue = s.trunk.queue ∧ u.trunk.read = s.trunk.read) ∧
      (∀ f, nextOut s.trunk.queue = some f → u.trunk.queue = dropNext s.trunk.queue ∧
        u.trunk.tx = some { frame := { dest := f.dest, src := f.aliasAddr.getD s.trunk.addr, kind := f.kind, tag := f.tag,
                                       payload := f.payload }, origin := f.origin } ∧
        (∀ r, s.trunk.read = some r →
          u.trunk.read = some (if f.origin = .read r.id then { r with due := true } else r)))

/-- R183, R196: a frame that fails is counted, up to 65,535, and changes nothing else; while a RESET Full is pending it is
not counted. The Check of a frame is the CRC-16 of its bytes from Destination through Payload. R183, R195: while a RESET
Full is pending a well-formed request and a through frame are discarded and change nothing, whatever they ask; a
request sent to another address than the trunk address raises the frame error count and changes nothing else. -/
def Obligations.FrameErrorsAreCounted : Prop :=
  (∀ (f : Frame) (check : Half) (s : State),
    f.check = ([f.dest, f.src, f.kind, f.tag, BitVec.ofNat 8 f.payload.length] ++ f.payload).foldl (fun reg x =>
      [7, 6, 5, 4, 3, 2, 1, 0].foldl (fun (y : Half) k =>
        if y.msb = x.getLsbD k then y <<< 1 else (y <<< 1) ^^^ 0x1021#16) reg) 0xFFFF#16 ∧
    ((check ≠ f.check ∨ 56 < f.payload.length ∨ (isAlias f.dest = false ∧ f.dest ≠ s.trunk.addr)
      ∨ (isAlias f.dest = false ∧ isRequestKind f.kind = false)) →
    exec (.frameError f check) s = .next (if s.trunk.reset = .none then
      { s with trunk := { s.trunk with errors := min 65535 (s.trunk.errors + 1) } } else s))) ∧
  (∀ (c : Instr) (h : ReqHdr) (s : State), requestHeader c = some h → c.wellFormed = true →
    (s.trunk.reset ≠ .none → exec c s = .next s) ∧
    (s.trunk.reset = .none → h.dest.setWidth 8 ≠ s.trunk.addr →
      exec c s = .next { s with trunk := { s.trunk with errors := min 65535 (s.trunk.errors + 1) } })) ∧
  (∀ (f : Frame) (s : State), (Instr.throughFrame f).wellFormed = true → s.trunk.reset ≠ .none →
    exec (.throughFrame f) s = .next s)

/-! ### Table access -/

/-- R187: the three cases of an MG_READ: BadValue, Done with the End mark and no entries, and the entries from the
first index on, up to the count or the table's last index, encoded one after another. In one frame of at most 52 bytes
they carry the End mark when the table's last index ended them before the count. Cut, the first 52 bytes go in a first
frame, and when that is admitted the read in progress holds the bytes encoded past them, the next index and the count
left: the entries encoded are the fewest that fill the frame, and every later one is encoded from the table as it then
stands. Each case ends a read in progress, those answered BadValue or with no entries too (log 26). When the frame
before it has begun its transmission, the next frame of the read is built in the same way from the bytes held over and
the entries left, with the next sequence modulo 64: a last frame with Last and the End mark as above, or a middle one;
a frame that is not admitted ends the read. The event is nothing when no frame is due (log 3).
R187, R190, R196, R197: the tables and views by number, their first index and length, and the bytes of every entry:
its fields in their rule's order, each in 1, 2 or 4 bytes, most significant byte first, names numbered from 0 in the
order of their rule's table unless R197 numbers them, temperatures in two's complement tenths, optional fields behind
their presence byte, sets as masks, doses as shown. What the rules leave open of it is the model's choice: yes and no
bytes and counts (log 11), a scan memory's verdict (log 12), the parameter of a policy that has none (log 14), the visit
open seconds of an Open door (log 22), levels (log 38), a visit of none (log 39), a free slot (log 40), a reach
and a window deadline of none in the slot view (log 51), the calibration offset (log 41) and the first index
0 of the proof list view (log 53). Past 2^32 seconds those of a visit are open (log 10). -/
def Obligations.ReadsAreJudgedAndAnswered : Prop :=
  (∀ (h : ReqHdr) (table first count : Byte) (s : State), Taken h s →
     ((tableSpan s table.toNat = none ∨ count = 0 ∨ (∃ lo n, tableSpan s table.toNat = some (lo, n) ∧ first.toNat < lo)) →
       Replies (.mgRead h [table, first, count]) s (setRead none s) h kMgRead .badValue) ∧
     (∀ lo n, tableSpan s table.toNat = some (lo, n) → count ≠ 0 → lo + n ≤ first.toNat →
       lo ≤ first.toNat → Completes (.mgRead h [table, first, count]) s (setRead none s)
         (rspFrame (replyTo h kMgRead) .done tagSingle true [] .plain)) ∧
     (∀ lo n, tableSpan s table.toNat = some (lo, n) → count ≠ 0 → lo ≤ first.toNat → first.toNat < lo + n →
      let held := lo + n - first.toNat
      let upTo (m : Nat) : List Byte := (List.range m).flatMap (fun k => entryBytes s table.toNat (first.toNat + k))
      let rows := upTo (min count.toNat held)
      let begun (r : Option ReadRec) : State := { s with trunk := { s.trunk with read := r, reads := s.trunk.reads + 1 } }
      (rows.length ≤ 52 → Completes (.mgRead h [table, first, count]) s (begun none)
        (rspFrame (replyTo h kMgRead) .done tagSingle (decide (held < count.toNat)) rows (.read s.trunk.reads))) ∧
      (52 < rows.length → ∃ m, m ≤ min count.toNat held ∧ 52 ≤ (upTo m).length ∧ (∀ j, j < m → (upTo j).length < 52) ∧
        (let r : ReadRec :=
           { id := s.trunk.reads, target := replyTo h kMgRead, table := table.toNat, next := first.toNat + m,
             left := count.toNat - m, carry := (upTo m).drop 52, frames := 1, due := false }
         let f := rspFrame (replyTo h kMgRead) .done 0x80 false (rows.take 52) (.read s.trunk.reads)
         let out := hand f (begun (some r))
         Sent (begun (some r)) out.1 ∧ exec (.mgRead h [table, first, count]) s =
           .next (if out.2 then out.1 else begun none))))) ∧
  (∀ s : State, (s.trunk.read = none ∨ (∃ r, s.trunk.read = some r ∧ r.due = false)) → exec .mgReadNextFrame s = .next s) ∧
  (∀ (s : State) (r : ReadRec) (lo n : Nat), s.trunk.read = some r → r.due = true → tableSpan s r.table = some (lo, n) →
     lo ≤ r.next →
     let held := lo + n - r.next
     let upTo (m : Nat) : List Byte := r.carry ++ (List.range m).flatMap (fun k => entryBytes s r.table (r.next + k))
     let rows := upTo (min r.left held)
     let tag (last : Nat) : Byte := BitVec.ofNat 8 ((if r.frames = 0 then 128 else 0) + last + r.frames % 64)
     (rows.length ≤ 52 → Completes .mgReadNextFrame s (setRead none s)
       (rspFrame r.target .done (tag 64) (decide (held < r.left)) rows (.read r.id))) ∧
     (52 < rows.length → ∃ m, m ≤ min r.left held ∧ 52 ≤ (upTo m).length ∧ (∀ j, j < m → (upTo j).length < 52) ∧
       (let r' : ReadRec := { r with next := r.next + m, left := r.left - m, carry := (upTo m).drop 52,
                                     frames := r.frames + 1, due := false }
        let f := rspFrame r.target .done (tag 0) false (rows.take 52) (.read r.id)
        let out := hand f (setRead (some r') s)
        Sent (setRead (some r') s) out.1 ∧ exec .mgReadNextFrame s = .next (if out.2 then out.1 else setRead none s)))) ∧
  (∀ s : State,
    let u1 (x : Nat) : List Byte := [BitVec.ofNat 8 x]
    let u2 (x : Nat) : List Byte := b2 (BitVec.ofNat 16 x)
    let u4 (x : Nat) : List Byte := b4 (BitVec.ofNat 32 x)
    let yes (b : Bool) : List Byte := if b then [1] else [0]
    let tenths (x : Int) : List Byte := b2 (BitVec.ofInt 16 x)
    let opt (α : Type) (f : α → List Byte) (x : Option α) : List Byte := match x with
      | none => [0]
      | some a => [1] ++ f a
    let cause (c : SealCause) : List Byte := match c with
      | .doorClose => [1] | .settle => [2] | .depart => [3] | .closure => [4]
    let grade (g : Grade) : List Byte := match g with
      | .good => [0] | .watch => [1] | .hold => [2]
    let stateNo (x : LotState) : Nat := match x with
      | .free => 0 | .expected => 1 | .onBoard => 2 | .handover => 3 | .delivered => 4 | .short => 5 | .returned => 6
    let modeNo (x : DoorMode) : Nat := match x with
      | .off => 0 | .contact => 1 | .seal => 2 | .count => 3 | .inhibit => 4
    let doorNo (x : DoorState) : Nat := match x with
      | .opened => 0 | .closed => 1 | .armed => 2 | .broken => 3 | .unused => 4
    let actionNo (x : ScanAction) : Nat := match x with
      | .load => 1 | .unload => 2 | .confirm => 3 | .refuse => 4
    let whyNo (x : Reject) : Nat := match x with
      | .noSuchLot => 1 | .wrongState => 2 | .wrongTripState => 3 | .noPending => 4 | .busy => 5 | .notManifested => 6
    let missNo (x : MissKind) : Nat := match x with
      | .noReply => 0 | .badCheck => 1 | .wrongSource => 2 | .wrongKind => 3 | .none => 4
    let kinds (a : Advisory) : List Byte := match a.hold, a.misdrop with
      | false, false => [0] | true, false => [1] | false, true => [2] | true, true => [3]
    let trip : List Byte := match s.trip.record.state with
      | .noTrip => [0, 0] | .loading => [1, 0] | .transit => [2, 0] | .atStop k => [3] ++ u1 k.val | .dock => [4, 0]
    (∀ t, t ∈ [1, 2, 15] → tableSpan s t = some (0, 32)) ∧ (∀ t, t ∈ [4, 5] → tableSpan s t = some (1, 12)) ∧
    tableSpan s 6 = some (0, 8) ∧ tableSpan s 8 = some (0, 96) ∧ (∀ t, t ∈ [9, 10] → tableSpan s t = some (1, 4)) ∧
    tableSpan s 11 = some (1, 2) ∧ tableSpan s 13 = some (0, 25) ∧ tableSpan s 17 = some (0, s.proofs.list.length) ∧
    tableSpan s 19 = some (0, 4) ∧ (∀ t, t ∈ [3, 7, 12, 14, 16, 18, 20, 21] → tableSpan s t = some (0, 1)) ∧
    (∀ t, t = 0 ∨ 21 < t → tableSpan s t = none) ∧
    (∀ i : Fin 32, let e := s.sensor.nodes.get i
      entryBytes s 1 i.val = yes e.enabled ++ [e.address] ++ (match e.kind with | .probe => [0] | .scanner => [1])
        ++ u1 (e.zone.val + 1) ++ [BitVec.ofInt 8 e.offset] ++ u1 e.dwell
        ++ (match e.policy with | .pass => [0, 0] | .everyN k => [1] ++ u1 k | .change k => [2] ++ u1 k | .silent => [3, 0])
        ++ opt Byte (fun a => [a]) e.aliasAddr ++ u1 e.lostLimit) ∧
    (∀ i : Fin 32, let r := s.sensor.rts.get i
      entryBytes s 2 i.val = (match r.state with | .new => [0] | .alive => [1] | .lost => [2]) ++ u1 r.misses
        ++ opt Reading (fun x => tenths x.value ++ b4 x.clock) r.last ++ u1 r.everyN ++ opt Int tenths r.lastReported) ∧
    entryBytes s 3 0 = u1 s.sensor.settings.roundFloor ++ u1 s.sensor.settings.replyWindow ∧
    (∀ z : Fin 12, let e := s.zones.entries.get z
      entryBytes s 4 (z.val + 1) = yes e.enabled ++ u2 e.staleness ++ u1 e.step) ∧
    (∀ z : Fin 12, let r := s.zones.rts.get z
      entryBytes s 5 (z.val + 1) = (match r.state with | .unset => [0] | .live => [1] | .stale => [2]) ++ opt Int tenths r.air
        ++ yes r.stepFlag) ∧
    (∀ i : Fin 8, let e := s.engine.classes.get i
      entryBytes s 6 i.val = tenths e.tw ++ tenths e.ts ++ [e.lag.setWidth 8] ++ u4 e.watch ++ u4 e.hold ++ u1 e.shock) ∧
    entryBytes s 7 0 = u1 s.engine.period ++ u1 s.engine.interval ++ b4 s.engine.lastUpdate ∧
    (∀ i : Fin 96, let l := s.lots.get i
      entryBytes s 8 i.val = b4 l.lot
        ++ u1 (stateNo l.state) ++ u1 l.cls.val ++ u1 (l.zone.val + 1) ++ opt (Fin 25) (fun k => u1 k.val) l.planned ++ u4 (l.inherited.toNat / 60)
        ++ opt Int tenths l.arrival ++ tenths l.core ++ u4 (l.handling.toNat / 60) ++ u4 (l.equipment.toNat / 60)
        ++ grade l.grade ++ yes l.soft ++ u1 l.cycles ++ tenths l.peak ++ b4 l.peakClock ++ yes l.blind ++ yes l.unconfirmed
        ++ u1 l.refusals ++ u2 l.gaps ++ b4 l.updates ++ opt Clock b4 l.loadClock
        ++ opt Handover (fun h => [h.scanner] ++ b4 h.token ++ b4 h.clock ++ u1 h.stop.val ++ yes h.hold ++ yes h.misdrop
            ++ b4 h.settleAt) l.handover
        ++ opt ProofFields (fun p => u2 p.number ++ b4 p.sealClock ++ cause p.cause ++ b4 p.check
            ++ (let q := p.record
                b4 q.tripId ++ u2 q.number ++ b4 q.lot ++ u1 q.cls.val ++ b4 q.stopId ++ [q.scanner] ++ b4 q.token
                ++ b4 q.scanClock ++ b4 q.sealClock ++ cause q.cause ++ grade q.grade ++ u4 q.total ++ u4 q.handling
                ++ u4 q.equipment ++ u4 q.inherited ++ tenths q.peak ++ u1 q.cycles
                ++ u1 ((if q.blind then 1 else 0) + (if q.gap then 2 else 0) + (if q.hold then 4 else 0)
                  + (if q.misdrop then 8 else 0) + (if q.unsynced then 16 else 0)))) l.proof
        ++ opt Clock b4 l.retention) ∧
    (∀ d : Fin 4, let e := s.doors.entries.get d
      entryBytes s 9 (d.val + 1) =
        u1 (modeNo e.mode) ++ (match e.polarity with | .highIsOpen => [0] | .lowIsOpen => [1]) ++ u1 e.debounce ++ b2 (e.zones.setWidth 16)
        ++ u2 e.recovery ++ u2 e.assumed) ∧
    (∀ (d : Fin 4) (seconds : Nat), let r := s.doors.rts.get d
      (∀ start, r.state = .opened → s.trip.record.state.stop ≠ none → r.stretchAt = some start →
        seconds = r.openSeconds.toNat + (s.ref - max start s.trip.visitStart) / 1000) →
      (r.state ≠ .opened ∨ s.trip.record.state.stop = none ∨ r.stretchAt = none → seconds = r.openSeconds.toNat) →
      seconds < 4294967296 →
      entryBytes s 10 (d.val + 1) =
        u1 (doorNo r.state) ++ yes r.level ++ opt Clock b4 r.openSince ++ opt Clock b4 r.lastOpen ++ opt Clock b4 r.lastClose
        ++ opt Clock b4 r.recoveryAt ++ opt Clock b4 r.openUntil ++ yes r.armedLevel ++ b4 r.armingClock
        ++ opt (Fin 25) (fun k => u1 k.val) r.visit ++ u2 r.openings ++ u4 seconds ++ yes r.overlong
        ++ yes (serves s.trip.clock (s.doors.entries.get d) r)) ∧
    (∀ b : Fin 2, let e := s.beacons.entries.get b
      entryBytes s 11 (b.val + 1) = b2 (e.causes.setWidth 16) ++ u1 e.onTime ++ u1 e.offTime ++ u1 e.count
        ++ opt Inhibit (fun h => u1 (h.door.val + 1) ++ yes h.high) e.inhibit) ∧
    (let q := s.trip.record
     entryBytes s 12 0 = b4 q.tripId ++ (match q.mode with | .van => [0] | .room => [1]) ++ b4 0 ++ u1 q.retention
        ++ u1 q.stopCount ++ trip ++ u2 q.nextProof) ∧
    (∀ k : Fin 25, let e := s.trip.stops.get k
      entryBytes s 13 k.val = b4 e.stopId ++ [e.doors.setWidth 8] ++ u2 e.budget ++ u2 e.settle ++ yes e.visited) ∧
    entryBytes s 14 0 = u1 s.scans.advisory ∧
    (∀ i : Fin 32, let m := s.scans.mem.get i
      entryBytes s 15 i.val = [m.number]
        ++ opt Verdict (fun v =>
            (match v.outcome with | .accepted => [1] | .advise _ => [2] | .rejected _ => [3])
            ++ u1 (actionNo v.action) ++ b4 v.lot
            ++ (match v.outcome with
                | .accepted => [0, 0]
                | .advise a => kinds a ++ (match m.pending with
                    | some p => u1 (min 255 (p.confirmBy.toNat - s.trip.clock.toNat))
                    | none => [0])
                | .rejected why => u1 (whyNo why) ++ [0])) m.verdict
        ++ opt Pending (fun p => b4 p.lot ++ kinds p.kinds ++ b4 p.token ++ b4 p.confirmBy) m.pending) ∧
    entryBytes s 16 0 = u2 s.proofs.window ∧
    (∀ (k : Nat) (p : ProofItem), s.proofs.list[k]? = some p →
      entryBytes s 17 k = b4 p.lot ++ u2 p.number ++ b4 p.check ++ b4 p.ackBy) ∧
    entryBytes s 18 0 = u2 s.claims.window ∧
    (∀ k : Fin 4, entryBytes s 19 k.val = opt Slot (fun x => b4 x.lot ++ [x.tag]
        ++ (match x.state with | .queued => [0] | .building => [1] | .ready => [2]) ++ opt Word b4 x.reach
        ++ opt Clock b4 x.deadline) (s.claims.slots.get k)) ∧
    entryBytes s 20 0 = b2 (s.trunk.reportBits.setWidth 16) ∧
    (∀ (raised : BitVec 13) (steps : BitVec 12) (oldest newest : Word),
      (∀ k : Fin 13, raised.getLsbD k.val = (s.trunk.flags.get k).raised) →
      (∀ z : Fin 12, steps.getLsbD z.val = (s.zones.rts.get z).stepFlag) →
      (s.journal.entries = [] → oldest = 0 ∧ newest = 0) →
      (∀ e es, s.journal.entries = e :: es → oldest = e.seq) → (∀ es e, s.journal.entries = es ++ [e] → newest = e.seq) →
      let count (x : LotState) : List Byte := u1 ((List.finRange 96).filter fun i => decide ((s.lots.get i).state = x)).length
      entryBytes s 21 0 = trip ++ b4 s.trip.clock ++ yes s.trip.unsynced
        ++ count .free ++ count .expected ++ count .onBoard ++ count .handover ++ count .delivered ++ count .short
        ++ count .returned ++ b2 (raised.setWidth 16)
        ++ (List.finRange 13).flatMap (fun k => match (s.trunk.flags.get k).subject with
            | .none => [0, 0, 0, 0, 0]
            | .node a => [1, 0, 0, 0, a]
            | .zone z => [2] ++ u4 (z.val + 1)
            | .door d => [3] ++ u4 (d.val + 1)
            | .lot id => [4] ++ b4 id)
        ++ b2 (steps.setWidth 16)
        ++ u1 (missNo s.sensor.fault.kind) ++ [s.sensor.fault.address] ++ b4 s.sensor.fault.clock ++ u2 s.trunk.errors ++ u2 s.journal.entries.length ++ b4 oldest
        ++ b4 newest ++ u1 s.proofs.list.length ++ u1 s.trunk.queue.length ++ [s.trunk.addr]))

/-- R188 rows 1 and 2, R189: a write that names no writable table, or whose fields have another length, and a command
that does not exist, or whose parameters have another length, are answered BadValue and do nothing. R188, R189, R196,
R197: the payloads that spell a write or a command are those of the layouts: by table number and the length of the
fields, by command number and the length of the parameters, the length being the one that the presence bytes and the
delete mark call for; each spells the one write or command whose layout it is. That a presence byte or a delete mark
other than 0 and 1 spells nothing, and is so answered BadValue, is the model's deduction (log 15). A payload that
spells a write or a command is refused here by name: it is of another row (log 4). R183: the payload of another request
whose length is not that of its layout is BadValue and leaves everything as it was, a read in progress too (log 26).
R184, R186, R196, R197: an MG_RSP is a Reply frame to the source of the request, holding the request's kind and
sequence, the reply code, the marks and the body. -/
def Obligations.RefusedWritesAndCommandsDoNothing : Prop :=
  (∀ (h : ReqHdr) (payload : List Byte),
    (∀ c, decodeWrite h payload = some c ↔ writePayload c = some (h, payload)) ∧
    (∀ c, decodeCommand h payload = some c ↔ commandPayload c = some (h, payload)) ∧
    (payload.length < 2 → decodeWrite h payload = none) ∧ (payload = [] → decodeCommand h payload = none)) ∧
  (∀ (h : ReqHdr) (number index : Byte) (fields : List Byte),
    let size (present : Bool) (n : Nat) : Nat := if present then n else 0
    let mark (k : Nat) (present : Bool) : Prop := fields[k]? = some (if present then 1 else 0)
    let write (table : Byte) : Prop := decodeWrite h (table :: index :: fields) ≠ none
    let command (number : Byte) : Prop := decodeCommand h (number :: fields) ≠ none
    (number ∉ ([1, 3, 4, 6, 7, 8, 9, 11, 13, 14, 16, 18, 20] : List Byte) → ¬write number) ∧
    (∀ n, (number, n) ∈ ([(3, 2), (4, 4), (6, 14), (7, 6), (9, 9), (13, 10), (14, 1), (16, 2), (18, 2), (20, 2)] : List (Byte × Nat)) →
      (write number ↔ fields.length = n)) ∧
    (write 1 ↔ ∃ p, fields.length = 10 + size p 1 ∧ mark 8 p) ∧
    (write 11 ↔ ∃ p, fields.length = 6 + size p 2 ∧ mark 5 p) ∧
    (write 8 ↔ (fields.length = 5 ∧ mark 4 true) ∨
      ∃ p q r, fields.length = 10 + size p 1 + size q 4 + size r 2 ∧ mark 4 false ∧ mark 7 p ∧ mark (8 + size p 1) q ∧
        mark (9 + size p 1 + size q 4) r) ∧
    (number = 0 ∨ 12 < number.toNat → ¬command number) ∧
    (∀ n, (number, n) ∈ ([(2, 0), (3, 1), (4, 0), (5, 5), (6, 1), (7, 1), (8, 4), (9, 2), (10, 1), (11, 0), (12, 0)] : List (Byte × Nat)) →
      (command number ↔ fields.length = n)) ∧
    (command 1 ↔ ∃ p q, fields.length = 11 + size p 1 + size q 1 ∧ mark 9 p ∧ mark (10 + size p 1) q)) ∧
  ∀ (h : ReqHdr) (payload : List Byte) (s : State),
    (decodeWrite h payload = none → Taken h s → Replies (.mgWriteRefused h payload) s s h kMgWrite .badValue) ∧
    (decodeCommand h payload = none → Taken h s → Replies (.mgCmdInvalid h payload) s s h kMgCmd .badValue) ∧
    (decodeWrite h payload ≠ none → exec (.mgWriteRefused h payload) s = .refused .notThisRow) ∧
    (decodeCommand h payload ≠ none → exec (.mgCmdInvalid h payload) s = .refused .notThisRow) ∧
    (Taken h s →
      (payload.length ≠ 3 → Replies (.mgRead h payload) s s h kMgRead .badValue) ∧
      (payload.length ≠ 6 → Replies (.proofAck h payload) s s h kProofAck .badValue) ∧
      (payload.length ≠ 7 → Replies (.jrnlReq h payload) s s h kJrnlReq .badValue) ∧
      (payload.length ≠ 5 → Replies (.claimQ h payload) s s h kClaimQ .badValue)) ∧
    (kMgWrite = 0x10 ∧ kMgRead = 0x11 ∧ kMgCmd = 0x12 ∧ kClaimQ = 0x13 ∧ kProofAck = 0x14 ∧ kJrnlReq = 0x15) ∧
    (∀ kind : Byte, replyTo h kind = { dest := h.src, kind := kind, seq := h.tag &&& 0x3F }) ∧
    (∀ (to_ : ReplyTo) (code : ReplyCode) (tag : Byte) (ends : Bool) (body : List Byte) (origin : FrameOrigin),
      let number : Byte := match code with
        | .done => 0 | .adjusted => 1 | .badValue => 2 | .locked => 3 | .inUse => 4 | .noEntry => 5 | .tableFull => 6
        | .duplicate => 7 | .badState => 8 | .busy => 9 | .noSuchAlias => 10 | .throughFail => 11 | .mismatch => 12
        | .tooLate => 13 | .noSuchProof => 14
      rspFrame to_ code tag ends body origin =
        { cls := .reply, dest := to_.dest, aliasAddr := none, kind := 0x20, tag := tag,
          payload := [to_.kind, to_.seq, number, if ends then 1 else 0] ++ body, origin := origin }) ∧
    (∀ (kind : Byte) (code : ReplyCode), rsp h kind code = rspFrame (replyTo h kind) code 0xC0 false [] .plain)

/-! ### Settings -/

/-- R5, R125, R151, R173: the settings records of one entry are written at index 0 with each field brought into its
range, answered Adjusted when a field was, else Done. R192: the event settings take the set of kinds given, or are
answered BadValue for a kind that does not exist. Any other index is NoEntry, with such a kind too (log 49). Nothing
else changes. -/
def Obligations.SettingsAreClamped : Prop :=
  ∀ (h : ReqHdr) (index : Byte) (s : State), Taken h s →
    (∀ f : LineFields, Replies (.lineSettingsWrite h index f) s
      (if index = 0 then { s with sensor := { s.sensor with settings :=
          { roundFloor := max 1 (min 60 f.roundFloor.toNat), replyWindow := max 2 (min 50 f.replyWindow.toNat) } } } else s) h kMgWrite
      (if index ≠ 0 then .noEntry
       else if (1 ≤ f.roundFloor.toNat ∧ f.roundFloor.toNat ≤ 60) ∧ (2 ≤ f.replyWindow.toNat ∧ f.replyWindow.toNat ≤ 50) then .done
       else .adjusted)) ∧
    (∀ w : Byte, Replies (.scanSettingsWrite h index w) s
      (if index = 0 then { s with scans := { s.scans with advisory := max 5 (min 120 w.toNat) } } else s) h kMgWrite
      (if index ≠ 0 then .noEntry else if 5 ≤ w.toNat ∧ w.toNat ≤ 120 then .done else .adjusted)) ∧
    (∀ w : Half, Replies (.proofSettingsWrite h index w) s
      (if index = 0 then { s with proofs := { s.proofs with window := max 10 (min 3600 w.toNat) } } else s) h kMgWrite
      (if index ≠ 0 then .noEntry else if 10 ≤ w.toNat ∧ w.toNat ≤ 3600 then .done else .adjusted)) ∧
    (∀ w : Half, Replies (.claimSettingsWrite h index w) s
      (if index = 0 then { s with claims := { s.claims with window := max 10 (min 600 w.toNat) } } else s) h kMgWrite
      (if index ≠ 0 then .noEntry else if 10 ≤ w.toNat ∧ w.toNat ≤ 600 then .done else .adjusted)) ∧
    (∀ kinds : Half, Replies (.eventSettingsWrite h index kinds) s
      (if index = 0 ∧ kinds.toNat < 8192 then { s with trunk := { s.trunk with reportBits := kinds.setWidth 13 } } else s) h kMgWrite
      (if index ≠ 0 then .noEntry else if kinds.toNat < 8192 then .done else .badValue))

/-- R43, R44, R188: the engine settings have one entry, at index 0, and any other index is NoEntry, while a trip is open
too (the model's choice, log 47); they are locked while a trip is open; else P is brought to the nearest multiple of 5
from 5 to 60 and the interval into 1 to 255, the last update clock stays, and the update timer starts again. -/
def Obligations.EngineSettingsAreLockedOrWritten : Prop :=
  ∀ (h : ReqHdr) (f : EngineFields) (s : State), Taken h s →
    (∀ index : Byte, index ≠ 0 → Replies (.engineSettingsWrite h index f) s s h kMgWrite .noEntry) ∧
    (s.trip.record.state ≠ .noTrip → Replies (.engineSettingsWrite h 0 f) s s h kMgWrite .locked) ∧
    (s.trip.record.state = .noTrip → ∃ p n : Nat,
      (5 ∣ p ∧ 5 ≤ p ∧ p ≤ 60) ∧
      (∀ q : Nat, 5 ∣ q → 5 ≤ q → q ≤ 60 →
        ((p : Int) - f.period.toNat).natAbs ≤ ((q : Int) - f.period.toNat).natAbs) ∧
      n = max 1 (min 255 f.interval.toNat) ∧
      Replies (.engineSettingsWrite h 0 f) s
        { s with engine := { s.engine with period := p, interval := n, timerStart := s.ref } } h kMgWrite
        (if p = f.period.toNat ∧ n = f.interval.toNat then .done else .adjusted))

/-- R192, R35, R105: EVENT_CLEAR lowers the named raw flags and removes their subjects, clears every step flag when
Step is named, and stops a continuous train no kind of whose cause set is left raised; a counted train runs on. -/
def Obligations.EventClearLowersTheNamedFlags : Prop :=
  ∀ (h : ReqHdr) (kinds : Half) (s : State), Taken h s →
    (8192 ≤ kinds.toNat → Replies (.eventClear h kinds) s s h kMgCmd .badValue) ∧
    (kinds.toNat < 8192 → ∃ u : State, Replies (.eventClear h kinds) s u h kMgCmd .done ∧
      u = { s with trunk := { s.trunk with flags := u.trunk.flags }, zones := { s.zones with rts := u.zones.rts },
                   beacons := { s.beacons with trains := u.beacons.trains } } ∧
      (∀ k : Fin 13, u.trunk.flags.get k =
        if kinds.getLsbD k.val then { raised := false, subject := .none } else s.trunk.flags.get k) ∧
      (∀ z, u.zones.rts.get z =
        if kinds.getLsbD 3 then { s.zones.rts.get z with stepFlag := false } else s.zones.rts.get z) ∧
      (∀ b : Fin 2, u.beacons.trains.get b =
        match s.beacons.trains.get b with
        | none => none
        | some r => if r.remaining = none ∧ (∀ k : Fin 13, (s.beacons.entries.get b).causes.getLsbD k.val = true →
              (u.trunk.flags.get k).raised = false) then none else some r))

/-! ### Table writes -/

/-- R2, R3, R4, R6, R8, R10, R22, R188: a write to an index outside the table is NoEntry, whatever its fields (log 49); one
that gives an enabled entry the address or the alias of another enabled entry, or a value that does not exist, is
BadValue (log 13, log 15); neither changes anything. Any other write is taken: it writes the entry, its calibration
offset, read as 8-bit two's complement (log 41), brought into -5.0 to 5.0 degrees, its dwell into 1 to 4, its Lost limit into 1 to 15, its Every-N into 2 to 255
and its Change delta into 0.1 to 10.0 degrees, answered Adjusted when one of those was, else Done; the parameter byte of
a policy that has none is ignored (log 14). It resets the runtime, takes the node out of the rotation and places an
enabled Scanner at the tail, clears a Scanner's memory, and ends its accessory turn. With a poll of the node in flight,
or a through exchange for it, that exchange ends, and the arbiter chooses anew (R6) from the
through queue as the write leaves it (log 16); no miss is counted and the link fault record stands. The through
frames of the node, those queued in their order and then the one in flight, are answered NoSuchAlias, and then the
write (log 16, log 35); the others stay queued. -/
def Obligations.NodeWritesResetTheNode : Prop :=
  ∀ (h : ReqHdr) (f : NodeFields) (s : State), Taken h s →
    (∀ index : Byte, 32 ≤ index.toNat → Replies (.nodeTableWrite h index f) s s h kMgWrite .noEntry) ∧
    (∀ n m : Fin 32, n ≠ m → f.enabled = 1 → (s.sensor.nodes.get m).enabled = true →
      ((s.sensor.nodes.get m).address = f.address ∨ ∃ a, f.aliasAddr = some a ∧ (s.sensor.nodes.get m).aliasAddr = some a) →
      Replies (.nodeTableWrite h (BitVec.ofNat 8 n.val) f) s s h kMgWrite .badValue) ∧
    (∀ n : Fin 32, (1 < f.enabled.toNat ∨ 1 < f.kind.toNat ∨ f.zone = 0 ∨ 12 < f.zone.toNat ∨ 3 < f.policy.toNat ∨
        62 < f.address.toNat ∨ (f.enabled = 1 ∧ f.address = 0) ∨
        ∃ a, f.aliasAddr = some a ∧ (a.toNat < 0x80 ∨ 0xBF < a.toNat)) →
      Replies (.nodeTableWrite h (BitVec.ofNat 8 n.val) f) s s h kMgWrite .badValue) ∧
    (∀ (n : Fin 32) (z : Fin 12), f.enabled.toNat ≤ 1 → f.kind.toNat ≤ 1 → f.zone = BitVec.ofNat 8 (z.val + 1) →
      f.policy.toNat ≤ 3 → f.address.toNat ≤ 62 → (f.enabled = 1 → f.address ≠ 0) →
      (∀ a, f.aliasAddr = some a → 0x80 ≤ a.toNat ∧ a.toNat ≤ 0xBF) →
      (f.enabled = 1 → ∀ m : Fin 32, m ≠ n → (s.sensor.nodes.get m).enabled = true →
        (s.sensor.nodes.get m).address ≠ f.address ∧ ∀ a, f.aliasAddr = some a → (s.sensor.nodes.get m).aliasAddr ≠ some a) →
      let policy : Policy := if f.policy = 0 then .pass
        else if f.policy = 1 then .everyN (max 2 (min 255 f.policyParam.toNat))
        else if f.policy = 2 then .change (max 1 (min 100 f.policyParam.toNat)) else .silent
      let e : NodeEntry :=
        { enabled := decide (f.enabled = 1), address := f.address, kind := if f.kind = 0 then .probe else .scanner, zone := z,
          offset := max (-50) (min 50 f.offset.toInt), dwell := max 1 (min 4 f.dwell.toNat), policy := policy,
          aliasAddr := f.aliasAddr, lostLimit := max 1 (min 15 f.lostLimit.toNat) }
      let kept : Prop := (-50 ≤ f.offset.toInt ∧ f.offset.toInt ≤ 50) ∧ (1 ≤ f.dwell.toNat ∧ f.dwell.toNat ≤ 4) ∧
        (1 ≤ f.lostLimit.toNat ∧ f.lostLimit.toNat ≤ 15) ∧ (f.policy = 1 → 2 ≤ f.policyParam.toNat) ∧
        (f.policy = 2 → 1 ≤ f.policyParam.toNat ∧ f.policyParam.toNat ≤ 100)
      let rt : NodeRt := { state := .new, misses := 0, last := none, everyN := 0, lastReported := none }
      let mem : ScanMem := { number := 0, verdict := none, pending := none }
      let scanner : Bool := decide (f.kind = 1)
      let phase : RoundPhase := match s.sensor.phase with
        | .waiting x => .waiting x
        | .running r => .running (match r.turn with
          | some t => if t.node = n then { r with turn := none } else r
          | none => r)
      (s.sensor.exchange = none → s.sensor.throughQ = [] →
        Replies (.nodeTableWrite h (BitVec.ofNat 8 n.val) f) s
          { s with
            sensor := { s.sensor with
              nodes := s.sensor.nodes.set n.val e n.isLt, rts := s.sensor.rts.set n.val rt n.isLt,
              rotation := s.sensor.rotation.filter (fun m => m != n) ++ (if f.enabled = 1 ∧ scanner then [n] else []),
              phase := phase },
            scans := if scanner then { s.scans with mem := s.scans.mem.set n.val mem n.isLt } else s.scans }
          h kMgWrite (if kept then .done else .adjusted)) ∧
      (let flying : Option Frame := match s.sensor.exchange with
        | some (.through m request _ _) => if m = n then some request else none
        | _ => none
      let ends : Bool := match s.sensor.exchange with
        | some (.poll m _ _ _) => decide (m = n)
        | some (.through m _ _ _) => decide (m = n)
        | none => false
      let refused : List Frame := (s.sensor.throughQ.filter (fun q => q.node == n)).map ThroughEntry.frame ++ flying.toList
      let answers : List OutFrame := refused.map (fun x =>
        rspFrame { dest := x.src, kind := x.kind, seq := x.tag &&& 0x3F } .noSuchAlias 0xC0 false [x.dest] .plain)
      ∃ u : State,
        u = { s with
          sensor := { s.sensor with
            nodes := s.sensor.nodes.set n.val e n.isLt, rts := s.sensor.rts.set n.val rt n.isLt,
            rotation := s.sensor.rotation.filter (fun m => m != n) ++ (if f.enabled = 1 ∧ scanner then [n] else []),
            phase := phase, throughQ := s.sensor.throughQ.filter (fun q => q.node != n),
            exchange := if ends then none else s.sensor.exchange, arbiter := u.sensor.arbiter },
          scans := if scanner then { s.scans with mem := s.scans.mem.set n.val mem n.isLt } else s.scans } ∧
        (ends = false → u.sensor.arbiter = s.sensor.arbiter) ∧
        (ends = true → LineFree (if flying.isSome then .throughEnded else .pollEnded) u.sensor u.sensor.arbiter) ∧
        (let t := (answers ++ [rsp h kMgWrite (if kept then .done else .adjusted)]).foldl (fun x g => (hand g x).1) u
         exec (.nodeTableWrite h (BitVec.ofNat 8 n.val) f) s = .next t ∧ Sent u t)))

/-- R26, R27: a zone number outside 1 to 12 is NoEntry, whatever the fields (log 49); disabling an enabled zone that
holds a lot in OnBoard or Handover is InUse; any other write is taken with its fields brought into range, one that
leaves a disabled zone disabled too whatever lots it holds (log 29), and takes the zone to Unset with no air value,
its step flag left as it stands. -/
def Obligations.ZoneWritesUnsetTheZone : Prop :=
  ∀ (h : ReqHdr) (f : ZoneFields) (s : State), Taken h s →
    (∀ index : Byte, index = 0 ∨ 12 < index.toNat → Replies (.zoneTableWrite h index f) s s h kMgWrite .noEntry) ∧
    (∀ z : Fin 12, (s.zones.entries.get z).enabled = true → f.enabled = 0 →
      (∃ i, ((s.lots.get i).state = .onBoard ∨ (s.lots.get i).state = .handover) ∧ (s.lots.get i).zone = z) →
      Replies (.zoneTableWrite h (BitVec.ofNat 8 (z.val + 1)) f) s s h kMgWrite .inUse) ∧
    (∀ z : Fin 12, f.enabled = 0 ∨ f.enabled = 1 →
      ((s.zones.entries.get z).enabled = false ∨ f.enabled = 1 ∨
        ∀ i, (s.lots.get i).zone = z → (s.lots.get i).state ≠ .onBoard ∧ (s.lots.get i).state ≠ .handover) →
      ∃ u : State, u = { s with zones := u.zones } ∧
        (∀ y, u.zones.entries.get y = if y = z then
          { enabled := decide (f.enabled = 1), staleness := max 10 (min 600 f.staleness.toNat), step := max 1 (min 200 f.step.toNat) }
          else s.zones.entries.get y) ∧
        (∀ y, u.zones.rts.get y = if y = z then { s.zones.rts.get y with state := .unset, air := none } else s.zones.rts.get y) ∧
        Replies (.zoneTableWrite h (BitVec.ofNat 8 (z.val + 1)) f) s u h kMgWrite
          (if (10 ≤ f.staleness.toNat ∧ f.staleness.toNat ≤ 600) ∧ (1 ≤ f.step.toNat ∧ f.step.toNat ≤ 200) then .done else .adjusted))

/-- R42: the rows of a class write in their order: NoEntry, Locked, BadValue for a fraction that does not exist,
BadValue when after clamping Ts is not above Tw or hold is below watch, else written. -/
def Obligations.ClassWritesFollowTheirRows : Prop :=
  ∀ (h : ReqHdr) (index : Byte) (f : ClassFields) (s : State), Taken h s →
    let tw := max (-300) (min 0 f.tw.toInt)
    let ts := max (-299) (min 100 f.ts.toInt)
    let watch := min 999999 f.watch.toNat
    let hold := min 999999 f.hold.toNat
    let shock := min 15 f.shock.toNat
    (8 ≤ index.toNat → Replies (.classTableWrite h index f) s s h kMgWrite .noEntry) ∧
    (index.toNat < 8 → s.trip.record.state ≠ .noTrip → Replies (.classTableWrite h index f) s s h kMgWrite .locked) ∧
    (index.toNat < 8 → s.trip.record.state = .noTrip → (32 ≤ f.lag.toNat ∨ ts ≤ tw ∨ hold < watch) →
      Replies (.classTableWrite h index f) s s h kMgWrite .badValue) ∧
    (∀ k : Fin 8, index.toNat = k.val → s.trip.record.state = .noTrip → f.lag.toNat < 32 → tw < ts → watch ≤ hold →
      let e : ClassEntry := { tw := tw, ts := ts, lag := f.lag.setWidth 5, watch := watch, hold := hold, shock := shock }
      Replies (.classTableWrite h index f) s
        { s with engine := { s.engine with classes := s.engine.classes.set k.val e k.isLt } } h kMgWrite
        (if tw = f.tw.toInt ∧ ts = f.ts.toInt ∧ watch = f.watch.toNat ∧ hold = f.hold.toNat ∧ shock = f.shock.toNat
         then .done else .adjusted))

/-- R62: the entry that a lot id finds is an occupied one that holds it, and none is found exactly when no occupied entry
holds it. R68 to R70: a manifest add of a lot id that no entry holds occupies the lowest-indexed Free entry, with the
inherited dose in tenth-degree-seconds; one of a lot id held in Returned makes that entry Expected again, with the
class, zone, planned stop and arrival temperature given, no retention deadline and the rest of its history kept. Lot
id 0, or a class, zone or planned stop outside its range, is BadValue, a trip in Transit is BadState, a lot id held in
a state other than Returned is Duplicate, and a full table is TableFull. -/
def Obligations.ManifestAddsFollowTheirRows : Prop :=
  (∀ (lots : Vector LotEntry 96) (id : Word),
    (∀ i, findLot lots id = some i → (lots.get i).state ≠ .free ∧ (lots.get i).lot = id) ∧
    (findLot lots id = none ↔ ∀ i, (lots.get i).state = .free ∨ (lots.get i).lot ≠ id)) ∧
  ∀ (h : ReqHdr) (index : Byte) (f : ManifestFields) (s : State), Taken h s →
    ((f.lot = 0 ∨ 8 ≤ f.cls.toNat ∨ f.zone = 0 ∨ 12 < f.zone.toNat ∨ ∃ k, f.planned = some k ∧ 24 < k.toNat) →
      Replies (.manifestAdd h index f) s s h kMgWrite .badValue) ∧
    (∀ (cls : Fin 8) (zone : Fin 12) (planned : Option (Fin 25)), f.lot ≠ 0 → f.cls.toNat = cls.val →
      f.zone.toNat = zone.val + 1 → f.planned.map BitVec.toNat = planned.map Fin.val →
      (s.trip.record.state = .transit → Replies (.manifestAdd h index f) s s h kMgWrite .badState) ∧
      (s.trip.record.state ≠ .transit → ∀ i, findLot s.lots f.lot = some i → (s.lots.get i).state ≠ .returned →
        Replies (.manifestAdd h index f) s s h kMgWrite .duplicate) ∧
      (s.trip.record.state ≠ .transit → findLot s.lots f.lot = none → (∀ i, (s.lots.get i).state ≠ .free) →
        Replies (.manifestAdd h index f) s s h kMgWrite .tableFull) ∧
      (s.trip.record.state ≠ .transit →
        let dropped := planned.isSome ∧ s.trip.record.state ≠ .noTrip ∧ s.trip.record.mode = .room
        let arrival := f.arrival.map (fun t => max (-600) (min 600 t.toInt))
        let clamped := ∃ t, f.arrival = some t ∧ (t.toInt < -600 ∨ 600 < t.toInt)
        (∀ i, findLot s.lots f.lot = some i → (s.lots.get i).state = .returned →
          let e : LotEntry :=
            { s.lots.get i with state := .expected, cls := cls, zone := zone, planned := if dropped then none else planned,
                                arrival := arrival, retention := none }
          Replies (.manifestAdd h index f) s { s with lots := s.lots.set i.val e i.isLt } h kMgWrite
            (if dropped ∨ clamped then .adjusted else .done)) ∧
        (findLot s.lots f.lot = none → ∀ i : Fin 96, (s.lots.get i).state = .free →
          (∀ j, j < i → (s.lots.get j).state ≠ .free) →
          let e : LotEntry :=
            { LotEntry.free with
              lot := f.lot, state := .expected, cls := cls, zone := zone, planned := if dropped then none else planned,
              inherited := BitVec.ofNat 32 (60 * (min 999999 (f.inherited.getD 0).toNat)), arrival := arrival }
          Replies (.manifestAdd h index f) s { s with lots := s.lots.set i.val e i.isLt } h kMgWrite
            (if dropped ∨ clamped ∨ (∃ d, f.inherited = some d ∧ 999999 < d.toNat) then .adjusted else .done))))

/-- R73, R177: a manifest delete frees an Expected lot, whose claim slot is discarded: the slot is free, and no slot but
it and Queued ones, which the builder may take, is touched. A lot not found is NoEntry, and a lot in any other occupied
state is InUse. -/
def Obligations.ManifestDeletesFreeExpectedLots : Prop :=
  ∀ (h : ReqHdr) (index : Byte) (lot : Word) (s : State), Taken h s →
    (findLot s.lots lot = none → Replies (.manifestDelete h index lot) s s h kMgWrite .noEntry) ∧
    (∀ i, findLot s.lots lot = some i → (s.lots.get i).state ≠ .expected →
      Replies (.manifestDelete h index lot) s s h kMgWrite .inUse) ∧
    (∀ i, findLot s.lots lot = some i → (s.lots.get i).state = .expected → ∃ u : State,
      u = { s with lots := s.lots.set i.val LotEntry.free i.isLt, claims := u.claims } ∧
      (s.claims.slotFor lot = none → u.claims = s.claims) ∧
      u.claims.window = s.claims.window ∧
      (∀ k, s.claims.slotFor lot = some k → u.claims.slots.get k = none ∧
        ∀ j, j ≠ k → (∀ y, s.claims.slots.get j = some y → y.state ≠ .queued) →
          u.claims.slots.get j = s.claims.slots.get j) ∧
      Replies (.manifestDelete h index lot) s u h kMgWrite .done)

/-- R102: a beacon write outside 1 to 2 is NoEntry; one naming a kind that does not exist, or an inhibit of a door
line outside 1 to 4, or of a level byte that is neither (log 15), is BadValue, and entry and train stand; a taken write
sets the entry, a time or count of 0 brought to 1, and stops the beacon's train. -/
def Obligations.BeaconWritesStopTheTrain : Prop :=
  ∀ (h : ReqHdr) (f : BeaconFields) (s : State), Taken h s →
    (∀ index : Byte, index = 0 ∨ 2 < index.toNat → Replies (.beaconTableWrite h index f) s s h kMgWrite .noEntry) ∧
    (∀ b : Fin 2, 8192 ≤ f.causes.toNat →
      Replies (.beaconTableWrite h (BitVec.ofNat 8 (b.val + 1)) f) s s h kMgWrite .badValue) ∧
    (∀ (b : Fin 2) (line level : Byte), f.inhibit = some (line, level) → (line = 0 ∨ 4 < line.toNat ∨ 1 < level.toNat) →
      Replies (.beaconTableWrite h (BitVec.ofNat 8 (b.val + 1)) f) s s h kMgWrite .badValue) ∧
    (∀ (b : Fin 2) (inhibit : Option Inhibit), f.causes.toNat < 8192 →
      (f.inhibit = none ∧ inhibit = none ∨ ∃ d : Fin 4, ∃ l : Bool,
        f.inhibit = some (BitVec.ofNat 8 (d.val + 1), if l then 1 else 0) ∧ inhibit = some { door := d, high := l }) →
      let e : BeaconEntry :=
        { causes := f.causes.setWidth 13, onTime := max 1 f.onTime.toNat, offTime := max 1 f.offTime.toNat,
          count := max 1 f.count.toNat, inhibit := inhibit }
      Replies (.beaconTableWrite h (BitVec.ofNat 8 (b.val + 1)) f) s
        { s with beacons := { entries := s.beacons.entries.set b.val e b.isLt, trains := s.beacons.trains.set b.val none b.isLt } }
        h kMgWrite (if f.onTime = 0 ∨ f.offTime = 0 ∨ f.count = 0 then .adjusted else .done))

/-- R115, R116: a stop write outside 0 to 24 is NoEntry, to a visited stop Locked, and for a door that does not exist
BadValue; a taken write sets the entry, budget and settle time brought into range and the dock's set all four doors. -/
def Obligations.StopWritesFollowTheirRows : Prop :=
  ∀ (h : ReqHdr) (f : StopFields) (s : State), Taken h s →
    (∀ index : Byte, 25 ≤ index.toNat → Replies (.stopTableWrite h index f) s s h kMgWrite .noEntry) ∧
    (∀ k : Fin 25, k ≠ 0 → (s.trip.stops.get k).visited = true →
      Replies (.stopTableWrite h (BitVec.ofNat 8 k.val) f) s s h kMgWrite .locked) ∧
    (∀ k : Fin 25, (k = 0 ∨ (s.trip.stops.get k).visited = false) → 16 ≤ f.doors.toNat →
      Replies (.stopTableWrite h (BitVec.ofNat 8 k.val) f) s s h kMgWrite .badValue) ∧
    (∀ k : Fin 25, (k = 0 ∨ (s.trip.stops.get k).visited = false) → f.doors.toNat < 16 →
      let e : StopEntry :=
        { s.trip.stops.get k with
          stopId := f.stopId, doors := if k = 0 then 0b1111 else f.doors.setWidth 4,
          budget := min 3600 f.budget.toNat, settle := max 10 (min 600 f.settle.toNat) }
      Replies (.stopTableWrite h (BitVec.ofNat 8 k.val) f) s
        { s with trip := { s.trip with stops := s.trip.stops.set k.val e k.isLt } } h kMgWrite
        (if f.budget.toNat ≤ 3600 ∧ (10 ≤ f.settle.toNat ∧ f.settle.toNat ≤ 600) ∧ (k = 0 → f.doors = 0b1111) then .done else .adjusted))

/-- R86, R100, R101: a door write outside 1 to 4 is NoEntry and one naming a mode, polarity or zone that does not
exist is BadValue. A taken write writes the entry, its debounce brought to the nearest multiple of 10 up to 250, from
halfway to the greater, its recovery window into 0 to 900 and its assumed open time into 1 to 600, answered Adjusted
when one of those was, else Done. When it changes the mode, an Open door is first closed, under its old entry (log 19);
the door then takes its new mode: Armed at its level, Closed, Unused, or in Contact mode Closed or, at a level that
shows open, opened. On leaving Seal mode the armed level goes low and the arming clock stands (log 21). A write that
keeps the mode leaves the runtime, but that a change of polarity of a Contact door opens or closes it, under the new
entry, when its level now shows the other state. A line change being timed stays so when the debounce is as it was, or
when it has not held the new one; when it has, it acts after the write, as at the end of its debounce (log 20; the
polarity or the mode changed at once is left out). Where a write opens or closes the door, its MG_RSP is handed over
after the entries of its effects and the frames that they bring: no rule orders them, and log 44 chooses this. -/
def Obligations.DoorWritesSetTheDoor : Prop :=
  ∀ (h : ReqHdr) (f : DoorFields) (s : State), Taken h s →
    (∀ index : Byte, index = 0 ∨ 4 < index.toNat → Replies (.doorTableWrite h index f) s s h kMgWrite .noEntry) ∧
    (∀ d : Fin 4, (4 < f.mode.toNat ∨ 1 < f.polarity.toNat ∨ 4096 ≤ f.zones.toNat) →
      Replies (.doorTableWrite h (BitVec.ofNat 8 (d.val + 1)) f) s s h kMgWrite .badValue) ∧
    (∀ d : Fin 4, f.mode.toNat ≤ 4 → f.polarity.toNat ≤ 1 → f.zones.toNat < 4096 →
      let n : Nat := f.debounce.toNat
      ∃ b : Nat, (10 ∣ b ∧ b ≤ 250) ∧
      (∀ q : Nat, 10 ∣ q → q ≤ 250 → ((b : Int) - n).natAbs ≤ ((q : Int) - n).natAbs) ∧ (n % 10 = 5 → n < 250 → b = n + 5) ∧
      let e : DoorEntry :=
        { mode := if f.mode = 0 then .off else if f.mode = 1 then .contact else if f.mode = 2 then .seal
            else if f.mode = 3 then .count else .inhibit,
          polarity := if f.polarity = 0 then .highIsOpen else .lowIsOpen, debounce := b, zones := f.zones.setWidth 12,
          recovery := min 900 f.recovery.toNat, assumed := max 1 (min 600 f.assumed.toNat) }
      let c : Instr := .doorTableWrite h (BitVec.ofNat 8 (d.val + 1)) f
      let code : ReplyCode :=
        if b = n ∧ f.recovery.toNat ≤ 900 ∧ (1 ≤ f.assumed.toNat ∧ f.assumed.toNat ≤ 600) then .done else .adjusted
      let old := s.doors.entries.get d
      let r := s.doors.rts.get d
      let doors (x : DoorRt) : Doors :=
        { entries := s.doors.entries.set d.val e d.isLt, rts := s.doors.rts.set d.val x d.isLt }
      let shows : Bool := r.level == decide (e.polarity = .highIsOpen)
      let leave (x : DoorRt) : DoorRt :=
        { x with openSince := none, stretchAt := none, openUntil := none,
                 armedLevel := if old.mode = .seal then false else x.armedLevel }
      let enter (x : DoorRt) : DoorRt := match e.mode with
        | .seal => { x with state := .armed, armedLevel := r.level, armingClock := s.trip.clock }
        | .count => { x with state := .closed }
        | .contact => { x with state := .closed }
        | _ => { x with state := .unused }
      let opened (x : DoorRt) : DoorRt :=
        { x with state := .opened, lastOpen := some s.trip.clock, openSince := some s.trip.clock, stretchAt := some s.ref,
                 openings := if s.trip.record.state.stop.isSome then min 65535 (x.openings + 1) else x.openings }
      let ok : Bool := match s.trip.record.state with
        | .loading => true
        | .dock => true
        | .atStop k => (s.trip.stops.get k).doors.getLsbD d.val
        | _ => false
      let openEntry : Draft :=
        { kind := .doorOpen, zones := some e.zones, door := some d, v1 := if ok then 1 else 0,
          v2 := match s.trip.record.state.stop with | some k => BitVec.ofNat 32 k.val | none => 255 }
      let unauthorized : Prop := ok = false → ∃ t, exec c s = .next t ∧
        t.trunk.flags.get EventKind.doorUnauthorized.index = { raised := true, subject := .door d }
      let within (start : Nat) : Nat := if s.trip.record.state.stop.isSome then (s.ref - max start s.trip.visitStart) / 1000 else 0
      let closed (recovery start : Nat) : DoorRt :=
        { r with state := .closed, lastClose := some s.trip.clock, openSince := none, stretchAt := none, openUntil := none,
                 recoveryAt := some (BitVec.ofNat 32 (min 4294967295 (s.trip.clock.toNat + recovery))),
                 openSeconds := BitVec.ofNat 32 (r.openSeconds.toNat + within start) }
      let closeEntry (zones : ZoneSet) (start : Nat) (since : Clock) : Draft :=
        { kind := .doorClose, zones := some zones, door := some d, v1 := BitVec.ofNat 32 ((s.ref - start) / 1000), v2 := since }
      ((e.debounce = old.debounce ∨ ∀ x, r.changedAt = some x → s.ref < x + e.debounce) →
        (e.mode ≠ old.mode → r.state ≠ .opened →
          (e.mode ≠ .contact ∨ shows = false → Replies c s { s with doors := doors (enter (leave r)) } h kMgWrite code) ∧
          (e.mode = .contact → shows = true →
            RepliesRecording c s { s with doors := doors (opened (enter (leave r))) } h kMgWrite code openEntry ∧ unauthorized)) ∧
        (∀ start since, r.state = .opened → r.stretchAt = some start → r.openSince = some since →
          (s.ref - start) / 1000 < 4294967296 → r.openSeconds.toNat + within start < 4294967296 →
          (e.mode ≠ old.mode → e.mode ≠ .contact ∨ shows = false → ∃ w, Replies c s w h kMgWrite code ∧
            Closed old.zones (closeEntry old.zones start since) { s with doors := doors (enter (leave (closed old.recovery start))) } w) ∧
          (e.mode ≠ old.mode → e.mode = .contact → shows = true → (∃ w v, Replies c s v h kMgWrite code ∧
            Closed old.zones (closeEntry old.zones start since)
              { s with doors := doors (opened (enter (leave (closed old.recovery start)))) } w ∧
            Recorded w v ∧ Appends w v openEntry) ∧ unauthorized) ∧
          (e.mode = old.mode → e.mode = .contact → e.polarity ≠ old.polarity → shows = false → ∃ w, Replies c s w h kMgWrite code ∧
            Closed e.zones (closeEntry e.zones start since) { s with doors := doors (closed e.recovery start) } w)) ∧
        (e.mode = old.mode →
          (e.mode ≠ .contact ∨ e.polarity = old.polarity ∨ shows = decide (r.state = .opened) →
            Replies c s { s with doors := doors r } h kMgWrite code) ∧
          (e.mode = .contact → e.polarity ≠ old.polarity → shows = true → r.state ≠ .opened →
            RepliesRecording c s { s with doors := doors (opened r) } h kMgWrite code openEntry ∧ unauthorized))) ∧
      (∀ x, e.debounce ≠ old.debounce → r.changedAt = some x → x + e.debounce ≤ s.ref → e.mode = old.mode →
        e.polarity = old.polarity → ∃ w, exec (.debounceExpiry d) { s with doors := doors r } = .next w ∧
        Replies c s w h kMgWrite code))

/-! ### Trip commands -/

/-- R110, R111: TRIP_OPEN with a mode that does not exist is BadValue, and while a trip is open BadState. Taken, it
writes the trip record, clears the visited marks, drops the planned stops of Expected lots in Room mode, begins the
dock visit of every door, and appends TripOpen. -/
def Obligations.TripOpenOpensTheTrip : Prop :=
  ∀ (h : ReqHdr) (p : TripOpenParams) (s : State), Taken h s →
    (1 < p.mode.toNat → Replies (.tripOpen h p) s s h kMgCmd .badValue) ∧
    (p.mode.toNat ≤ 1 → s.trip.record.state ≠ .noTrip → Replies (.tripOpen h p) s s h kMgCmd .badState) ∧
    (∀ mode : TripMode, p.mode = (match mode with | .van => 0 | .room => 1) → s.trip.record.state = .noTrip →
      let record : TripRecord :=
        { tripId := p.tripId, mode := mode, sealWord := p.sealWord,
          retention := (match p.retention with | none => 72 | some r => max 1 (min 168 r.toNat)),
          stopCount := (match mode, p.stopCount with | .van, some c => min 24 c.toNat | _, _ => 0),
          state := (match mode with | .van => .loading | .room => .dock), nextProof := 1 }
      RepliesRecording (.tripOpen h p) s
        { s with
          trip := { s.trip with record := record, visitStart := s.ref,
                                stops := mapV (fun e => { e with visited := false }) s.trip.stops },
          lots := (match mode with
            | .van => s.lots
            | .room => mapV (fun l => if l.state = .expected then { l with planned := none } else l) s.lots),
          doors := { s.doors with rts := mapV (fun r =>
            { r with visit := some 0, openings := 0, openSeconds := 0, overlong := false }) s.doors.rts } }
        h kMgCmd
        (if (∃ r, p.retention = some r ∧ (r = 0 ∨ 168 < r.toNat)) ∨
            (∃ c, p.stopCount = some c ∧ (24 < c.toNat ∨ (mode = .room ∧ c ≠ 0))) then .adjusted else .done)
        { kind := .tripOpen, v1 := p.tripId, v2 := (match mode with | .van => 1 | .room => 2) })

/-- R112, R124, R98: DEPART is BadState in Room mode, in NoTrip, in Transit and in Dock. Taken from Loading or a stop it
leaves the trip in Transit with no lot in Handover or Expected, no pending advisory in any scan memory, that of an entry
since rewritten as a Probe or disabled too (log 42), and no visit open; the trip's other fields but the next proof
number, the stop table, the clock, the settings and the sensor line are as they were. R140,
R149, R81: every lot in Handover is sealed with cause Depart and its retention deadline set. R78, R81: every Expected
lot is Short with a retention deadline; every other lot stays, but for the gap counts, and the marks when the proof
list has no room for the seals. The visit open seconds count an open stretch up to now. With room in the journal it
holds the Seal entries and then the Short entries, each in index order, and then Depart with the index and the stop id
departed from. -/
def Obligations.DepartEntersTransit : Prop :=
  ∀ (h : ReqHdr) (s : State), Taken h s →
    ((s.trip.record.mode = .room ∨ (s.trip.record.state ≠ .loading ∧ ∀ k, s.trip.record.state ≠ .atStop k)) →
      Replies (.depart h) s s h kMgCmd .badState) ∧
    (∀ k : Fin 25, HandoversRecorded s → s.trip.record.mode = .van →
      ((s.trip.record.state = .loading ∧ k = 0) ∨ s.trip.record.state = .atStop k) →
    let due : Clock := BitVec.ofNat 32 (min 4294967295 (s.trip.clock.toNat + s.trip.record.retention * 3600))
    let sealed := (List.finRange 96).filter fun i => decide ((s.lots.get i).state = .handover)
    let short := (List.finRange 96).filter fun i => decide ((s.lots.get i).state = .expected)
    ∃ w t : State, exec (.depart h) s = .next t ∧ t = (hand (rsp h kMgCmd .done) w).1 ∧ Sent w t ∧
      t.trip = { s.trip with record := { s.trip.record with state := .transit, nextProof := t.trip.record.nextProof } } ∧
      (∀ i, (s.lots.get i).state = .handover → ∃ p : ProofFields, p.cause = .depart ∧ p.sealClock = s.trip.clock ∧
        t.lots.get i = { s.lots.get i with
          state := .delivered, handover := none, proof := some p, retention := some due,
          gaps := (t.lots.get i).gaps, unconfirmed := (t.lots.get i).unconfirmed }) ∧
      (∀ i, (s.lots.get i).state = .expected → t.lots.get i = { s.lots.get i with
        state := .short, retention := some due, gaps := (t.lots.get i).gaps, unconfirmed := (t.lots.get i).unconfirmed }) ∧
      (∀ i, (s.lots.get i).state ≠ .handover → (s.lots.get i).state ≠ .expected → t.lots.get i = { s.lots.get i with
        gaps := (t.lots.get i).gaps, unconfirmed := (t.lots.get i).unconfirmed }) ∧
      (s.proofs.list.length + sealed.length ≤ 16 → (∀ i, (t.lots.get i).unconfirmed = (s.lots.get i).unconfirmed) ∧
        ∃ items : List ProofItem, t.proofs.list = s.proofs.list ++ items ∧ items.map ProofItem.index = sealed) ∧
      Tells s t (
        sealed.map (fun i =>
          { kind := .seal, lot := some (s.lots.get i).lot, zone := some (s.lots.get i).zone,
            v1 := ((t.lots.get i).proof.map fun p => BitVec.ofNat 32 p.number).getD 0,
            v2 := ((t.lots.get i).proof.map ProofFields.check).getD 0 }) ++
        short.map (fun i =>
          { kind := .short, lot := some (s.lots.get i).lot, zone := some (s.lots.get i).zone, v1 := BitVec.ofNat 32 k.val }) ++
        [{ kind := .depart, v1 := BitVec.ofNat 32 k.val, v2 := (s.trip.stops.get k).stopId }]) ∧
      (∀ n, (t.scans.mem.get n).pending = none ∧ (t.scans.mem.get n).verdict = (s.scans.mem.get n).verdict ∧
        (t.scans.mem.get n).number = (s.scans.mem.get n).number) ∧
      (∀ d, let r := s.doors.rts.get d
        t.doors.rts.get d = { r with visit := none, openSeconds := (t.doors.rts.get d).openSeconds } ∧
        (r.state ≠ .opened → (t.doors.rts.get d).openSeconds = r.openSeconds) ∧
        (∀ start, r.state = .opened → r.stretchAt = some start →
          let seconds := r.openSeconds.toNat + (s.ref - max start s.trip.visitStart) / 1000
          seconds < 4294967296 → (t.doors.rts.get d).openSeconds = BitVec.ofNat 32 seconds)) ∧
      t.doors.entries = s.doors.entries ∧ t.sensor = s.sensor ∧ t.zones = s.zones ∧ t.engine = s.engine ∧
      t.proofs.window = s.proofs.window ∧ t.scans.advisory = s.scans.advisory ∧ t.claims.window = s.claims.window ∧
      t.ref = s.ref ∧ t.pending = s.pending)

/-- R113: ARRIVE is BadState in Room mode or outside Transit, BadValue for the dock or past the stop count; an arrival
enters the stop, marks it visited, begins its visit at every door and appends Arrive. -/
def Obligations.ArriveEntersTheStop : Prop :=
  ∀ (h : ReqHdr) (s : State), Taken h s →
    (∀ j : Byte, (s.trip.record.mode = .room ∨ s.trip.record.state ≠ .transit) →
      Replies (.arrive h j) s s h kMgCmd .badState) ∧
    (∀ j : Byte, s.trip.record.mode = .van → s.trip.record.state = .transit → s.trip.record.stopCount ≤ 24 →
      (j = 0 ∨ s.trip.record.stopCount < j.toNat) → Replies (.arrive h j) s s h kMgCmd .badValue) ∧
    (∀ j : Fin 25, j ≠ 0 → j.val ≤ s.trip.record.stopCount → s.trip.record.mode = .van →
      s.trip.record.state = .transit →
      let stops := s.trip.stops.set j.val { s.trip.stops.get j with visited := true } j.isLt
      RepliesRecording (.arrive h (BitVec.ofNat 8 j.val)) s
        { s with
          trip := { s.trip with record := { s.trip.record with state := .atStop j }, stops := stops, visitStart := s.ref },
          doors := { s.doors with rts := mapV (fun r =>
            { r with visit := some j, openings := 0, openSeconds := 0, overlong := false }) s.doors.rts } }
        h kMgCmd .done
        { kind := .arrive, v1 := BitVec.ofNat 32 j.val, v2 := (s.trip.stops.get j).stopId })

/-- R114: TRIP_CLOSE is BadState in NoTrip; taken, it leaves NoTrip with no lot in OnBoard or Handover, an empty proof
list, no stop marked visited and no pending advisory in any scan memory, that of an entry since rewritten as a Probe or
disabled too (log 42); lots in other states keep them, and the trip record keeps its fields but its state and the next
proof number. R140, R149, R81: every lot in Handover is sealed with cause Closure
and its retention deadline set. R79, R81: every lot in OnBoard is Returned with a retention deadline; every other lot
stays but for its gap count and its mark. R156: every lot whose proof was in the proof list, and every lot sealed here,
ends Unconfirmed, and no other lot's mark changes; ProofUnconfirmed stands raised for the newest of them. R98: when a
visit is open it ends, and the visit open seconds count an open stretch up to now; else the doors stand. With room in
the journal it holds the Seal entries and then the Returned entries, each in index order, and then TripClose with the
trip id and the number of lots made Returned. -/
def Obligations.TripCloseClosesTheTrip : Prop :=
  ∀ (h : ReqHdr) (s : State), Taken h s →
    (s.trip.record.state = .noTrip → Replies (.tripClose h) s s h kMgCmd .badState) ∧
    (s.trip.record.state ≠ .noTrip → HandoversRecorded s →
      let due : Clock := BitVec.ofNat 32 (min 4294967295 (s.trip.clock.toNat + s.trip.record.retention * 3600))
      let sealed := (List.finRange 96).filter fun i => decide ((s.lots.get i).state = .handover)
      let returned := (List.finRange 96).filter fun i => decide ((s.lots.get i).state = .onBoard)
      ∃ w t : State, exec (.tripClose h) s = .next t ∧ t = (hand (rsp h kMgCmd .done) w).1 ∧ Sent w t ∧
        t.trip.record = { s.trip.record with state := .noTrip, nextProof := t.trip.record.nextProof } ∧
        t.trip.clock = s.trip.clock ∧ t.trip.unsynced = s.trip.unsynced ∧
        (∀ k, t.trip.stops.get k = { s.trip.stops.get k with visited := false }) ∧
        (∀ i, (s.lots.get i).state = .handover → ∃ p : ProofFields, p.cause = .closure ∧ p.sealClock = s.trip.clock ∧
          t.lots.get i = { s.lots.get i with
            state := .delivered, handover := none, proof := some p, retention := some due, gaps := (t.lots.get i).gaps, unconfirmed := true }) ∧
        (∀ i, (s.lots.get i).state = .onBoard → t.lots.get i = { s.lots.get i with
          state := .returned, retention := some due, gaps := (t.lots.get i).gaps, unconfirmed := (t.lots.get i).unconfirmed }) ∧
        (∀ i, (s.lots.get i).state ≠ .handover → (s.lots.get i).state ≠ .onBoard → t.lots.get i = { s.lots.get i with
          gaps := (t.lots.get i).gaps, unconfirmed := (t.lots.get i).unconfirmed }) ∧
        (∀ i, (s.lots.get i).state ≠ .handover →
          (t.lots.get i).unconfirmed = ((s.lots.get i).unconfirmed || s.proofs.list.any fun p => p.index == i)) ∧
        (∀ before lot, s.proofs.list.map ProofItem.lot ++ sealed.map (fun i => (s.lots.get i).lot) = before ++ [lot] →
          t.trunk.flags.get EventKind.proofUnconfirmed.index = { raised := true, subject := .lot lot }) ∧
        Tells s t (
          sealed.map (fun i =>
            { kind := .seal, lot := some (s.lots.get i).lot, zone := some (s.lots.get i).zone,
              v1 := ((t.lots.get i).proof.map fun p => BitVec.ofNat 32 p.number).getD 0,
              v2 := ((t.lots.get i).proof.map ProofFields.check).getD 0 }) ++
          returned.map (fun i =>
            let l := s.lots.get i
            { kind := .returned, lot := some l.lot, zone := some l.zone, v1 := BitVec.ofNat 32 l.grade.number,
              v2 := BitVec.ofNat 32 (min 4294967295 (l.inherited.toNat + l.handling.toNat + l.equipment.toNat) / 60) }) ++
          [{ kind := .tripClose, v1 := s.trip.record.tripId, v2 := BitVec.ofNat 32 returned.length }]) ∧
        t.proofs.list = [] ∧ (∀ n, (t.scans.mem.get n).pending = none) ∧
        (∀ d, let r := s.doors.rts.get d
          (s.trip.record.state.stop = none → t.doors.rts.get d = r) ∧
          (s.trip.record.state.stop ≠ none →
            t.doors.rts.get d = { r with visit := none, openSeconds := (t.doors.rts.get d).openSeconds } ∧
            (r.state ≠ .opened → (t.doors.rts.get d).openSeconds = r.openSeconds) ∧
            (∀ start, r.state = .opened → r.stretchAt = some start →
              let seconds := r.openSeconds.toNat + (s.ref - max start s.trip.visitStart) / 1000
              seconds < 4294967296 → (t.doors.rts.get d).openSeconds = BitVec.ofNat 32 seconds))) ∧
        t.doors.entries = s.doors.entries ∧ t.sensor = s.sensor ∧ t.zones = s.zones ∧ t.engine = s.engine)

/-- R119, R120: TIME_SET is answered Done in every state; the clock becomes the value given and the unsynced mark is
cleared. With no trip open, or a step of at most 300 s, nothing else changes; a greater step during a trip raises
TimeJump with no subject, also when the journal refuses the append, and appends a TimeJump entry at the new clock (that
the raising comes first is log 52). -/
def Obligations.TimeSetSetsTheClock : Prop :=
  ∀ (h : ReqHdr) (v : Clock) (s : State), Taken h s →
    let u := { s with trip := { s.trip with clock := v, unsynced := false } }
    let step := ((v.toNat : Int) - s.trip.clock.toNat).natAbs
    ((s.trip.record.state = .noTrip ∨ step ≤ 300) → Replies (.timeSet h v) s u h kMgCmd .done) ∧
    (s.trip.record.state ≠ .noTrip → 300 < step →
      RepliesRecording (.timeSet h v) s u h kMgCmd .done { kind := .timeJump, v1 := s.trip.clock, v2 := v } ∧
      ∃ t, exec (.timeSet h v) s = .next t ∧
        t.trunk.flags.get EventKind.timeJump.index = { raised := true, subject := .none })

/-! ### Lots, seals and beacons by command -/

/-- R76, R77: the rows of MOVE_LOT in their order; a move writes the lot's zone and appends Move with the new and the
old zone, and a lot already in the zone is left as it stands. -/
def Obligations.MoveLotFollowsItsRows : Prop :=
  ∀ (h : ReqHdr) (lot : Word) (s : State), Taken h s →
    (∀ z : Byte, z = 0 ∨ 12 < z.toNat → Replies (.moveLot h lot z) s s h kMgCmd .badValue) ∧
    (∀ z : Fin 12,
      let c : Instr := .moveLot h lot (BitVec.ofNat 8 (z.val + 1))
      (findLot s.lots lot = none → Replies c s s h kMgCmd .noEntry) ∧
      (∀ i, findLot s.lots lot = some i →
        let l := s.lots.get i
        (l.state ≠ .onBoard → l.state ≠ .handover → Replies c s s h kMgCmd .badState) ∧
        ((l.state = .onBoard ∨ l.state = .handover) →
          ((s.zones.entries.get z).enabled = false → Replies c s s h kMgCmd .badValue) ∧
          ((s.zones.entries.get z).enabled = true → l.zone = z → Replies c s s h kMgCmd .done) ∧
          ((s.zones.entries.get z).enabled = true → l.zone ≠ z →
            RepliesRecording c s { s with lots := s.lots.set i.val { l with zone := z } i.isLt } h kMgCmd .done
              { kind := .move, lot := some l.lot, zone := some z, v1 := BitVec.ofNat 32 (l.zone.val + 1) }))))

/-- R91: the rows of ARM_SEAL in their order; taken, the door is Armed with the armed level and the arming clock set
afresh. -/
def Obligations.ArmSealFollowsItsRows : Prop :=
  ∀ (h : ReqHdr) (s : State), Taken h s →
    (∀ d : Byte, d = 0 ∨ 4 < d.toNat → Replies (.armSeal h d) s s h kMgCmd .badValue) ∧
    (∀ d : Fin 4,
      let c : Instr := .armSeal h (BitVec.ofNat 8 (d.val + 1))
      let r := s.doors.rts.get d
      ((s.doors.entries.get d).mode ≠ .seal ∨ (r.state = .broken ∧ r.level ≠ r.armedLevel) →
        Replies c s s h kMgCmd .badState) ∧
      ((s.doors.entries.get d).mode = .seal → ¬(r.state = .broken ∧ r.level ≠ r.armedLevel) →
        let armed := { r with state := .armed, armedLevel := r.level, armingClock := s.trip.clock }
        Replies c s { s with doors := { s.doors with rts := s.doors.rts.set d.val armed d.isLt } } h kMgCmd .done))

/-- R105: BEACON_CLEAR stops the trains of the beacons named, bits that name no beacon ignored beside one that does
(log 24), and is BadValue when it names neither. R193: SET_ADDRESS
takes an address from 0x01 to 0x7F, and answers BadValue to any other. -/
def Obligations.BeaconClearAndSetAddressFollowTheirRows : Prop :=
  (∀ (h : ReqHdr) (set : Byte) (s : State), Taken h s →
     (set.getLsbD 0 = false → set.getLsbD 1 = false → Replies (.beaconClear h set) s s h kMgCmd .badValue) ∧
     ((set.getLsbD 0 = true ∨ set.getLsbD 1 = true) → ∃ u : State,
       u = { s with beacons := { s.beacons with trains := u.beacons.trains } } ∧
       (∀ b : Fin 2, u.beacons.trains.get b = if set.getLsbD b.val then none else s.beacons.trains.get b) ∧
       Replies (.beaconClear h set) s u h kMgCmd .done)) ∧
  (∀ (h : ReqHdr) (a : Byte) (s : State), Taken h s →
     (1 ≤ a.toNat ∧ a.toNat ≤ 0x7F → Replies (.setAddress h a) s { s with trunk := { s.trunk with addr := a } } h kMgCmd .done) ∧
     (¬(1 ≤ a.toNat ∧ a.toNat ≤ 0x7F) → Replies (.setAddress h a) s s h kMgCmd .badValue))

/-! ### Resets -/

/-- R194: RESET_LINK empties the outbound queue, ends the read, the export and every exchange, discards every claim
slot, clears every scan memory, stops both trains and starts a new round 0 with every node runtime at its reset
values and the rotation in index order; its MG_RSP Done is then handed over. All else stands. -/
def Obligations.ResetLinkClearsTheLink : Prop :=
  ∀ (h : ReqHdr) (s : State), Taken h s → ∃ u : State,
    Replies (.resetLink h) s u h kMgCmd .done ∧
    u = { s with trunk := { s.trunk with queue := [], read := none }, sensor := u.sensor, claims := u.claims,
                 exporter := u.exporter, scans := { s.scans with mem := u.scans.mem },
                 beacons := { s.beacons with trains := u.beacons.trains } } ∧
    u.sensor.nodes = s.sensor.nodes ∧ u.sensor.settings = s.sensor.settings ∧ u.sensor.throughQ = [] ∧
    u.sensor.exchange = none ∧ u.sensor.fault = { kind := .none, address := 0, clock := 0 } ∧ u.sensor.roundNo = 0 ∧
    u.sensor.phase = .running (Round.start s.ref) ∧
    u.sensor.rotation = (List.finRange 32).filter (fun n =>
      (s.sensor.nodes.get n).enabled && decide ((s.sensor.nodes.get n).kind = .scanner)) ∧
    (∀ n, u.sensor.rts.get n = { state := .new, misses := 0, last := none, everyN := 0, lastReported := none }) ∧
    (∀ k, u.claims.slots.get k = none) ∧ u.claims.builder = none ∧ u.claims.window = s.claims.window ∧
    u.exporter.run = none ∧
    (∀ n, u.scans.mem.get n = { number := 0, verdict := none, pending := none }) ∧
    (∀ b, u.beacons.trains.get b = none)

/-- R195: RESET_FULL leaves its MG_RSP Done alone in the queue, or on an idle line, ends the read and is then pending;
nothing else changes. What the port discards and refuses while it is pending is stated of every request, through frame
and failed frame in FrameErrorsAreCounted and of every frame handed over in AdmissionFollowsTheFourRows. R195, R193, R118: power-on reset takes every block to the power-on values that its
chapter states (the model's own fields: log 36), the clock to 0 unsynced, and the trunk address to 0x70 plus the straps;
when the transmission of a RESET Full's Done has ended the same is done, but that the clock, its mark and the trunk
address stand. Before that the event does nothing (log 3). A frame in transmission goes on through a reset (log 23). -/
def Obligations.ResetsTakePowerOnValues : Prop :=
  (∀ (h : ReqHdr) (s : State), Taken h s →
     let done := rspFrame (replyTo h kMgCmd) .done tagSingle false [] .resetDone
     (∀ x, s.trunk.tx = some x →
       exec (.resetFull h) s = .next { s with trunk := { s.trunk with queue := [done], read := none, reset := .pending } }) ∧
     (s.trunk.tx = none →
       exec (.resetFull h) s = .next { s with trunk := { s.trunk with
         queue := [], read := none, reset := .pending,
         tx := some { frame := { dest := done.dest, src := s.trunk.addr, kind := done.kind, tag := done.tag, payload := done.payload },
                      origin := .resetDone } } })) ∧
  (∀ s : State,
     (∀ straps : BitVec 2, ∃ t, exec (.powerOnReset straps) s = .next t ∧ PoweredOn 0 s t ∧ t.trip.clock = 0 ∧
       t.trip.unsynced = true ∧ t.trunk.addr = 0x70 + straps.setWidth 8 ∧ t.straps = straps) ∧
     (s.trunk.reset = .doneSent → ∃ t, exec .resetFullTakesEffect s = .next t ∧ PoweredOn s.ref s t ∧
       t.trip.clock = s.trip.clock ∧ t.trip.unsynced = s.trip.unsynced ∧ t.trunk.addr = s.trunk.addr ∧ t.straps = s.straps) ∧
     (s.trunk.reset ≠ .doneSent → exec .resetFullTakesEffect s = .next s))

/-! ### Doors and beacons -/

/-- R87: a level that the line already has changes nothing. A change is timed from now, and a change back to the
debounced level ends the timing. With a debounce of 0 the debounced level follows the line at once, in every mode: the
change acts as one that has held its time does, an edge, which the statements of the edges give; of an Off door it
changes the level alone. A change timed before, that has held its time when the line goes back, acts first, and then
the line's change is taken (log 31). -/
def Obligations.LineChangesAreTimed : Prop :=
  ∀ (d : Fin 4) (high : Bool) (s : State),
    let r := s.doors.rts.get d
    let write (x : DoorRt) : State := { s with doors := { s.doors with rts := s.doors.rts.set d.val x d.isLt } }
    (r.line = high → exec (.doorLineChange d high) s = .next s) ∧
    (r.line ≠ high → (∀ c, r.changedAt = some c → s.ref < c + (s.doors.entries.get d).debounce) →
      0 < (s.doors.entries.get d).debounce →
      exec (.doorLineChange d high) s =
        .next (write { r with line := high, changedAt := if high = r.level then none else some s.ref })) ∧
    (r.line ≠ high → r.changedAt = none → (s.doors.entries.get d).debounce = 0 →
      (r.level = high → exec (.doorLineChange d high) s = .next (write { r with line := high })) ∧
      (r.level ≠ high →
        (∃ t, exec (.doorLineChange d high) s = .next t ∧
          exec (.debounceExpiry d) (write { r with line := high, changedAt := some s.ref }) = .next t ∧
          (t.doors.rts.get d).level = high ∧ (t.doors.rts.get d).line = high ∧ (t.doors.rts.get d).changedAt = none) ∧
        ((s.doors.entries.get d).mode = .off →
          exec (.doorLineChange d high) s = .next (write { r with line := high, level := high, changedAt := none })))) ∧
    (∀ c, r.line ≠ high → r.changedAt = some c → c + (s.doors.entries.get d).debounce ≤ s.ref →
      ∃ w, exec (.debounceExpiry d) s = .next w ∧ (w.doors.rts.get d).level = r.line ∧ (w.doors.rts.get d).changedAt = none ∧
        (w.doors.rts.get d).line = r.line ∧ exec (.doorLineChange d high) s = exec (.doorLineChange d high) w)

/-- R87 to R89, R92, R94: a change that has not held for the debounce time does nothing; one that has becomes the
debounced level, an edge. An edge that shows a closed Contact door open, and each rising edge of a Count door, is an
opening: Open from now, or from the start of the stretch when a Count door is Open already; counted in an open visit,
judged against the trip state, and journalled; an unauthorized one raises DoorUnauthorized. A rising edge of a Count
door sets its open-until clock. Every other edge but a closing, and those of a seal, changes the level alone. An event
commanded when it is not due leaves the part as it is (log 3). -/
def Obligations.ContactEdgesOpenTheDoor : Prop :=
  ∀ (d : Fin 4) (s : State),
    let r := s.doors.rts.get d
    let e := s.doors.entries.get d
    let write (x : DoorRt) : State := { s with doors := { s.doors with rts := s.doors.rts.set d.val x d.isLt } }
    ((∀ c, r.changedAt = some c → s.ref < c + e.debounce) → exec (.debounceExpiry d) s = .next s) ∧
    (∀ c (ok : Bool) (visit : Option (Fin 25)), r.changedAt = some c → c + e.debounce ≤ s.ref →
      (match s.trip.record.state with
        | .loading => ok = true ∧ visit = some 0
        | .dock => ok = true ∧ visit = some 0
        | .atStop k => ok = (s.trip.stops.get k).doors.getLsbD d.val ∧ visit = some k
        | .transit => ok = false ∧ visit = none
        | .noTrip => ok = false ∧ visit = none) →
      let edge : DoorRt := { r with level := r.line, changedAt := none }
      let opens (opened : DoorRt) : Prop :=
        Records (.debounceExpiry d) s (write opened)
          { kind := .doorOpen, zones := some e.zones, door := some d, v1 := if ok then 1 else 0,
            v2 := match visit with | some k => BitVec.ofNat 32 k.val | none => 255 } ∧
        (ok = false → ∃ t, exec (.debounceExpiry d) s = .next t ∧
          t.trunk.flags.get EventKind.doorUnauthorized.index = { raised := true, subject := .door d })
      let openings := if visit.isSome then min 65535 (r.openings + 1) else r.openings
      (e.mode = .contact → r.state = .closed → r.line = decide (e.polarity = .highIsOpen) →
        opens { edge with state := .opened, lastOpen := some s.trip.clock, openSince := some s.trip.clock,
                          stretchAt := some s.ref, openings := openings }) ∧
      (e.mode = .count → r.line = true →
        opens { edge with state := .opened, lastOpen := some s.trip.clock, openings := openings,
                          openSince := if r.state = .opened then r.openSince else some s.trip.clock,
                          stretchAt := if r.state = .opened then r.stretchAt else some s.ref,
                          openUntil := some (BitVec.ofNat 32 (min 4294967295 (s.trip.clock.toNat + e.assumed))) }) ∧
      (e.mode = .off ∨ e.mode = .inhibit ∨ (e.mode = .count ∧ r.line = false) ∨
        (e.mode = .contact ∧ (r.line = decide (e.polarity = .highIsOpen) ↔ r.state = .opened)) →
        exec (.debounceExpiry d) s = .next (write edge)))

/-- R95, R89, R138: a closing, by an edge of an Open Contact door or by the end of a Count door's assumed open time:
Closed from now with a recovery deadline, the stretch's seconds within an open visit counted, DoorClose appended with
the stretch's seconds and its start, and every lot in Handover in the door's zones sealed with cause DoorClose. While
no lot in Handover lies there, nothing else changes. -/
def Obligations.ClosingsEndTheStretch : Prop :=
  ∀ (d : Fin 4) (s : State) (start : Nat) (since : Clock),
    let r := s.doors.rts.get d
    let e := s.doors.entries.get d
    let seconds := (s.ref - start) / 1000
    let within := if s.trip.record.state.stop.isSome then (s.ref - max start s.trip.visitStart) / 1000 else 0
    r.state = .opened → r.stretchAt = some start → r.openSince = some since → seconds < 4294967296 →
    r.openSeconds.toNat + within < 4294967296 →
    let close (x : DoorRt) : DoorRt :=
      { x with state := .closed, lastClose := some s.trip.clock, openSince := none, stretchAt := none, openUntil := none,
               recoveryAt := some (BitVec.ofNat 32 (min 4294967295 (s.trip.clock.toNat + e.recovery))),
               openSeconds := BitVec.ofNat 32 (r.openSeconds.toNat + within) }
    let write (x : DoorRt) : State := { s with doors := { s.doors with rts := s.doors.rts.set d.val x d.isLt } }
    let entry : Draft := { kind := .doorClose, zones := some e.zones, door := some d, v1 := BitVec.ofNat 32 seconds, v2 := since }
    let closes (c : Instr) (x : DoorRt) : Prop :=
      (∃ t, exec c s = .next t ∧ Closed e.zones entry (write (close x)) t) ∧
      ((∀ i, (s.lots.get i).state = .handover → e.zones.getLsbD (s.lots.get i).zone.val = false) →
        Records c s (write (close x)) entry)
    (∀ c, r.changedAt = some c → c + e.debounce ≤ s.ref → e.mode = .contact →
      r.line = decide (e.polarity = .lowIsOpen) →
      closes (.debounceExpiry d) { r with level := r.line, changedAt := none }) ∧
    (∀ c : Clock, r.openUntil = some c → c.toNat ≤ s.trip.clock.toNat → e.mode = .count →
      closes (.assumedOpenTimeExpiry d) r)

/-- R90: the first edge of an Armed seal makes the door Broken, raises SealBroken for the door and appends SealBroken
with the armed level and the arming clock; a Broken door takes further edges with nothing but its level. -/
def Obligations.TheFirstEdgeBreaksASeal : Prop :=
  ∀ (d : Fin 4) (s : State) (c : Nat),
    let r := s.doors.rts.get d
    let e := s.doors.entries.get d
    let write (x : DoorRt) : State := { s with doors := { s.doors with rts := s.doors.rts.set d.val x d.isLt } }
    r.changedAt = some c → c + e.debounce ≤ s.ref → e.mode = .seal →
    (r.state = .armed →
      Records (.debounceExpiry d) s (write { r with level := r.line, changedAt := none, state := .broken })
        { kind := .sealBroken, zones := some e.zones, door := some d, v1 := if r.armedLevel then 1 else 0, v2 := r.armingClock } ∧
      ∃ t, exec (.debounceExpiry d) s = .next t ∧
        t.trunk.flags.get EventKind.sealBroken.index = { raised := true, subject := .door d }) ∧
    (r.state = .broken → exec (.debounceExpiry d) s = .next (write { r with level := r.line, changedAt := none }))

/-- R97: the end of a recovery window changes the judgment and nothing else: a Closed Contact or Count door serves as
open exactly before its recovery deadline, an Open one serves, and a door in another mode does not. R99: an Open
Contact or Count door whose visit open seconds reach a nonzero budget, not yet raised in the visit, raises DoorOverlong
for the door and appends it with the visit index and the seconds; a door already raised, or with budget 0, is left as it
stands, and so is one whose visit open seconds are below the budget, one that is not Open or in another mode, and every
door while no visit is open. An event commanded when it is not due leaves the
part as it is (log 3). -/
def Obligations.DoorsAreJudgedByTheirWindowAndBudget : Prop :=
  (∀ (d : Fin 4) (s : State),
     exec (.recoveryWindowEnd d) s = .next s ∧
     (∀ (clock : Clock) (e : DoorEntry) (r : DoorRt),
       (e.mode = .contact ∨ e.mode = .count →
         (r.state = .opened → serves clock e r = true) ∧
         (r.state = .closed → ∀ x, r.recoveryAt = some x → serves clock e r = decide (clock.toNat < x.toNat))) ∧
       (e.mode ≠ .contact → e.mode ≠ .count → serves clock e r = false))) ∧
  (∀ (d : Fin 4) (s : State), s.trip.record.state.stop = none → exec (.doorOverlong d) s = .next s) ∧
  (∀ (d : Fin 4) (s : State) (v : Fin 25),
     let r := s.doors.rts.get d
     let e := s.doors.entries.get d
     let budget := (s.trip.stops.get v).budget
     s.trip.record.state.stop = some v →
     (budget = 0 ∨ r.overlong = true ∨ r.state ≠ .opened ∨ (e.mode ≠ .contact ∧ e.mode ≠ .count) →
       exec (.doorOverlong d) s = .next s) ∧
     (∀ start, r.state = .opened → r.stretchAt = some start →
       r.openSeconds.toNat + (s.ref - max start s.trip.visitStart) / 1000 + 1 ≤ budget → exec (.doorOverlong d) s = .next s) ∧
     (∀ start, (e.mode = .contact ∨ e.mode = .count) → budget ≠ 0 → r.state = .opened → r.overlong = false →
       r.stretchAt = some start →
       let seconds := r.openSeconds.toNat + (s.ref - max start s.trip.visitStart) / 1000
       budget ≤ seconds → seconds < 4294967296 →
       Records (.doorOverlong d) s
         { s with doors := { s.doors with rts := s.doors.rts.set d.val { r with overlong := true } d.isLt } }
         { kind := .doorOverlong, zones := some e.zones, door := some d, v1 := BitVec.ofNat 32 v.val, v2 := BitVec.ofNat 32 seconds } ∧
       ∃ t, exec (.doorOverlong d) s = .next t ∧
         t.trunk.flags.get EventKind.doorOverlong.index = { raised := true, subject := .door d }))

/-- R103: a phase that has not run its time goes on; On is followed by Off, and Off by On with one pulse fewer, by the
stop of a train whose last pulse it was, or, in a continuous train, by On. R191, R192: a raising sets the kind's raw
flag, already set or not, with its subject; then, when the kind's report bit is set, an EVENT frame with the kind, the
clock and the subject, of class Event, to destination 0 under a single-frame tag, is handed to the trunk port, and none
when it is clear; then the beacon unit takes it, and nothing else is touched. R104: a raising of a kind in a beacon's
cause set starts a Stopped train, On for its full on time, counted or, with a count of 255, continuous; it sets the
pulses of a counted train back to the count in its current phase, and leaves a continuous train; a raising of another
kind does nothing to the train. R103, R106: the output is on exactly in the On phase of a running train whose inhibit
is not active. An event commanded when it is not due leaves the part as it is (log 3). -/
def Obligations.BeaconPhasesFollowOneAnother : Prop :=
  (∀ (b : Fin 2) (s : State) (r : Running), s.beacons.trains.get b = some r →
    let e := s.beacons.entries.get b
    let write (x : Option Running) : State := { s with beacons := { s.beacons with trains := s.beacons.trains.set b.val x b.isLt } }
    (s.ref < r.endsAt → exec (.beaconPhaseEnd b) s = .next s) ∧
    (r.endsAt ≤ s.ref →
      (r.on = true → exec (.beaconPhaseEnd b) s =
        .next (write (some { on := false, endsAt := r.endsAt + 50 * e.offTime, remaining := r.remaining }))) ∧
      (r.on = false → ∀ k, r.remaining = some (k + 2) → exec (.beaconPhaseEnd b) s =
        .next (write (some { on := true, endsAt := r.endsAt + 50 * e.onTime, remaining := some (k + 1) }))) ∧
      (r.on = false → r.remaining = some 1 → exec (.beaconPhaseEnd b) s = .next (write none)) ∧
      (r.on = false → r.remaining = none → exec (.beaconPhaseEnd b) s =
        .next (write (some { on := true, endsAt := r.endsAt + 50 * e.onTime, remaining := none }))))) ∧
  (∀ (k : EventKind) (sub : Subject) (s : State),
    let set : State := { s with trunk := { s.trunk with
      flags := s.trunk.flags.set k.index.val { raised := true, subject := sub } k.index.isLt } }
    let named : List Byte := match sub with
      | .none => [(0 : Byte)] ++ b4 0
      | .node address => [(1 : Byte)] ++ b4 (BitVec.ofNat 32 address.toNat)
      | .zone z => [(2 : Byte)] ++ b4 (BitVec.ofNat 32 (z.val + 1))
      | .door d => [(3 : Byte)] ++ b4 (BitVec.ofNat 32 (d.val + 1))
      | .lot id => [(4 : Byte)] ++ b4 id
    let frame : OutFrame :=
      { cls := .event, dest := 0, aliasAddr := none, kind := 0x22, tag := 0xC0,
        payload := [BitVec.ofNat 8 (k.index.val + 1)] ++ b4 s.trip.clock ++ named, origin := .plain }
    let t := raise k sub s
    t.beacons.entries = s.beacons.entries ∧
    (s.trunk.reportBits.getLsbD k.index.val = true →
      Sent set (hand frame set).1 ∧ t = { (hand frame set).1 with beacons := t.beacons }) ∧
    (s.trunk.reportBits.getLsbD k.index.val = false → t = { set with beacons := t.beacons })) ∧
  (∀ (k : EventKind) (sub : Subject) (b : Fin 2) (s : State),
    let e := s.beacons.entries.get b
    let train := s.beacons.trains.get b
    let after := (raise k sub s).beacons.trains.get b
    (e.causes.getLsbD k.index.val = false → after = train) ∧
    (e.causes.getLsbD k.index.val = true →
      (train = none → after = some { on := true, endsAt := s.ref + 50 * e.onTime,
                                     remaining := if e.count = 255 then none else some e.count }) ∧
      (∀ r n, train = some r → r.remaining = some n → e.count ≠ 255 → after = some { r with remaining := some e.count }) ∧
      (∀ r, train = some r → r.remaining = none → after = some r))) ∧
  (∀ (b : Fin 2) (s : State),
    let inhibited : Prop := ∃ h, (s.beacons.entries.get b).inhibit = some h ∧
      (s.doors.entries.get h.door).mode = .inhibit ∧ (s.doors.rts.get h.door).level = h.high
    (s.beacons.output s.doors b = true ↔ ∃ r, s.beacons.trains.get b = some r ∧ r.on = true ∧ ¬inhibited))

/-! ### Deadlines -/

/-- R132, R124, R82, R177: a pending advisory, a retention deadline or a claim window that the clock has not reached
stays. At the confirm deadline a pending advisory is removed, and the verdict stands (log 42); at its retention
deadline an entry becomes Free, its place in the proof list goes, and the claim slot for its lot is discarded; at its
window deadline a Ready slot is discarded. A slot discarded is free, and no slot but it and Queued ones, which the
builder may take, is touched; with no slot Queued and none being built nothing else of the claim unit changes. An
event commanded when it is not due leaves the part as it is (log 3). -/
def Obligations.PassedDeadlinesRemoveWhatTheyHold : Prop :=
  (∀ s : State,
     (∀ n p, (s.scans.mem.get n).pending = some p → s.trip.clock.toNat < p.confirmBy.toNat →
       exec (.advisoryExpiry n) s = .next s) ∧
     (∀ i x, (s.lots.get i).retention = some x → s.trip.clock.toNat < x.toNat → exec (.retentionExpiry i) s = .next s) ∧
     (∀ k y x, s.claims.slots.get k = some y → y.deadline = some x → s.trip.clock.toNat < x.toNat →
       exec (.claimWindowDeadline k) s = .next s)) ∧
  (∀ (n : Fin 32) (s : State) (p : Pending), (s.scans.mem.get n).pending = some p → p.confirmBy.toNat ≤ s.trip.clock.toNat →
     exec (.advisoryExpiry n) s =
       .next { s with scans := { s.scans with mem := s.scans.mem.set n.val { s.scans.mem.get n with pending := none } n.isLt } }) ∧
  (∀ (i : Fin 96) (s : State) (x : Clock), (s.lots.get i).retention = some x → x.toNat ≤ s.trip.clock.toNat →
     ∃ t, exec (.retentionExpiry i) s = .next t ∧
       t = { s with lots := s.lots.set i.val LotEntry.free i.isLt,
                    proofs := { s.proofs with list := s.proofs.list.filter (fun p => p.index != i) }, claims := t.claims } ∧
       (s.claims.slotFor (s.lots.get i).lot = none → t.claims = s.claims) ∧
       t.claims.window = s.claims.window ∧
       (∀ k, s.claims.slotFor (s.lots.get i).lot = some k → t.claims.slots.get k = none ∧
         ∀ j, j ≠ k → (∀ y, s.claims.slots.get j = some y → y.state ≠ .queued) →
           t.claims.slots.get j = s.claims.slots.get j)) ∧
  (∀ (s : State) (k : Fin 4) (x : Slot) (c : Clock), s.claims.slots.get k = some x → x.state = .ready → x.deadline = some c →
     c.toNat ≤ s.trip.clock.toNat →
     (∃ t, exec (.claimWindowDeadline k) s = .next t ∧ t = { s with claims := t.claims } ∧
       t.claims.window = s.claims.window ∧ t.claims.slots.get k = none ∧
       ∀ j, j ≠ k → (∀ y, s.claims.slots.get j = some y → y.state ≠ .queued) →
         t.claims.slots.get j = s.claims.slots.get j) ∧
     ((∀ j y, s.claims.slots.get j = some y → y.state ≠ .queued) → (∀ b, s.claims.builder = some b → b.slot ≠ k) →
       exec (.claimWindowDeadline k) s = .next { s with claims := { s.claims with
         slots := s.claims.slots.set k.val none k.isLt, order := s.claims.order.filter (fun j => j != k) } }))

/-- R139, R145 to R150, R152, R197: at its settle deadline a lot in Handover is sealed with cause Settle. Its proof number
is the trip's next proof number, raised past every number below 65,535 that an occupied lot holds in a proof of the same
trip id; the next proof number is then one above it, held at 65,535. The lot is Delivered, its handover record removed, its
proof record built from the entry, the handover and the trip, its check word taken over the record's 50 bytes, bit by bit
from the seal word on, its retention deadline set, and the proof joins the tail of the list. The record carries
the entry's refusal count (R65) beside the fields of R147, and its bytes are those of R147's fields in the layout of R197
(log 50); the bits of its flags byte that name no flag are 0 (log 33). A list that holds 16 proofs first loses its head,
whose lot is marked Unconfirmed, and ProofUnconfirmed is raised for that lot. The Seal entry comes before that, and last
the PROOF frame, the record and its check word to destination 0 under a single-frame tag, is handed to the trunk port,
which stands as before when no entry is offered and no proof gives way. -/
def Obligations.SettleDeadlinesSealTheLot : Prop :=
  ∀ (i : Fin 96) (s : State) (h : Handover), (s.lots.get i).state = .handover → (s.lots.get i).handover = some h →
    h.settleAt.toNat ≤ s.trip.clock.toNat →
    let l := s.lots.get i
    let held (m : Nat) : Prop := ∃ j p, (s.lots.get j).state ≠ .free ∧ (s.lots.get j).proof = some p ∧
      p.record.tripId = s.trip.record.tripId ∧ p.record.number = m
    ∃ n : Nat, (s.trip.record.nextProof ≤ n ∧ (∀ m, s.trip.record.nextProof ≤ m → m < n → m < 65535 ∧ held m) ∧
        (n < 65535 → ¬held n)) ∧
    let total := min 4294967295 (l.inherited.toNat + l.handling.toNat + l.equipment.toNat)
    let record : ProofRecord :=
      { tripId := s.trip.record.tripId, number := n, lot := l.lot, cls := l.cls, stopId := (s.trip.stops.get h.stop).stopId,
        scanner := h.scanner, token := h.token, scanClock := h.clock, sealClock := s.trip.clock, cause := .settle,
        grade := l.grade, total := total / 60, handling := l.handling.toNat / 60, equipment := l.equipment.toNat / 60,
        inherited := l.inherited.toNat / 60, peak := l.peak, cycles := l.cycles, blind := l.blind,
        gap := decide (l.gaps ≠ 0), hold := h.hold, misdrop := h.misdrop, unsynced := s.trip.unsynced, refusals := l.refusals }
    let bit (b : Bool) (m : Nat) : Nat := if b then m else 0
    let bytes : List Byte :=
      b4 s.trip.record.tripId ++ b2 (BitVec.ofNat 16 n) ++ b4 l.lot ++ [BitVec.ofNat 8 l.cls.val]
      ++ b4 (s.trip.stops.get h.stop).stopId ++ [h.scanner] ++ b4 h.token ++ b4 h.clock ++ b4 s.trip.clock ++ [(2 : Byte)]
      ++ [match l.grade with | .good => (0 : Byte) | .watch => 1 | .hold => 2]
      ++ b4 (BitVec.ofNat 32 (total / 60)) ++ b4 (BitVec.ofNat 32 (l.handling.toNat / 60))
      ++ b4 (BitVec.ofNat 32 (l.equipment.toNat / 60)) ++ b4 (BitVec.ofNat 32 (l.inherited.toNat / 60))
      ++ b2 (BitVec.ofInt 16 l.peak) ++ [BitVec.ofNat 8 l.cycles]
      ++ [BitVec.ofNat 8 (bit l.blind 1 + bit (decide (l.gaps ≠ 0)) 2 + bit h.hold 4 + bit h.misdrop 8 + bit s.trip.unsynced 16)]
    let check : Word := bytes.foldl (fun reg x => [7, 6, 5, 4, 3, 2, 1, 0].foldl (fun (y : Word) k =>
      if y.msb = x.getLsbD k then y <<< 1 else (y <<< 1) ^^^ 0x04C11DB7#32) reg) s.trip.record.sealWord
    let proof : ProofFields := { number := n, sealClock := s.trip.clock, cause := .settle, check := check, record := record }
    let retention : Clock := BitVec.ofNat 32 (min 4294967295 (s.trip.clock.toNat + s.trip.record.retention * 3600))
    let item : ProofItem :=
      { index := i, lot := l.lot, number := n, check := check,
        ackBy := BitVec.ofNat 32 (min 4294967295 (s.trip.clock.toNat + s.proofs.window)) }
    let frame : OutFrame :=
      { cls := .reply, dest := 0, aliasAddr := none, kind := 0x23, tag := 0xC0, payload := bytes ++ b4 check, origin := .plain }
    ∃ w t, exec (.settleDeadline i) s = .next t ∧ t = (hand frame w).1 ∧ Sent w t ∧ CustodyOnly s t ∧
      (s.journal.entries.length < 6144 → s.proofs.list.length < 16 → s.exporter.run = none → w.trunk = s.trunk) ∧
      t.trip.record = { s.trip.record with nextProof := min 65535 (n + 1) } ∧
      (s.journal.entries.length < 6144 → ∃ e ∈ t.journal.entries, e.kind = .seal ∧ e.lot = some l.lot ∧ e.zone = some l.zone
        ∧ e.v1 = BitVec.ofNat 32 n ∧ e.v2 = check ∧ e.clock = s.trip.clock) ∧
      (s.proofs.list.length < 16 → t.proofs.list = s.proofs.list ++ [item] ∧
        (∃ gaps, t.lots.get i = { l with state := .delivered, handover := none, gaps := gaps, proof := some proof, retention := some retention }) ∧
        (∀ j, j ≠ i → t.lots.get j = { s.lots.get j with gaps := (t.lots.get j).gaps })) ∧
      (∀ old rest, s.proofs.list = old :: rest → 15 ≤ rest.length → t.proofs.list = rest ++ [item] ∧
        t.trunk.flags.get EventKind.proofUnconfirmed.index = { raised := true, subject := .lot old.lot } ∧
        (∃ gaps, t.lots.get i = { l with state := .delivered, handover := none, gaps := gaps, proof := some proof, retention := some retention,
                                         unconfirmed := l.unconfirmed || decide (i = old.index) }) ∧
        (∀ j, j ≠ i → t.lots.get j = { s.lots.get j with
          gaps := (t.lots.get j).gaps, unconfirmed := (s.lots.get j).unconfirmed || decide (j = old.index) }))

/-- R153, R191: at its ack deadline a proof leaves the list, its lot is marked Unconfirmed, and then ProofUnconfirmed is
raised for the lot, and nothing else happens; what a raising does is stated with the beacons. -/
def Obligations.AckDeadlinesMarkTheLot : Prop :=
  ∀ (i : Fin 96) (s : State) (p : ProofItem), s.proofs.list.find? (fun q => q.index == i) = some p →
    p.ackBy.toNat ≤ s.trip.clock.toNat →
    let u : State := { s with proofs := { s.proofs with list := s.proofs.list.erase p },
                              lots := s.lots.set i.val { s.lots.get i with unconfirmed := true } i.isLt }
    ∃ t, exec (.ackDeadline i) s = .next t ∧ t = raise .proofUnconfirmed (.lot p.lot) u ∧ Raised u t ∧
      t.trunk.flags.get EventKind.proofUnconfirmed.index = { raised := true, subject := .lot p.lot }

/-- R154: PROOF_ACK confirms the proof of a number and check word held in the list, and appends Confirm; it is Mismatch
when only the number is held, and TooLate or NoSuchProof when it is not. That the MG_RSP of a confirmation is handed
over after the Confirm entry and the frames that it brings is the model's choice (log 44): R154 orders neither. -/
def Obligations.ProofAcksFollowTheirRows : Prop :=
  ∀ (h : ReqHdr) (n1 n0 c3 c2 c1 c0 : Byte) (s : State), Taken h s →
    let c : Instr := .proofAck h [n1, n0, c3, c2, c1, c0]
    let number := (n1 ++ n0 : BitVec 16).toNat
    let check : Word := (c3 ++ c2) ++ (c1 ++ c0)
    (∀ p, s.proofs.list.find? (fun q => q.number == number && q.check == check) = some p →
      RepliesRecording c s { s with proofs := { s.proofs with list := s.proofs.list.erase p } } h kProofAck .done
        { kind := .confirm, lot := some p.lot, zone := some (s.lots.get p.index).zone, v1 := BitVec.ofNat 32 p.number, v2 := p.check }) ∧
    ((∀ p ∈ s.proofs.list, ¬(p.number = number ∧ p.check = check)) → (∃ p ∈ s.proofs.list, p.number = number) →
      Replies c s s h kProofAck .mismatch) ∧
    ((∀ p ∈ s.proofs.list, p.number ≠ number) →
      ((∃ i p, (s.lots.get i).state = .delivered ∧ (s.lots.get i).unconfirmed = true ∧ (s.lots.get i).proof = some p ∧
          p.record.tripId = s.trip.record.tripId ∧ p.record.number = number) → Replies c s s h kProofAck .tooLate) ∧
      ((∀ i p, (s.lots.get i).state = .delivered → (s.lots.get i).unconfirmed = true → (s.lots.get i).proof = some p →
          p.record.tripId = s.trip.record.tripId → p.record.number ≠ number) → Replies c s s h kProofAck .noSuchProof))

/-! ### The journal and its export -/

/-- R162: the pin horizon is the earliest load clock of the lots in OnBoard, Handover, Delivered or Returned, and there is
none while none of those holds one; an entry is pinned when it is not a Summary entry and its clock is at or after the
horizon. R158, R159, R161: an append to a journal with room places its entry at the tail, and hands it on in two steps.
R161 step 1, R177, R176: a Key entry that names a lot discards the claim slot for that lot, the builder then taking the
first Queued slot when it has become idle, and touches no other slot; a Summary entry, an entry with no lot and an entry
whose lot has no slot leave the claim unit as it was. R161 step 2, R167: when a running export's cursor stands at the
new entry the export offers it, and else nothing is offered and nothing else happens. R163, R164: an append to a full
journal first removes its oldest Summary entry, or else its oldest Key entry that is not pinned, whatever other entries
carry its number, and then places its entry and hands it on in the same way; with neither, the journal and the claim
unit stay as they are, every lot in OnBoard, Handover, Delivered or Returned has its gap count raised, and JournalFull is
raised with no subject. -/
def Obligations.FullJournalsMakeRoomOrRefuse : Prop :=
  (∀ lots : Vector LotEntry 96,
    let pins (i : Fin 96) (c : Clock) : Prop := (lots.get i).loadClock = some c ∧ ((lots.get i).state = .onBoard ∨
      (lots.get i).state = .handover ∨ (lots.get i).state = .delivered ∨ (lots.get i).state = .returned)
    (pinHorizon lots = none ↔ ∀ i c, ¬pins i c) ∧
    (∀ c, pinHorizon lots = some c ↔ (∃ i, pins i c) ∧ ∀ i x, pins i x → c.toNat ≤ x.toNat)) ∧
  (∀ (y : JEntry) (horizon : Option Clock),
    y.pinned horizon = true ↔ y.kind ≠ .summary ∧ ∃ c, horizon = some c ∧ c.toNat ≤ y.clock.toNat) ∧
  ∀ (d : Draft) (s : State),
    let e : JEntry :=
      { place := s.journal.appended, seq := s.journal.nextSeq, clock := s.trip.clock, unsynced := s.trip.unsynced, kind := d.kind,
        lot := d.lot, zone := d.zone, zones := d.zones, door := d.door, v1 := d.v1, v2 := d.v2 }
    let placed (v : State) : Prop := ∃ w : State,
      w = { v with claims := w.claims, journal :=
        { entries := v.journal.entries ++ [e], nextSeq := s.journal.nextSeq + 1, appended := s.journal.appended + 1 } } ∧
      (d.lot = none ∨ d.kind = .summary → w.claims = v.claims) ∧
      (∀ lot, d.lot = some lot → (∀ k x, v.claims.slots.get k = some x → x.lot ≠ lot) → w.claims = v.claims) ∧
      (∀ lot k x, d.lot = some lot → d.kind ≠ .summary → v.claims.slots.get k = some x → x.lot = lot →
        (∀ j y, v.claims.slots.get j = some y → y.lot = lot → j = k) →
        Discarded k s.ref (v.journal.entries ++ [e]) v.claims w.claims) ∧
      ((∀ x, v.exporter.run = some x → x.place ≠ s.journal.appended) → append d s = w) ∧
      (∀ x, v.exporter.run = some x → x.place = s.journal.appended → append d s = offer offerFuel w)
    (s.journal.entries.length < 6144 → placed s) ∧
    (s.journal.entries.length = 6144 →
      (∀ a x b, s.journal.entries = a ++ x :: b → x.kind = .summary → (∀ y ∈ a, y.kind ≠ .summary) →
        (append d s).journal = { entries := a ++ b ++ [e], nextSeq := s.journal.nextSeq + 1, appended := s.journal.appended + 1 } ∧
        placed (evict x s)) ∧
      (∀ a x b, s.journal.entries = a ++ x :: b → (∀ y ∈ s.journal.entries, y.kind ≠ .summary) →
        x.pinned (pinHorizon s.lots) = false → (∀ y ∈ a, y.pinned (pinHorizon s.lots) = true) →
        (append d s).journal = { entries := a ++ b ++ [e], nextSeq := s.journal.nextSeq + 1, appended := s.journal.appended + 1 } ∧
        placed (evict x s)) ∧
      ((∀ y ∈ s.journal.entries, y.kind ≠ .summary ∧ y.pinned (pinHorizon s.lots) = true) →
        (append d s).journal = s.journal ∧ (append d s).claims = s.claims ∧
        (append d s).trunk.flags.get EventKind.journalFull.index = { raised := true, subject := .none } ∧
        (∀ i, (append d s).lots.get i =
          match (s.lots.get i).state with
          | .onBoard => { s.lots.get i with gaps := min 65535 ((s.lots.get i).gaps + 1) }
          | .handover => { s.lots.get i with gaps := min 65535 ((s.lots.get i).gaps + 1) }
          | .delivered => { s.lots.get i with gaps := min 65535 ((s.lots.get i).gaps + 1) }
          | .returned => { s.lots.get i with gaps := min 65535 ((s.lots.get i).gaps + 1) }
          | _ => s.lots.get i)))

/-- R165: the rows of JRNL_REQ in their order. An export that starts offers its first frame after the MG_RSP has been
handed over; a Follow with no start point waits at the next sequence number. R166: the start point is the entry held with
the from sequence, the oldest where two carry it (log 45); for one not held that is ahead of the journal by its age
there is none (log 48); for any other one not held it is the oldest entry held that is newer by age, with gap pending,
or none when no entry held is newer. -/
def Obligations.JournalRequestsFollowTheirRows : Prop :=
  (∀ (h : ReqHdr) (m s3 s2 s1 s0 c1 c0 : Byte) (s : State), Taken h s →
    let c : Instr := .jrnlReq h [m, s3, s2, s1, s0, c1, c0]
    let from_ : Word := (s3 ++ s2) ++ (s1 ++ s0)
    let count : Nat := (c1 ++ c0 : BitVec 16).toNat
    let ended : State := { s with exporter := { run := none, epoch := s.exporter.epoch + 1 } }
    let starts (mode : ExportMode) (code : ReplyCode) (cursor : Word) (place : Nat) (gap : Bool) : Prop :=
      let x : ExportRec := { mode := mode, dest := h.src, cursor := cursor, place := place, remaining := max 1 (min 1024 count),
                             gap := gap, firstSent := false, frames := 0 }
      let w := (hand (rsp h kJrnlReq code) ended).1
      Sent ended w ∧ exec c s = .next (offer offerFuel { w with exporter := { w.exporter with run := some x } })
    ((m = 0 ∨ 4 < m.toNat) → Replies c s s h kJrnlReq .badValue) ∧
    (m = 4 → Replies c s ended h kJrnlReq .done) ∧
    ((m = 1 ∨ m = 2) → s.journal.startPoint from_ = none → Replies c s ended h kJrnlReq .noEntry) ∧
    (m = 3 → s.journal.startPoint from_ = none → starts .follow .done s.journal.nextSeq s.journal.appended false) ∧
    (∀ e gap, s.journal.startPoint from_ = some (e, gap) →
      (m = 1 → starts .single .done e.seq e.place gap) ∧
      (m = 2 → starts .block (if 1 ≤ count ∧ count ≤ 1024 then .done else .adjusted) e.seq e.place gap) ∧
      (m = 3 → starts .follow .done e.seq e.place gap))) ∧
  (∀ (j : Journal) (n : Word),
    let age (x : Word) : Nat := (j.nextSeq - x).toNat
    (∀ a e b, j.entries = a ++ e :: b → e.seq = n → (∀ y ∈ a, y.seq ≠ n) → j.startPoint n = some (e, false)) ∧
    ((∀ y ∈ j.entries, y.seq ≠ n) →
      (age n = 0 ∨ 2147483648 ≤ age n ∨ (∀ y ∈ j.entries, age n ≤ age y.seq) → j.startPoint n = none) ∧
      (∀ a e b, j.entries = a ++ e :: b → age n < 2147483648 → age e.seq < age n → (∀ y ∈ a, age n ≤ age y.seq) →
        j.startPoint n = some (e, true))))

/-! ### Claims -/

/-- R172: the slot for a lot is one that holds its lot id, and there is none exactly when no slot in use does. R174: the
rows of a claim query that send no statement: NoSuchLot, NoCustody, Retry, Deferred for a slot that is
not Ready, a new slot Queued behind a builder at work or taken by an idle one, and RetryLater. A query that finds its
lot's slot under another tag discards it and opens the lowest-numbered free slot. R176: with an empty journal the slot
an idle builder takes is Ready at once, with a statement of the lot as it stands. The slot number of an answer that
names none is a free value (log 8), and the counter of free values rises with it (log 7); that the frames of a Statement
carry the number of the slot it was built in is the model's deduction (log 8, DEDUCED). R175: a query that finds its
Ready slot hands its statement's frames over in order; the slot is freed when every one was admitted, and stands as it
was when one was not. R175, R184, R186, R197: a CLAIM_RSP is a Reply frame to the source of the query, holding its lot
and tag, the answer, the slot number and a piece of the statement; the pieces are of 49 bytes, the last holding what
remains, under First, Last and rising sequences. R179, R196, R197: the statement is its fields in order, at most 710
bytes while its lists are in their bounds. -/
def Obligations.ClaimQueriesFollowTheirRows : Prop :=
  (∀ (c : Claims) (lot : Word),
     (∀ k, c.slotFor lot = some k → ∃ x, c.slots.get k = some x ∧ x.lot = lot) ∧
     (c.slotFor lot = none ↔ ∀ k x, c.slots.get k = some x → x.lot ≠ lot)) ∧
  (∀ (h : ReqHdr) (l3 l2 l1 l0 tag : Byte) (s : State), Taken h s →
     let c : Instr := .claimQ h [l3, l2, l1, l0, tag]
     let lot : Word := (l3 ++ l2) ++ (l1 ++ l0)
     let q : Query := { dest := h.src, lot := lot, tag := tag }
     let plain (answer : ClaimAnswer) : Prop :=
       ∃ x, Completes c s { s with free := s.free + 1 } (claimFrame q answer x 0xC0 [])
     let deferred (k : Fin 4) (u : State) : Prop := Completes c s u (claimFrame q .deferred (BitVec.ofNat 8 k.val) 0xC0 [])
     let slot : Slot := { lot := lot, tag := tag, state := .queued, reach := none, deadline := none, statement := none }
     let noneQueued : Prop := ∀ j y, s.claims.slots.get j = some y → y.state ≠ .queued
     (findLot s.lots lot = none → plain .noSuchLot) ∧
     (∀ i, findLot s.lots lot = some i →
       ((s.lots.get i).state = .expected → plain .noCustody) ∧
       ((s.lots.get i).state = .handover → plain .retry) ∧
       ((s.lots.get i).state ≠ .expected → (s.lots.get i).state ≠ .handover →
         (∀ k x, s.claims.slotFor lot = some k → s.claims.slots.get k = some x → x.tag = tag → x.state ≠ .ready → deferred k s) ∧
         (s.claims.slotFor lot = none → (∀ k, s.claims.slots.get k ≠ none) → plain .retryLater) ∧
         (s.claims.slotFor lot = none → ∀ k : Fin 4, s.claims.slots.get k = none → (∀ j, j < k → s.claims.slots.get j ≠ none) →
           let opened (x : Slot) (b : Option Build) : State := { s with claims := { s.claims with
             slots := s.claims.slots.set k.val (some x) k.isLt, order := s.claims.order ++ [k], builder := b } }
           (∀ b, s.claims.builder = some b → deferred k (opened slot (some b))) ∧
           (∀ newest, s.claims.builder = none → noneQueued → s.journal.entries.getLast? = some newest →
             deferred k (opened { slot with state := .building, reach := some newest.seq }
               (some { slot := k, began := s.ref, taken := [], left := s.journal.entries }))) ∧
           (s.claims.builder = none → noneQueued → s.journal.entries = [] → ∃ y : Statement,
             deferred k (opened { slot with
               state := .ready, deadline := some (BitVec.ofNat 32 (min 4294967295 (s.trip.clock.toNat + s.claims.window))),
               statement := some y } none) ∧
             y.lot = lot ∧ y.tag = tag ∧ y.clock = s.trip.clock ∧ y.reach = none ∧ y.oldest = none ∧
             y.state = (s.lots.get i).state ∧ y.items = [] ∧ y.passedOver = 0 ∧ y.openings = [] ∧ y.beyond = 0)) ∧
         (∀ k x, s.claims.slotFor lot = some k → s.claims.slots.get k = some x → x.tag ≠ tag →
           let othersQueued : Prop := ∃ j y, j ≠ k ∧ s.claims.slots.get j = some y ∧ y.state = .queued
           let lowest (n : Fin 4) : Prop :=
             (n = k ∨ s.claims.slots.get n = none) ∧ ∀ j, j < n → j ≠ k ∧ s.claims.slots.get j ≠ none
           (∃ (n : Fin 4) (u : State) (z : Slot), deferred n u ∧ u = { s with claims := u.claims } ∧
             u.claims.window = s.claims.window ∧ u.claims.slots.get n = some z ∧ z.lot = lot ∧ z.tag = tag ∧
             (n ≠ k → u.claims.slots.get k = none) ∧
             (∀ j, j ≠ n → j ≠ k → (∀ y, s.claims.slots.get j = some y → y.state ≠ .queued) →
               u.claims.slots.get j = s.claims.slots.get j) ∧
             (s.journal.entries ≠ [] ∨ ¬othersQueued → lowest n)) ∧
           (∀ n, lowest n → ¬othersQueued →
             let opened (x : Slot) (b : Build) : State := { s with claims := { s.claims with
               slots := (s.claims.slots.set k.val none k.isLt).set n.val (some x) n.isLt,
               order := s.claims.order.filter (fun j => j != k) ++ [n], builder := some b } }
             (∀ b, s.claims.builder = some b → b.slot ≠ k → deferred n (opened slot b)) ∧
             (∀ newest, (∀ b, s.claims.builder = some b → b.slot = k) → s.journal.entries.getLast? = some newest →
               deferred n (opened { slot with state := .building, reach := some newest.seq }
                 { slot := n, began := s.ref, taken := [], left := s.journal.entries }))))))) ∧
  (∀ (h : ReqHdr) (l3 l2 l1 l0 tag : Byte) (s : State) (i : Fin 96) (k : Fin 4) (x : Slot) (y : Statement), Taken h s →
     let lot : Word := (l3 ++ l2) ++ (l1 ++ l0)
     findLot s.lots lot = some i → (s.lots.get i).state ≠ .expected → (s.lots.get i).state ≠ .handover →
     s.claims.slotFor lot = some k → s.claims.slots.get k = some x → x.tag = tag → x.state = .ready → x.statement = some y →
     let r := handAll (statementFrames { dest := h.src, lot := lot, tag := tag } k 0 (pieces 49 y.bytes.length y.bytes)) s
     Sent s r.1 ∧ ∃ t, exec (.claimQ h [l3, l2, l1, l0, tag]) s = .next t ∧
       (r.2 = false → t = r.1) ∧
       (r.2 = true → t = { r.1 with claims := t.claims } ∧ t.claims.slots.get k = none ∧
         ∀ j, j ≠ k → t.claims.slots.get j = s.claims.slots.get j)) ∧
  (∀ (q : Query) (answer : ClaimAnswer) (slot tag : Byte) (piece : List Byte),
     let code : Byte := match answer with
       | .statement => 0 | .deferred => 1 | .noSuchLot => 2 | .noCustody => 3 | .retry => 4 | .retryLater => 5
     claimFrame q answer slot tag piece =
       { cls := .reply, dest := q.dest, aliasAddr := none, kind := 0x24, tag := tag,
         payload := b4 q.lot ++ [q.tag, code, slot] ++ piece, origin := .plain }) ∧
  (∀ (q : Query) (k : Fin 4) (y : Statement),
     let ps := pieces 49 y.bytes.length y.bytes
     let frames := statementFrames q k 0 ps
     ps.flatten = y.bytes ∧ frames.length = ps.length ∧ ps ≠ [] ∧
     ∀ j p, ps[j]? = some p → p ≠ [] ∧ p.length ≤ 49 ∧ (j + 1 < ps.length → p.length = 49) ∧
       frames[j]? = some (claimFrame q .statement (BitVec.ofNat 8 k.val)
         (BitVec.ofNat 8 ((if j = 0 then 128 else 0) + (if j + 1 = ps.length then 64 else 0) + j % 64)) p)) ∧
  (∀ s : State, handAll [] s = (s, true) ∧ ∀ (f : OutFrame) (fs : List OutFrame),
     handAll (f :: fs) s = if (hand f s).2 = true then handAll fs (hand f s).1 else ((hand f s).1, false)) ∧
  (∀ y : Statement,
     let u1 (x : Nat) : List Byte := [BitVec.ofNat 8 x]
     let u2 (x : Nat) : List Byte := b2 (BitVec.ofNat 16 x)
     let u4 (x : Nat) : List Byte := b4 (BitVec.ofNat 32 x)
     let yes (b : Bool) : List Byte := if b then [1] else [0]
     let opt (α : Type) (f : α → List Byte) (x : Option α) : List Byte := match x with
       | none => [0]
       | some a => [1] ++ f a
     let cause (c : SealCause) : List Byte := match c with
       | .doorClose => [1] | .settle => [2] | .depart => [3] | .closure => [4]
     let state : List Byte := match y.state with
       | .free => [0] | .expected => [1] | .onBoard => [2] | .handover => [3] | .delivered => [4] | .short => [5] | .returned => [6]
     let item (i : Item) : List Byte := match i with
       | .load k z core scanner => u1 1 ++ b4 k ++ u1 (z.val + 1) ++ b2 core ++ [scanner]
       | .move k new old => u1 2 ++ b4 k ++ [new, old]
       | .handover k token scanner stop hold misdrop cancel =>
         u1 3 ++ b4 k ++ b4 token ++ [scanner, stop] ++ u1 ((if hold then 2 else 0) + (if misdrop then 1 else 0))
           ++ opt Cancel (fun c => b4 c.clock ++ [c.reason, c.scanner]) cancel
       | .ret k z grade total => u1 4 ++ b4 k ++ u1 (z.val + 1) ++ [grade] ++ b4 total
       | .short k z stop => u1 5 ++ b4 k ++ u1 (z.val + 1) ++ [stop]
     let ending : List Byte := match y.ending with
       | .sealed c k => u1 1 ++ cause c ++ b4 k
       | .short k => u1 2 ++ u1 0 ++ b4 k
       | .returned k => u1 3 ++ u1 0 ++ b4 k
       | .inCustody k => u1 4 ++ u1 0 ++ b4 k
     let opening (o : Opening) : List Byte :=
       u1 (o.door.val + 1) ++ b4 o.clock ++ yes o.authorized ++ opt Word b4 o.duration
     y.bytes = b4 y.lot ++ [y.tag] ++ b4 y.clock ++ yes y.unsynced ++ opt Word b4 y.reach ++ opt Word b4 y.oldest
       ++ u1 y.cls.val ++ state ++ u1 (y.zone.val + 1) ++ u4 y.inherited ++ u4 y.handling ++ u4 y.equipment ++ u4 y.total
       ++ b2 (BitVec.ofInt 16 y.peak) ++ b4 y.peakClock ++ u1 y.cycles
       ++ (match y.grade with | .good => [0] | .watch => [1] | .hold => [2]) ++ yes y.blind ++ yes y.unconfirmed
       ++ u2 y.gaps ++ u1 y.refusals ++ opt Clock b4 y.loadClock
       ++ opt ProofMark (fun p => u2 p.number ++ cause p.cause ++ b4 p.check) y.proof ++ yes y.incomplete
       ++ u1 y.items.length ++ y.items.flatMap item ++ u2 y.passedOver ++ ending
       ++ u1 y.openings.length ++ y.openings.flatMap opening ++ u2 y.beyond ∧
     (y.items.length ≤ 24 → y.openings.length ≤ 16 → y.bytes.length ≤ 710))

/-- R176, R179: a build completion, taken whenever a builder runs (log 27). With no other slot Queued the builder
becomes idle, and else, with a journal that holds entries, it takes the first Queued one in the opening order. The
slot of a lot in OnBoard, Delivered, Short or Returned becomes Ready with its window deadline and a statement of the
lot as it stands and of the entries the walk took, those still to take included; that of a lot in Expected or Handover
is discarded. The statement keeps the first 23 items and the last one of more than 24, and the first 16 openings.
R180, R181: the walk goes on from each entry to the next: an item for a Load, Move, HandoverOpen, Returned or Short
that names the lot, a cancellation into the last Handover item, custody from each Load to the next Seal, Returned or
Short, and an opening for each DoorOpen of the lot's zone in custody, with the duration of the first DoorClose of its
door. A Short lot with no load clock was never in custody and lists no item; its end clock and Incomplete go by the
Short item found (log 46). -/
def Obligations.BuildCompletionsFillTheSlot : Prop :=
  (∀ (s : State) (b : Build) (x : Slot) (i : Fin 96), s.claims.builder = some b → s.claims.slots.get b.slot = some x →
    findLot s.lots x.lot = some i →
    let l := s.lots.get i
    let w := walkOver x.lot (b.taken ++ b.left)
    ∃ t, exec .buildCompletion s = .next t ∧ t = { s with claims := t.claims } ∧
      ((∀ k y, k ≠ b.slot → s.claims.slots.get k = some y → y.state ≠ .queued) → t.claims.builder = none) ∧
      (∀ newest o k p y, s.journal.entries.getLast? = some newest → s.claims.order = o ++ k :: p → k ≠ b.slot →
        s.claims.slots.get k = some y → y.state = .queued →
        (∀ j ∈ o, j = b.slot ∨ ∀ z, s.claims.slots.get j = some z → z.state ≠ .queued) →
        t.claims.builder = some { slot := k, began := s.ref, taken := [], left := s.journal.entries } ∧
        t.claims.slots.get k = some { y with state := .building, reach := some newest.seq }) ∧
      (∀ k, k ≠ b.slot → (∀ y, s.claims.slots.get k = some y → y.state ≠ .queued) →
        t.claims.slots.get k = s.claims.slots.get k) ∧
      (l.state = .expected ∨ l.state = .handover → t.claims.slots.get b.slot = none) ∧
      (l.state = .onBoard ∨ l.state = .delivered ∨ l.state = .short ∨ l.state = .returned →
        ∃ y : Statement, t.claims.slots.get b.slot =
            some { x with state := .ready, deadline := some (BitVec.ofNat 32 (min 4294967295 (s.trip.clock.toNat + s.claims.window))),
                          statement := some y } ∧
          y.lot = x.lot ∧ y.tag = x.tag ∧ y.clock = s.trip.clock ∧ y.unsynced = s.trip.unsynced ∧ y.reach = x.reach ∧
          y.oldest = (b.taken ++ b.left).head?.map JEntry.seq ∧
          y.cls = l.cls ∧ y.state = l.state ∧ y.zone = l.zone ∧ y.inherited = l.inherited.toNat / 60 ∧
          y.handling = l.handling.toNat / 60 ∧ y.equipment = l.equipment.toNat / 60 ∧
          y.total = min 4294967295 (l.inherited.toNat + l.handling.toNat + l.equipment.toNat) / 60 ∧
          y.peak = l.peak ∧ y.peakClock = l.peakClock ∧ y.cycles = l.cycles ∧ y.grade = l.grade ∧ y.blind = l.blind ∧
          y.unconfirmed = l.unconfirmed ∧ y.gaps = l.gaps ∧ y.refusals = l.refusals ∧ y.loadClock = l.loadClock ∧
          y.proof = l.proof.map (fun p => { number := p.number, cause := p.cause, check := p.check }) ∧
          (l.state = .short → l.loadClock = none → y.items = [] ∧ y.passedOver = 0) ∧
          (l.state ≠ .short ∨ l.loadClock ≠ none →
            (w.items.length ≤ 24 → y.items = w.items ∧ y.passedOver = 0) ∧
            (∀ kept mid last, w.items = kept ++ mid ++ [last] → kept.length = 23 → mid ≠ [] →
              y.items = kept ++ [last] ∧ y.passedOver = mid.length)) ∧
          y.openings = w.openings.take 16 ∧ y.beyond = w.openings.length - 16 ∧
          (l.state = .onBoard → y.ending = .inCustody s.trip.clock) ∧
          (∀ p, l.state = .delivered → l.proof = some p → y.ending = .sealed p.cause p.sealClock) ∧
          (∀ a k z m o, l.state = .short → w.items = a ++ .short k z m :: o → (∀ k z m, Item.short k z m ∉ o) → y.ending = .short k) ∧
          (l.state = .short → (∀ k z m, Item.short k z m ∉ w.items) → y.ending = .short 0) ∧
          (∀ a k z g d o, l.state = .returned → w.items = a ++ .ret k z g d :: o → (∀ k z g d, Item.ret k z g d ∉ o) →
            y.ending = .returned k) ∧
          (l.state = .returned → (∀ k z g d, Item.ret k z g d ∉ w.items) → y.ending = .returned 0) ∧
          (y.incomplete = true ↔ (l.loadClock ≠ none ∧ ∀ k z e c, Item.load k z e c ∉ w.items) ∨
            (l.state = .short ∧ ∀ k z m, Item.short k z m ∉ w.items) ∨
            (l.state = .returned ∧ ∀ k z g d, Item.ret k z g d ∉ w.items) ∨
            (l.state = .delivered ∧ w.sealFound = false) ∨ w.cancelLost = true))) ∧
  (∀ lot : Word,
    walkOver lot [] = { items := [], openings := [], inCustody := false, zone := none, sealFound := false, cancelLost := false } ∧
    ∀ (es : List JEntry) (e : JEntry),
      let w := walkOver lot es
      let next := walkOver lot (es ++ [e])
      let zone := e.zone.getD 0
      (e.lot = some lot →
        (e.kind = .load → next = { w with
          inCustody := true, zone := e.zone, items := w.items ++ [.load e.clock zone (e.v1.setWidth 16) (e.v2.setWidth 8)] }) ∧
        (e.kind = .move → next = { w with
          zone := e.zone, items := w.items ++ [.move e.clock (BitVec.ofNat 8 (zone.val + 1)) (e.v1.setWidth 8)] }) ∧
        (e.kind = .handoverOpen → next = { w with
          items := w.items ++ [.handover e.clock e.v1 (e.v2.extractLsb' 24 8) (e.v2.extractLsb' 16 8) (e.v2.getLsbD 1) (e.v2.getLsbD 0) none] }) ∧
        (e.kind = .handoverCancel →
          (∀ a k r p m y x o, w.items = a ++ .handover k r p m y x none :: o →
            (∀ k r p m y x c, Item.handover k r p m y x c ∉ o) → next = { w with
              items := a ++ .handover k r p m y x (some { clock := e.clock, reason := e.v1.setWidth 8, scanner := e.v2.setWidth 8 }) :: o }) ∧
          (∀ a k r p m y x c o, w.items = a ++ .handover k r p m y x (some c) :: o →
            (∀ k r p m y x c, Item.handover k r p m y x c ∉ o) → next = { w with cancelLost := true }) ∧
          ((∀ k r p m y x c, Item.handover k r p m y x c ∉ w.items) → next = { w with cancelLost := true })) ∧
        (e.kind = .seal → next = { w with sealFound := true, inCustody := false }) ∧
        (e.kind = .returned → next = { w with inCustody := false, items := w.items ++ [.ret e.clock zone (e.v1.setWidth 8) e.v2] }) ∧
        (e.kind = .short → next = { w with inCustody := false, items := w.items ++ [.short e.clock zone (e.v1.setWidth 8)] }) ∧
        (e.kind = .gradeRaise ∨ e.kind = .confirm ∨ e.kind = .summary → next = w)) ∧
      (e.lot ≠ some lot →
        (∀ d z m, e.kind = .doorOpen → e.door = some d → w.zone = some z → e.zones = some m → w.inCustody = true →
          m.getLsbD z.val = true → next = { w with
            openings := w.openings ++ [{ door := d, clock := e.clock, authorized := decide (e.v1 ≠ 0), duration := none }] }) ∧
        (e.kind = .doorOpen → (w.inCustody = false ∨ w.zone = none ∨
          ∃ z m, w.zone = some z ∧ e.zones = some m ∧ m.getLsbD z.val = false) → next = w) ∧
        (∀ d, e.kind = .doorClose → e.door = some d → next = { w with openings := w.openings.map (fun o =>
          if o.door = d ∧ o.duration = none then { o with duration := some e.v1 } else o) }) ∧
        (e.kind ≠ .doorOpen → e.kind ≠ .doorClose → next = w)))

/-! ### The sensor line -/

/-- R11: a round starts at the time that was set for it, and not before. R6, R7, R12: on a free line, with the walk at
an enabled Probe that this round polls and no turn due, that probe is polled: its POLL is in flight with a window that
ends the reply window after the sending step (log 6). No poll is made while one exchange is in flight, or while a
through frame is to follow a poll that has ended. R9, R10: after four probe polls, and at the end of a walk with one
to three polls since the last turn or none at all, the scanner at the head of the rotation is polled, dwell times, or
once when it is Lost; the turn is fixed at its first poll (log 25, log 37). With an empty rotation the walk goes on,
and with nothing left to poll no poll is made. A POLL to a scanner carries its verdict (R12); the counter of free
values rises with each POLL (log 7). An event commanded when it is not due leaves the part as it is (log 3). -/
def Obligations.RoundsStartAndPollTheNextProbe : Prop :=
  (∀ (s : State) (start : Nat), s.sensor.phase = .waiting start →
     let r : Round := { began := start, walked := 0, count := 0, polled := false, walkEnded := false, turn := none }
     (start ≤ s.ref → exec .roundStart s = .next { s with sensor := { s.sensor with phase := .running r } }) ∧
     (s.ref < start → exec .roundStart s = .next s)) ∧
  (∀ (s : State) (r : Round) (n : Fin 32), s.sensor.phase = .running r →
     let e := s.sensor.nodes.get n
     ((s.sensor.exchange ≠ none ∨ (s.sensor.arbiter = .pollEnded ∧ s.sensor.throughQ ≠ [])) → exec .poll s = .next s) ∧
     (s.sensor.exchange = none → (s.sensor.arbiter ≠ .pollEnded ∨ s.sensor.throughQ = []) →
       r.turn = none → r.count < 4 → r.walkEnded = false → r.walked ≤ n.val → e.enabled = true → e.kind = .probe →
       (s.sensor.roundNo = 0 ∨ (s.sensor.rts.get n).state ≠ .lost) →
       (∀ m : Fin 32, r.walked ≤ m.val → m < n → (s.sensor.nodes.get m).enabled = false ∨ (s.sensor.nodes.get m).kind = .scanner ∨
         (s.sensor.roundNo ≠ 0 ∧ (s.sensor.rts.get m).state = .lost)) →
       let frame : Frame := { dest := e.address, src := 0, kind := 0x01, tag := 0xC0, payload := [] }
       exec .poll s = .next { s with free := s.free + 1, sensor := { s.sensor with
         phase := .running { r with walked := n.val + 1, count := r.count + 1, polled := true },
         exchange := some (.poll n false frame (s.ref + s.sensor.settings.replyWindow)) } })) ∧
  (∀ (s : State) (r : Round), s.sensor.phase = .running r → s.sensor.exchange = none →
     (s.sensor.arbiter ≠ .pollEnded ∨ s.sensor.throughQ = []) →
     let polls (n : Fin 32) (accessory : Bool) (x : Round) : Prop := ∃ body, PollBody s n body ∧
       (let frame : Frame := { dest := (s.sensor.nodes.get n).address, src := 0, kind := 0x01, tag := 0xC0, payload := body }
        exec .poll s = .next { s with free := s.free + 1, sensor := { s.sensor with
          phase := .running x, exchange := some (.poll n accessory frame (s.ref + s.sensor.settings.replyWindow)) } })
     let passed (m : Fin 32) : Prop := m.val < r.walked ∨ (s.sensor.nodes.get m).enabled = false ∨
       (s.sensor.nodes.get m).kind = .scanner ∨ (s.sensor.roundNo ≠ 0 ∧ (s.sensor.rts.get m).state = .lost)
     let turn (n : Fin 32) : Turn :=
       { node := n, left := (if (s.sensor.rts.get n).state = .lost then 1 else (s.sensor.nodes.get n).dwell) - 1 }
     (∀ t, r.turn = some t → 0 < t.left → polls t.node true { r with turn := some { t with left := t.left - 1 } }) ∧
     (∀ n rest, r.turn = none → s.sensor.rotation = n :: rest →
       (r.count = 4 → polls n true { r with count := 0, turn := some (turn n) }) ∧
       (r.count < 4 → r.walkEnded = false → (∀ m, passed m) → (1 ≤ r.count ∨ r.polled = false) →
         polls n true { r with count := 0, walkEnded := true, turn := some (turn n) })) ∧
     (∀ n, r.turn = none → s.sensor.rotation = [] → r.count = 4 → r.walkEnded = false → ¬passed n → (∀ m, m < n → passed m) →
       polls n false { r with walked := n.val + 1, count := 1, polled := true }) ∧
     (r.turn = none → r.count ≤ 4 → (r.walkEnded = true ∨ ∀ m, passed m) →
       (s.sensor.rotation = [] ∨ (r.walkEnded = true ∧ r.count < 4) ∨ (r.count = 0 ∧ r.polled = true)) →
       exec .poll s = .next s))

/-- R15, R18, R24, R25, R36 to R39: a reading of a polled probe is a good reply. It first does what a REPLY_IDLE of the
node does: misses to 0, Alive, and of a Lost probe NodeBack raised and appended (that this comes before the reading is
log 18). An Invalid reading, of a clear quality bit or of a raw value outside -60.0 to 60.0 degrees, does that and
nothing more: it is not stored, counted, compared or reported. A valid one is calibrated, held within -60.0 to 60.0,
and stored with the clock. Silent reports nothing, Every-N counts up to its N-th reading, and Change with a last
reported value nearer than delta reports nothing; every other reading is handed to the trunk port as a REPORT, and is
the last reported value when that is admitted. -/
def Obligations.ValidReadingsAreStoredAndReported : Prop :=
  ∀ (s : State) (src tag : Byte) (raw : Half) (quality : Byte) (n : Fin 32) (acc : Bool) (sent : Frame) (windowEnd : Nat),
    s.sensor.exchange = some (.poll n acc sent windowEnd) → sent.dest = src → (s.sensor.nodes.get n).kind = .probe →
    let e := s.sensor.nodes.get n
    let rt := s.sensor.rts.get n
    let c : Instr := .replyReading src tag raw quality
    ∃ g, exec (.replyIdle src tag) s = .next g ∧ g.sensor.rts.get n = { rt with misses := 0, state := .alive } ∧
      g.sensor.exchange = none ∧ (∀ j, j ≠ n → g.sensor.rts.get j = s.sensor.rts.get j) ∧ PollEnded acc s.sensor g.sensor ∧
      (rt.state ≠ .lost → g = { s with sensor := g.sensor }) ∧
      (rt.state = .lost → Recorded { s with sensor := g.sensor } g ∧
        Appends s g { kind := .nodeBack, zone := some e.zone, v1 := e.address.setWidth 32 } ∧
        g.trunk.flags.get EventKind.nodeBack.index = { raised := true, subject := .node e.address }) ∧
      (quality.getLsbD 0 = false ∨ raw.toInt < -600 ∨ 600 < raw.toInt → exec c s = .next g) ∧
      (quality.getLsbD 0 = true → -600 ≤ raw.toInt → raw.toInt ≤ 600 →
        let value := max (-600) (min 600 (raw.toInt + e.offset))
        let stored : NodeRt := { rt with misses := 0, state := .alive, last := some { value := value, clock := s.trip.clock } }
        let write (x : NodeRt) (u : State) : State := { u with sensor := { u.sensor with rts := u.sensor.rts.set n.val x n.isLt } }
        let quiet (x : NodeRt) : Prop := exec c s = .next (write x g)
        let frame : OutFrame :=
          { cls := .report, dest := 0, aliasAddr := none, kind := 0x21, tag := 0xC0, origin := .plain,
            payload := [e.address, BitVec.ofNat 8 (e.zone.val + 1)] ++ b2 (BitVec.ofInt 16 value) ++ b4 s.trip.clock
              ++ [match (s.zones.rts.get e.zone).state with | .unset => (0 : Byte) | .live => 1 | .stale => 2] }
        let reports (x : NodeRt) : Prop :=
          let out := hand frame (write x g)
          Sent (write x g) out.1 ∧ (out.2 = false → exec c s = .next out.1) ∧
          (out.2 = true → exec c s = .next (write { x with lastReported := some value } out.1))
        (e.policy = .silent → quiet stored) ∧
        (e.policy = .pass → reports stored) ∧
        (∀ k, e.policy = .everyN k → rt.everyN + 1 ≠ k → quiet { stored with everyN := rt.everyN + 1 }) ∧
        (∀ k, e.policy = .everyN k → rt.everyN + 1 = k → reports { stored with everyN := 0 }) ∧
        (∀ k last, e.policy = .change k → rt.lastReported = some last → (value - last).natAbs < k → quiet stored) ∧
        (∀ k, e.policy = .change k → (∀ last, rt.lastReported = some last → k ≤ (value - last).natAbs) → reports stored))

/-- R15, R18: a good REPLY_IDLE takes the polled node's misses to 0 and its state to Alive; a node that was Lost
raises NodeBack for it and appends NodeBack. R13, R14, R16, R17: a window that passes with no frame is a NoReply miss,
and a frame with a bad Check, an over-long payload, another Source, a Kind the node may not send, or another length
than its Kind's is a miss of that kind. A miss raises the count and writes the link fault record; one that brings a
node that is not Lost to its lost limit takes it to Lost, raises NodeLost for it and appends NodeLost (R18). The
exchange ends, and an accessory turn with its last poll (R10); the arbiter holds that a poll has ended, or that the line
is idle when no through frame waits and no poll is due (R6). An event commanded when it is not due leaves the part
as it is (log 3). -/
def Obligations.RepliesFindTheNodeAndMissesAreCounted : Prop :=
  ∀ (s : State) (n : Fin 32) (accessory : Bool) (sent : Frame) (windowEnd : Nat),
    s.sensor.exchange = some (.poll n accessory sent windowEnd) →
    let e := s.sensor.nodes.get n
    let rt := s.sensor.rts.get n
    let m := min 255 (rt.misses + 1)
    let entry (kind : EntryKind) : Draft :=
      { kind := kind, zone := if e.kind = .probe then some e.zone else none, v1 := e.address.setWidth 32 }
    let ends (t : State) (x : NodeRt) (fault : LinkFault) : Prop :=
      t.sensor = { s.sensor with rts := t.sensor.rts, exchange := none, fault := fault, arbiter := t.sensor.arbiter,
                                 phase := t.sensor.phase, rotation := t.sensor.rotation } ∧
      t.sensor.rts.get n = x ∧ (∀ j, j ≠ n → t.sensor.rts.get j = s.sensor.rts.get j) ∧ PollEnded accessory s.sensor t.sensor
    let raises (t : State) (event : EventKind) (kind : EntryKind) : Prop :=
      Recorded { s with sensor := t.sensor } t ∧ Appends s t (entry kind) ∧
      t.trunk.flags.get event.index = { raised := true, subject := .node e.address }
    let missed (c : Instr) (kind : MissKind) : Prop :=
      let fault : LinkFault := { kind := kind, address := sent.dest, clock := s.trip.clock }
      (rt.state = .lost ∨ m < e.lostLimit → ∃ t, exec c s = .next t ∧ t = { s with sensor := t.sensor } ∧
        ends t { rt with misses := m } fault) ∧
      (rt.state ≠ .lost → e.lostLimit ≤ m → ∃ t, exec c s = .next t ∧ ends t { rt with misses := m, state := .lost } fault ∧
        raises t .nodeLost .nodeLost)
    (∀ src tag : Byte, sent.dest = src → ∃ t, exec (.replyIdle src tag) s = .next t ∧
      ends t { rt with misses := 0, state := .alive } s.sensor.fault ∧
      (rt.state ≠ .lost → t = { s with sensor := t.sensor }) ∧ (rt.state = .lost → raises t .nodeBack .nodeBack)) ∧
    (windowEnd ≤ s.ref → missed .replyWindowExpiry .noReply) ∧
    (s.ref < windowEnd → exec .replyWindowExpiry s = .next s) ∧
    (∀ (f : Frame) (check : Half),
      ((check ≠ f.check ∨ 56 < f.payload.length) → missed (.badReply f check) .badCheck) ∧
      (check = f.check → f.payload.length ≤ 56 → f.src ≠ sent.dest → missed (.badReply f check) .wrongSource) ∧
      (check = f.check → f.payload.length ≤ 56 → f.src = sent.dest →
        (e.kind = .probe ∧ f.kind ≠ 0x02 ∧ f.kind ≠ 0x03 ∨ e.kind = .scanner ∧ f.kind ≠ 0x02 ∧ f.kind ≠ 0x04 ∨
         f.kind = 0x02 ∧ f.payload.length ≠ 0 ∨ f.kind = 0x03 ∧ f.payload.length ≠ 3 ∨ f.kind = 0x04 ∧ f.payload.length ≠ 11) →
        missed (.badReply f check) .wrongKind)) ∧
    (∀ (src tag : Byte) (raw : Half) (quality : Byte) (scan : ScanFields),
      (src ≠ sent.dest → missed (.replyIdle src tag) .wrongSource ∧ missed (.replyReading src tag raw quality) .wrongSource ∧
        missed (.replyScan src tag scan) .wrongSource) ∧
      (src = sent.dest → (e.kind = .scanner → missed (.replyReading src tag raw quality) .wrongKind) ∧
        (e.kind = .probe → missed (.replyScan src tag scan) .wrongKind)))

/-- R126 to R128, R74, R75: a new Load scan of an Expected lot, while a visit is open, from a polled scanner that is
not Lost, loads the lot: OnBoard, its core from the arrival temperature or its zone, Blind when the zone gave no fresh
value, its load clock kept or set, Load appended, and the verdict Accepted stored under the scan's number. In a zone
that is Live or Stale and holds no air value, which no run reaches, the core is 0 (log 34). A scan from a Lost scanner
is left out here; it is judged in the state that its REPLY_IDLE leaves, as every scan is. -/
def Obligations.LoadScansLoadTheLot : Prop :=
  ∀ (s : State) (src tag : Byte) (f : ScanFields) (n : Fin 32) (acc : Bool) (sent : Frame) (windowEnd : Nat) (i : Fin 96),
    s.sensor.exchange = some (.poll n acc sent windowEnd) → sent.dest = src → (s.sensor.nodes.get n).kind = .scanner →
    (s.sensor.nodes.get n).address = src → (s.sensor.rts.get n).state ≠ .lost → f.action = 1 → f.number ≠ 0 →
    f.number ≠ (s.scans.mem.get n).number → s.trip.record.state.stop ≠ none → findLot s.lots f.lot = some i →
    (s.lots.get i).state = .expected →
    let l := s.lots.get i
    let z := s.zones.rts.get l.zone
    let core : Int := match l.arrival, z.state with
      | some t, _ => t
      | none, .unset => (s.engine.classes.get l.cls).tw
      | none, _ => z.air.getD 0
    let blind := match l.arrival, z.state with
      | some _, _ => false
      | none, .live => false
      | none, _ => true
    ∃ t, exec (.replyScan src tag f) s = .next t ∧ t.sensor.exchange = none ∧
      t.scans.mem.get n = { s.scans.mem.get n with
        number := f.number, verdict := some { action := .load, lot := f.lot, outcome := .accepted } } ∧
      (∃ gaps, t.lots.get i = { l with
        state := .onBoard, core := core, blind := l.blind || blind, updates := 0, gaps := gaps,
        loadClock := some (l.loadClock.getD s.trip.clock),
        peak := max l.peak core, peakClock := if l.peak < core then s.trip.clock else l.peakClock }) ∧
      (∀ j, j ≠ i → t.lots.get j = { s.lots.get j with gaps := (t.lots.get j).gaps }) ∧
      (s.journal.entries.length < 6144 → ∃ e, t.journal.entries = s.journal.entries ++ [e] ∧ e.kind = .load ∧
        e.lot = some l.lot ∧ e.zone = some l.zone ∧ e.v1 = BitVec.ofInt 32 core ∧ e.v2 = src.setWidth 32 ∧ e.clock = s.trip.clock)

/-- R126: a good REPLY_SCAN of a polled scanner is taken in the state that a REPLY_IDLE leaves, the node state
transition and the NodeBack entry of a Lost scanner before the scan (the model's choice, log 18: R15 lists the two and
does not order them): a malformed or a duplicate one does nothing more, and any other is judged by its action, and its
number and verdict stored. R128: a Load is Rejected with no visit open, of a lot not found, and of a lot not Expected.
R129 to R131, R135: an Unload removes the pending advisory and is Rejected with no stop or dock open, of a lot not
found, in another state than OnBoard, or with 8 lots in Handover; a lot in Handover under the same scanner is Accepted
and stays as it is; else it gives Advise with the kinds that apply and a pending advisory, and opens a handover when
none applies, appending HandoverOpen. R133: a Confirm with no pending advisory for the lot is Rejected NoPending; any
other consumes the advisory, is Rejected for a lot not found, in another state than OnBoard, or with 8 lots in
Handover, and else opens the handover with the token of the advisory and the kinds of both judgments. R137: a Refuse
of a lot in Handover cancels it: OnBoard again, its record removed, its refusal count raised and HandoverCancel
appended with the reason and the scanner; of a lot not found or in another state it is Rejected. -/
def Obligations.UnloadConfirmAndRefuseScansFollowTheirRows : Prop :=
  (∀ (s : State) (src tag : Byte) (f : ScanFields) (n : Fin 32) (accessory : Bool) (sent : Frame) (windowEnd : Nat),
     s.sensor.exchange = some (.poll n accessory sent windowEnd) → sent.dest = src → (s.sensor.nodes.get n).kind = .scanner →
     ∃ v, exec (.replyIdle src tag) s = .next v ∧
       ((f.number = 0 ∨ f.action = 0 ∨ 4 < f.action.toNat ∨ (f.action = 4 ∧ (f.reason = 0 ∨ 15 < f.reason.toNat)) ∨
           f.number = (s.scans.mem.get n).number) →
         exec (.replyScan src tag f) s = .next v) ∧
       (∀ a : ScanAction, f.number ≠ 0 → f.action = BitVec.ofNat 8 a.number →
         (a = .refuse → 1 ≤ f.reason.toNat ∧ f.reason.toNat ≤ 15) → f.number ≠ (s.scans.mem.get n).number →
         let r := judgeScan n (s.sensor.nodes.get n).address a f v
         let mem : ScanMem := { r.1.scans.mem.get n with number := f.number, verdict := some { action := a, lot := f.lot, outcome := r.2 } }
         exec (.replyScan src tag f) s = .next { r.1 with scans := { r.1.scans with mem := r.1.scans.mem.set n.val mem n.isLt } })) ∧
  (∀ (s : State) (n : Fin 32) (scanner : Byte) (f : ScanFields),
     let cleared : State := { s with scans := { s.scans with mem := s.scans.mem.set n.val { s.scans.mem.get n with pending := none } n.isLt } }
     let closed : Prop := s.trip.record.state ≠ .dock ∧ ∀ k, s.trip.record.state ≠ .atStop k
     let confirms : Prop := ∃ p, (s.scans.mem.get n).pending = some p ∧ p.lot = f.lot
     (s.trip.record.state.stop = none → judgeScan n scanner .load f s = (s, .rejected .wrongTripState)) ∧
     (closed → judgeScan n scanner .unload f s = (cleared, .rejected .wrongTripState)) ∧
     (¬confirms → judgeScan n scanner .confirm f s = (s, .rejected .noPending)) ∧
     (findLot s.lots f.lot = none →
       (s.trip.record.state.stop ≠ none → judgeScan n scanner .load f s = (s, .rejected .notManifested)) ∧
       (¬closed → judgeScan n scanner .unload f s = (cleared, .rejected .noSuchLot)) ∧
       (confirms → judgeScan n scanner .confirm f s = (cleared, .rejected .noSuchLot)) ∧
       judgeScan n scanner .refuse f s = (s, .rejected .noSuchLot)) ∧
     (∀ i, findLot s.lots f.lot = some i →
       let l := s.lots.get i
       let held : Prop := l.state = .handover ∧ ∃ h, l.handover = some h ∧ h.scanner = scanner
       (s.trip.record.state.stop ≠ none → l.state ≠ .expected → judgeScan n scanner .load f s = (s, .rejected .wrongState)) ∧
       (¬closed → held → judgeScan n scanner .unload f s = (cleared, .accepted)) ∧
       (¬closed → ¬held → l.state ≠ .onBoard → judgeScan n scanner .unload f s = (cleared, .rejected .wrongState)) ∧
       (¬closed → l.state = .onBoard → 8 ≤ handovers s.lots → judgeScan n scanner .unload f s = (cleared, .rejected .busy)) ∧
       (confirms → l.state ≠ .onBoard → judgeScan n scanner .confirm f s = (cleared, .rejected .wrongState)) ∧
       (confirms → l.state = .onBoard → 8 ≤ handovers s.lots → judgeScan n scanner .confirm f s = (cleared, .rejected .busy)) ∧
       (l.state ≠ .handover → judgeScan n scanner .refuse f s = (s, .rejected .wrongState)) ∧
       (l.state = .handover →
         let back : LotEntry := { l with state := .onBoard, handover := none, refusals := min 255 (l.refusals + 1) }
         let u : State := { s with lots := s.lots.set i.val back i.isLt }
         ∃ t, judgeScan n scanner .refuse f s = (t, .accepted) ∧ Recorded u t ∧
           Appends u t { kind := .handoverCancel, lot := some l.lot, zone := some l.zone, v1 := f.reason.setWidth 32, v2 := scanner.setWidth 32 }) ∧
       (∀ k : Fin 25, (s.trip.record.state = .atStop k ∨ (s.trip.record.state = .dock ∧ k = 0)) → l.state = .onBoard →
         handovers s.lots < 8 →
         let kinds : Advisory := { hold := decide (l.grade = .hold), misdrop := match l.planned with | some p => decide (p ≠ k) | none => false }
         let opens (a : ScanAction) (token : Word) (marks : Advisory) : Prop :=
           let record : Handover :=
             { scanner := scanner, token := token, clock := s.trip.clock, stop := k, hold := marks.hold, misdrop := marks.misdrop,
               settleAt := BitVec.ofNat 32 (min 4294967295 (s.trip.clock.toNat + (s.trip.stops.get k).settle)) }
           let u : State := { cleared with lots := s.lots.set i.val { l with state := .handover, handover := some record } i.isLt }
           ∃ t, judgeScan n scanner a f s = (t, .accepted) ∧ Recorded u t ∧
             Appends u t { kind := .handoverOpen, lot := some l.lot, zone := some l.zone, v1 := token,
                           v2 := BitVec.ofNat 32 (scanner.toNat * 16777216 + k.val * 65536 +
                             (if marks.hold then 2 else 0) + (if marks.misdrop then 1 else 0)) }
         (kinds.hold = true ∨ kinds.misdrop = true →
           judgeScan n scanner .unload f s = (s.modMem n (fun m => { m with
             pending := some { lot := f.lot, kinds := kinds, token := f.token,
                               confirmBy := BitVec.ofNat 32 (min 4294967295 (s.trip.clock.toNat + s.scans.advisory)) } }), .advise kinds)) ∧
         (kinds.hold = false → kinds.misdrop = false → opens .unload f.token kinds) ∧
         (∀ p, (s.scans.mem.get n).pending = some p → p.lot = f.lot →
           opens .confirm p.token { hold := p.kinds.hold || kinds.hold, misdrop := p.kinds.misdrop || kinds.misdrop }))))

/-- R19: a through frame joins the queue of an enabled entry that holds its alias; with the queue full it is answered
Busy, and with no such entry NoSuchAlias, each naming the alias under the through frame's own kind and sequence (log
35). R20, R6: on a free line the head of the through queue is sent to its node with the fleet side's Tag and payload,
unless a through exchange has just ended and a poll is due, when nothing is sent, its window running from the step that sends it (log 6);
with an empty queue nothing is sent. R21: a THRU_BACK from the node ends its through exchange and is forwarded with
the alias for its Source; any other frame leaves the window running; a window that passes is answered ThroughFail,
naming the alias; when the exchange has ended the arbiter holds so, or that the line is idle when no through frame waits
and no poll is due (R6). R13: with no exchange in flight every frame received on the sensor line is discarded. An event
commanded when it is not due leaves the part as it is (log 3). -/
def Obligations.ThroughFramesAreQueuedSentAndAnswered : Prop :=
  (∀ (s : State) (f : Frame), s.trunk.reset = .none → 0x80 ≤ f.dest.toNat → f.dest.toNat ≤ 0xBF → f.payload.length ≤ 56 →
     let rsp (code : ReplyCode) : OutFrame :=
       rspFrame { dest := f.src, kind := f.kind, seq := f.tag &&& 0x3F } code 0xC0 false [f.dest] .plain
     ((∀ n, (s.sensor.nodes.get n).enabled = true → (s.sensor.nodes.get n).aliasAddr ≠ some f.dest) →
       Completes (.throughFrame f) s s (rsp .noSuchAlias)) ∧
     (∀ n, (s.sensor.nodes.get n).enabled = true → (s.sensor.nodes.get n).aliasAddr = some f.dest →
       (∀ m, m < n → (s.sensor.nodes.get m).enabled = true → (s.sensor.nodes.get m).aliasAddr ≠ some f.dest) →
       (4 ≤ s.sensor.throughQ.length → Completes (.throughFrame f) s s (rsp .busy)) ∧
       (s.sensor.throughQ.length < 4 → exec (.throughFrame f) s =
         .next { s with sensor := { s.sensor with throughQ := s.sensor.throughQ ++ [{ frame := f, node := n }] } }))) ∧
  (∀ s : State,
     (s.sensor.throughQ = [] → exec .thruOut s = .next s) ∧
     (s.sensor.exchange ≠ none ∨ (s.sensor.arbiter = .throughEnded ∧ PollAwaits s.sensor) → exec .thruOut s = .next s) ∧
     (∀ q rest, s.sensor.throughQ = q :: rest → s.sensor.exchange = none →
       (s.sensor.arbiter ≠ .throughEnded ∨ ¬PollAwaits s.sensor) →
       let frame : Frame := { dest := (s.sensor.nodes.get q.node).address, src := 0, kind := 0x05, tag := q.frame.tag, payload := q.frame.payload }
       exec .thruOut s = .next { s with sensor := { s.sensor with
         throughQ := rest, exchange := some (.through q.node q.frame frame (s.ref + s.sensor.settings.replyWindow)) } })) ∧
  (∀ (s : State) (n : Fin 32) (request sent : Frame) (windowEnd : Nat),
     s.sensor.exchange = some (.through n request sent windowEnd) →
     let ended := s.modSensor Sensor.endThrough
     (∀ tag payload, payload.length ≤ 56 →
       Completes (.thruBack sent.dest tag payload) s ended
         { cls := .reply, dest := request.src, aliasAddr := some request.dest, kind := 0x06, tag := tag, payload := payload, origin := .plain }) ∧
     (∀ f check, (check ≠ f.check ∨ 56 < f.payload.length ∨ f.kind ≠ 0x06 ∨ f.src ≠ sent.dest) →
       exec (.thruWindowOtherFrame f check) s = .next s) ∧
     (windowEnd ≤ s.ref → Completes .throughWindowExpiry s ended
       (rspFrame { dest := request.src, kind := request.kind, seq := request.tag &&& 0x3F } .throughFail 0xC0 false [request.dest] .plain)) ∧
     (s.ref < windowEnd → exec .throughWindowExpiry s = .next s) ∧
     ended.sensor.exchange = none ∧ ended.sensor.throughQ = s.sensor.throughQ ∧ ended.sensor.nodes = s.sensor.nodes ∧
     ended.sensor.rts = s.sensor.rts ∧ ended.sensor.phase = s.sensor.phase ∧ ended = { s with sensor := ended.sensor } ∧
     LineFree .throughEnded s.sensor ended.sensor.arbiter) ∧
  (∀ (s : State) (f : Frame) (check : Half), s.sensor.exchange = none →
     exec (.straySensorFrame f check) s = .next s)

/-! ### Zones and exposure -/

/-- R11, R7, R9: a round ends when its walk has ended, with no poll in flight, no turn in progress and none owed to a
scanner: a turn is owed after four probe polls, and at the end of the walk after one to three since the last turn, or
when the round polled none. The round number goes on, 7 to 0, and the next round starts at the later of now and the
round floor after this one began; a through exchange in flight does not hold it up. Commanded before that, or between
rounds, the event does nothing (log 3). R30, R31, R33: each enabled zone is computed from its fresh readings, in zone
order (log 17): with none a Live zone goes Stale and any other zone stays; with some it is Live with their mean, rounded
to the nearest tenth and a halfway mean to the warmer, its step flag set when the mean is a step. Zones that are not
enabled, node entries and runtimes, and lots' states stay. -/
def Obligations.RoundsEndAndNumberOn : Prop :=
  (∀ (s : State) (start : Nat), s.sensor.phase = .waiting start → exec .roundEnd s = .next s) ∧
  ∀ (s : State) (r : Round), s.sensor.phase = .running r →
    let passed (m : Fin 32) : Prop := m.val < r.walked ∨ (s.sensor.nodes.get m).enabled = false ∨
      (s.sensor.nodes.get m).kind = .scanner ∨ (s.sensor.roundNo ≠ 0 ∧ (s.sensor.rts.get m).state = .lost)
    let walkEnded : Prop := r.walkEnded = true ∨ ∀ m, passed m
    let turnOwed : Prop := s.sensor.rotation ≠ [] ∧
      (r.count = 4 ∨ (r.walkEnded = false ∧ ((1 ≤ r.count ∧ r.count ≤ 3) ∨ r.polled = false)))
    let polling : Prop := ∃ n accessory sent windowEnd, s.sensor.exchange = some (.poll n accessory sent windowEnd)
    (polling ∨ (∃ x, r.turn = some x ∧ 0 < x.left) ∨ (r.turn = none ∧ (¬walkEnded ∨ turnOwed)) →
      exec .roundEnd s = .next s) ∧
    (¬polling → r.turn = none → walkEnded → ¬turnOwed → ∃ t, exec .roundEnd s = .next t ∧
      t.sensor = { s.sensor with roundNo := s.sensor.roundNo + 1,
                                 phase := .waiting (max s.ref (r.began + s.sensor.settings.roundFloor * 1000)) } ∧
      t = { (List.finRange 12).foldl (fun x z => if (x.zones.entries.get z).enabled then computeZone z x else x) s with
            sensor := t.sensor } ∧
      t.zones.entries = s.zones.entries ∧ t.trip = s.trip ∧ t.engine = s.engine ∧ t.doors = s.doors ∧ t.scans = s.scans ∧
      t.proofs = s.proofs ∧ (∀ i, t.lots.get i = { s.lots.get i with gaps := (t.lots.get i).gaps }) ∧
      (∀ z, (s.zones.entries.get z).enabled = false → t.zones.rts.get z = s.zones.rts.get z) ∧
      (∀ z, (s.zones.entries.get z).enabled = true →
        let rt := s.zones.rts.get z
        (freshValues s z = [] → t.zones.rts.get z = { rt with state := if rt.state = .live then .stale else rt.state }) ∧
        (∀ v vs, freshValues s z = v :: vs → ∃ air : Int,
          2 * (vs.length + 1 : Int) * air ≤ 2 * (v :: vs).sum + (vs.length + 1) ∧
          2 * (v :: vs).sum + (vs.length + 1) < 2 * (vs.length + 1 : Int) * (air + 1) ∧
          t.zones.rts.get z = { state := .live, air := some air, stepFlag := rt.stepFlag ||
            match rt.air with
            | some held => decide ((s.zones.entries.get z).step ≤ (air - held).natAbs)
            | none => false })))

/-- R30, R31: at a round end an enabled zone with fresh readings goes Live with their mean, rounded to the nearest
tenth and a halfway mean to the warmer; one with none goes from Live to Stale and keeps its air value. R33, R34: a
mean that lies at least the step threshold from the air value held is a step: the zone's step flag is set and Step
raised, and, when no door that serves the zone serves as open, UnexplainedStep is raised and appended with the held
value and the new one. Without a step nothing but the zone's runtime changes. R29: a stored reading of an enabled
probe that counts for the zone is fresh exactly when its age is less than the staleness limit; a reading with a later
clock has age 0, and one whose age equals the limit is not fresh.
R28: an entry that is not enabled, a Scanner, a probe of another zone and a probe with no stored reading give the zone
no reading; a Lost probe counts as any other. The fresh readings of a zone are those of the 32 entries, in index order. -/
def Obligations.ZonesTakeTheMeanOfFreshReadings : Prop :=
  (∀ (z : Fin 12) (s : State),
     let rt := s.zones.rts.get z
     let t := computeZone z s
     (freshValues s z = [] →
       (rt.state = .live → (t.zones.rts.get z).state = .stale ∧ (t.zones.rts.get z).air = rt.air ∧
         t.trunk.flags.get EventKind.zoneStale.index = { raised := true, subject := .zone z }) ∧
       (rt.state ≠ .live → t = s)) ∧
     (∀ v vs, freshValues s z = v :: vs → ∃ air : Int,
       (t.zones.rts.get z).state = .live ∧ (t.zones.rts.get z).air = some air ∧
       2 * (vs.length + 1 : Int) * air ≤ 2 * (v :: vs).sum + (vs.length + 1) ∧
       2 * (v :: vs).sum + (vs.length + 1) < 2 * (vs.length + 1 : Int) * (air + 1) ∧
       Recorded { s with zones := t.zones } t ∧ t.zones.entries = s.zones.entries ∧
       (∀ y, y ≠ z → t.zones.rts.get y = s.zones.rts.get y) ∧
       ((rt.air = none ∨ ∃ held, rt.air = some held ∧ (air - held).natAbs < (s.zones.entries.get z).step) →
         t = { s with zones := t.zones } ∧ (t.zones.rts.get z).stepFlag = rt.stepFlag) ∧
       (∀ held, rt.air = some held → (s.zones.entries.get z).step ≤ (air - held).natAbs →
         let served : Prop := ∃ d : Fin 4, (s.doors.entries.get d).zones.getLsbD z.val = true ∧
           serves s.trip.clock (s.doors.entries.get d) (s.doors.rts.get d) = true
         (t.zones.rts.get z).stepFlag = true ∧
         t.trunk.flags.get EventKind.step.index = { raised := true, subject := .zone z } ∧
         (served → t.journal = s.journal) ∧
         (¬served → t.trunk.flags.get EventKind.unexplainedStep.index = { raised := true, subject := .zone z } ∧
           Appends s t { kind := .unexplainedStep, zone := some z, v1 := BitVec.ofInt 32 held, v2 := BitVec.ofInt 32 air })))) ∧
  (∀ (s : State) (z : Fin 12) (n : Fin 32) (r : Reading), (s.sensor.nodes.get n).enabled = true →
     (s.sensor.nodes.get n).kind = .probe → (s.sensor.nodes.get n).zone = z → (s.sensor.rts.get n).last = some r →
     let age := if s.trip.clock.toNat ≤ r.clock.toNat then 0 else s.trip.clock.toNat - r.clock.toNat
     (freshValue s z n = some r.value ↔ age < (s.zones.entries.get z).staleness) ∧
     (freshValue s z n = none ↔ (s.zones.entries.get z).staleness ≤ age)) ∧
  (∀ (s : State) (z : Fin 12) (n : Fin 32), (s.sensor.nodes.get n).enabled = false ∨ (s.sensor.nodes.get n).kind = .scanner ∨
     (s.sensor.nodes.get n).zone ≠ z ∨ (s.sensor.rts.get n).last = none → freshValue s z n = none) ∧
  (∀ (s : State) (z : Fin 12), freshValues s z = (List.finRange 32).filterMap (freshValue s z))

/-- R44, R45: when the update timer has run P seconds, every lot in OnBoard or Handover is updated, its counter raised
by one, and no other lot but for its gap count; the last update clock becomes the clock, and the timer goes on from
the end of its period. Before that the event does nothing. R46, R47: a lot in an Unset zone becomes Blind and skips
stages 2 to 6; one in a Stale zone becomes Blind. R48, R51, R52: the core estimate of a lot follows the air of its
zone, and the increment goes, saturating, to the handling share when a door of the zone serves as open, and else to
the equipment share. R54, R55: Soft, the shock cycles and the peak follow the new core estimate. R57: the grade rises
to the computed grade and never falls; each raise raises GradeWatch or GradeHold for the lot, whose flag names the
last lot so raised, and appends GradeRaise. R58: a lot whose counter is then a multiple of the summary interval
appends Summary. With room in the journal it holds these entries, lot by lot in index order. An event commanded when
it is not due leaves the part as it is (log 3). -/
def Obligations.UpdateEventsUpdateLotsInCustody : Prop :=
  ∀ s : State,
    (s.ref < s.engine.timerStart + s.engine.period * 1000 → exec .updateEvent s = .next s) ∧
    (s.engine.timerStart + s.engine.period * 1000 ≤ s.ref → ∃ t, exec .updateEvent s = .next t ∧
      t.engine = { s.engine with lastUpdate := s.trip.clock, timerStart := s.engine.timerStart + s.engine.period * 1000 } ∧
      t.sensor = s.sensor ∧ t.zones = s.zones ∧ t.doors = s.doors ∧ t.trip = s.trip ∧ t.scans = s.scans ∧ t.proofs = s.proofs ∧
      (∀ i, (s.lots.get i).state ≠ .onBoard → (s.lots.get i).state ≠ .handover →
        t.lots.get i = { s.lots.get i with gaps := (t.lots.get i).gaps }) ∧
      (∀ i, (s.lots.get i).state = .onBoard ∨ (s.lots.get i).state = .handover →
        let l := s.lots.get i
        let x := t.lots.get i
        let c := s.engine.classes.get l.cls
        let z := s.zones.rts.get l.zone
        let served : Prop := ∃ d : Fin 4, (s.doors.entries.get d).zones.getLsbD l.zone.val = true ∧
          serves s.trip.clock (s.doors.entries.get d) (s.doors.rts.get d) = true
        let dose (share : Word) : Word := BitVec.ofNat 32 (min (share.toNat + increment c s.engine.period x.core) 4294967295)
        x = { l with
          core := x.core, handling := x.handling, equipment := x.equipment, grade := x.grade, soft := x.soft, cycles := x.cycles,
          peak := x.peak, peakClock := x.peakClock, blind := x.blind, updates := l.updates + 1, gaps := x.gaps } ∧
        (z.state = .unset → x = { l with blind := true, updates := l.updates + 1, gaps := x.gaps }) ∧
        (∀ air, z.state ≠ .unset → z.air = some air →
          x.blind = (l.blind || decide (z.state = .stale)) ∧
          x.core = nextCore c.lag l.core air ∧
          (served → x.handling = dose l.handling ∧ x.equipment = l.equipment) ∧
          (¬served → x.equipment = dose l.equipment ∧ x.handling = l.handling) ∧
          (c.ts < x.core → x.soft = true ∧ x.cycles = l.cycles) ∧
          (c.tw < x.core → x.core ≤ c.ts → x.soft = l.soft ∧ x.cycles = l.cycles) ∧
          (x.core ≤ c.tw → x.core ≤ c.ts → x.soft = false ∧ x.cycles = if l.soft then min 255 (l.cycles + 1) else l.cycles) ∧
          (l.peak < x.core → x.peak = x.core ∧ x.peakClock = s.trip.clock) ∧
          (x.core ≤ l.peak → x.peak = l.peak ∧ x.peakClock = l.peakClock) ∧
          x.grade = if l.grade.number < (computedGrade c x).number then computedGrade c x else l.grade)) ∧
      (let custody (i : Fin 96) : Prop := (s.lots.get i).state = .onBoard ∨ (s.lots.get i).state = .handover
       let raised (i : Fin 96) (g : Grade) : Prop := custody i ∧ (s.lots.get i).grade.number < g.number ∧ (t.lots.get i).grade = g
       let flag (k : EventKind) (i : Fin 96) : Prop :=
         t.trunk.flags.get k.index = { raised := true, subject := .lot (s.lots.get i).lot }
       (∀ i, raised i .watch → (∀ j, i < j → ¬raised j .watch) → flag .gradeWatch i) ∧
       (∀ i, raised i .hold → (∀ j, i < j → ¬raised j .hold) → flag .gradeHold i)) ∧
      Tells s t ((List.finRange 96).flatMap fun i =>
        let l := s.lots.get i
        let x := t.lots.get i
        let total := min 4294967295 (x.inherited.toNat + x.handling.toNat + x.equipment.toNat)
        if l.state = .onBoard ∨ l.state = .handover then
          (if l.grade.number < x.grade.number then
            [{ kind := .gradeRaise, lot := some l.lot, zone := some l.zone, v1 := BitVec.ofNat 32 x.grade.number,
               v2 := BitVec.ofNat 32 (total / 60) }] else []) ++
          (if x.updates.toNat % s.engine.interval = 0 then
            [{ kind := .summary, lot := some l.lot, zone := some l.zone, v1 := BitVec.ofNat 16 x.grade.number ++ BitVec.ofInt 16 x.core,
               v2 := BitVec.ofNat 32 (total / 60) }] else [])
        else []))

/-- R50: the dose increment from the new C and the class: 0 when C is not above Tw, else P times the sum of the smaller
of C and Ts, minus Tw, and four times the amount by which C exceeds Ts; at most 215,820. -/
def Obligations.TheIncrementCountsAboveTw : Prop :=
  ∀ (c : ClassEntry) (p : Nat) (core : Int), c.tw < c.ts →
    (core ≤ c.tw → increment c p core = 0) ∧
    (c.tw < core → (increment c p core : Int) = p * ((min core c.ts - c.tw) + (if c.ts < core then 4 * (core - c.ts) else 0))) ∧
    (-300 ≤ c.tw → -299 ≤ c.ts → core ≤ 600 → p ≤ 60 → increment c p core ≤ 215820)

/-- R48: the new core estimate: the old one plus the terms of D over the fractions of the mask, each truncated toward
zero on its own; with an empty mask it is the air value. R54: Soft and the shock cycles after the core estimate is
written; no other field of the entry changes. R56: the total dose saturates, and the computed grade follows the limits
and the shock cycles. -/
def Obligations.CoreCyclesAndGradeFollowTheirFormulas : Prop :=
  (∀ (mask : BitVec 5) (core air : Int),
     (mask = 0 → nextCore mask core air = air) ∧
     (mask ≠ 0 → nextCore mask core air = core
       + (if mask.getLsbD 0 then Int.tdiv (air - core) 2 else 0) + (if mask.getLsbD 1 then Int.tdiv (air - core) 4 else 0)
       + (if mask.getLsbD 2 then Int.tdiv (air - core) 8 else 0) + (if mask.getLsbD 3 then Int.tdiv (air - core) 16 else 0)
       + (if mask.getLsbD 4 then Int.tdiv (air - core) 32 else 0))) ∧
  (∀ (l : LotEntry) (c : ClassEntry), c.tw < c.ts →
     (c.ts < l.core → l.soften c = { l with soft := true }) ∧
     (c.tw < l.core → l.core ≤ c.ts → l.soften c = l) ∧
     (l.core ≤ c.tw → l.soft = true → l.soften c = { l with soft := false, cycles := min 255 (l.cycles + 1) }) ∧
     (l.core ≤ c.tw → l.soft = false → l.soften c = l)) ∧
  (∀ (c : ClassEntry) (l : LotEntry),
     let total := min 4294967295 (l.inherited.toNat + l.handling.toNat + l.equipment.toNat)
     l.total.toNat = total ∧
     ((60 * c.hold ≤ total ∨ (c.shock ≠ 0 ∧ c.shock ≤ l.cycles)) → computedGrade c l = .hold) ∧
     (¬(60 * c.hold ≤ total ∨ (c.shock ≠ 0 ∧ c.shock ≤ l.cycles)) → 60 * c.watch ≤ total → computedGrade c l = .watch) ∧
     (¬(60 * c.hold ≤ total ∨ (c.shock ≠ 0 ∧ c.shock ≤ l.cycles)) → total < 60 * c.watch → computedGrade c l = .good))

/-! ### Invariants -/

/-- Every invariant below holds right after reset. -/
def Obligations.TheInvariantsHoldAtReset : Prop :=
  QueueBounded State.reset ∧ JournalBounded State.reset ∧ JournalOrdered State.reset ∧ ProofsBounded State.reset ∧ ThroughBounded State.reset ∧
  HandoversBounded State.reset ∧ HandoversRecorded State.reset ∧ CustodyHeld State.reset ∧ DockOpenToAll State.reset ∧
  ClassesOrdered State.reset ∧ AirWhileSet State.reset ∧ AddressInRange State.reset

/-- R184, R163, R152, R19: every step keeps the outbound queue within its 24 places, the journal within 6144, the proof
list within 16 and the through queue within 4. R158, R159: every step keeps the entries held in the order of their
places, each with the number of its place. -/
def Obligations.EveryStepKeepsTheListsBounded : Prop :=
  ∀ s t, step s = .next t →
    (QueueBounded s → QueueBounded t) ∧ (JournalBounded s → JournalBounded t) ∧ (JournalOrdered s → JournalOrdered t) ∧
    (ProofsBounded s → ProofsBounded t) ∧ (ThroughBounded s → ThroughBounded t)

/-- R136, R135, R137, R149: every step keeps at most 8 lots in Handover, counted entry by entry, and a handover record
exactly with each. R62, R172, R132, R114, R147, R152: every step keeps, while they hold together, that an occupied entry
holds a nonzero lot id, a Free one 0, and no lot id stands in two entries; that no lot id has two claim slots; that
advisories are pending at a stop or the dock only, and lots in Handover in an open trip only; that only Delivered lots are
Unconfirmed; and that each entry of the proof list names a Delivered lot of the trip, not Unconfirmed, with its number and
check word, no lot twice, and none with no trip open. While no lot id stands in two entries, what a lot id finds is the
occupied entry that holds it; while none has two slots, its slot is the one that holds it. -/
def Obligations.EveryStepKeepsTheHandovers : Prop :=
  (∀ lots : Vector LotEntry 96,
    handovers lots = ((List.finRange 96).filter (fun i => decide ((lots.get i).state = .handover))).length) ∧
  (∀ s t, HandoversBounded s → HandoversRecorded s → step s = .next t → HandoversBounded t ∧ HandoversRecorded t) ∧
  (∀ s t, CustodyHeld s → step s = .next t → CustodyHeld t) ∧
  (∀ s, OneEntryForEachLot s → ∀ id i, findLot s.lots id = some i ↔ (s.lots.get i).state ≠ .free ∧ (s.lots.get i).lot = id) ∧
  (∀ s, OneSlotForEachLot s → ∀ lot k, s.claims.slotFor lot = some k ↔ ∃ x, s.claims.slots.get k = some x ∧ x.lot = lot)

/-- R115, R42, R193: every step keeps the dock's door set at all four doors, the limits of every class in order, and the
trunk address from 0x01 to 0x7F. -/
def Obligations.EveryStepKeepsTheSettingsLegal : Prop :=
  ∀ s t, DockOpenToAll s → ClassesOrdered s → AddressInRange s → step s = .next t →
    DockOpenToAll t ∧ ClassesOrdered t ∧ AddressInRange t

/-- R27: every step keeps the air value of a zone absent exactly while the zone is Unset. -/
def Obligations.EveryStepKeepsAirWithTheState : Prop :=
∀ s t, AirWhileSet s → step s = .next t → AirWhileSet t

/-! ### The export's offers -/

/-- R167, R168: an export with an entry at its cursor offers it as a JRNL_DATA frame to its destination, with First on
its first frame, Last on that of a Single and on the last of a Block, and Gap when gap is pending. An admitted frame
moves the cursor to the next entry held, or to the next sequence number, and sets gap pending when that number is not
one above; a frame with Last ends the export; a frame not admitted changes nothing, and with no entry at the cursor
nothing is offered. A cursor stands at an entry by its place in the journal, whatever number the entry shares with
another (R159). A frame handed to the trunk port that removes one of the running export's frames takes it back to
what it was before that frame, and past an entry since removed; a frame of an ended export, or of another class, takes
nothing back. The export offers again after each admission. R169: an entry removed at the cursor moves it to the next
entry held that is newer, with gap pending; the removal of another leaves the export as it is. R163, R176: a removal
touches nothing beside the journal and the export but the walk of a build in progress, which has taken a free number of
further entries before it (log 9) and does not take the entry after it. R160, R196, R197: a JRNL_DATA frame holds the 25
bytes of its entry, more than one byte most significant first: the sequence, the clock, the marks, the kind by its number,
the lot, the zone or the zone set, the door and the two values; the parts that an entry lacks, and the unused mark, are 0
(log 33). -/
def Obligations.JournalExportsOfferAdvanceAndStepBack : Prop :=
  (∀ (s : State) (fuel : Nat) (x : ExportRec) (a b : List JEntry) (e : JEntry), s.exporter.run = some x →
     s.journal.entries = a ++ e :: b → e.place = x.place → (∀ y ∈ a, y.place ≠ x.place) →
     let last : Bool := match x.mode with
       | .single => true
       | .block => decide (x.remaining ≤ 1 ∨ b = [])
       | .follow => false
     let frame : OutFrame :=
       { cls := .journal, dest := x.dest, aliasAddr := none, kind := 0x25, payload := e.bytes x.gap, origin := .journal s.exporter.epoch x,
         tag := BitVec.ofNat 8 ((if x.firstSent then 0 else 128) + (if last then 64 else 0) + x.frames % 64) }
     let cursor : Word := match b with
       | [] => s.journal.nextSeq
       | y :: _ => y.seq
     let place : Nat := match b with
       | [] => s.journal.appended
       | y :: _ => y.place
     let moved : ExportRec :=
       { x with firstSent := true, frames := x.frames + 1, cursor := cursor, place := place, gap := decide (cursor ≠ e.seq + 1),
                remaining := if x.mode = .block then x.remaining - 1 else x.remaining }
     ((e.bytes x.gap)[8]?).map (fun y => y.getLsbD 1) = some x.gap ∧
     (s.trunk.enqueue frame = none → offer (fuel + 1) s = s) ∧
     (∀ t removed, s.trunk.enqueue frame = some (t, removed) → offer (fuel + 1) s =
       offer fuel { s with trunk := t, exporter := { s.exporter with run := if last then none else some moved } })) ∧
  (∀ (s : State) (fuel : Nat),
     (s.exporter.run = none → offer fuel s = s) ∧
     (∀ x, s.exporter.run = some x → (∀ y ∈ s.journal.entries, y.place ≠ x.place) → offer fuel s = s)) ∧
  (∀ (f : OutFrame) (s : State),
     (s.trunk.enqueue f = none → hand f s = (s, false)) ∧
     (∀ t, s.trunk.enqueue f = some (t, none) → hand f s = (offer offerFuel { s with trunk := t }, true)) ∧
     (∀ t g, s.trunk.enqueue f = some (t, some g) →
       let back (run : Option ExportRec) : Prop :=
         hand f s = (offer offerFuel { s with trunk := t, exporter := { s.exporter with run := run } }, true)
       (∀ before, g.origin = .journal s.exporter.epoch before →
         ((before.place = s.journal.appended ∨ ∃ y ∈ s.journal.entries, y.place = before.place) → back (some before)) ∧
         (before.place ≠ s.journal.appended → (∀ z ∈ s.journal.entries, z.place < before.place) →
           back (some { before with cursor := s.journal.nextSeq, place := s.journal.appended, gap := true })) ∧
         (∀ a b y, s.journal.entries = a ++ y :: b → (∀ z ∈ s.journal.entries, z.place ≠ before.place) →
           before.place ≠ s.journal.appended → (∀ z ∈ a, z.place < before.place) → before.place < y.place →
           back (some { before with cursor := y.seq, place := y.place, gap := true }))) ∧
       ((∀ before, g.origin ≠ .journal s.exporter.epoch before) → back s.exporter.run))) ∧
  (∀ (s : State) (x : ExportRec) (a b : List JEntry) (e : JEntry), s.exporter.run = some x → s.journal.entries = a ++ e :: b →
     JournalOrdered s →
     let t := evict e s
     t.journal = { s.journal with entries := a ++ b } ∧
     (x.place = e.place → t.exporter.run = some { x with
       gap := true,
       cursor := match b with
         | [] => s.journal.nextSeq
         | y :: _ => y.seq,
       place := match b with
         | [] => s.journal.appended
         | y :: _ => y.place }) ∧
     ((x.place = s.journal.appended ∨ ∃ y ∈ a ++ b, y.place = x.place) → t.exporter.run = some x)) ∧
  (∀ (s : State) (e : JEntry),
     let t := evict e s
     t = { s with free := t.free, exporter := { s.exporter with run := t.exporter.run },
                  claims := { s.claims with builder := t.claims.builder },
                  journal := { s.journal with entries := s.journal.entries.erase e } } ∧
     (s.exporter.run = none → t.exporter.run = none) ∧
     (s.claims.builder = none → t.claims.builder = none ∧ t.free = s.free) ∧
     (∀ b, s.claims.builder = some b → ∃ n, t.claims.builder = some { b with
       taken := b.taken ++ b.left.take n,
       left := if e ∈ b.taken ++ b.left.take n then b.left.drop n else (b.left.drop n).erase e })) ∧
  (∀ x : Half, b2 x = [x.extractLsb' 8 8, x.extractLsb' 0 8]) ∧
  (∀ x : Word, b4 x = [x.extractLsb' 24 8, x.extractLsb' 16 8, x.extractLsb' 8 8, x.extractLsb' 0 8]) ∧
  (∀ (e : JEntry) (gap : Bool),
     let bit (b : Bool) (m : Nat) : Nat := if b then m else 0
     let kind : Byte := match e.kind with
       | .tripOpen => 1 | .depart => 2 | .arrive => 3 | .tripClose => 4 | .load => 5 | .move => 6 | .gradeRaise => 7
       | .handoverOpen => 8 | .handoverCancel => 9 | .seal => 10 | .confirm => 11 | .short => 12 | .returned => 13
       | .doorOpen => 14 | .doorClose => 15 | .sealBroken => 16 | .doorOverlong => 17 | .unexplainedStep => 18
       | .nodeLost => 19 | .nodeBack => 20 | .timeJump => 21 | .summary => 22
     let zones : List Byte := match e.zone, e.zones with
       | some z, _ => b2 (BitVec.ofNat 16 (z.val + 1))
       | none, some m => b2 (m.setWidth 16)
       | none, none => [0, 0]
     let door : Byte := match e.door with
       | some d => BitVec.ofNat 8 (d.val + 1)
       | none => 0
     let marks := bit e.unsynced 128 + bit (decide (e.kind = .summary)) 64 + bit e.lot.isSome 32 + bit e.zone.isSome 16
       + bit e.zones.isSome 8 + bit e.door.isSome 4 + bit gap 2
     e.bytes gap = b4 e.seq ++ b4 e.clock ++ [BitVec.ofNat 8 marks, kind] ++ b4 (e.lot.getD 0) ++ zones ++ [door]
       ++ b4 e.v1 ++ b4 e.v2 ∧ (e.bytes gap).length = 25)
end

