-- ==== Sys2Proof/Laws/State.lean ====
section
/-! SUPPORT. What each plain update of the state does to each of its parts. -/

namespace Sys2Proof.Machine

@[simp] theorem modLot_pending (s : State) (i : Fin 96) (f : LotEntry → LotEntry) : (s.modLot i f).pending = s.pending := rfl
@[simp] theorem modLot_ref (s : State) (i : Fin 96) (f : LotEntry → LotEntry) : (s.modLot i f).ref = s.ref := rfl
@[simp] theorem modLot_straps (s : State) (i : Fin 96) (f : LotEntry → LotEntry) : (s.modLot i f).straps = s.straps := rfl
@[simp] theorem modLot_free (s : State) (i : Fin 96) (f : LotEntry → LotEntry) : (s.modLot i f).free = s.free := rfl
@[simp] theorem modLot_sensor (s : State) (i : Fin 96) (f : LotEntry → LotEntry) : (s.modLot i f).sensor = s.sensor := rfl
@[simp] theorem modLot_zones (s : State) (i : Fin 96) (f : LotEntry → LotEntry) : (s.modLot i f).zones = s.zones := rfl
@[simp] theorem modLot_engine (s : State) (i : Fin 96) (f : LotEntry → LotEntry) : (s.modLot i f).engine = s.engine := rfl
@[simp] theorem modLot_lots (s : State) (i : Fin 96) (f : LotEntry → LotEntry) : (s.modLot i f).lots = upd s.lots i f := rfl
@[simp] theorem modLot_doors (s : State) (i : Fin 96) (f : LotEntry → LotEntry) : (s.modLot i f).doors = s.doors := rfl
@[simp] theorem modLot_beacons (s : State) (i : Fin 96) (f : LotEntry → LotEntry) : (s.modLot i f).beacons = s.beacons := rfl
@[simp] theorem modLot_trip (s : State) (i : Fin 96) (f : LotEntry → LotEntry) : (s.modLot i f).trip = s.trip := rfl
@[simp] theorem modLot_scans (s : State) (i : Fin 96) (f : LotEntry → LotEntry) : (s.modLot i f).scans = s.scans := rfl
@[simp] theorem modLot_proofs (s : State) (i : Fin 96) (f : LotEntry → LotEntry) : (s.modLot i f).proofs = s.proofs := rfl
@[simp] theorem modLot_journal (s : State) (i : Fin 96) (f : LotEntry → LotEntry) : (s.modLot i f).journal = s.journal := rfl
@[simp] theorem modLot_exporter (s : State) (i : Fin 96) (f : LotEntry → LotEntry) : (s.modLot i f).exporter = s.exporter := rfl
@[simp] theorem modLot_claims (s : State) (i : Fin 96) (f : LotEntry → LotEntry) : (s.modLot i f).claims = s.claims := rfl
@[simp] theorem modLot_trunk (s : State) (i : Fin 96) (f : LotEntry → LotEntry) : (s.modLot i f).trunk = s.trunk := rfl

@[simp] theorem modNodeRt_pending (s : State) (i : Fin 32) (f : NodeRt → NodeRt) : (s.modNodeRt i f).pending = s.pending := rfl
@[simp] theorem modNodeRt_ref (s : State) (i : Fin 32) (f : NodeRt → NodeRt) : (s.modNodeRt i f).ref = s.ref := rfl
@[simp] theorem modNodeRt_straps (s : State) (i : Fin 32) (f : NodeRt → NodeRt) : (s.modNodeRt i f).straps = s.straps := rfl
@[simp] theorem modNodeRt_free (s : State) (i : Fin 32) (f : NodeRt → NodeRt) : (s.modNodeRt i f).free = s.free := rfl
@[simp] theorem modNodeRt_sensor (s : State) (i : Fin 32) (f : NodeRt → NodeRt) : (s.modNodeRt i f).sensor = { s.sensor with rts := upd s.sensor.rts i f } := rfl
@[simp] theorem modNodeRt_zones (s : State) (i : Fin 32) (f : NodeRt → NodeRt) : (s.modNodeRt i f).zones = s.zones := rfl
@[simp] theorem modNodeRt_engine (s : State) (i : Fin 32) (f : NodeRt → NodeRt) : (s.modNodeRt i f).engine = s.engine := rfl
@[simp] theorem modNodeRt_lots (s : State) (i : Fin 32) (f : NodeRt → NodeRt) : (s.modNodeRt i f).lots = s.lots := rfl
@[simp] theorem modNodeRt_doors (s : State) (i : Fin 32) (f : NodeRt → NodeRt) : (s.modNodeRt i f).doors = s.doors := rfl
@[simp] theorem modNodeRt_beacons (s : State) (i : Fin 32) (f : NodeRt → NodeRt) : (s.modNodeRt i f).beacons = s.beacons := rfl
@[simp] theorem modNodeRt_trip (s : State) (i : Fin 32) (f : NodeRt → NodeRt) : (s.modNodeRt i f).trip = s.trip := rfl
@[simp] theorem modNodeRt_scans (s : State) (i : Fin 32) (f : NodeRt → NodeRt) : (s.modNodeRt i f).scans = s.scans := rfl
@[simp] theorem modNodeRt_proofs (s : State) (i : Fin 32) (f : NodeRt → NodeRt) : (s.modNodeRt i f).proofs = s.proofs := rfl
@[simp] theorem modNodeRt_journal (s : State) (i : Fin 32) (f : NodeRt → NodeRt) : (s.modNodeRt i f).journal = s.journal := rfl
@[simp] theorem modNodeRt_exporter (s : State) (i : Fin 32) (f : NodeRt → NodeRt) : (s.modNodeRt i f).exporter = s.exporter := rfl
@[simp] theorem modNodeRt_claims (s : State) (i : Fin 32) (f : NodeRt → NodeRt) : (s.modNodeRt i f).claims = s.claims := rfl
@[simp] theorem modNodeRt_trunk (s : State) (i : Fin 32) (f : NodeRt → NodeRt) : (s.modNodeRt i f).trunk = s.trunk := rfl

@[simp] theorem modMem_pending (s : State) (i : Fin 32) (f : ScanMem → ScanMem) : (s.modMem i f).pending = s.pending := rfl
@[simp] theorem modMem_ref (s : State) (i : Fin 32) (f : ScanMem → ScanMem) : (s.modMem i f).ref = s.ref := rfl
@[simp] theorem modMem_straps (s : State) (i : Fin 32) (f : ScanMem → ScanMem) : (s.modMem i f).straps = s.straps := rfl
@[simp] theorem modMem_free (s : State) (i : Fin 32) (f : ScanMem → ScanMem) : (s.modMem i f).free = s.free := rfl
@[simp] theorem modMem_sensor (s : State) (i : Fin 32) (f : ScanMem → ScanMem) : (s.modMem i f).sensor = s.sensor := rfl
@[simp] theorem modMem_zones (s : State) (i : Fin 32) (f : ScanMem → ScanMem) : (s.modMem i f).zones = s.zones := rfl
@[simp] theorem modMem_engine (s : State) (i : Fin 32) (f : ScanMem → ScanMem) : (s.modMem i f).engine = s.engine := rfl
@[simp] theorem modMem_lots (s : State) (i : Fin 32) (f : ScanMem → ScanMem) : (s.modMem i f).lots = s.lots := rfl
@[simp] theorem modMem_doors (s : State) (i : Fin 32) (f : ScanMem → ScanMem) : (s.modMem i f).doors = s.doors := rfl
@[simp] theorem modMem_beacons (s : State) (i : Fin 32) (f : ScanMem → ScanMem) : (s.modMem i f).beacons = s.beacons := rfl
@[simp] theorem modMem_trip (s : State) (i : Fin 32) (f : ScanMem → ScanMem) : (s.modMem i f).trip = s.trip := rfl
@[simp] theorem modMem_scans (s : State) (i : Fin 32) (f : ScanMem → ScanMem) : (s.modMem i f).scans = { s.scans with mem := upd s.scans.mem i f } := rfl
@[simp] theorem modMem_proofs (s : State) (i : Fin 32) (f : ScanMem → ScanMem) : (s.modMem i f).proofs = s.proofs := rfl
@[simp] theorem modMem_journal (s : State) (i : Fin 32) (f : ScanMem → ScanMem) : (s.modMem i f).journal = s.journal := rfl
@[simp] theorem modMem_exporter (s : State) (i : Fin 32) (f : ScanMem → ScanMem) : (s.modMem i f).exporter = s.exporter := rfl
@[simp] theorem modMem_claims (s : State) (i : Fin 32) (f : ScanMem → ScanMem) : (s.modMem i f).claims = s.claims := rfl
@[simp] theorem modMem_trunk (s : State) (i : Fin 32) (f : ScanMem → ScanMem) : (s.modMem i f).trunk = s.trunk := rfl

@[simp] theorem modZoneRt_pending (s : State) (z : Fin 12) (f : ZoneRt → ZoneRt) : (s.modZoneRt z f).pending = s.pending := rfl
@[simp] theorem modZoneRt_ref (s : State) (z : Fin 12) (f : ZoneRt → ZoneRt) : (s.modZoneRt z f).ref = s.ref := rfl
@[simp] theorem modZoneRt_straps (s : State) (z : Fin 12) (f : ZoneRt → ZoneRt) : (s.modZoneRt z f).straps = s.straps := rfl
@[simp] theorem modZoneRt_free (s : State) (z : Fin 12) (f : ZoneRt → ZoneRt) : (s.modZoneRt z f).free = s.free := rfl
@[simp] theorem modZoneRt_sensor (s : State) (z : Fin 12) (f : ZoneRt → ZoneRt) : (s.modZoneRt z f).sensor = s.sensor := rfl
@[simp] theorem modZoneRt_zones (s : State) (z : Fin 12) (f : ZoneRt → ZoneRt) : (s.modZoneRt z f).zones = { s.zones with rts := upd s.zones.rts z f } := rfl
@[simp] theorem modZoneRt_engine (s : State) (z : Fin 12) (f : ZoneRt → ZoneRt) : (s.modZoneRt z f).engine = s.engine := rfl
@[simp] theorem modZoneRt_lots (s : State) (z : Fin 12) (f : ZoneRt → ZoneRt) : (s.modZoneRt z f).lots = s.lots := rfl
@[simp] theorem modZoneRt_doors (s : State) (z : Fin 12) (f : ZoneRt → ZoneRt) : (s.modZoneRt z f).doors = s.doors := rfl
@[simp] theorem modZoneRt_beacons (s : State) (z : Fin 12) (f : ZoneRt → ZoneRt) : (s.modZoneRt z f).beacons = s.beacons := rfl
@[simp] theorem modZoneRt_trip (s : State) (z : Fin 12) (f : ZoneRt → ZoneRt) : (s.modZoneRt z f).trip = s.trip := rfl
@[simp] theorem modZoneRt_scans (s : State) (z : Fin 12) (f : ZoneRt → ZoneRt) : (s.modZoneRt z f).scans = s.scans := rfl
@[simp] theorem modZoneRt_proofs (s : State) (z : Fin 12) (f : ZoneRt → ZoneRt) : (s.modZoneRt z f).proofs = s.proofs := rfl
@[simp] theorem modZoneRt_journal (s : State) (z : Fin 12) (f : ZoneRt → ZoneRt) : (s.modZoneRt z f).journal = s.journal := rfl
@[simp] theorem modZoneRt_exporter (s : State) (z : Fin 12) (f : ZoneRt → ZoneRt) : (s.modZoneRt z f).exporter = s.exporter := rfl
@[simp] theorem modZoneRt_claims (s : State) (z : Fin 12) (f : ZoneRt → ZoneRt) : (s.modZoneRt z f).claims = s.claims := rfl
@[simp] theorem modZoneRt_trunk (s : State) (z : Fin 12) (f : ZoneRt → ZoneRt) : (s.modZoneRt z f).trunk = s.trunk := rfl

@[simp] theorem modDoorRt_pending (s : State) (d : Fin 4) (f : DoorRt → DoorRt) : (s.modDoorRt d f).pending = s.pending := rfl
@[simp] theorem modDoorRt_ref (s : State) (d : Fin 4) (f : DoorRt → DoorRt) : (s.modDoorRt d f).ref = s.ref := rfl
@[simp] theorem modDoorRt_straps (s : State) (d : Fin 4) (f : DoorRt → DoorRt) : (s.modDoorRt d f).straps = s.straps := rfl
@[simp] theorem modDoorRt_free (s : State) (d : Fin 4) (f : DoorRt → DoorRt) : (s.modDoorRt d f).free = s.free := rfl
@[simp] theorem modDoorRt_sensor (s : State) (d : Fin 4) (f : DoorRt → DoorRt) : (s.modDoorRt d f).sensor = s.sensor := rfl
@[simp] theorem modDoorRt_zones (s : State) (d : Fin 4) (f : DoorRt → DoorRt) : (s.modDoorRt d f).zones = s.zones := rfl
@[simp] theorem modDoorRt_engine (s : State) (d : Fin 4) (f : DoorRt → DoorRt) : (s.modDoorRt d f).engine = s.engine := rfl
@[simp] theorem modDoorRt_lots (s : State) (d : Fin 4) (f : DoorRt → DoorRt) : (s.modDoorRt d f).lots = s.lots := rfl
@[simp] theorem modDoorRt_doors (s : State) (d : Fin 4) (f : DoorRt → DoorRt) : (s.modDoorRt d f).doors = { s.doors with rts := upd s.doors.rts d f } := rfl
@[simp] theorem modDoorRt_beacons (s : State) (d : Fin 4) (f : DoorRt → DoorRt) : (s.modDoorRt d f).beacons = s.beacons := rfl
@[simp] theorem modDoorRt_trip (s : State) (d : Fin 4) (f : DoorRt → DoorRt) : (s.modDoorRt d f).trip = s.trip := rfl
@[simp] theorem modDoorRt_scans (s : State) (d : Fin 4) (f : DoorRt → DoorRt) : (s.modDoorRt d f).scans = s.scans := rfl
@[simp] theorem modDoorRt_proofs (s : State) (d : Fin 4) (f : DoorRt → DoorRt) : (s.modDoorRt d f).proofs = s.proofs := rfl
@[simp] theorem modDoorRt_journal (s : State) (d : Fin 4) (f : DoorRt → DoorRt) : (s.modDoorRt d f).journal = s.journal := rfl
@[simp] theorem modDoorRt_exporter (s : State) (d : Fin 4) (f : DoorRt → DoorRt) : (s.modDoorRt d f).exporter = s.exporter := rfl
@[simp] theorem modDoorRt_claims (s : State) (d : Fin 4) (f : DoorRt → DoorRt) : (s.modDoorRt d f).claims = s.claims := rfl
@[simp] theorem modDoorRt_trunk (s : State) (d : Fin 4) (f : DoorRt → DoorRt) : (s.modDoorRt d f).trunk = s.trunk := rfl

@[simp] theorem modTrip_pending (s : State) (f : TripRecord → TripRecord) : (s.modTrip f).pending = s.pending := rfl
@[simp] theorem modTrip_ref (s : State) (f : TripRecord → TripRecord) : (s.modTrip f).ref = s.ref := rfl
@[simp] theorem modTrip_straps (s : State) (f : TripRecord → TripRecord) : (s.modTrip f).straps = s.straps := rfl
@[simp] theorem modTrip_free (s : State) (f : TripRecord → TripRecord) : (s.modTrip f).free = s.free := rfl
@[simp] theorem modTrip_sensor (s : State) (f : TripRecord → TripRecord) : (s.modTrip f).sensor = s.sensor := rfl
@[simp] theorem modTrip_zones (s : State) (f : TripRecord → TripRecord) : (s.modTrip f).zones = s.zones := rfl
@[simp] theorem modTrip_engine (s : State) (f : TripRecord → TripRecord) : (s.modTrip f).engine = s.engine := rfl
@[simp] theorem modTrip_lots (s : State) (f : TripRecord → TripRecord) : (s.modTrip f).lots = s.lots := rfl
@[simp] theorem modTrip_doors (s : State) (f : TripRecord → TripRecord) : (s.modTrip f).doors = s.doors := rfl
@[simp] theorem modTrip_beacons (s : State) (f : TripRecord → TripRecord) : (s.modTrip f).beacons = s.beacons := rfl
@[simp] theorem modTrip_trip (s : State) (f : TripRecord → TripRecord) : (s.modTrip f).trip = { s.trip with record := f s.trip.record } := rfl
@[simp] theorem modTrip_scans (s : State) (f : TripRecord → TripRecord) : (s.modTrip f).scans = s.scans := rfl
@[simp] theorem modTrip_proofs (s : State) (f : TripRecord → TripRecord) : (s.modTrip f).proofs = s.proofs := rfl
@[simp] theorem modTrip_journal (s : State) (f : TripRecord → TripRecord) : (s.modTrip f).journal = s.journal := rfl
@[simp] theorem modTrip_exporter (s : State) (f : TripRecord → TripRecord) : (s.modTrip f).exporter = s.exporter := rfl
@[simp] theorem modTrip_claims (s : State) (f : TripRecord → TripRecord) : (s.modTrip f).claims = s.claims := rfl
@[simp] theorem modTrip_trunk (s : State) (f : TripRecord → TripRecord) : (s.modTrip f).trunk = s.trunk := rfl

@[simp] theorem modSensor_pending (s : State) (f : Sensor → Sensor) : (s.modSensor f).pending = s.pending := rfl
@[simp] theorem modSensor_ref (s : State) (f : Sensor → Sensor) : (s.modSensor f).ref = s.ref := rfl
@[simp] theorem modSensor_straps (s : State) (f : Sensor → Sensor) : (s.modSensor f).straps = s.straps := rfl
@[simp] theorem modSensor_free (s : State) (f : Sensor → Sensor) : (s.modSensor f).free = s.free := rfl
@[simp] theorem modSensor_sensor (s : State) (f : Sensor → Sensor) : (s.modSensor f).sensor = f s.sensor := rfl
@[simp] theorem modSensor_zones (s : State) (f : Sensor → Sensor) : (s.modSensor f).zones = s.zones := rfl
@[simp] theorem modSensor_engine (s : State) (f : Sensor → Sensor) : (s.modSensor f).engine = s.engine := rfl
@[simp] theorem modSensor_lots (s : State) (f : Sensor → Sensor) : (s.modSensor f).lots = s.lots := rfl
@[simp] theorem modSensor_doors (s : State) (f : Sensor → Sensor) : (s.modSensor f).doors = s.doors := rfl
@[simp] theorem modSensor_beacons (s : State) (f : Sensor → Sensor) : (s.modSensor f).beacons = s.beacons := rfl
@[simp] theorem modSensor_trip (s : State) (f : Sensor → Sensor) : (s.modSensor f).trip = s.trip := rfl
@[simp] theorem modSensor_scans (s : State) (f : Sensor → Sensor) : (s.modSensor f).scans = s.scans := rfl
@[simp] theorem modSensor_proofs (s : State) (f : Sensor → Sensor) : (s.modSensor f).proofs = s.proofs := rfl
@[simp] theorem modSensor_journal (s : State) (f : Sensor → Sensor) : (s.modSensor f).journal = s.journal := rfl
@[simp] theorem modSensor_exporter (s : State) (f : Sensor → Sensor) : (s.modSensor f).exporter = s.exporter := rfl
@[simp] theorem modSensor_claims (s : State) (f : Sensor → Sensor) : (s.modSensor f).claims = s.claims := rfl
@[simp] theorem modSensor_trunk (s : State) (f : Sensor → Sensor) : (s.modSensor f).trunk = s.trunk := rfl

@[simp] theorem modList_pending (s : State) (f : List ProofItem → List ProofItem) : (s.modList f).pending = s.pending := rfl
@[simp] theorem modList_ref (s : State) (f : List ProofItem → List ProofItem) : (s.modList f).ref = s.ref := rfl
@[simp] theorem modList_straps (s : State) (f : List ProofItem → List ProofItem) : (s.modList f).straps = s.straps := rfl
@[simp] theorem modList_free (s : State) (f : List ProofItem → List ProofItem) : (s.modList f).free = s.free := rfl
@[simp] theorem modList_sensor (s : State) (f : List ProofItem → List ProofItem) : (s.modList f).sensor = s.sensor := rfl
@[simp] theorem modList_zones (s : State) (f : List ProofItem → List ProofItem) : (s.modList f).zones = s.zones := rfl
@[simp] theorem modList_engine (s : State) (f : List ProofItem → List ProofItem) : (s.modList f).engine = s.engine := rfl
@[simp] theorem modList_lots (s : State) (f : List ProofItem → List ProofItem) : (s.modList f).lots = s.lots := rfl
@[simp] theorem modList_doors (s : State) (f : List ProofItem → List ProofItem) : (s.modList f).doors = s.doors := rfl
@[simp] theorem modList_beacons (s : State) (f : List ProofItem → List ProofItem) : (s.modList f).beacons = s.beacons := rfl
@[simp] theorem modList_trip (s : State) (f : List ProofItem → List ProofItem) : (s.modList f).trip = s.trip := rfl
@[simp] theorem modList_scans (s : State) (f : List ProofItem → List ProofItem) : (s.modList f).scans = s.scans := rfl
@[simp] theorem modList_proofs (s : State) (f : List ProofItem → List ProofItem) : (s.modList f).proofs = { s.proofs with list := f s.proofs.list } := rfl
@[simp] theorem modList_journal (s : State) (f : List ProofItem → List ProofItem) : (s.modList f).journal = s.journal := rfl
@[simp] theorem modList_exporter (s : State) (f : List ProofItem → List ProofItem) : (s.modList f).exporter = s.exporter := rfl
@[simp] theorem modList_claims (s : State) (f : List ProofItem → List ProofItem) : (s.modList f).claims = s.claims := rfl
@[simp] theorem modList_trunk (s : State) (f : List ProofItem → List ProofItem) : (s.modList f).trunk = s.trunk := rfl

@[simp] theorem setTrain_pending (s : State) (b : Fin 2) (x : Option Running) : (setTrain b x s).pending = s.pending := rfl
@[simp] theorem setTrain_ref (s : State) (b : Fin 2) (x : Option Running) : (setTrain b x s).ref = s.ref := rfl
@[simp] theorem setTrain_straps (s : State) (b : Fin 2) (x : Option Running) : (setTrain b x s).straps = s.straps := rfl
@[simp] theorem setTrain_free (s : State) (b : Fin 2) (x : Option Running) : (setTrain b x s).free = s.free := rfl
@[simp] theorem setTrain_sensor (s : State) (b : Fin 2) (x : Option Running) : (setTrain b x s).sensor = s.sensor := rfl
@[simp] theorem setTrain_zones (s : State) (b : Fin 2) (x : Option Running) : (setTrain b x s).zones = s.zones := rfl
@[simp] theorem setTrain_engine (s : State) (b : Fin 2) (x : Option Running) : (setTrain b x s).engine = s.engine := rfl
@[simp] theorem setTrain_lots (s : State) (b : Fin 2) (x : Option Running) : (setTrain b x s).lots = s.lots := rfl
@[simp] theorem setTrain_doors (s : State) (b : Fin 2) (x : Option Running) : (setTrain b x s).doors = s.doors := rfl
@[simp] theorem setTrain_beacons (s : State) (b : Fin 2) (x : Option Running) : (setTrain b x s).beacons = { s.beacons with trains := s.beacons.trains.set b.val x b.isLt } := rfl
@[simp] theorem setTrain_trip (s : State) (b : Fin 2) (x : Option Running) : (setTrain b x s).trip = s.trip := rfl
@[simp] theorem setTrain_scans (s : State) (b : Fin 2) (x : Option Running) : (setTrain b x s).scans = s.scans := rfl
@[simp] theorem setTrain_proofs (s : State) (b : Fin 2) (x : Option Running) : (setTrain b x s).proofs = s.proofs := rfl
@[simp] theorem setTrain_journal (s : State) (b : Fin 2) (x : Option Running) : (setTrain b x s).journal = s.journal := rfl
@[simp] theorem setTrain_exporter (s : State) (b : Fin 2) (x : Option Running) : (setTrain b x s).exporter = s.exporter := rfl
@[simp] theorem setTrain_claims (s : State) (b : Fin 2) (x : Option Running) : (setTrain b x s).claims = s.claims := rfl
@[simp] theorem setTrain_trunk (s : State) (b : Fin 2) (x : Option Running) : (setTrain b x s).trunk = s.trunk := rfl

@[simp] theorem setDoorEntry_pending (s : State) (d : Fin 4) (e : DoorEntry) : (setDoorEntry d e s).pending = s.pending := rfl
@[simp] theorem setDoorEntry_ref (s : State) (d : Fin 4) (e : DoorEntry) : (setDoorEntry d e s).ref = s.ref := rfl
@[simp] theorem setDoorEntry_straps (s : State) (d : Fin 4) (e : DoorEntry) : (setDoorEntry d e s).straps = s.straps := rfl
@[simp] theorem setDoorEntry_free (s : State) (d : Fin 4) (e : DoorEntry) : (setDoorEntry d e s).free = s.free := rfl
@[simp] theorem setDoorEntry_sensor (s : State) (d : Fin 4) (e : DoorEntry) : (setDoorEntry d e s).sensor = s.sensor := rfl
@[simp] theorem setDoorEntry_zones (s : State) (d : Fin 4) (e : DoorEntry) : (setDoorEntry d e s).zones = s.zones := rfl
@[simp] theorem setDoorEntry_engine (s : State) (d : Fin 4) (e : DoorEntry) : (setDoorEntry d e s).engine = s.engine := rfl
@[simp] theorem setDoorEntry_lots (s : State) (d : Fin 4) (e : DoorEntry) : (setDoorEntry d e s).lots = s.lots := rfl
@[simp] theorem setDoorEntry_doors (s : State) (d : Fin 4) (e : DoorEntry) : (setDoorEntry d e s).doors = { s.doors with entries := s.doors.entries.set d.val e d.isLt } := rfl
@[simp] theorem setDoorEntry_beacons (s : State) (d : Fin 4) (e : DoorEntry) : (setDoorEntry d e s).beacons = s.beacons := rfl
@[simp] theorem setDoorEntry_trip (s : State) (d : Fin 4) (e : DoorEntry) : (setDoorEntry d e s).trip = s.trip := rfl
@[simp] theorem setDoorEntry_scans (s : State) (d : Fin 4) (e : DoorEntry) : (setDoorEntry d e s).scans = s.scans := rfl
@[simp] theorem setDoorEntry_proofs (s : State) (d : Fin 4) (e : DoorEntry) : (setDoorEntry d e s).proofs = s.proofs := rfl
@[simp] theorem setDoorEntry_journal (s : State) (d : Fin 4) (e : DoorEntry) : (setDoorEntry d e s).journal = s.journal := rfl
@[simp] theorem setDoorEntry_exporter (s : State) (d : Fin 4) (e : DoorEntry) : (setDoorEntry d e s).exporter = s.exporter := rfl
@[simp] theorem setDoorEntry_claims (s : State) (d : Fin 4) (e : DoorEntry) : (setDoorEntry d e s).claims = s.claims := rfl
@[simp] theorem setDoorEntry_trunk (s : State) (d : Fin 4) (e : DoorEntry) : (setDoorEntry d e s).trunk = s.trunk := rfl

@[simp] theorem setRead_pending (s : State) (r : Option ReadRec) : (setRead r s).pending = s.pending := rfl
@[simp] theorem setRead_ref (s : State) (r : Option ReadRec) : (setRead r s).ref = s.ref := rfl
@[simp] theorem setRead_straps (s : State) (r : Option ReadRec) : (setRead r s).straps = s.straps := rfl
@[simp] theorem setRead_free (s : State) (r : Option ReadRec) : (setRead r s).free = s.free := rfl
@[simp] theorem setRead_sensor (s : State) (r : Option ReadRec) : (setRead r s).sensor = s.sensor := rfl
@[simp] theorem setRead_zones (s : State) (r : Option ReadRec) : (setRead r s).zones = s.zones := rfl
@[simp] theorem setRead_engine (s : State) (r : Option ReadRec) : (setRead r s).engine = s.engine := rfl
@[simp] theorem setRead_lots (s : State) (r : Option ReadRec) : (setRead r s).lots = s.lots := rfl
@[simp] theorem setRead_doors (s : State) (r : Option ReadRec) : (setRead r s).doors = s.doors := rfl
@[simp] theorem setRead_beacons (s : State) (r : Option ReadRec) : (setRead r s).beacons = s.beacons := rfl
@[simp] theorem setRead_trip (s : State) (r : Option ReadRec) : (setRead r s).trip = s.trip := rfl
@[simp] theorem setRead_scans (s : State) (r : Option ReadRec) : (setRead r s).scans = s.scans := rfl
@[simp] theorem setRead_proofs (s : State) (r : Option ReadRec) : (setRead r s).proofs = s.proofs := rfl
@[simp] theorem setRead_journal (s : State) (r : Option ReadRec) : (setRead r s).journal = s.journal := rfl
@[simp] theorem setRead_exporter (s : State) (r : Option ReadRec) : (setRead r s).exporter = s.exporter := rfl
@[simp] theorem setRead_claims (s : State) (r : Option ReadRec) : (setRead r s).claims = s.claims := rfl
@[simp] theorem setRead_trunk (s : State) (r : Option ReadRec) : (setRead r s).trunk = { s.trunk with read := r } := rfl

@[simp] theorem countError_pending (s : State) : (countError s).pending = s.pending := rfl
@[simp] theorem countError_ref (s : State) : (countError s).ref = s.ref := rfl
@[simp] theorem countError_straps (s : State) : (countError s).straps = s.straps := rfl
@[simp] theorem countError_free (s : State) : (countError s).free = s.free := rfl
@[simp] theorem countError_sensor (s : State) : (countError s).sensor = s.sensor := rfl
@[simp] theorem countError_zones (s : State) : (countError s).zones = s.zones := rfl
@[simp] theorem countError_engine (s : State) : (countError s).engine = s.engine := rfl
@[simp] theorem countError_lots (s : State) : (countError s).lots = s.lots := rfl
@[simp] theorem countError_doors (s : State) : (countError s).doors = s.doors := rfl
@[simp] theorem countError_beacons (s : State) : (countError s).beacons = s.beacons := rfl
@[simp] theorem countError_trip (s : State) : (countError s).trip = s.trip := rfl
@[simp] theorem countError_scans (s : State) : (countError s).scans = s.scans := rfl
@[simp] theorem countError_proofs (s : State) : (countError s).proofs = s.proofs := rfl
@[simp] theorem countError_journal (s : State) : (countError s).journal = s.journal := rfl
@[simp] theorem countError_exporter (s : State) : (countError s).exporter = s.exporter := rfl
@[simp] theorem countError_claims (s : State) : (countError s).claims = s.claims := rfl
@[simp] theorem countError_trunk (s : State) : (countError s).trunk = { s.trunk with errors := satSucc 65535 s.trunk.errors } := rfl

@[simp] theorem endExport_pending (s : State) : (endExport s).pending = s.pending := rfl
@[simp] theorem endExport_ref (s : State) : (endExport s).ref = s.ref := rfl
@[simp] theorem endExport_straps (s : State) : (endExport s).straps = s.straps := rfl
@[simp] theorem endExport_free (s : State) : (endExport s).free = s.free := rfl
@[simp] theorem endExport_sensor (s : State) : (endExport s).sensor = s.sensor := rfl
@[simp] theorem endExport_zones (s : State) : (endExport s).zones = s.zones := rfl
@[simp] theorem endExport_engine (s : State) : (endExport s).engine = s.engine := rfl
@[simp] theorem endExport_lots (s : State) : (endExport s).lots = s.lots := rfl
@[simp] theorem endExport_doors (s : State) : (endExport s).doors = s.doors := rfl
@[simp] theorem endExport_beacons (s : State) : (endExport s).beacons = s.beacons := rfl
@[simp] theorem endExport_trip (s : State) : (endExport s).trip = s.trip := rfl
@[simp] theorem endExport_scans (s : State) : (endExport s).scans = s.scans := rfl
@[simp] theorem endExport_proofs (s : State) : (endExport s).proofs = s.proofs := rfl
@[simp] theorem endExport_journal (s : State) : (endExport s).journal = s.journal := rfl
@[simp] theorem endExport_exporter (s : State) : (endExport s).exporter = { run := none, epoch := s.exporter.epoch + 1 } := rfl
@[simp] theorem endExport_claims (s : State) : (endExport s).claims = s.claims := rfl
@[simp] theorem endExport_trunk (s : State) : (endExport s).trunk = s.trunk := rfl

@[simp] theorem withPending_pending (s : State) (q : List Instr) : (s.withPending q).pending = q := rfl
@[simp] theorem withPending_ref (s : State) (q : List Instr) : (s.withPending q).ref = s.ref := rfl
@[simp] theorem withPending_straps (s : State) (q : List Instr) : (s.withPending q).straps = s.straps := rfl
@[simp] theorem withPending_free (s : State) (q : List Instr) : (s.withPending q).free = s.free := rfl
@[simp] theorem withPending_sensor (s : State) (q : List Instr) : (s.withPending q).sensor = s.sensor := rfl
@[simp] theorem withPending_zones (s : State) (q : List Instr) : (s.withPending q).zones = s.zones := rfl
@[simp] theorem withPending_engine (s : State) (q : List Instr) : (s.withPending q).engine = s.engine := rfl
@[simp] theorem withPending_lots (s : State) (q : List Instr) : (s.withPending q).lots = s.lots := rfl
@[simp] theorem withPending_doors (s : State) (q : List Instr) : (s.withPending q).doors = s.doors := rfl
@[simp] theorem withPending_beacons (s : State) (q : List Instr) : (s.withPending q).beacons = s.beacons := rfl
@[simp] theorem withPending_trip (s : State) (q : List Instr) : (s.withPending q).trip = s.trip := rfl
@[simp] theorem withPending_scans (s : State) (q : List Instr) : (s.withPending q).scans = s.scans := rfl
@[simp] theorem withPending_proofs (s : State) (q : List Instr) : (s.withPending q).proofs = s.proofs := rfl
@[simp] theorem withPending_journal (s : State) (q : List Instr) : (s.withPending q).journal = s.journal := rfl
@[simp] theorem withPending_exporter (s : State) (q : List Instr) : (s.withPending q).exporter = s.exporter := rfl
@[simp] theorem withPending_claims (s : State) (q : List Instr) : (s.withPending q).claims = s.claims := rfl
@[simp] theorem withPending_trunk (s : State) (q : List Instr) : (s.withPending q).trunk = s.trunk := rfl

@[simp] theorem runBuilder_pending (s : State) : (runBuilder s).pending = s.pending := rfl
@[simp] theorem runBuilder_ref (s : State) : (runBuilder s).ref = s.ref := rfl
@[simp] theorem runBuilder_straps (s : State) : (runBuilder s).straps = s.straps := rfl
@[simp] theorem runBuilder_free (s : State) : (runBuilder s).free = s.free := rfl
@[simp] theorem runBuilder_sensor (s : State) : (runBuilder s).sensor = s.sensor := rfl
@[simp] theorem runBuilder_zones (s : State) : (runBuilder s).zones = s.zones := rfl
@[simp] theorem runBuilder_engine (s : State) : (runBuilder s).engine = s.engine := rfl
@[simp] theorem runBuilder_lots (s : State) : (runBuilder s).lots = s.lots := rfl
@[simp] theorem runBuilder_doors (s : State) : (runBuilder s).doors = s.doors := rfl
@[simp] theorem runBuilder_beacons (s : State) : (runBuilder s).beacons = s.beacons := rfl
@[simp] theorem runBuilder_trip (s : State) : (runBuilder s).trip = s.trip := rfl
@[simp] theorem runBuilder_scans (s : State) : (runBuilder s).scans = s.scans := rfl
@[simp] theorem runBuilder_proofs (s : State) : (runBuilder s).proofs = s.proofs := rfl
@[simp] theorem runBuilder_journal (s : State) : (runBuilder s).journal = s.journal := rfl
@[simp] theorem runBuilder_exporter (s : State) : (runBuilder s).exporter = s.exporter := rfl
@[simp] theorem runBuilder_claims (s : State) : (runBuilder s).claims = s.claims.run 5 s.ref s.clock s.trip.unsynced s.lots s.journal.entries := rfl
@[simp] theorem runBuilder_trunk (s : State) : (runBuilder s).trunk = s.trunk := rfl

@[simp] theorem discardSlot_pending (s : State) (k : Fin 4) : (discardSlot k s).pending = s.pending := rfl
@[simp] theorem discardSlot_ref (s : State) (k : Fin 4) : (discardSlot k s).ref = s.ref := rfl
@[simp] theorem discardSlot_straps (s : State) (k : Fin 4) : (discardSlot k s).straps = s.straps := rfl
@[simp] theorem discardSlot_free (s : State) (k : Fin 4) : (discardSlot k s).free = s.free := rfl
@[simp] theorem discardSlot_sensor (s : State) (k : Fin 4) : (discardSlot k s).sensor = s.sensor := rfl
@[simp] theorem discardSlot_zones (s : State) (k : Fin 4) : (discardSlot k s).zones = s.zones := rfl
@[simp] theorem discardSlot_engine (s : State) (k : Fin 4) : (discardSlot k s).engine = s.engine := rfl
@[simp] theorem discardSlot_lots (s : State) (k : Fin 4) : (discardSlot k s).lots = s.lots := rfl
@[simp] theorem discardSlot_doors (s : State) (k : Fin 4) : (discardSlot k s).doors = s.doors := rfl
@[simp] theorem discardSlot_beacons (s : State) (k : Fin 4) : (discardSlot k s).beacons = s.beacons := rfl
@[simp] theorem discardSlot_trip (s : State) (k : Fin 4) : (discardSlot k s).trip = s.trip := rfl
@[simp] theorem discardSlot_scans (s : State) (k : Fin 4) : (discardSlot k s).scans = s.scans := rfl
@[simp] theorem discardSlot_proofs (s : State) (k : Fin 4) : (discardSlot k s).proofs = s.proofs := rfl
@[simp] theorem discardSlot_journal (s : State) (k : Fin 4) : (discardSlot k s).journal = s.journal := rfl
@[simp] theorem discardSlot_exporter (s : State) (k : Fin 4) : (discardSlot k s).exporter = s.exporter := rfl
@[simp] theorem discardSlot_trunk (s : State) (k : Fin 4) : (discardSlot k s).trunk = s.trunk := rfl

end Sys2Proof.Machine
end

