-- ==== Sys2Proof/Laws/Tables.lean ====
section
/-! SUPPORT. Reading a table after one of its entries, or all of them, have been replaced. -/

namespace Sys2Proof.Machine

@[simp] theorem get_set_self {α : Type} {n : Nat} (v : Vector α n) (i : Fin n) (x : α) :
    (v.set i.val x i.isLt).get i = x := by simp [Vector.get_eq_getElem]

theorem get_set_ne {α : Type} {n : Nat} (v : Vector α n) {i j : Fin n} (h : j ≠ i) (x : α) :
    (v.set i.val x i.isLt).get j = v.get j := by
  have h' : i.val ≠ j.val := fun e => h (Fin.ext e.symm)
  simp [Vector.get_eq_getElem, Vector.getElem_set_ne, h']

theorem get_set {α : Type} {n : Nat} (v : Vector α n) (i j : Fin n) (x : α) :
    (v.set i.val x i.isLt).get j = if j = i then x else v.get j := by
  by_cases h : j = i
  · subst h; simp
  · rw [get_set_ne v h, if_neg h]

@[simp] theorem get_upd_self {α : Type} {n : Nat} (v : Vector α n) (i : Fin n) (f : α → α) :
    (upd v i f).get i = f (v.get i) := get_set_self v i _

theorem get_upd_ne {α : Type} {n : Nat} (v : Vector α n) {i j : Fin n} (h : j ≠ i) (f : α → α) :
    (upd v i f).get j = v.get j := get_set_ne v h _

theorem get_upd {α : Type} {n : Nat} (v : Vector α n) (i j : Fin n) (f : α → α) :
    (upd v i f).get j = if j = i then f (v.get i) else v.get j := get_set v i j _

@[simp] theorem get_mapV {α β : Type} {n : Nat} (f : α → β) (v : Vector α n) (i : Fin n) :
    (mapV f v).get i = f (v.get i) := by
  rcases v with ⟨⟨l⟩, h⟩
  simp [mapV, Vector.get, Vector.toList]
  rfl

@[simp] theorem get_replicate {α : Type} {n : Nat} (x : α) (i : Fin n) : (Vector.replicate n x).get i = x := by
  simp [Vector.get_eq_getElem]

/-- Two tables agree when their entries do. -/
theorem table_ext {α : Type} {n : Nat} {v w : Vector α n} (h : ∀ i, v.get i = w.get i) : v = w := by
  ext i hi
  have := h ⟨i, hi⟩
  simpa [Vector.get_eq_getElem] using this

/-- A count over a table is a sum over its indexes. -/
theorem countV_eq {α : Type} {n : Nat} (p : α → Bool) (v : Vector α n) :
    countV p v = (List.finRange n).countP (fun i => p (v.get i)) := by
  have h : v.toList = (List.finRange n).map v.get := by
    apply List.ext_getElem
    · simp
    · intro i h1 h2
      simp [Vector.get_eq_getElem]
  rw [countV, h, List.countP_map]
  rfl

/-- One changed entry raises a count by at most one. -/
theorem countV_upd_le {α : Type} {n : Nat} (p : α → Bool) (v : Vector α n) (i : Fin n) (f : α → α) :
    countV p (upd v i f) ≤ countV p v + 1 := by
  have key : ∀ l : List (Fin n), l.Nodup →
      l.countP (fun j => p ((upd v i f).get j)) ≤ l.countP (fun j => p (v.get j)) + 1 := by
    intro l
    induction l with
    | nil => simp
    | cons a l ih =>
      intro hn
      have hn' := List.nodup_cons.mp hn
      by_cases ha : a = i
      · subst ha
        have hl : l.countP (fun j => p ((upd v a f).get j)) = l.countP (fun j => p (v.get j)) := by
          apply List.countP_congr
          intro j hj
          have : j ≠ a := fun e => hn'.1 (e ▸ hj)
          rw [get_upd_ne v this]
        rw [List.countP_cons, List.countP_cons, hl]
        split <;> split <;> omega
      · rw [List.countP_cons, List.countP_cons, get_upd_ne v ha]
        have := ih hn'.2
        omega
  rw [countV_eq, countV_eq]
  exact key _ (List.nodup_finRange n)

/-- Entries that change without a test becoming true of them do not raise its count. -/
theorem countV_mono {α : Type} {n : Nat} (p : α → Bool) {v w : Vector α n}
    (h : ∀ i, p (w.get i) = true → p (v.get i) = true) : countV p w ≤ countV p v := by
  rw [countV_eq, countV_eq]
  exact List.countP_mono_left fun i _ hi => h i hi

end Sys2Proof.Machine
end

