-- ==== Sys2Proof/Laws/Trunk.lean ====
section
/-! SUPPORT. What the outbound queue's operations, the export's offers and the handing of a frame can do
(spec 11 R184, R185; spec 09 R167, R168). -/

namespace Sys2Proof.Machine

/-! ### The queue -/

theorem rank_le (c : FrameClass) : c.rank ≤ 3 := by cases c <;> decide

theorem dropNext_length_le (q : List OutFrame) : (dropNext q).length ≤ q.length := by
  unfold dropNext; exact List.length_eraseP_le

theorem min_fold_le (q : List OutFrame) (m : Nat) : q.foldl (fun m f => min m f.cls.rank) m ≤ m := by
  induction q generalizing m with
  | nil => simp
  | cons a q ih => exact le_trans (ih _) (Nat.min_le_left _ _)

theorem min_fold_attained (q : List OutFrame) (m : Nat) :
    q.foldl (fun m f => min m f.cls.rank) m = m ∨ ∃ f ∈ q, f.cls.rank = q.foldl (fun m f => min m f.cls.rank) m := by
  induction q generalizing m with
  | nil => simp
  | cons a q ih =>
    rw [List.foldl_cons]
    rcases ih (min m a.cls.rank) with h | ⟨f, hf, h⟩
    · rcases Nat.le_total m a.cls.rank with h1 | h1
      · left; rw [h]; exact Nat.min_eq_left h1
      · right; exact ⟨a, by simp, by rw [h]; exact (Nat.min_eq_right h1).symm⟩
    · right; exact ⟨f, by simp [hf], h⟩

/-- A queue that holds a frame holds one of the lowest rank present. -/
theorem lowest_attained (q : List OutFrame) (h : q ≠ []) : ∃ f ∈ q, f.cls.rank = lowestRank q := by
  unfold lowestRank
  rcases min_fold_attained q 3 with h3 | h3
  · cases q with
    | nil => exact absurd rfl h
    | cons a q =>
      refine ⟨a, by simp, ?_⟩
      have h1 : a.cls.rank ≤ 3 := rank_le _
      have h2 := min_fold_le q (min 3 a.cls.rank)
      rw [h3]; rw [List.foldl_cons] at h3
      omega
  · exact h3

theorem dropNewestLowest_length (q : List OutFrame) (h : q ≠ []) :
    (dropNewestLowest q).length + 1 = q.length := by
  obtain ⟨f, hf, hr⟩ := lowest_attained q h
  have hpos : 0 < q.length := List.length_pos_of_ne_nil h
  unfold dropNewestLowest
  rw [List.length_reverse, List.length_eraseP_of_mem (l := q.reverse) (a := f) (by simpa using hf) (by simpa using hr)]
  simp
  omega

/-- Beginning a transmission changes the queue, the line and the read's mark alone. -/
theorem begin_rest (t : Trunk) : t.begin = { t with queue := t.begin.queue, tx := t.begin.tx, read := t.begin.read } := by
  unfold Trunk.begin
  cases h : t.tx with
  | some x => rfl
  | none => cases h2 : nextOut t.queue <;> rfl

theorem begin_queue_le (t : Trunk) : t.begin.queue.length ≤ t.queue.length := by
  unfold Trunk.begin
  cases h : t.tx with
  | some x => simp
  | none => cases h2 : nextOut t.queue <;> simp [dropNext_length_le]

theorem place_rest (f : OutFrame) (t : Trunk) :
    t.place f = { t with queue := (t.place f).queue, tx := (t.place f).tx, read := (t.place f).read } := by
  have := begin_rest { t with queue := t.queue ++ [f] }
  unfold Trunk.place
  rw [this]

theorem place_queue_le (f : OutFrame) (t : Trunk) : (t.place f).queue.length ≤ t.queue.length + 1 := by
  unfold Trunk.place
  exact le_trans (begin_queue_le _) (by simp)

/-- R185: an admission changes the queue, the line and the read's mark alone. -/
theorem admit_rest {f : OutFrame} {t t' : Trunk} {r : Option OutFrame} (h : t.enqueue f = some (t', r)) :
    t' = { t with queue := t'.queue, tx := t'.tx, read := t'.read } := by
  unfold Trunk.enqueue at h
  split at h
  · cases h
  · split at h
    · cases h; exact place_rest f t
    · split at h
      · cases h
        rw [place_rest f { t with queue := dropNewestLowest t.queue }]
      · cases h

/-- R184, R185: an admission keeps the queue within its 24 places. -/
theorem admit_queue_le {f : OutFrame} {t t' : Trunk} {r : Option OutFrame} (h : t.enqueue f = some (t', r))
    (hq : t.queue.length ≤ 24) : t'.queue.length ≤ 24 := by
  unfold Trunk.enqueue at h
  split at h
  · cases h
  · split at h
    · rename_i h1
      cases h
      have := place_queue_le f t
      simp only [Config.queueCap] at h1
      omega
    · split at h
      · rename_i h1 h2
        cases h
        simp only [Config.queueCap] at h1
        have hne : t.queue ≠ [] := by intro e; rw [e] at h1; simp at h1
        have h3 := place_queue_le f { t with queue := dropNewestLowest t.queue }
        have h4 := dropNewestLowest_length t.queue hne
        simp only at h3
        omega
      · cases h

/-! ### Sent, Raised, Recorded as relations -/

theorem Sent.refl (s : State) : Sent s s := by constructor <;> rfl

theorem Sent.trans {a b c : State} (h : Sent a b) (g : Sent b c) : Sent a c := by
  constructor
  case trunk => rw [g.trunk, h.trunk]
  all_goals first
    | exact g.pending.trans h.pending | exact g.ref.trans h.ref | exact g.straps.trans h.straps
    | exact g.free.trans h.free | exact g.sensor.trans h.sensor | exact g.zones.trans h.zones
    | exact g.engine.trans h.engine | exact g.lots.trans h.lots | exact g.doors.trans h.doors
    | exact g.beacons.trans h.beacons | exact g.trip.trans h.trip | exact g.scans.trans h.scans
    | exact g.proofs.trans h.proofs | exact g.journal.trans h.journal | exact g.claims.trans h.claims

theorem Raised.refl (s : State) : Raised s s := by constructor <;> rfl

theorem Raised.trans {a b c : State} (h : Raised a b) (g : Raised b c) : Raised a c := by
  constructor
  case trunk => rw [g.trunk, h.trunk]
  all_goals first
    | exact g.pending.trans h.pending | exact g.ref.trans h.ref | exact g.straps.trans h.straps
    | exact g.free.trans h.free | exact g.sensor.trans h.sensor | exact g.zones.trans h.zones
    | exact g.engine.trans h.engine | exact g.lots.trans h.lots | exact g.doors.trans h.doors
    | exact g.beacons.trans h.beacons | exact g.trip.trans h.trip | exact g.scans.trans h.scans
    | exact g.proofs.trans h.proofs | exact g.journal.trans h.journal | exact g.claims.trans h.claims

theorem Sent.raised {s t : State} (h : Sent s t) : Raised s t :=
  ⟨h.pending, h.ref, h.straps, h.free, h.sensor, h.zones, h.engine, h.lots, h.doors, by rw [h.beacons], h.trip,
   h.scans, h.proofs, h.journal, h.claims, by rw [h.trunk]⟩

theorem Recorded.refl (s : State) : Recorded s s := by constructor <;> first | rfl | (intro i; rfl)

theorem Recorded.trans {a b c : State} (h : Recorded a b) (g : Recorded b c) : Recorded a c := by
  constructor
  case trunk => rw [g.trunk, h.trunk]
  case lots => intro i; rw [g.lots i, h.lots i]
  all_goals first
    | exact g.pending.trans h.pending | exact g.ref.trans h.ref | exact g.straps.trans h.straps
    | exact g.sensor.trans h.sensor | exact g.zones.trans h.zones
    | exact g.engine.trans h.engine | exact g.doors.trans h.doors
    | exact g.beacons.trans h.beacons | exact g.trip.trans h.trip | exact g.scans.trans h.scans
    | exact g.proofs.trans h.proofs | exact g.window.trans h.window

theorem Raised.recorded {s t : State} (h : Raised s t) : Recorded s t :=
  ⟨h.pending, h.ref, h.straps, h.sensor, h.zones, h.engine, fun i => by rw [h.lots], h.doors, h.beacons, h.trip,
   h.scans, h.proofs, by rw [h.claims], h.trunk⟩

theorem Sent.recorded {s t : State} (h : Sent s t) : Recorded s t := h.raised.recorded

/-! ### Offers and handing (R167, R168, R185) -/

/-- Everything that the export's offers can do. -/
theorem offer_sent (n : Nat) (s : State) : Sent s (offer n s) := by
  induction n generalizing s with
  | zero => exact Sent.refl s
  | succ n ih =>
    unfold offer
    split
    · exact Sent.refl s
    · split
      · exact Sent.refl s
      · split
        · exact Sent.refl s
        · rename_i t r hadm
          refine Sent.trans ?_ (ih _)
          constructor
          case trunk => exact admit_rest hadm
          all_goals rfl

theorem offer_queue_le (n : Nat) (s : State) (h : QueueBounded s) : QueueBounded (offer n s) := by
  induction n generalizing s with
  | zero => exact h
  | succ n ih =>
    unfold offer
    split
    · exact h
    · split
      · exact h
      · split
        · exact h
        · rename_i t r hadm
          exact ih _ (admit_queue_le hadm h)

theorem admitFrame_sent {f : OutFrame} {s t : State} (h : admitFrame f s = some t) : Sent s t := by
  unfold admitFrame at h
  split at h
  · cases h
  · rename_i t' r hadm
    cases h
    constructor
    case trunk => exact admit_rest hadm
    all_goals rfl

theorem admitFrame_queue_le {f : OutFrame} {s t : State} (h : admitFrame f s = some t) (hq : QueueBounded s) :
    QueueBounded t := by
  unfold admitFrame at h
  split at h
  · cases h
  · rename_i t' r hadm
    cases h
    exact admit_queue_le hadm hq

/-- Everything that handing a frame to the trunk port can do. -/
theorem hand_sent (f : OutFrame) (s : State) : Sent s (hand f s).1 := by
  unfold hand
  split
  · exact Sent.refl s
  · rename_i s' h
    exact (admitFrame_sent h).trans (offer_sent _ _)

theorem hand_queue_le (f : OutFrame) (s : State) (h : QueueBounded s) : QueueBounded (hand f s).1 := by
  unfold hand
  split
  · exact h
  · rename_i s' h'
    exact offer_queue_le _ _ (admitFrame_queue_le h' h)

/-- While a RESET Full is pending no frame is admitted (R185). -/
theorem hand_pending (f : OutFrame) (s : State) (h : s.trunk.reset ≠ .none) : hand f s = (s, false) := by
  simp [hand, admitFrame, Trunk.enqueue, h]

theorem replyBody_sent (r : ReplyTo) (c : ReplyCode) (b : List Byte) (s : State) : Sent s (replyBody r c b s) :=
  hand_sent _ s

theorem replyBody_queue_le (r : ReplyTo) (c : ReplyCode) (b : List Byte) (s : State) (h : QueueBounded s) :
    QueueBounded (replyBody r c b s) := hand_queue_le _ s h

/-- Everything that a reply can do. -/
theorem reply_sent (r : ReplyTo) (c : ReplyCode) (s : State) : Sent s (reply r c s) := hand_sent _ s

theorem reply_queue_le (r : ReplyTo) (c : ReplyCode) (s : State) (h : QueueBounded s) : QueueBounded (reply r c s) :=
  hand_queue_le _ s h

theorem answered_sent (h : ReqHdr) (k : Byte) (r : State × ReplyCode) : Sent r.1 (answered h k r) := reply_sent _ _ _

theorem answered_queue_le (h : ReqHdr) (k : Byte) (r : State × ReplyCode) (hq : QueueBounded r.1) :
    QueueBounded (answered h k r) := reply_queue_le _ _ _ hq

/-- Offering reads and writes nothing of the sensor line. -/
theorem offer_modSensor (n : Nat) (g : Sensor → Sensor) (s : State) : offer n (s.modSensor g) = (offer n s).modSensor g := by
  induction n generalizing s with
  | zero => rfl
  | succ n ih =>
    unfold offer
    rw [show (s.modSensor g).exporter = s.exporter from rfl]
    cases s.exporter.run with
    | none => rfl
    | some x =>
      simp only
      rw [show (s.modSensor g).journal = s.journal from rfl]
      cases s.journal.entryAt x.place with
      | none => rfl
      | some e =>
        simp only
        rw [show (s.modSensor g).trunk = s.trunk from rfl]
        cases s.trunk.enqueue (x.frame s.journal s.exporter.epoch e) with
        | none => rfl
        | some r => exact ih { s with trunk := r.1, exporter := { s.exporter with run := x.advance s.journal e } }

/-- Handing a frame reads and writes nothing of the sensor line. -/
theorem hand_modSensor (f : OutFrame) (g : Sensor → Sensor) (s : State) :
    hand f (s.modSensor g) = ((hand f s).1.modSensor g, (hand f s).2) := by
  unfold hand admitFrame
  rw [show (s.modSensor g).trunk = s.trunk from rfl]
  cases s.trunk.enqueue f with
  | none => rfl
  | some r =>
    simp only
    congr 1
    exact offer_modSensor _ g { s with trunk := r.1, exporter := s.exporter.stepBack s.journal r.2 }

/-- Everything that handing frames one after another can do. -/
theorem foldl_hand_sent (l : List OutFrame) (s : State) : Sent s (l.foldl (fun x f => (hand f x).1) s) := by
  induction l generalizing s with
  | nil => exact Sent.refl s
  | cons f l ih => exact (hand_sent f s).trans (ih _)

/-! ### Cursors whose entries go (R169) -/

/-- R169: a cursor at an entry held stays. -/
theorem skip_held {j : Journal} {x : ExportRec} (h : ∃ y ∈ j.entries, y.place = x.place) : x.skip j = x := by
  unfold ExportRec.skip
  obtain ⟨y, hy, e⟩ := h
  cases ha : j.entryAt x.place with
  | some _ => rfl
  | none =>
    unfold Journal.entryAt at ha
    rw [List.find?_eq_none] at ha
    exact absurd e (by simpa using ha y hy)

/-- R169: a cursor at the next sequence number stays. -/
theorem skip_next {j : Journal} {x : ExportRec} (h : x.place = j.appended) : x.skip j = x := by
  unfold ExportRec.skip
  split
  · rfl
  · rw [if_pos h]

/-- R169: a cursor whose entry is gone moves to the next entry held that is newer, with gap pending. -/
theorem skip_gone {j : Journal} {x : ExportRec} (h : ∀ y ∈ j.entries, y.place ≠ x.place) (hn : x.place ≠ j.appended) :
    x.skip j = { x.moveTo j (j.entries.find? (fun e => decide (x.place < e.place))) with gap := true } := by
  have ha : j.entryAt x.place = none := by
    unfold Journal.entryAt
    rw [List.find?_eq_none]
    simpa using h
  unfold ExportRec.skip
  rw [ha]
  exact if_neg hn

/-! ### Requests (R183) -/

/-- A request that reaches its block runs. -/
theorem onRequest_taken (h : ReqHdr) (s : State) (g : State → State) (ht : Taken h s) :
    onRequest h s g = .next (g s) := by
  simp [onRequest, ht.1, ht.2]

/-- A property that the block keeps, and the counting of a frame error keeps, is kept by a request. -/
theorem onRequest_keeps {h : ReqHdr} {s t : State} {g : State → State} (P : State → Prop)
    (e : onRequest h s g = .next t) (hs : P s) (hg : P (g s)) (hc : P (countError s)) : P t := by
  unfold onRequest at e
  injection e with e
  subst e
  split
  · exact hs
  · split
    · exact hg
    · exact hc

end Sys2Proof.Machine
end

