-- ==== Sys2Proof/Laws/Records.lean ====
section
/-! SUPPORT. What a raising and an append to the journal can do, and what the pin horizon is (spec 11 R191; spec 09 R161
to R164). -/

namespace Sys2Proof.Machine

/-! ### Raising -/

/-- Everything that a raising can do. -/
theorem raise_raised (k : EventKind) (sub : Subject) (s : State) : Raised s (raise k sub s) := by
  unfold raise
  simp only
  split
  · have h := hand_sent (eventFrame k sub s.clock) { s with trunk := s.trunk.setFlag k sub }
    exact ⟨h.pending, h.ref, h.straps, h.free, h.sensor, h.zones, h.engine, h.lots, h.doors,
      by simp only [Beacons.onRaise]; rw [h.beacons], h.trip, h.scans, h.proofs, h.journal, h.claims,
      by simp only; rw [h.trunk]; rfl⟩
  · constructor
    case trunk => rfl
    all_goals rfl

theorem raise_queue_le (k : EventKind) (sub : Subject) (s : State) (h : QueueBounded s) :
    QueueBounded (raise k sub s) := by
  unfold raise
  simp only
  split
  · exact hand_queue_le (eventFrame k sub s.clock) { s with trunk := s.trunk.setFlag k sub } h
  · exact h

/-- R191: after a raising the kind's raw flag stands raised with its subject. -/
theorem raise_flag (k : EventKind) (sub : Subject) (s : State) :
    (raise k sub s).trunk.flags.get k.index = { raised := true, subject := sub } := by
  unfold raise
  simp only
  split
  · have h := hand_sent (eventFrame k sub s.clock) { s with trunk := s.trunk.setFlag k sub }
    rw [h.trunk]
    simp [Trunk.setFlag]
  · simp [Trunk.setFlag]

/-- A raising leaves the raw flags of the other kinds as they were. -/
theorem raise_flag_ne {k : EventKind} (sub : Subject) (s : State) {j : Fin 13} (h : j ≠ k.index) :
    (raise k sub s).trunk.flags.get j = s.trunk.flags.get j := by
  unfold raise
  simp only
  split
  · have hs := hand_sent (eventFrame k sub s.clock) { s with trunk := s.trunk.setFlag k sub }
    rw [hs.trunk]
    simp [Trunk.setFlag, get_upd, h]
  · simp [Trunk.setFlag, get_upd, h]

/-- Handing a frame leaves the raw flags as they were. -/
theorem Sent.flags {s t : State} (h : Sent s t) : t.trunk.flags = s.trunk.flags := by rw [h.trunk]

/-! ### Claim slots -/

theorem claims_release_window (c : Claims) (k : Fin 4) : (c.release k).window = c.window := rfl

theorem claims_complete_window (c : Claims) (b : Build) (x : Clock) (u : Bool) (l : Vector LotEntry 96) :
    (c.complete b x u l).window = c.window := by
  unfold Claims.complete
  split
  · rfl
  · split
    · rfl
    · split <;> rfl

theorem claims_run_window (n : Nat) (c : Claims) (now : Nat) (x : Clock) (u : Bool) (l : Vector LotEntry 96)
    (e : List JEntry) : (c.run n now x u l e).window = c.window := by
  induction n generalizing c with
  | zero => rfl
  | succ n ih =>
    unfold Claims.run
    split
    · rfl
    · split
      · rfl
      · simp only
        split
        · rw [ih, claims_complete_window]; rfl
        · rfl

/-- R176: the slot that the builder takes is Queued. -/
theorem oldestQueued_queued {c : Claims} {k : Fin 4} (h : c.oldestQueued = some k) :
    ∃ x, c.slots.get k = some x ∧ x.state = .queued := by
  have h1 := List.find?_some h
  cases hk : c.slots.get k with
  | none => rw [hk] at h1; exact nomatch h1
  | some x => rw [hk] at h1; exact ⟨x, rfl, by simpa using h1⟩

/-- R176: a build completion touches the slot built alone. -/
theorem complete_slot (c : Claims) (b : Build) (x : Clock) (u : Bool) (l : Vector LotEntry 96) {j : Fin 4} (h : j ≠ b.slot) :
    (c.complete b x u l).slots.get j = c.slots.get j := by
  unfold Claims.complete
  split
  · rfl
  · split
    · exact get_upd_ne _ h _
    · split <;> exact get_upd_ne _ h _

/-- R176: the builder's going on touches no slot but Queued ones. -/
theorem run_slot (n : Nat) (c : Claims) (now : Nat) (x : Clock) (u : Bool) (l : Vector LotEntry 96) (e : List JEntry)
    {j : Fin 4} (h : ∀ y, c.slots.get j = some y → y.state ≠ .queued) : (c.run n now x u l e).slots.get j = c.slots.get j := by
  induction n generalizing c with
  | zero => rfl
  | succ n ih =>
    unfold Claims.run
    split
    · rfl
    · split
      · rfl
      · rename_i k hk
        obtain ⟨y, hy, hq⟩ := oldestQueued_queued hk
        have hj : j ≠ k := fun hjk => h y (hjk ▸ hy) hq
        have hs : (c.start k now e).slots.get j = c.slots.get j := get_upd_ne _ hj _
        simp only
        split
        · have hc := (complete_slot (c.start k now e) { slot := k, began := now, taken := [], left := [] } x u l hj).trans hs
          rw [ih _ (by rw [hc]; exact h), hc]
        · exact hs

/-- R176: with entries in the journal the builder's going on frees no slot and fills none. -/
theorem run_none (n : Nat) (c : Claims) (now : Nat) (x : Clock) (u : Bool) (l : Vector LotEntry 96) (e : List JEntry)
    (he : e ≠ []) (j : Fin 4) : (c.run n now x u l e).slots.get j = none ↔ c.slots.get j = none := by
  cases n with
  | zero => rfl
  | succ n =>
    unfold Claims.run
    split
    · rfl
    · split
      · rfl
      · have hb : e.isEmpty = false := by simpa using he
        simp only [hb, Bool.false_eq_true, if_false, Claims.start, get_upd]
        split
        · next h => subst h; exact Option.map_eq_none_iff
        · rfl

/-- R177: a slot that is discarded is free, and no slot but it and the Queued ones is touched. -/
theorem discardSlot_slots (k : Fin 4) (s : State) : (discardSlot k s).claims.slots.get k = none ∧
    ∀ j, j ≠ k → (∀ y, s.claims.slots.get j = some y → y.state ≠ .queued) →
      (discardSlot k s).claims.slots.get j = s.claims.slots.get j := by
  have hk : (s.claims.release k).slots.get k = none := get_upd_self _ _ _
  refine ⟨?_, fun j hj h => ?_⟩
  · exact (run_slot 5 (s.claims.release k) _ _ _ _ _ (by rw [hk]; exact fun _ h => nomatch h)).trans hk
  · have hr : (s.claims.release k).slots.get j = s.claims.slots.get j := get_upd_ne _ hj _
    exact (run_slot 5 (s.claims.release k) _ _ _ _ _ (by rw [hr]; exact h)).trans hr

/-- Everything that the builder's going on can do. -/
theorem runBuilder_recorded (s : State) : Recorded s (runBuilder s) := by
  constructor
  case window => exact claims_run_window _ _ _ _ _ _ _
  all_goals first | rfl | (intro i; rfl)

/-- Everything that discarding a slot can do. -/
theorem discardSlot_recorded (k : Fin 4) (s : State) : Recorded s (discardSlot k s) :=
  Recorded.trans (b := { s with claims := s.claims.release k })
    (by constructor <;> first | rfl | (intro i; rfl)) (runBuilder_recorded _)

theorem discardFor_recorded (lot : Word) (s : State) : Recorded s (discardFor lot s) := by
  unfold discardFor
  split
  · exact discardSlot_recorded _ s
  · exact Recorded.refl s

/-- Discarding a slot changes the claim slots and nothing else. -/
theorem discardFor_claims_only (lot : Word) (s : State) :
    discardFor lot s = { s with claims := (discardFor lot s).claims } := by
  unfold discardFor
  split <;> rfl

/-! ### Appending -/

theorem claimsOnEntry_recorded (e : JEntry) (s : State) : Recorded s (claimsOnEntry e s) := by
  unfold claimsOnEntry
  split
  · split
    · exact discardFor_recorded _ s
    · exact Recorded.refl s
  · exact Recorded.refl s

theorem claimsOnEntry_claims_only (e : JEntry) (s : State) :
    claimsOnEntry e s = { s with claims := (claimsOnEntry e s).claims } := by
  unfold claimsOnEntry
  split
  · split
    · exact discardFor_claims_only _ s
    · rfl
  · rfl

theorem exportOnEntry_sent (e : JEntry) (s : State) : Sent s (exportOnEntry e s) := by
  unfold exportOnEntry
  split
  · split
    · exact offer_sent _ s
    · exact Sent.refl s
  · exact Sent.refl s

theorem exportOnEntry_queue_le (e : JEntry) (s : State) (h : QueueBounded s) : QueueBounded (exportOnEntry e s) := by
  unfold exportOnEntry
  split
  · split
    · exact offer_queue_le _ s h
    · exact h
  · exact h

theorem placeEntry_recorded (d : Draft) (s : State) : Recorded s (placeEntry d s) := by
  unfold placeEntry
  refine Recorded.trans (b := { s with journal := s.journal.push (entryOf d s) }) ?_
    ((claimsOnEntry_recorded _ _).trans (exportOnEntry_sent _ _).recorded)
  constructor <;> first | rfl | (intro i; rfl)

/-- R161: the journal after an entry has been placed: the entry stands at the tail. -/
theorem placeEntry_journal (d : Draft) (s : State) : (placeEntry d s).journal = s.journal.push (entryOf d s) := by
  unfold placeEntry
  simp only
  rw [(exportOnEntry_sent _ _).journal, claimsOnEntry_claims_only]

theorem placeEntry_queue_le (d : Draft) (s : State) (h : QueueBounded s) : QueueBounded (placeEntry d s) := by
  unfold placeEntry
  refine exportOnEntry_queue_le _ _ ?_
  rw [claimsOnEntry_claims_only]
  exact h

theorem refuseAppend_recorded (s : State) : Recorded s (refuseAppend s) := by
  unfold refuseAppend
  refine Recorded.trans ?_ (raise_raised _ _ _).recorded
  constructor
  case lots => intro i; simp only [get_mapV]; split <;> rfl
  all_goals rfl

theorem refuseAppend_journal (s : State) : (refuseAppend s).journal = s.journal :=
  (raise_raised .journalFull .none _).journal

theorem evict_recorded (e : JEntry) (s : State) : Recorded s (evict e s) := by
  constructor <;> first | rfl | (intro i; rfl)

/-- Everything that an append can do. -/
theorem append_recorded (d : Draft) (s : State) : Recorded s (append d s) := by
  unfold append
  split
  · exact placeEntry_recorded d s
  · split
    · exact (evict_recorded _ s).trans (placeEntry_recorded d _)
    · exact refuseAppend_recorded s

theorem append_queue_le (d : Draft) (s : State) (h : QueueBounded s) : QueueBounded (append d s) := by
  unfold append
  split
  · exact placeEntry_queue_le d s h
  · split
    · exact placeEntry_queue_le d _ h
    · exact raise_queue_le _ _ _ h

/-- An append leaves every raw flag but JournalFull's as it was. -/
theorem append_flag (d : Draft) (s : State) {j : Fin 13} (h : j ≠ EventKind.journalFull.index) :
    (append d s).trunk.flags.get j = s.trunk.flags.get j := by
  have hp : ∀ x : State, (placeEntry d x).trunk.flags = x.trunk.flags := fun x => by
    unfold placeEntry
    simp only
    rw [(exportOnEntry_sent _ _).flags, claimsOnEntry_claims_only]
  unfold append
  split
  · rw [hp]
  · split
    · rw [hp]; rfl
    · exact raise_flag_ne _ _ h

theorem removable_mem {h : Option Clock} {es : List JEntry} {e : JEntry} (hr : removable h es = some e) : e ∈ es := by
  unfold removable at hr
  split at hr
  · rename_i e' hf
    cases hr
    exact List.mem_of_find?_eq_some hf
  · exact List.mem_of_find?_eq_some hr

/-- R163: an append keeps the journal within its 6144 places. -/
theorem append_journal_le (d : Draft) (s : State) (h : JournalBounded s) : JournalBounded (append d s) := by
  unfold append
  split
  · rename_i h1
    unfold JournalBounded
    rw [placeEntry_journal]
    simp only [Journal.push, List.length_append, List.length_cons, List.length_nil, Config.journalCap] at *
    omega
  · rename_i h1
    split
    · rename_i e hr
      unfold JournalBounded
      rw [placeEntry_journal]
      have hm := removable_mem hr
      have hl := List.length_erase_of_mem hm
      simp only [Journal.push, evict, Journal.remove, List.length_append, List.length_cons, List.length_nil]
      unfold JournalBounded at h
      have hpos : 0 < s.journal.entries.length := List.length_pos_of_mem hm
      omega
    · unfold JournalBounded
      rw [refuseAppend_journal]
      exact h

/-- R158, R159: an append keeps the journal in order. -/
theorem append_ordered (d : Draft) (s : State) (h : JournalOrdered s) : JournalOrdered (append d s) := by
  have push : ∀ j : Journal, j.entries.Pairwise (fun x y => x.place < y.place) →
      (∀ e ∈ j.entries, e.place < j.appended ∧ e.seq = BitVec.ofNat 32 (e.place + 1)) → j.nextSeq = BitVec.ofNat 32 (j.appended + 1) →
      ∀ e : JEntry, e.place = j.appended → e.seq = j.nextSeq → ∀ t : State, t.journal = j.push e → JournalOrdered t := by
    intro j h1 h2 h3 e hp hs t ht
    unfold JournalOrdered
    rw [ht]
    refine ⟨?_, fun y hy => ?_, ?_⟩
    · refine List.pairwise_append.2 ⟨h1, List.pairwise_singleton _ _, fun x hx y hy => ?_⟩
      obtain rfl := List.mem_singleton.1 hy
      rw [hp]; exact (h2 x hx).1
    · rcases List.mem_append.1 hy with hy | hy
      · exact ⟨Nat.lt_succ_of_lt (h2 y hy).1, (h2 y hy).2⟩
      · obtain rfl := List.mem_singleton.1 hy
        exact ⟨by rw [hp]; exact Nat.lt_succ_self _, by rw [hs, hp, h3]⟩
    · show j.nextSeq + 1 = BitVec.ofNat 32 (j.appended + 1 + 1)
      rw [h3, BitVec.ofNat_add (j.appended + 1) 1]
      rfl
  obtain ⟨h1, h2, h3⟩ := h
  unfold append
  split
  · exact push s.journal h1 h2 h3 _ rfl rfl _ (placeEntry_journal d s)
  · split
    · rename_i x _
      exact push (s.journal.remove x) (h1.sublist List.erase_sublist) (fun e he => h2 e (List.mem_of_mem_erase he)) h3 _ rfl rfl _
        (placeEntry_journal d (evict x s))
    · unfold JournalOrdered
      rw [refuseAppend_journal]
      exact ⟨h1, h2, h3⟩

/-! ### Several appends (R161) -/

theorem Tells.of_eq {s t : State} (h : t.journal = s.journal) : Tells s t [] :=
  fun _ => ⟨[], by rw [h, List.append_nil], rfl, fun e he => nomatch he⟩

/-- Appends made one after another, while the clock stands. -/
theorem Tells.trans {s t u : State} {a b : List Draft} (h : Tells s t a) (g : Tells t u b)
    (hc : t.trip.clock = s.trip.clock ∧ t.trip.unsynced = s.trip.unsynced) : Tells s u (a ++ b) := by
  intro hl
  rw [List.length_append] at hl
  obtain ⟨x, hx, hxd, hxc⟩ := h (by omega)
  have hxl : x.length = a.length := by rw [← hxd, List.length_map]
  obtain ⟨y, hy, hyd, hyc⟩ := g (by rw [hx, List.length_append]; omega)
  refine ⟨x ++ y, by rw [hy, hx, List.append_assoc], by rw [List.map_append, hxd, hyd], fun e he => ?_⟩
  rcases List.mem_append.1 he with he | he
  · exact hxc e he
  · rw [← hc.1, ← hc.2]; exact hyc e he

/-- What stands before the appends and after them may differ in all but the journal and the clock. -/
theorem Tells.congr {s t u v : State} {ds : List Draft} (h : Tells s t ds) (hs : u.journal = s.journal)
    (hc : u.trip.clock = s.trip.clock ∧ u.trip.unsynced = s.trip.unsynced) (ht : v.journal = t.journal) : Tells u v ds := by
  unfold Tells
  rw [hs, ht, hc.1, hc.2]
  exact h

/-- R161: an append with room tells its draft. -/
theorem append_tells (d : Draft) (s : State) : Tells s (append d s) [d] := by
  intro hl
  refine ⟨[entryOf d s], ?_, rfl, fun e he => ?_⟩
  · unfold append
    rw [if_pos (show _ < Config.journalCap by simpa [Config.journalCap] using hl), placeEntry_journal]
    rfl
  · obtain rfl := List.mem_singleton.1 he
    exact ⟨rfl, rfl⟩

/-- A raising leaves the journal as it was. -/
theorem raise_journal_le (k : EventKind) (sub : Subject) (s : State) (h : JournalBounded s) :
    JournalBounded (raise k sub s) := by
  unfold JournalBounded
  rw [(raise_raised k sub s).journal]
  exact h

/-- Handing a frame leaves the journal as it was. -/
theorem hand_journal_le (f : OutFrame) (s : State) (h : JournalBounded s) : JournalBounded (hand f s).1 := by
  unfold JournalBounded
  rw [(hand_sent f s).journal]
  exact h

/-- What an append records leaves the number of lots in Handover as it was. -/
theorem recorded_handovers {s t : State} (h : Recorded s t) : handovers t.lots = handovers s.lots := by
  unfold handovers
  apply Nat.le_antisymm <;> apply countV_mono <;> intro i hi
  · rw [h.lots i] at hi; exact hi
  · rw [h.lots i]; exact hi

/-! ### The pin horizon (R162) -/

/-- R162: the load clock by which a lot fixes the pin horizon. -/
def LotEntry.pinClock (l : LotEntry) : Option Clock := if l.pins then l.loadClock else none

/-- R162: the earlier of a horizon and the clock by which a lot fixes it. -/
theorem earlier_eq (h : Option Clock) (l : LotEntry) : earlier h l = match l.pinClock, h with
    | some c, some d => if c.toNat < d.toNat then some c else some d
    | some c, none => some c
    | none, h => h := by
  unfold earlier LotEntry.pinClock
  cases l.pins <;> rfl

/-- R162: what folding load clocks into a horizon gives: the earliest of them all, if there is one. -/
theorem foldl_earlier (ls : List LotEntry) (h : Option Clock) :
    (ls.foldl earlier h = none ↔ h = none ∧ ∀ l ∈ ls, l.pinClock = none) ∧
    ∀ c, ls.foldl earlier h = some c → (h = some c ∨ ∃ l ∈ ls, l.pinClock = some c) ∧ (∀ x, h = some x → c.toNat ≤ x.toNat) ∧
      ∀ l ∈ ls, ∀ x, l.pinClock = some x → c.toNat ≤ x.toNat := by
  induction ls generalizing h with
  | nil =>
    refine ⟨by simp, fun c hc => ⟨.inl hc, fun x hx => ?_, fun l hl => nomatch hl⟩⟩
    rw [List.foldl_nil, hx] at hc; cases hc; exact le_refl _
  | cons a ls ih =>
    obtain ⟨h1, h2⟩ := ih (earlier h a)
    rw [List.foldl_cons]
    rw [earlier_eq] at h1 h2 ⊢
    cases ha : a.pinClock <;> cases h <;> simp only [ha] at h1 h2 ⊢
    all_goals refine ⟨by rw [h1]; (try split_ifs) <;> simp [ha], fun c hc => ?_⟩
    all_goals obtain ⟨g1, g2, g3⟩ := h2 c hc
    all_goals simp only [List.mem_cons, forall_eq_or_imp, exists_eq_or_imp, ha, Option.some.injEq, reduceCtorEq, false_or, true_and,
      forall_eq', false_implies, implies_true] at g1 g2 g3 ⊢
    · exact ⟨g1, g3⟩
    · exact ⟨g1, g2, g3⟩
    · exact ⟨g1, g2, g3⟩
    · split_ifs at g1 g2 <;> simp only [Option.some.injEq, forall_eq'] at g1 g2 <;>
        exact ⟨by tauto, by omega, by omega, g3⟩

/-- R162: the pin horizon is the earliest clock by which a lot fixes it. -/
theorem pinHorizon_spec (lots : Vector LotEntry 96) :
    (pinHorizon lots = none ↔ ∀ i, (lots.get i).pinClock = none) ∧
    ∀ c, pinHorizon lots = some c ↔
      (∃ i, (lots.get i).pinClock = some c) ∧ ∀ i x, (lots.get i).pinClock = some x → c.toNat ≤ x.toNat := by
  have hm : ∀ P : LotEntry → Prop, (∀ l ∈ lots.toList, P l) ↔ ∀ i : Fin 96, P (lots.get i) := fun P => by
    constructor
    · intro h i; exact h _ (by simp [Vector.get])
    · intro h l hl
      obtain ⟨j, hj, rfl⟩ := List.mem_iff_getElem.1 hl
      simpa [Vector.get] using h ⟨j, by simpa using hj⟩
  obtain ⟨h1, h2⟩ := foldl_earlier lots.toList none
  have h1 : pinHorizon lots = none ↔ _ := h1
  rw [hm] at h1
  refine ⟨by simpa using h1, fun c => ⟨fun hc => ?_, fun ⟨⟨i, hi⟩, hb⟩ => ?_⟩⟩
  · obtain ⟨g1, -, g3⟩ := h2 c hc
    refine ⟨?_, (hm _).1 g3⟩
    by_contra hn
    rcases g1 with g1 | ⟨l, hl, g1⟩
    · exact nomatch g1
    · exact (hm (fun l => l.pinClock ≠ some c)).2 (fun i hi => hn ⟨i, hi⟩) l hl g1
  · cases hd : pinHorizon lots with
    | none => rw [h1] at hd; rw [hd.2 i] at hi; exact nomatch hi
    | some d =>
      obtain ⟨g1, -, g3⟩ := h2 d hd
      have a1 := (hm _).1 g3 i c hi
      have a2 : c.toNat ≤ d.toNat := by
        by_contra hn
        rcases g1 with g1 | ⟨l, hl, g1⟩
        · exact nomatch g1
        · exact (hm (fun l => l.pinClock ≠ some d)).2 (fun i hi => hn (hb i d hi)) l hl g1
      rw [BitVec.eq_of_toNat_eq (Nat.le_antisymm a1 a2)]

/-- R162: when an entry is pinned. -/
theorem pinned_iff (y : JEntry) (horizon : Option Clock) :
    y.pinned horizon = true ↔ y.kind ≠ .summary ∧ ∃ c, horizon = some c ∧ c.toNat ≤ y.clock.toNat := by
  have hk : y.kind.isKey = true ↔ y.kind ≠ .summary := by cases y.kind <;> simp [EntryKind.isKey]
  unfold JEntry.pinned
  rw [Bool.and_eq_true, hk]
  cases horizon <;> simp

/-- R162: which lots fix the horizon, and at what clock. -/
theorem pinClock_iff (l : LotEntry) (c : Clock) : l.pinClock = some c ↔
    l.loadClock = some c ∧ (l.state = .onBoard ∨ l.state = .handover ∨ l.state = .delivered ∨ l.state = .returned) := by
  unfold LotEntry.pinClock LotEntry.pins
  cases l.state <;> simp

end Sys2Proof.Machine
end

