-- ==== Sys2Proof/Laws/Lookups.lean ====
section
/-! SUPPORT. What the searches, the byte forms, the numbered operands and the frames of a read answer, and how a request
is answered or discarded. -/

namespace Sys2Proof.Machine

/-! ### Searches of tables -/

theorem findIndex_some {α : Type} {n : Nat} {p : α → Bool} {v : Vector α n} {i : Fin n} (h : findIndex p v = some i) :
    p (v.get i) = true ∧ ∀ j, j < i → p (v.get j) = false := by
  rw [findIndex, List.find?_eq_some_iff_append] at h
  obtain ⟨hp, as, bs, he, ha⟩ := h
  refine ⟨hp, fun j hj => ?_⟩
  have hs : (as ++ i :: bs).Pairwise (· < ·) := by rw [← he]; exact List.pairwise_lt_finRange n
  rw [List.pairwise_append] at hs
  have hm : j ∈ as ++ i :: bs := by rw [← he]; exact List.mem_finRange j
  rcases List.mem_append.1 hm with h | h
  · simpa using ha j h
  · rcases List.mem_cons.1 h with rfl | h
    · exact absurd hj (lt_irrefl _)
    · exact absurd (lt_trans hj ((List.pairwise_cons.1 hs.2.1).1 j h)) (lt_irrefl _)

theorem findIndex_none {α : Type} {n : Nat} {p : α → Bool} {v : Vector α n} :
    findIndex p v = none ↔ ∀ i, p (v.get i) = false := by
  rw [findIndex, List.find?_eq_none]
  constructor
  · intro h i; simpa using h i (List.mem_finRange i)
  · intro h i _; simp [h i]

theorem findIndex_first {α : Type} {n : Nat} {p : α → Bool} {v : Vector α n} {i : Fin n} (hp : p (v.get i) = true)
    (ha : ∀ j, j < i → p (v.get j) = false) : findIndex p v = some i := by
  cases h : findIndex p v with
  | none => rw [findIndex_none.1 h i] at hp; exact nomatch hp
  | some j =>
    obtain ⟨hj, hb⟩ := findIndex_some h
    rcases lt_trichotomy i j with h1 | h1 | h1
    · rw [hb i h1] at hp; exact nomatch hp
    · rw [h1]
    · rw [ha j h1] at hj; exact nomatch hj

/-- R62: a lot id finds an occupied entry that holds it. -/
theorem findLot_some {lots : Vector LotEntry 96} {id : Word} {i : Fin 96} (h : findLot lots id = some i) :
    (lots.get i).state ≠ .free ∧ (lots.get i).lot = id := by
  have h1 := (findIndex_some h).1
  simp only [Bool.and_eq_true, decide_eq_true_eq, beq_iff_eq] at h1
  exact h1

/-- R62: no entry is found exactly when no occupied entry holds the lot id. -/
theorem findLot_none {lots : Vector LotEntry 96} {id : Word} :
    findLot lots id = none ↔ ∀ i, (lots.get i).state = .free ∨ (lots.get i).lot ≠ id := by
  rw [findLot, findIndex_none]
  refine forall_congr' fun i => ?_
  rw [Bool.and_eq_false_iff]
  simp

/-- R172: the slot found for a lot is in use and holds it. -/
theorem slotFor_some {c : Claims} {lot : Word} {k : Fin 4} (h : c.slotFor lot = some k) :
    ∃ x, c.slots.get k = some x ∧ x.lot = lot := by
  have h1 := (findIndex_some h).1
  cases hk : c.slots.get k with
  | none => simp [hk] at h1
  | some x => exact ⟨x, rfl, by simpa [hk] using h1⟩

/-- R172: no slot is found exactly when no slot in use holds the lot. -/
theorem slotFor_none {c : Claims} {lot : Word} : c.slotFor lot = none ↔ ∀ k x, c.slots.get k = some x → x.lot ≠ lot := by
  rw [Claims.slotFor, findIndex_none]
  refine forall_congr' fun k => ?_
  cases c.slots.get k with
  | none => simp
  | some x => simp

/-! ### Numbered operands -/

theorem zoneOf_number (z : Fin 12) : zoneOf (BitVec.ofNat 8 (z.val + 1)) = some z := by
  revert z; decide

theorem doorOf_number (d : Fin 4) : doorOf (BitVec.ofNat 8 (d.val + 1)) = some d := by
  revert d; decide

theorem beaconOf_number (b : Fin 2) : beaconOf (BitVec.ofNat 8 (b.val + 1)) = some b := by
  revert b; decide

theorem stopOf_number (k : Fin 25) : stopOf (BitVec.ofNat 8 k.val) = some k := by
  revert k; decide

theorem zoneOf_none {x : Byte} : zoneOf x = none ↔ x = 0 ∨ 12 < x.toNat := by
  rw [zoneOf]
  have : x = 0 ↔ x.toNat = 0 := by rw [BitVec.toNat_eq]; rfl
  split <;> simp only [this, reduceCtorEq, true_iff, false_iff] <;> omega

theorem doorOf_none {x : Byte} : doorOf x = none ↔ x = 0 ∨ 4 < x.toNat := by
  rw [doorOf]
  have : x = 0 ↔ x.toNat = 0 := by rw [BitVec.toNat_eq]; rfl
  split <;> simp only [this, reduceCtorEq, true_iff, false_iff] <;> omega

theorem stopOf_none {x : Byte} : stopOf x = none ↔ 25 ≤ x.toNat := by
  rw [stopOf]
  split <;> simp only [reduceCtorEq, true_iff, false_iff] <;> omega

theorem maskOf_some {n w : Nat} {x : BitVec w} (h : x.toNat < 2 ^ n) : maskOf n x = some (x.setWidth n) := by
  rw [maskOf, if_pos h]; congr 1; apply BitVec.eq_of_toNat_eq; simp

theorem maskOf_none {n w : Nat} {x : BitVec w} (h : 2 ^ n ≤ x.toNat) : maskOf n x = none := by
  rw [maskOf, if_neg (Nat.not_lt.2 h)]

/-! ### Fields and their bytes -/

theorem half_b2 (x : Half) : half (x.extractLsb' 8 8) (x.extractLsb' 0 8) = x := by
  apply BitVec.eq_of_getLsbD_eq
  intro i hi
  simp only [half, BitVec.getLsbD_append, BitVec.getLsbD_extractLsb']
  by_cases h : i < 8
  · simp [h]
  · simp [h, show i - 8 < 8 by omega, show 8 + (i - 8) = i by omega]

theorem word_b4 (x : Word) :
    word (x.extractLsb' 24 8) (x.extractLsb' 16 8) (x.extractLsb' 8 8) (x.extractLsb' 0 8) = x := by
  apply BitVec.eq_of_getLsbD_eq
  intro i hi
  simp only [word, BitVec.getLsbD_append, BitVec.getLsbD_extractLsb']
  by_cases h : i < 8
  · simp [h, show i < 16 by omega]
  · by_cases h1 : i < 16
    · simp [h, h1, show i - 8 < 8 by omega, show 8 + (i - 8) = i by omega]
    · by_cases h2 : i < 24
      · simp [h1, show i - 16 < 8 by omega, show 16 + (i - 16) = i by omega]
      · simp [h1, show ¬ i - 16 < 8 by omega, show i - 16 - 8 < 8 by omega, show 24 + (i - 16 - 8) = i by omega]

/-- R175: the pieces of a statement are its bytes in order. -/
theorem pieces_flatten (size n : Nat) (bytes : List Byte) (hs : 0 < size) (hn : bytes.length ≤ n) (hb : bytes ≠ []) :
    (pieces size n bytes).flatten = bytes ∧ ∀ p ∈ pieces size n bytes, 1 ≤ p.length ∧ p.length ≤ size := by
  induction n generalizing bytes with
  | zero => exact absurd (List.length_eq_zero_iff.1 (Nat.le_zero.1 hn)) hb
  | succ n ih =>
    have hpos : 1 ≤ bytes.length := List.length_pos_iff.2 hb
    rw [pieces]
    split
    · next h => simpa using ⟨hpos, h⟩
    · next h =>
      have hd : bytes.drop size ≠ [] := by rw [ne_eq, List.drop_eq_nil_iff]; omega
      obtain ⟨h1, h2⟩ := ih (bytes.drop size) (by rw [List.length_drop]; omega) hd
      refine ⟨by rw [List.flatten_cons, h1, List.take_append_drop], fun p hp => ?_⟩
      rcases List.mem_cons.1 hp with rfl | hp
      · rw [List.length_take]; omega
      · exact h2 p hp

/-! ### Entries of the tables (R187) -/

theorem b1_length (n : Nat) : (b1 n).length = 1 := rfl
theorem b2_length (x : Half) : (b2 x).length = 2 := rfl
theorem b4_length (x : Word) : (b4 x).length = 4 := rfl

theorem optional_length {α : Type} (f : α → List Byte) (o : Option α) : 1 ≤ (optional f o).length := by
  cases o with
  | none => exact Nat.le_refl 1
  | some x => rw [optional, List.length_cons]; omega

theorem rowBytes_length {α : Type} {n : Nat} (v : Vector α n) (i : Nat) (f : α → List Byte) (hi : i < n)
    (hf : ∀ x, 1 ≤ (f x).length) : 1 ≤ (rowBytes v i f).length := by
  rw [rowBytes, dif_pos hi]; exact hf _

/-- The bytes of an entry, and where the entries of a table lie, do not depend on the read in progress. -/
theorem entryBytes_read (s : State) (r : Option ReadRec) (m table i : Nat) :
    entryBytes { s with trunk := { s.trunk with read := r, reads := m } } table i = entryBytes s table i
    ∧ tableSpan { s with trunk := { s.trunk with read := r, reads := m } } table = tableSpan s table := ⟨rfl, rfl⟩

theorem pos_append {a b : List Byte} (h : 1 ≤ a.length) : 1 ≤ (a ++ b).length := by rw [List.length_append]; omega

/-- Every entry that a read can reach has at least one byte. -/
theorem entryBytes_pos {s : State} {table i lo n : Nat} (h : tableSpan s table = some (lo, n)) (h1 : lo ≤ i) (h2 : i < lo + n) :
    1 ≤ (entryBytes s table i).length := by
  by_cases ht : table ≤ 21
  · interval_cases table <;> simp only [tableSpan, reduceCtorEq, Option.some.injEq, Prod.mk.injEq] at h <;> obtain ⟨rfl, rfl⟩ := h
    · exact rowBytes_length _ _ _ (by omega) fun x => by repeat' apply pos_append
                                                         exact Nat.le_refl 1
    · exact rowBytes_length _ _ _ (by omega) fun x => by repeat' apply pos_append
                                                         exact Nat.le_refl 1
    · exact Nat.le_add_left 1 _
    · exact rowBytes_length _ _ _ (by omega) fun x => by repeat' apply pos_append
                                                         exact Nat.le_refl 1
    · exact rowBytes_length _ _ _ (by omega) fun x => by repeat' apply pos_append
                                                         exact Nat.le_refl 1
    · exact rowBytes_length _ _ _ (by omega) fun x => by repeat' apply pos_append
                                                         exact Nat.le_add_left 1 _
    · exact Nat.le_add_left 1 _
    · exact rowBytes_length _ _ _ (by omega) fun x => by repeat' apply pos_append
                                                         exact Nat.le_add_left 1 _
    · exact rowBytes_length _ _ _ (by omega) fun x => by repeat' apply pos_append
                                                         exact Nat.le_refl 1
    · simp only [entryBytes]
      rw [dif_pos (show i - 1 < 4 by omega)]
      unfold doorRtBytes
      dsimp only
      repeat' apply pos_append
      exact Nat.le_refl 1
    · exact rowBytes_length _ _ _ (by omega) fun x => by repeat' apply pos_append
                                                         exact Nat.le_add_left 1 _
    · show 1 ≤ (TripRecord.bytes _).length
      repeat' apply pos_append
      exact Nat.le_add_left 1 _
    · exact rowBytes_length _ _ _ (by omega) fun x => by repeat' apply pos_append
                                                         exact Nat.le_add_left 1 _
    · exact Nat.le_refl 1
    · exact rowBytes_length _ _ _ (by omega) fun x => by repeat' apply pos_append
                                                         exact Nat.le_refl 1
    · exact Nat.le_add_left 1 _
    · simp only [entryBytes]
      rw [List.getElem?_eq_getElem (by omega)]
      show 1 ≤ (ProofItem.bytes _).length
      repeat' apply pos_append
      exact Nat.le_add_left 1 _
    · exact Nat.le_add_left 1 _
    · exact rowBytes_length _ _ _ (by omega) fun x => optional_length _ _
    · exact Nat.le_add_left 1 _
    · show 1 ≤ (statusBytes _).length
      unfold statusBytes
      repeat' apply pos_append
      cases s.trip.record.state <;> exact Nat.le_add_left 1 _
  · rw [tableSpan] at h
    · exact nomatch h
    all_goals omega

/-- R185: a frame that is not admitted changes nothing. -/
theorem hand_refused {f : OutFrame} {s : State} (h : (hand f s).2 = false) : (hand f s).1 = s := by
  unfold hand at h ⊢
  split <;> rename_i hx <;> rw [hx] at h <;> first | rfl | exact nomatch h

/-- R187: what filling a read takes: the bytes of the fewest entries that fill a piece, or of all that are left. -/
theorem fill_upTo (s : State) (fuel : Nat) (r : ReadRec) (lo n : Nat) (hs : tableSpan s r.table = some (lo, n)) (h1 : lo ≤ r.next)
    (hf : 52 - r.carry.length ≤ fuel) :
    let upTo (m : Nat) : List Byte := r.carry ++ (List.range m).flatMap (fun k => entryBytes s r.table (r.next + k))
    ∃ m, m ≤ min r.left (lo + n - r.next) ∧
      r.fill fuel s = { r with carry := upTo m, next := r.next + m, left := r.left - m } ∧
      (∀ j, j < m → (upTo j).length < 52) ∧ (52 ≤ (upTo m).length ∨ m = min r.left (lo + n - r.next)) := by
  have stop : ∀ r : ReadRec, ¬(r.carry.length < Config.readPiece ∧ r.hasMore s = true) → tableSpan s r.table = some (lo, n) →
      52 ≤ r.carry.length ∨ 0 = min r.left (lo + n - r.next) := fun r hc hs => by
    simp only [ReadRec.hasMore, hs, Bool.and_eq_true, decide_eq_true_eq, Config.readPiece, not_and_or, Nat.not_lt] at hc
    omega
  induction fuel generalizing r with
  | zero =>
    refine ⟨0, Nat.zero_le _, by simp [ReadRec.fill], fun j hj => absurd hj (Nat.not_lt_zero j), ?_⟩
    left; simp; omega
  | succ fuel ih =>
    rw [ReadRec.fill]
    split
    · next hh =>
      obtain ⟨ha, hb⟩ := hh
      simp only [Config.readPiece] at ha
      simp only [ReadRec.hasMore, hs, Bool.and_eq_true, decide_eq_true_eq] at hb
      have hpos := entryBytes_pos hs h1 hb.2
      have := ih { r with carry := r.carry ++ entryBytes s r.table r.next, next := r.next + 1, left := r.left - 1 } hs
        (Nat.le_succ_of_le h1) (by rw [List.length_append]; omega)
      obtain ⟨m, m1, m2, m3, m4⟩ := this
      have hup : ∀ j, r.carry ++ (List.range (j + 1)).flatMap (fun k => entryBytes s r.table (r.next + k)) =
          r.carry ++ entryBytes s r.table r.next ++
            (List.range j).flatMap (fun k => entryBytes s r.table (r.next + 1 + k)) := fun j => by
        rw [List.range_succ_eq_map, List.flatMap_cons, List.flatMap_map, List.append_assoc]
        have e : (fun k => entryBytes s r.table (r.next + k.succ)) = (fun k => entryBytes s r.table (r.next + 1 + k)) := by
          funext k; congr 1; omega
        rw [e, Nat.add_zero]
      dsimp only at m1 m2 m3 m4
      refine ⟨m + 1, by omega, ?_, fun j hj => ?_, ?_⟩
      · beta_reduce; rw [m2, hup, show r.next + 1 + m = r.next + (m + 1) by omega, show r.left - 1 - m = r.left - (m + 1) by omega]
      · cases j with
        | zero => simpa using ha
        | succ j => beta_reduce; rw [hup]; exact m3 j (by omega)
      · beta_reduce; rw [hup]
        rcases m4 with m4 | m4
        · exact Or.inl m4
        · right; omega
    · next hh =>
      refine ⟨0, Nat.zero_le _, by simp, fun j hj => absurd hj (Nat.not_lt_zero j), ?_⟩
      have := stop r hh hs
      simpa using this

/-- R187: the next frame of a read: its last frame, or a middle one with the read that goes on. -/
theorem sendPiece_spec (s : State) (r : ReadRec) (lo n : Nat) (hs : tableSpan s r.table = some (lo, n)) (h1 : lo ≤ r.next) :
    let held := lo + n - r.next
    let upTo (m : Nat) : List Byte := r.carry ++ (List.range m).flatMap (fun k => entryBytes s r.table (r.next + k))
    let rows := upTo (min r.left held)
    (rows.length ≤ 52 → sendPiece r s =
      (hand (rspFrame r.target .done (tagOf (decide (r.frames = 0)) true r.frames) (decide (held < r.left)) rows (.read r.id))
        (setRead none s)).1) ∧
    (52 < rows.length → ∃ m, m ≤ min r.left held ∧ 52 ≤ (upTo m).length ∧ (∀ j, j < m → (upTo j).length < 52) ∧
      (let r' : ReadRec := { r with next := r.next + m, left := r.left - m, carry := (upTo m).drop 52,
                                    frames := r.frames + 1, due := false }
       let out := hand (rspFrame r.target .done (tagOf (decide (r.frames = 0)) false r.frames) false (rows.take 52) (.read r.id))
         (setRead (some r') s)
       sendPiece r s = if out.2 then out.1 else setRead none s)) := by
  intro held upTo rows
  have fill := fill_upTo s Config.readPiece r lo n hs h1 (Nat.sub_le _ _)
  change ∃ m, m ≤ min r.left held ∧ r.fill Config.readPiece s = { r with carry := upTo m, next := r.next + m, left := r.left - m } ∧
    (∀ j, j < m → (upTo j).length < 52) ∧ (52 ≤ (upTo m).length ∨ m = min r.left held) at fill
  obtain ⟨m, m1, m2, m3, m4⟩ := fill
  have hup : ∀ j, upTo j = r.carry ++ (List.range j).flatMap (fun k => entryBytes s r.table (r.next + k)) := fun _ => rfl
  have hmono : ∀ d, (upTo m).length + d ≤ (upTo (m + d)).length ∨ min r.left held < m + d := fun d => by
    induction d with
    | zero => left; exact Nat.le_refl _
    | succ d ih =>
      rcases ih with ih | ih
      · by_cases hx : min r.left held < m + (d + 1)
        · exact Or.inr hx
        · left
          have hpos := entryBytes_pos (i := r.next + (m + d)) hs (by omega) (by simp only [held] at hx; omega)
          have : (upTo (m + (d + 1))).length =
              (upTo (m + d)).length + (entryBytes s r.table (r.next + (m + d))).length := by
            rw [hup, hup, ← Nat.add_assoc, List.range_succ, List.flatMap_append, List.length_append, List.length_append,
              List.length_append]
            simp; omega
          omega
      · right; omega
  have hpre : ∃ t, rows = upTo m ++ t := by
    obtain ⟨d, hdm⟩ : ∃ d, min r.left held = m + d := ⟨min r.left held - m, by simp only [held]; omega⟩
    show ∃ t, upTo (min r.left held) = upTo m ++ t
    rw [hdm, hup, hup, List.range_add, List.flatMap_append, ← List.append_assoc]
    exact ⟨_, rfl⟩
  have hends : ∀ c : List Byte, ReadRec.ends s { r with carry := c, next := r.next + m, left := r.left - m } =
      (decide (c.length ≤ 52) && decide (m = min r.left held)) := fun c => by
    unfold ReadRec.ends ReadRec.hasMore
    simp only [hs, Config.readPiece]
    congr 1
    rw [← Bool.decide_and, ← decide_not]
    apply decide_eq_decide.2
    simp only [held] at m1 ⊢
    omega
  constructor
  · intro hlen
    have hm : m = min r.left held := by
      rcases m4 with m4 | m4
      · by_contra hne
        have := hmono (min r.left held - m)
        have e : m + (min r.left held - m) = min r.left held := by simp only [held] at hne ⊢; omega
        rw [e] at this
        have h2 : (upTo (min r.left held)).length ≤ 52 := hlen
        have m1' : m ≤ min r.left held := m1
        rcases this with h | h
        · omega
        · omega
      · exact m4
    have hrows : upTo m = rows := by rw [hm]
    have he := hends (upTo m)
    rw [hrows, decide_eq_true hlen, decide_eq_true hm] at he
    unfold sendPiece
    simp only
    rw [m2]
    rw [hrows] at *
    have hfr : ReadRec.frame s { r with carry := rows, next := r.next + m, left := r.left - m } =
        rspFrame r.target .done (tagOf (decide (r.frames = 0)) true r.frames) (decide (held < r.left)) rows (.read r.id) := by
      unfold ReadRec.frame
      rw [he]
      simp only [Bool.and_true, Bool.true_and, Config.readPiece]
      rw [List.take_of_length_le hlen]
      congr 1
      apply decide_eq_decide.2
      rw [hm]; omega
    have haf : ReadRec.after s { r with carry := rows, next := r.next + m, left := r.left - m } = none := by
      unfold ReadRec.after; rw [he]; rfl
    rw [hfr, haf]
    split
    · rfl
    · next hno =>
      rw [hand_refused (by simpa using hno)]
      rfl
  · intro hlen
    have h52 : 52 ≤ (upTo m).length := by
      rcases m4 with m4 | m4
      · exact m4
      · have : (upTo m).length = rows.length := by rw [m4]
        omega
    refine ⟨m, m1, h52, m3, ?_⟩
    intro r' out
    have he := hends (upTo m)
    have he2 : ReadRec.ends s { r with carry := upTo m, next := r.next + m, left := r.left - m } = false := by
      rw [he]
      by_cases hx : m = min r.left held
      · have : (upTo m).length = rows.length := by rw [hx]
        rw [decide_eq_false (by omega)]; rfl
      · rw [decide_eq_false hx, Bool.and_false]
    have htake : (upTo m).take 52 = rows.take 52 := by
      obtain ⟨t, ht⟩ := hpre
      rw [ht, List.take_append_of_le_length h52]
    have hfr : ReadRec.frame s { r with carry := upTo m, next := r.next + m, left := r.left - m } =
        rspFrame r.target .done (tagOf (decide (r.frames = 0)) false r.frames) false (rows.take 52) (.read r.id) := by
      unfold ReadRec.frame
      rw [he2]
      simp only [Bool.false_and, Config.readPiece]
      rw [htake]
    have haf : ReadRec.after s { r with carry := upTo m, next := r.next + m, left := r.left - m } = some r' := by
      unfold ReadRec.after; rw [he2]; rfl
    unfold sendPiece
    simp only
    rw [m2, hfr, haf]
    show (if out.2 then out.1 else setRead none out.1) = _
    split
    · rfl
    · next hno =>
      rw [show out.1 = _ from hand_refused (by simpa using hno)]
      rfl

/-- The bytes of a table's entry. -/
theorem rowBytes_get {α : Type} {n : Nat} (v : Vector α n) (i : Fin n) (f : α → List Byte) :
    rowBytes v i.val f = f (v.get i) :=
  dif_pos i.isLt

/-- R35: the bits of a set built bit by bit from a test. -/
theorem foldl_or_bits {n w : Nat} (hw : n ≤ w) (p : Fin n → Bool) (k : Nat) (hk : k < w) :
    ((List.finRange n).foldl (fun (m : BitVec w) i => if p i then m ||| (1#w <<< i.val) else m) 0).getLsbD k =
      if h : k < n then p ⟨k, h⟩ else false := by
  have key : ∀ (l : List (Fin n)) (m : BitVec w),
      (l.foldl (fun (m : BitVec w) i => if p i then m ||| (1#w <<< i.val) else m) m).getLsbD k =
      (m.getLsbD k || l.any fun i => p i && decide (i.val = k)) := fun l => by
    induction l with
    | nil => intro m; simp
    | cons a l ih =>
      intro m
      rw [List.foldl_cons, ih, List.any_cons]
      by_cases ha : p a = true
      · rw [if_pos ha, ha, BitVec.getLsbD_or, Bool.or_assoc]
        congr 2
        simp only [BitVec.getLsbD_shiftLeft, BitVec.getLsbD_one, Bool.true_and]
        by_cases hx : a.val = k
        · simp [hx, hk]; omega
        · simp [hx]; omega
      · rw [if_neg ha]
        simp [ha]
  rw [key]
  simp only [BitVec.ofNat_eq_ofNat, BitVec.getLsbD_zero, Bool.false_or]
  split
  · next h =>
    cases hp : p ⟨k, h⟩ with
    | true => exact List.any_eq_true.2 ⟨⟨k, h⟩, List.mem_finRange _, by simp [hp]⟩
    | false =>
      rw [List.any_eq_false]
      intro i _ hi
      simp only [Bool.and_eq_true, decide_eq_true_eq] at hi
      have : i = ⟨k, h⟩ := Fin.ext hi.2
      rw [this, hp] at hi
      exact nomatch hi.1
  · next h =>
    rw [List.any_eq_false]
    intro i _ hi
    simp only [Bool.and_eq_true, decide_eq_true_eq] at hi
    exact h (hi.2 ▸ i.isLt)

/-! ### Counts -/

theorem satAdd_toNat (a : Word) (n : Nat) : (satAdd a n).toNat = min (a.toNat + n) 4294967295 := by
  rw [satAdd, BitVec.toNat_ofNat]; omega

theorem satAdd_le (a : Word) (n : Nat) : a.toNat ≤ (satAdd a n).toNat := by
  rw [satAdd_toNat]; have := a.isLt; omega

/-- R56: the total saturates once over the three doses. -/
theorem total_toNat (l : LotEntry) :
    l.total.toNat = min 4294967295 (l.inherited.toNat + l.handling.toNat + l.equipment.toNat) := by
  rw [LotEntry.total, satAdd_toNat, satAdd_toNat]; omega

theorem deadline_eq (c : Clock) (n : Nat) : deadline c n = BitVec.ofNat 32 (min 4294967295 (c.toNat + n)) := by
  rw [deadline, satAdd, Nat.min_comm]

theorem countWord_eq {n : Nat} (h : n < 4294967296) : countWord n = BitVec.ofNat 32 n := if_pos h

theorem reached_iff (clock d : Clock) : reached clock d = true ↔ d.toNat ≤ clock.toNat := by rw [reached, decide_eq_true_eq]

theorem clamp_eq_iff {lo hi n : Nat} (h : lo ≤ hi) : clamp lo hi n = n ↔ lo ≤ n ∧ n ≤ hi := by rw [clamp]; omega

/-! ### Proof numbers and the pin horizon -/

/-- R146: the number found is not below the next proof number, and stays in range. -/
theorem freeNumber_le (lots : Vector LotEntry 96) (id : Word) (k n : Nat) :
    n ≤ freeNumber lots id k n ∧ (n ≤ 65535 → freeNumber lots id k n ≤ 65535) := by
  induction k generalizing n with
  | zero => exact ⟨Nat.le_refl _, fun h => h⟩
  | succ k ih =>
    rw [freeNumber]
    split
    · next h => exact ⟨Nat.le_trans (Nat.le_succ n) (ih (n + 1)).1, fun _ => (ih (n + 1)).2 h.1⟩
    · exact ⟨Nat.le_refl _, fun h => h⟩

/-- R146: a number is taken exactly when an occupied lot holds a proof of the trip with it. -/
theorem numberTaken_iff {lots : Vector LotEntry 96} {id : Word} {n : Nat} : numberTaken lots id n = true ↔
    ∃ j p, (lots.get j).state ≠ .free ∧ (lots.get j).proof = some p ∧ p.record.tripId = id ∧ p.record.number = n := by
  unfold numberTaken
  rw [List.any_eq_true]
  constructor
  · rintro ⟨l, hl, h⟩
    obtain ⟨j, hj, rfl⟩ := List.mem_iff_getElem.1 hl
    rw [Bool.and_eq_true, decide_eq_true_eq] at h
    refine ⟨⟨j, by simpa using hj⟩, ?_⟩
    have e : lots.get ⟨j, by simpa using hj⟩ = lots.toList[j] := by simp [Vector.get]
    rw [e]
    cases hp : lots.toList[j].proof with
    | none => rw [hp] at h; exact nomatch h.2
    | some p =>
      rw [hp, Bool.and_eq_true, decide_eq_true_eq, decide_eq_true_eq] at h
      exact ⟨p, h.1, rfl, h.2⟩
  · rintro ⟨j, p, h1, h2, h3, h4⟩
    refine ⟨lots.get j, by simp [Vector.get], ?_⟩
    simp [h1, h2, h3, h4]

/-- R146 step 1: what some passes over taken numbers reach. -/
theorem freeNumber_spec (lots : Vector LotEntry 96) (id : Word) (k n : Nat) :
    (∀ m, n ≤ m → m < freeNumber lots id k n → m < 65535 ∧ numberTaken lots id m = true) ∧
    (freeNumber lots id k n = n + k ∨
      (freeNumber lots id k n < 65535 → numberTaken lots id (freeNumber lots id k n) = false)) := by
  induction k generalizing n with
  | zero => exact ⟨fun m h1 h2 => absurd h1 (Nat.not_le.2 h2), Or.inl rfl⟩
  | succ k ih =>
    rw [freeNumber]
    split
    · next h =>
      refine ⟨fun m h1 h2 => ?_, ?_⟩
      · rcases Nat.eq_or_lt_of_le h1 with rfl | h3
        · exact h
        · exact (ih (n + 1)).1 m h3 h2
      · rcases (ih (n + 1)).2 with h3 | h3
        · left; omega
        · exact Or.inr h3
    · next h => exact ⟨fun m h1 h2 => absurd h1 (Nat.not_le.2 h2), Or.inr fun h1 => by simpa using fun h2 => h ⟨h1, h2⟩⟩

/-- Of more numbers than there are lots, one is not taken. -/
theorem number_left (lots : Vector LotEntry 96) (id : Word) (n : Nat) :
    ∃ m, n ≤ m ∧ m ≤ n + 96 ∧ numberTaken lots id m = false := by
  by_contra hx
  have h : ∀ k : Fin 97, ∃ j p, (lots.get j).state ≠ .free ∧ (lots.get j).proof = some p ∧ p.record.tripId = id ∧
      p.record.number = n + k.val := fun k => numberTaken_iff.1 (by
    by_contra h
    exact hx ⟨n + k.val, Nat.le_add_right _ _, by omega, by simpa using h⟩)
  choose g hg using h
  obtain ⟨a, b, hab, he⟩ := Fintype.exists_ne_map_eq_of_card_lt g (by simp)
  obtain ⟨p, -, h1, -, h2⟩ := hg a
  obtain ⟨q, -, h3, -, h4⟩ := hg b
  rw [he, h3] at h1
  obtain rfl := Option.some.inj h1
  exact hab (Fin.ext (by omega))

/-- R146: the proof number of the next seal passes over the numbers taken below 65,535, and over no other. -/
theorem takeNumber_spec (lots : Vector LotEntry 96) (r : TripRecord) :
    r.nextProof ≤ takeNumber lots r ∧
    (∀ m, r.nextProof ≤ m → m < takeNumber lots r → m < 65535 ∧ numberTaken lots r.tripId m = true) ∧
    (takeNumber lots r < 65535 → numberTaken lots r.tripId (takeNumber lots r) = false) := by
  unfold takeNumber
  obtain ⟨h1, h2⟩ := freeNumber_spec lots r.tripId 96 r.nextProof
  refine ⟨(freeNumber_le _ _ _ _).1, h1, ?_⟩
  rcases h2 with h2 | h2
  · intro _
    obtain ⟨m, a, b, c⟩ := number_left lots r.tripId r.nextProof
    rcases Nat.eq_or_lt_of_le b with h | h
    · rw [h2, ← h]; exact c
    · rw [(h1 m a (by omega)).2] at c; exact nomatch c
  · exact h2

theorem summary_not_pinned (h : Option Clock) (e : JEntry) (he : e.kind = .summary) : e.pinned h = false := by
  simp only [JEntry.pinned, he]; rfl

/-! ### Requests -/

/-- R188, R189: a request whose unit answers a state and a code leaves that state, with its MG_RSP handed over. -/
theorem replies_of {c : Instr} {s : State} {h : ReqHdr} {kind : Byte} {g : State → State × ReplyCode} {u : State}
    {code : ReplyCode} (hc : exec c s = onRequest h s fun s => answered h kind (g s)) (ht : Taken h s)
    (hg : g s = (u, code)) : Replies c s u h kind code := by
  refine ⟨?_, hand_sent _ _⟩
  rw [hc, onRequest_taken _ _ _ ht, hg]; rfl

/-- As replies_of, for a request whose effects end with an append. -/
theorem repliesRecording_of {c : Instr} {s : State} {h : ReqHdr} {kind : Byte} {g : State → State × ReplyCode} {u w : State}
    {code : ReplyCode} {d : Draft} (hc : exec c s = onRequest h s fun s => answered h kind (g s)) (ht : Taken h s)
    (hg : g s = (w, code)) (hr : Recorded u w) (ha : Appends u w d) : RepliesRecording c s u h kind code d :=
  ⟨w, replies_of hc ht hg, hr, ha⟩

/-- R161: with room in the journal an append places its entry. -/
theorem append_appends (d : Draft) (s : State) : Appends s (append d s) d := by
  intro h e
  rw [append, if_pos (show _ < Config.journalCap from h), placeEntry_journal]
  rfl

/-! ### Requests that are not taken -/

/-- R183: a well-formed request goes to its block through onRequest. -/
theorem request_exec {c : Instr} {h : ReqHdr} (s : State) (hc : requestHeader c = some h) (hw : c.wellFormed = true) :
    ∃ g, exec c s = onRequest h s g := by
  cases c <;> cases hc
  case mgWriteRefused payload =>
    simp only [Instr.wellFormed, Bool.and_eq_true, Option.isNone_iff_eq_none] at hw
    refine ⟨fun s => reply (replyTo h kMgWrite) .badValue s, ?_⟩
    show execMgWriteRefused h payload s = _
    unfold execMgWriteRefused
    rw [hw.2]
  case mgCmdInvalid payload =>
    simp only [Instr.wellFormed, Bool.and_eq_true, Option.isNone_iff_eq_none] at hw
    refine ⟨fun s => reply (replyTo h kMgCmd) .badValue s, ?_⟩
    show execMgCmdInvalid h payload s = _
    unfold execMgCmdInvalid
    rw [hw.2]
  all_goals
    unfold exec
    exact ⟨_, rfl⟩

/-- R183, R195: what becomes of a request that is not taken. -/
theorem request_discarded {c : Instr} {h : ReqHdr} (s : State) (hc : requestHeader c = some h) (hw : c.wellFormed = true) :
    (s.trunk.reset ≠ .none → exec c s = .next s) ∧
    (s.trunk.reset = .none → h.dest.setWidth 8 ≠ s.trunk.addr → exec c s = .next (countError s)) := by
  obtain ⟨g, e⟩ := request_exec s hc hw
  rw [e, onRequest]
  exact ⟨fun h => by rw [if_pos h], fun h1 h2 => by rw [if_neg (not_not.2 h1), if_neg h2]⟩

end Sys2Proof.Machine
end

