-- ==== Sys2Proof/Laws/ClaimSlots.lean ====
section
/-! SUPPORT. Which slots the claim unit's operations leave in use, what a discard leaves of them, and what becomes of an entry
that is handed on (spec 09 R161; spec 10 R172, R176, R177). -/

namespace Sys2Proof.Machine

/-! ### The lots that slots hold -/

/-- No slot has come to hold another lot, and none has come into use. -/
def Claims.Kept (c d : Claims) : Prop := ∀ j x, d.slots.get j = some x → ∃ y, c.slots.get j = some y ∧ y.lot = x.lot

theorem Claims.Kept.refl (c : Claims) : c.Kept c := fun _ x h => ⟨x, h, rfl⟩

theorem Claims.Kept.trans {a b c : Claims} (h : a.Kept b) (g : b.Kept c) : a.Kept c := fun j x hx => by
  obtain ⟨y, hy, e⟩ := g j x hx
  obtain ⟨z, hz, e'⟩ := h j y hy
  exact ⟨z, hz, e'.trans e⟩

theorem release_kept (c : Claims) (k : Fin 4) : c.Kept (c.release k) := fun j x hx => by
  simp only [Claims.release, get_upd] at hx
  split at hx
  · cases hx
  · exact ⟨x, hx, rfl⟩

theorem start_kept (c : Claims) (k : Fin 4) (now : Nat) (es : List JEntry) : c.Kept (c.start k now es) := fun j x hx => by
  simp only [Claims.start, get_upd] at hx
  split at hx
  · next h => subst h
              obtain ⟨y, hy, rfl⟩ := Option.map_eq_some_iff.1 hx
              exact ⟨y, hy, rfl⟩
  · exact ⟨x, hx, rfl⟩

theorem complete_kept (c : Claims) (b : Build) (k : Clock) (u : Bool) (l : Vector LotEntry 96) : c.Kept (c.complete b k u l) :=
    by
  unfold Claims.complete
  split
  · exact fun j x hx => ⟨x, hx, rfl⟩
  · next y hy =>
    split
    · exact release_kept _ _
    · split
      all_goals first
        | exact release_kept _ _
        | (intro j x hx
           simp only [get_upd] at hx
           split at hx
           · next h => subst h; cases hx; exact ⟨y, hy, rfl⟩
           · exact ⟨x, hx, rfl⟩)

theorem run_kept (n : Nat) (c : Claims) (now : Nat) (k : Clock) (u : Bool) (l : Vector LotEntry 96) (e : List JEntry) :
    c.Kept (c.run n now k u l e) := by
  induction n generalizing c with
  | zero => exact Claims.Kept.refl c
  | succ n ih =>
    unfold Claims.run
    split
    · exact Claims.Kept.refl c
    · split
      · exact Claims.Kept.refl c
      · simp only
        split
        · exact ((start_kept _ _ _ _).trans (complete_kept _ _ _ _ _)).trans (ih _)
        · exact start_kept _ _ _ _

theorem discardSlot_kept (k : Fin 4) (s : State) : s.claims.Kept (discardSlot k s).claims :=
  (release_kept _ _).trans (run_kept _ _ _ _ _ _ _)

theorem discardFor_kept (lot : Word) (s : State) : s.claims.Kept (discardFor lot s).claims := by
  unfold discardFor; split
  · exact discardSlot_kept _ _
  · exact Claims.Kept.refl _

theorem claimsOnEntry_kept (e : JEntry) (s : State) : s.claims.Kept (claimsOnEntry e s).claims := by
  unfold claimsOnEntry; split
  · split
    · exact discardFor_kept _ _
    · exact Claims.Kept.refl _
  · exact Claims.Kept.refl _

theorem placeEntry_kept (d : Draft) (s : State) : s.claims.Kept (placeEntry d s).claims := by
  unfold placeEntry; simp only
  rw [(exportOnEntry_sent _ _).claims]
  exact claimsOnEntry_kept _ { s with journal := s.journal.push (entryOf d s) }

theorem append_kept (d : Draft) (s : State) : s.claims.Kept (append d s).claims := by
  unfold append; split
  · exact placeEntry_kept d s
  · split
    · refine Claims.Kept.trans ?_ (placeEntry_kept d _)
      exact fun j x hx => ⟨x, hx, rfl⟩
    · rw [show (refuseAppend s).claims = s.claims from (raise_raised .journalFull .none _).claims]
      exact Claims.Kept.refl _

/-! ### What a discard leaves -/

/-- R176: a builder at work takes nothing. -/
theorem run_busy (n c now k u l e) (b : Build) (h : Claims.builder c = some b) : Claims.run n c now k u l e = c := by
  cases n with
  | zero => rfl
  | succ n => unfold Claims.run; rw [h]

theorem oldestQueued_none {c : Claims} (h : ∀ j ∈ c.order, ∀ y, c.slots.get j = some y → y.state ≠ .queued) :
    c.oldestQueued = none := by
  unfold Claims.oldestQueued
  rw [List.find?_eq_none]
  intro j hj
  cases e : c.slots.get j with
  | none => simp
  | some y => simpa using h j hj y e

theorem oldestQueued_split {c : Claims} {a b m y} (ho : c.order = a ++ m :: b) (hm : c.slots.get m = some y)
    (hq : y.state = .queued)
   (ha : ∀ j ∈ a, ∀ z, c.slots.get j = some z → z.state ≠ .queued) : c.oldestQueued = some m := by
  unfold Claims.oldestQueued
  rw [List.find?_eq_some_iff_append]
  refine ⟨by simp [hm, hq], a, b, ho, fun j hj => ?_⟩
  cases e : c.slots.get j with
  | none => simp
  | some z => simpa using ha j hj z e

/-- R176: an idle builder takes nothing while no slot is Queued. -/
theorem run_idle (n c now k u l e) (hb : Claims.builder c = none)
    (h : ∀ j ∈ c.order, ∀ y, c.slots.get j = some y → y.state ≠ .queued) :
    Claims.run n c now k u l e = c := by
  cases n with
  | zero => rfl
  | succ n => unfold Claims.run; rw [hb, oldestQueued_none h]

/-- R176: an idle builder takes the oldest Queued slot and, while the journal holds an entry, builds it. -/
theorem run_takes (n : Nat) (c : Claims) (now k u l) (e : List JEntry) (he : e ≠ []) (hb : c.builder = none) {a b m y}
    (ho : c.order = a ++ m :: b) (hm : c.slots.get m = some y) (hq : y.state = .queued)
   (ha : ∀ j ∈ a, ∀ z, c.slots.get j = some z → z.state ≠ .queued) : Claims.run (n + 1) c now k u l e = c.start m now e := by
  unfold Claims.run; rw [hb, oldestQueued_split ho hm hq ha]
  have : e.isEmpty = false := by simpa using he
  simp only [this]; rfl

theorem run_order (n : Nat) (c : Claims) (now k u l) (e : List JEntry) (he : e ≠ []) :
    (Claims.run n c now k u l e).order = c.order := by
  cases n with
  | zero => rfl
  | succ n =>
    unfold Claims.run
    have : e.isEmpty = false := by simpa using he
    split
    · rfl
    · split
      · rfl
      · simp only [this]; rfl

/-- R177, R176: what the discard of a slot leaves, while the journal holds an entry. -/
theorem discardSlot_discarded (k : Fin 4) (s : State) (he : s.journal.entries ≠ []) :
    Discarded k s.ref s.journal.entries s.claims (discardSlot k s).claims := by
  have hk : (s.claims.release k).slots.get k = none := get_upd_self _ _ _
  have hr : ∀ j, j ≠ k → (s.claims.release k).slots.get j = s.claims.slots.get j := fun j hj => get_upd_ne _ hj _
  have ho : (s.claims.release k).order = s.claims.order.filter (fun j => decide (j ≠ k)) := by
    show List.filter _ _ = _
    congr 1; funext j; simp [bne]
    rfl
  have hd : (discardSlot k s).claims = (s.claims.release k).run 5 s.ref s.clock s.trip.unsynced s.lots s.journal.entries := rfl
  have ho' : (discardSlot k s).claims.order = (s.claims.release k).order := by rw [hd, run_order _ _ _ _ _ _ _ he]
  have hne : ∀ j ∈ (s.claims.release k).order, j ≠ k := fun j hj => by rw [ho] at hj; simpa using (List.mem_filter.1 hj).2
  have idle : (∀ b, s.claims.builder = some b → b.slot = k) → (s.claims.release k).builder = none := fun h => by
    unfold Claims.release; simp only
    split
    · next b hb => rw [if_pos (h b hb)]
    · rfl
  refine ⟨claims_run_window _ _ _ _ _ _ _, ho'.trans ho, (discardSlot_slots k s).1, fun b hb hbk => ?_, fun h hq => ?_,
      fun h a m b y ha hm hq hl => ?_⟩
  · have hb' : (s.claims.release k).builder = some b := by unfold Claims.release; simp only [hb, if_neg hbk]
    rw [hd, run_busy _ _ _ _ _ _ _ b hb']
    exact ⟨hb', hr⟩
  · rw [ho'] at hq
    rw [hd, run_idle _ _ _ _ _ _ _ (idle h) (fun j hj y hy => hq j hj y (by rw [← hr j (hne j hj)]; exact hy))]
    exact ⟨idle h, hr⟩
  · rw [ho'] at ha
    have hmk : m ≠ k := hne m (by rw [ha]; simp)
    have hm' : (s.claims.release k).slots.get m = some y := by rw [hr m hmk]; exact hm
    rw [hd, run_takes 4 _ _ _ _ _ _ he (idle h) ha hm' hq
        (fun j hj z hz => hl j hj z (by rw [← hr j (hne j (by rw [ha]; simp [hj]))]; exact hz))]
    refine ⟨rfl, ?_, fun j hj1 hj2 => ?_⟩
    · simp [Claims.start, hm']
    · exact (get_upd_ne _ hj2 _).trans (hr j hj1)

/-! ### What the claim unit does with an entry -/

/-- R161 step 1: an entry with no lot, or a Summary entry, is nothing to the claim unit. -/
theorem claimsOnEntry_other {e : JEntry} {s : State} (h : e.lot = none ∨ e.kind = .summary) : claimsOnEntry e s = s := by
  unfold claimsOnEntry
  rcases h with h | h
  · rw [h]
  · rw [h]; split <;> rfl

/-- R161 step 1: an entry whose lot has no slot is nothing to the claim unit. -/
theorem claimsOnEntry_noSlot {e : JEntry} {s : State} {lot : Word} (hl : e.lot = some lot) (hn : s.claims.slotFor lot = none) :
    claimsOnEntry e s = s := by
  unfold claimsOnEntry discardFor
  rw [hl]; simp only; rw [hn]; split <;> rfl

/-- R161 step 1, R177: a Key entry discards the slot of its lot. -/
theorem claimsOnEntry_slot {e : JEntry} {s : State} {lot : Word} {k : Fin 4} (hl : e.lot = some lot) (hk : e.kind ≠ .summary)
    (hs : s.claims.slotFor lot = some k) : claimsOnEntry e s = discardSlot k s := by
  unfold claimsOnEntry discardFor
  rw [hl]; simp only; rw [hs]
  cases h : e.kind <;> first | exact absurd h hk | rfl

/-- R161 step 2: with no export, or with its cursor elsewhere, an entry is not offered. -/
theorem exportOnEntry_other {e : JEntry} {s : State} (h : ∀ x, s.exporter.run = some x → x.place ≠ e.place) :
    exportOnEntry e s = s := by
  unfold exportOnEntry
  split
  · next x hx => rw [if_neg (h x hx)]
  · rfl

/-- R161 step 2, R167: an entry at the cursor of the running export is offered. -/
theorem exportOnEntry_cursor {e : JEntry} {s : State} {x : ExportRec} (hx : s.exporter.run = some x) (hp : x.place = e.place) :
    exportOnEntry e s = offer offerFuel s := by
  unfold exportOnEntry
  rw [hx]; simp only; rw [if_pos hp]

end Sys2Proof.Machine
end

