-- ==== Sys2Proof/Laws/Custody.lean ====
section
/-! SUPPORT. What sealing, and a door's openings and closings, can do (spec 08 R145 to R153; spec 05 R87 to R99). -/

namespace Sys2Proof.Machine

theorem CustodyOnly.refl (s : State) : CustodyOnly s s := by constructor <;> rfl

theorem CustodyOnly.trans {a b c : State} (h : CustodyOnly a b) (g : CustodyOnly b c) : CustodyOnly a c := by
  constructor
  case trunk => rw [g.trunk, h.trunk]
  all_goals first
    | exact g.pending.trans h.pending | exact g.ref.trans h.ref | exact g.straps.trans h.straps
    | exact g.sensor.trans h.sensor | exact g.zones.trans h.zones | exact g.engine.trans h.engine
    | exact g.doors.trans h.doors | exact g.beacons.trans h.beacons | exact g.clock.trans h.clock
    | exact g.unsynced.trans h.unsynced | exact g.stops.trans h.stops | exact g.visit.trans h.visit
    | exact g.scans.trans h.scans | exact g.acks.trans h.acks | exact g.window.trans h.window

theorem Recorded.custody {s t : State} (h : Recorded s t) : CustodyOnly s t :=
  ⟨h.pending, h.ref, h.straps, h.sensor, h.zones, h.engine, by rw [h.doors], h.beacons, by rw [h.trip], by rw [h.trip],
   by rw [h.trip], by rw [h.trip], h.scans, by rw [h.proofs], h.window, h.trunk⟩

theorem modLot_custody (s : State) (i : Fin 96) (f : LotEntry → LotEntry) : CustodyOnly s (s.modLot i f) := by
  constructor <;> rfl

theorem modDoorRt_custody (s : State) (d : Fin 4) (f : DoorRt → DoorRt) : CustodyOnly s (s.modDoorRt d f) := by
  constructor <;> rfl

theorem modTrip_custody (s : State) (f : TripRecord → TripRecord) : CustodyOnly s (s.modTrip f) := by
  constructor <;> rfl

theorem modList_custody (s : State) (f : List ProofItem → List ProofItem) : CustodyOnly s (s.modList f) := by
  constructor <;> rfl

/-- A fold of operations that keep a property keeps it. -/
theorem foldl_keeps {α β : Type} (P : β → Prop) (f : β → α → β) (l : List α) (hf : ∀ b a, P b → P (f b a)) (b : β)
    (hb : P b) : P (l.foldl f b) := by
  induction l generalizing b with
  | nil => exact hb
  | cons a l ih => exact ih _ (hf b a hb)

/-- A fold of custody operations is one. -/
theorem foldl_custody {α : Type} (f : State → α → State) (l : List α) (hf : ∀ s a, CustodyOnly s (f s a)) (s : State) :
    CustodyOnly s (l.foldl f s) :=
  foldl_keeps (CustodyOnly s) f l (fun b a h => h.trans (hf b a)) s (CustodyOnly.refl s)

/-! ### Sealing -/

theorem markUnconfirmed_custody (p : ProofItem) (s : State) : CustodyOnly s (markUnconfirmed p s) :=
  (modLot_custody s _ _).trans (raise_raised _ _ _).recorded.custody

theorem addProof_custody (p : ProofItem) (s : State) : CustodyOnly s (addProof p s) := by
  unfold addProof
  simp only
  split
  · constructor <;> rfl
  · split
    · constructor <;> rfl
    · rename_i old rest _
      have h := markUnconfirmed_custody old { s with proofs := { s.proofs with list := rest } }
      exact ⟨h.pending, h.ref, h.straps, h.sensor, h.zones, h.engine, h.doors, h.beacons, h.clock, h.unsynced, h.stops,
        h.visit, h.scans, h.acks, h.window, h.trunk⟩

/-- R152: the proof list keeps within its 16 places. -/
theorem addProof_bounded (p : ProofItem) (s : State) (h : ProofsBounded s) : ProofsBounded (addProof p s) := by
  unfold ProofsBounded at *
  unfold addProof
  by_cases h1 : s.proofs.list.length < Config.proofCap
  · simp only [h1, if_true, List.length_append, List.length_cons, List.length_nil]
    simp only [Config.proofCap] at h1
    omega
  · simp only [h1, if_false]
    cases h2 : s.proofs.list with
    | nil => simp [h2]
    | cons old rest =>
      have hr := (raise_raised .proofUnconfirmed (.lot old.lot)
        (State.modLot { s with proofs := { s.proofs with list := rest } } old.index (fun l => { l with unconfirmed := true }))).proofs
      rw [h2] at h
      simp only [markUnconfirmed, hr, modLot_proofs, List.length_append, List.length_cons, List.length_nil] at *
      omega

/-- Everything that a seal can do outside custody: nothing. -/
theorem sealLot_custody (c : SealCause) (i : Fin 96) (s : State) : CustodyOnly s (sealLot c i s) := by
  unfold sealLot
  simp only
  split
  · refine (((modTrip_custody s _).trans (modLot_custody _ i _)).trans (append_recorded _ _).custody).trans
      ((addProof_custody _ _).trans (hand_sent _ _).recorded.custody)
  · exact CustodyOnly.refl s

theorem sealLots_custody (c : SealCause) (p : LotEntry → Bool) (s : State) : CustodyOnly s (sealLots c p s) := by
  unfold sealLots
  apply foldl_custody
  intro s i
  split
  · exact sealLot_custody c i s
  · exact CustodyOnly.refl s

theorem sealByDoor_custody (z : ZoneSet) (s : State) : CustodyOnly s (sealByDoor z s) := sealLots_custody _ _ s

/-- R152: a seal keeps the proof list within its 16 places. -/
theorem sealLot_proofs_le (c : SealCause) (i : Fin 96) (s : State) (h : ProofsBounded s) : ProofsBounded (sealLot c i s) := by
  unfold sealLot
  simp only
  split
  · unfold ProofsBounded
    rw [(hand_sent _ _).proofs]
    apply addProof_bounded
    unfold ProofsBounded
    rw [(append_recorded _ _).proofs]
    exact h
  · exact h

theorem sealLots_proofs_le (c : SealCause) (p : LotEntry → Bool) (s : State) (h : ProofsBounded s) :
    ProofsBounded (sealLots c p s) := by
  unfold sealLots
  apply foldl_keeps ProofsBounded _ _ _ s h
  intro s i hs
  split
  · exact sealLot_proofs_le c i s hs
  · exact hs

/-! ### What seals leave of the lots and the journal -/

/-- Lot entries that differ in their gap count and their Unconfirmed mark alone. -/
def Marked (a b : LotEntry) : Prop := b = { a with gaps := b.gaps, unconfirmed := b.unconfirmed }

theorem Marked.refl (a : LotEntry) : Marked a a := rfl

theorem Marked.trans {a b c : LotEntry} (h : Marked a b) (g : Marked b c) : Marked a c := by
  unfold Marked at *
  rw [g, h]

/-- R81, R149: a lot entry before a seal at a clock and after it. -/
def SealedAt (cause : SealCause) (clock due : Clock) (a b : LotEntry) : Prop :=
  ∃ p : ProofFields, p.cause = cause ∧ p.sealClock = clock ∧
    b = { a with state := .delivered, handover := none, proof := some p, retention := some due, gaps := b.gaps, unconfirmed := b.unconfirmed }

/-- R149: the Seal entry of a lot, from its entry before the seal and after it. -/
def sealDraft (a b : LotEntry) : Draft :=
  { kind := .seal, lot := some a.lot, zone := some a.zone,
    v1 := (b.proof.map fun p => natWord p.number).getD 0, v2 := (b.proof.map ProofFields.check).getD 0 }

theorem SealedAt.marked {cause : SealCause} {clock due : Clock} {a b c : LotEntry} (h : SealedAt cause clock due a b)
    (g : Marked b c) : SealedAt cause clock due a c := by
  obtain ⟨p, h1, h2, h3⟩ := h
  unfold Marked at g
  exact ⟨p, h1, h2, by rw [g, h3]⟩

theorem Marked.sealed {cause : SealCause} {clock due : Clock} {a b c : LotEntry} (g : Marked a b)
    (h : SealedAt cause clock due b c) : SealedAt cause clock due a c := by
  obtain ⟨p, h1, h2, h3⟩ := h
  unfold Marked at g
  exact ⟨p, h1, h2, by rw [h3, g]⟩

theorem Recorded.marked {s t : State} (h : Recorded s t) (i : Fin 96) : Marked (s.lots.get i) (t.lots.get i) := by
  unfold Marked
  rw [h.lots i]

/-- R152: adding a proof marks lots and does nothing else to them, nor to the journal. -/
theorem addProof_marked (p : ProofItem) (s : State) :
    (∀ i, Marked (s.lots.get i) ((addProof p s).lots.get i)) ∧ (addProof p s).journal = s.journal := by
  unfold addProof
  simp only
  split
  · exact ⟨fun i => rfl, rfl⟩
  · split
    · exact ⟨fun i => rfl, rfl⟩
    · rename_i old rest _
      have h := raise_raised .proofUnconfirmed (.lot old.lot)
        (State.modLot { s with proofs := { s.proofs with list := rest } } old.index (fun l => { l with unconfirmed := true }))
      refine ⟨fun i => ?_, h.journal⟩
      show Marked _ ((markUnconfirmed _ _).lots.get i)
      unfold markUnconfirmed
      rw [h.lots]
      unfold State.modLot
      dsimp only
      rw [get_upd]
      split
      · next h => subst h; rfl
      · rfl

/-- R81, R145, R149: a seal of a lot in Handover writes its entry, and marks the others at most. Its Seal entry is told
to the journal. -/
theorem sealLot_lots (c : SealCause) (i : Fin 96) (s : State) (hs : (s.lots.get i).state = .handover)
    (hh : (s.lots.get i).handover ≠ none) :
    SealedAt c s.trip.clock (retentionDeadline s.trip) (s.lots.get i) ((sealLot c i s).lots.get i) ∧
    (∀ j, j ≠ i → Marked (s.lots.get j) ((sealLot c i s).lots.get j)) ∧
    Tells s (sealLot c i s) [sealDraft (s.lots.get i) ((sealLot c i s).lots.get i)] := by
  obtain ⟨h, hh⟩ := Option.ne_none_iff_exists'.1 hh
  have key : ∀ (d : Draft) (s1 : State) p f, (∀ j, Marked (s1.lots.get j) ((hand f (addProof p (append d s1))).1.lots.get j)) ∧
      (hand f (addProof p (append d s1))).1.journal = (append d s1).journal := fun d s1 p f => by
    rw [(hand_sent _ _).lots, (hand_sent _ _).journal]
    have h2 := addProof_marked p (append d s1)
    exact ⟨fun j => ((append_recorded d s1).marked j).trans (h2.1 j), h2.2⟩
  unfold sealLot
  simp only [hs, hh]
  generalize takeNumber s.lots s.trip.record = n
  generalize buildRecord s.trip (s.lots.get i) h n c = r
  generalize r.check s.trip.record.sealWord = w
  generalize hd : ({ kind := .seal, lot := some (s.lots.get i).lot, zone := some (s.lots.get i).zone, v1 := natWord n, v2 := w } : Draft) = d
  have draft : ∀ (p : ProofFields) (x : LotEntry), natWord p.number = d.v1 → p.check = d.v2 →
      Marked ((s.lots.get i).sealed p (retentionDeadline s.trip)) x → sealDraft (s.lots.get i) x = d := fun p x h1 h2 hx => by
    unfold Marked at hx
    rw [hx, ← hd]
    rw [← hd] at h1 h2
    simp only [sealDraft, LotEntry.sealed, Option.map_some, Option.getD_some, h1, h2]
  generalize hs1 : (State.modLot _ i _) = s1
  have own : ∃ p : ProofFields, s1.lots.get i = (s.lots.get i).sealed p (retentionDeadline s.trip) ∧ natWord p.number = d.v1 ∧
      p.check = d.v2 ∧ p.cause = c ∧ p.sealClock = s.trip.clock := by
    rw [← hs1, ← hd]
    simp only [State.modLot, get_upd_self]
    exact ⟨_, rfl, rfl, rfl, rfl, rfl⟩
  obtain ⟨p, own, h1, h2, h3, h4⟩ := own
  refine ⟨?_, fun j hj => ?_, ?_⟩
  · refine SealedAt.marked (b := s1.lots.get i) ⟨p, h3, h4, ?_⟩ ((key d s1 _ _).1 i)
    rw [own]
    rfl
  · refine Marked.trans (b := s1.lots.get j) ?_ ((key d s1 _ _).1 j)
    rw [← hs1]
    simp only [State.modLot, get_upd_ne _ hj]
    exact rfl
  · rw [draft p _ h1 h2 (by rw [← own]; exact (key d s1 _ _).1 i)]
    exact (append_tells d s1).congr (by rw [← hs1]; rfl) (by rw [← hs1]; exact ⟨rfl, rfl⟩) (key d s1 _ _).2

theorem sealLot_else (c : SealCause) (i : Fin 96) (s : State)
    (h : (s.lots.get i).state ≠ .handover ∨ (s.lots.get i).handover = none) : sealLot c i s = s := by
  unfold sealLot
  simp only
  split
  · next h1 h2 => rcases h with h | h
                  · exact absurd h1 h
                  · rw [h2] at h; exact nomatch h
  · rfl

/-! ### One operation made on one lot after another -/

/-- What an operation on one lot does: `R` to that lot, at most `M` to the others, and `D` told to the journal. -/
structure Each (g : State → Fin 96 → State) (Env : State → Prop) (M : LotEntry → LotEntry → Prop)
    (R : Fin 96 → LotEntry → LotEntry → Prop) (D : Fin 96 → LotEntry → LotEntry → List Draft) : Prop where
  refl   : ∀ a, M a a
  trans  : ∀ {a b c}, M a b → M b c → M a c
  before : ∀ {i a b c}, M a b → R i b c → R i a c ∧ D i b c = D i a c
  after  : ∀ {i a b c}, R i a b → M b c → R i a c ∧ D i a b = D i a c
  env    : ∀ s i, Env s → Env (g s i)
  clock  : ∀ s i, Env s → (g s i).trip.clock = s.trip.clock ∧ (g s i).trip.unsynced = s.trip.unsynced
  own    : ∀ s i, Env s → R i (s.lots.get i) ((g s i).lots.get i)
  others : ∀ s i j, Env s → j ≠ i → M (s.lots.get j) ((g s i).lots.get j)
  tells  : ∀ s i, Env s → Tells s (g s i) (D i (s.lots.get i) ((g s i).lots.get i))

variable {g : State → Fin 96 → State} {Env : State → Prop} {M : LotEntry → LotEntry → Prop}
  {R : Fin 96 → LotEntry → LotEntry → Prop} {D : Fin 96 → LotEntry → LotEntry → List Draft}

/-- The same operation made on each of a list of lots. -/
theorem Each.foldl (h : Each g Env M R D) (l : List (Fin 96)) (hn : l.Nodup) (s : State) (hs : Env s) :
    let t := l.foldl g s
    Env t ∧ (t.trip.clock = s.trip.clock ∧ t.trip.unsynced = s.trip.unsynced) ∧
    (∀ i ∈ l, R i (s.lots.get i) (t.lots.get i)) ∧ (∀ i, i ∉ l → M (s.lots.get i) (t.lots.get i)) ∧
    Tells s t (l.flatMap fun i => D i (s.lots.get i) (t.lots.get i)) := by
  induction l generalizing s with
  | nil => exact ⟨hs, ⟨rfl, rfl⟩, fun i hi => (nomatch hi), fun i _ => h.refl _, Tells.of_eq rfl⟩
  | cons a l ih =>
    obtain ⟨ha, hn⟩ := List.nodup_cons.1 hn
    simp only [List.foldl_cons]
    obtain ⟨i0, ic, i1, i2, i3⟩ := ih hn (g s a) (h.env s a hs)
    have hc := h.clock s a hs
    have own := h.own s a hs
    have last := h.after own (i2 a ha)
    have ne : ∀ i ∈ l, i ≠ a := fun i hi e => ha (e ▸ hi)
    refine ⟨i0, ⟨ic.1.trans hc.1, ic.2.trans hc.2⟩, fun i hi => ?_, fun i hi => ?_, ?_⟩
    · rcases List.mem_cons.1 hi with rfl | hi
      · exact last.1
      · exact (h.before (h.others s a i hs (ne i hi)) (i1 i hi)).1
    · rw [List.mem_cons, not_or] at hi
      exact h.trans (h.others s a i hs hi.1) (i2 i hi.2)
    · rw [List.flatMap_cons, ← last.2]
      refine (h.tells s a hs).trans ?_ hc
      rw [show (l.flatMap fun i => D i (s.lots.get i) ((l.foldl g (g s a)).lots.get i))
          = l.flatMap fun i => D i ((g s a).lots.get i) ((l.foldl g (g s a)).lots.get i) from
        List.flatMap_congr fun i hi => ((h.before (h.others s a i hs (ne i hi)) (i1 i hi)).2).symm]
      exact i3

/-! ### Sealing one lot after another -/

/-- R138, R140: whether a sealing takes a lot that a test picks. -/
def sealable (pick : LotEntry → Bool) (a : LotEntry) : Bool := pick a && decide (a.state = .handover) && a.handover.isSome

/-- Adding a proof leaves the trip unit as it was. -/
theorem addProof_trip (p : ProofItem) (s : State) : (addProof p s).trip = s.trip := by
  unfold addProof
  simp only
  split
  · rfl
  · split
    · rfl
    · exact (raise_raised _ _ _).trip

/-- R146: a seal writes of the trip record the next proof number alone. -/
theorem sealLot_record (c : SealCause) (i : Fin 96) (s : State) :
    (sealLot c i s).trip.record = { s.trip.record with nextProof := (sealLot c i s).trip.record.nextProof } := by
  unfold sealLot
  simp only
  split
  · rw [(hand_sent _ _).trip, addProof_trip, (append_recorded _ _).trip]
    rfl
  · rfl

theorem sealLots_record (c : SealCause) (pick : LotEntry → Bool) (s : State) :
    (sealLots c pick s).trip.record = { s.trip.record with nextProof := (sealLots c pick s).trip.record.nextProof } := by
  unfold sealLots
  refine foldl_keeps (fun t => t.trip.record = { s.trip.record with nextProof := t.trip.record.nextProof }) _ _ (fun t i h => ?_) s rfl
  split
  · rw [sealLot_record, h]
  · exact h

theorem sealable_iff (pick : LotEntry → Bool) (a : LotEntry) :
    sealable pick a = true ↔ pick a = true ∧ a.state = .handover ∧ a.handover ≠ none := by
  unfold sealable
  simp only [Bool.and_eq_true, decide_eq_true_eq, Option.isSome_iff_ne_none, and_assoc]

/-- What picks a lot does not read, a sealing does not read either. -/
theorem sealable_congr {pick : LotEntry → Bool} {a b : LotEntry} (hp : ∀ a b, Marked a b → pick b = pick a) (h : Marked a b) :
    sealable pick b = sealable pick a := by
  unfold sealable
  rw [hp a b h]
  unfold Marked at h
  rw [h]

/-- A lot picked that has no open handover is left as it stands. -/
theorem sealLot_step (c : SealCause) (pick : LotEntry → Bool) (s : State) (i : Fin 96) :
    (if pick (s.lots.get i) then sealLot c i s else s) = (if sealable pick (s.lots.get i) then sealLot c i s else s) := by
  by_cases h : pick (s.lots.get i) = true
  · rw [if_pos h]
    by_cases h1 : (s.lots.get i).state = .handover ∧ (s.lots.get i).handover ≠ none
    · rw [if_pos ((sealable_iff _ _).2 ⟨h, h1⟩)]
    · rw [sealLot_else c i s (by by_contra hx; rw [not_or, not_not] at hx; exact h1 hx)]
      exact (ite_self _).symm
  · rw [if_neg h, if_neg fun hx => h ((sealable_iff _ _).1 hx).1]

/-- R138, R140: what sealing one lot after another does. -/
theorem seal_each (c : SealCause) (pick : LotEntry → Bool) (hp : ∀ a b, Marked a b → pick b = pick a) (trip : Trip) :
    Each (fun s i => if pick (s.lots.get i) then sealLot c i s else s)
      (fun s => s.trip.clock = trip.clock ∧ s.trip.record.retention = trip.record.retention) Marked
      (fun _ a b => if sealable pick a then SealedAt c trip.clock (retentionDeadline trip) a b else Marked a b)
      (fun _ a b => if sealable pick a then [sealDraft a b] else []) := by
  have hs := fun a b (hm : Marked a b) => sealable_congr hp hm
  have run := sealLot_step c pick
  have taken := fun (s : State) i (h : sealable pick (s.lots.get i) = true) => ((sealable_iff _ _).1 h).2
  refine ⟨Marked.refl, Marked.trans, fun {i a b d} h g => ?_, fun {i a b d} h g => ?_, fun s i h => ?_, fun s i h => ?_,
    fun s i h => ?_, fun s i j h hj => ?_, fun s i h => ?_⟩
  · rw [hs a b h] at g ⊢
    split at g
    · rename_i hq
      refine ⟨by rw [if_pos hq]; exact h.sealed g, ?_⟩
      simp only [if_pos hq, sealDraft]
      unfold Marked at h
      rw [h]
    · rename_i hq
      refine ⟨by rw [if_neg hq]; exact h.trans g, by simp only [if_neg hq]⟩
  · split at h
    · rename_i hq
      refine ⟨by rw [if_pos hq]; exact h.marked g, ?_⟩
      simp only [if_pos hq, sealDraft]
      unfold Marked at g
      rw [g]
    · rename_i hq
      exact ⟨by rw [if_neg hq]; exact Marked.trans h g, by simp only [if_neg hq]⟩
  · split
    · exact ⟨(sealLot_custody c i s).clock.trans h.1, by rw [sealLot_record]; exact h.2⟩
    · exact h
  · split
    · exact ⟨(sealLot_custody c i s).clock, (sealLot_custody c i s).unsynced⟩
    · exact ⟨rfl, rfl⟩
  · rw [run]
    split
    · rename_i hq
      have := (sealLot_lots c i s (taken s i hq).1 (taken s i hq).2).1
      unfold retentionDeadline at this ⊢
      rw [h.1, h.2] at this
      exact this
    · exact Marked.refl _
  · rw [run]
    split
    · rename_i hq
      exact (sealLot_lots c i s (taken s i hq).1 (taken s i hq).2).2.1 j hj
    · exact Marked.refl _
  · rw [run]
    split
    · rename_i hq
      exact (sealLot_lots c i s (taken s i hq).1 (taken s i hq).2).2.2
    · exact Tells.of_eq rfl

/-- What a filtered list tells is what each of its members tells in turn. -/
theorem filter_map_flatMap {α β : Type} (p : α → Bool) (f : α → β) (l : List α) :
    (l.filter p).map f = l.flatMap fun a => if p a then [f a] else [] := by
  induction l with
  | nil => rfl
  | cons a l ih =>
    rw [List.flatMap_cons, ← ih, List.filter_cons]
    split <;> rfl

/-- R138, R140: what sealing the lots in Handover that a test picks leaves. -/
theorem sealLots_lots (c : SealCause) (pick : LotEntry → Bool) (hp : ∀ a b, Marked a b → pick b = pick a) (s : State) :
    (∀ i, sealable pick (s.lots.get i) = true →
      SealedAt c s.trip.clock (retentionDeadline s.trip) (s.lots.get i) ((sealLots c pick s).lots.get i)) ∧
    (∀ i, sealable pick (s.lots.get i) = false → Marked (s.lots.get i) ((sealLots c pick s).lots.get i)) ∧
    Tells s (sealLots c pick s) (((List.finRange 96).filter fun i => sealable pick (s.lots.get i)).map fun i =>
      sealDraft (s.lots.get i) ((sealLots c pick s).lots.get i)) := by
  obtain ⟨-, -, h1, -, h2⟩ := (seal_each c pick hp s.trip).foldl (List.finRange 96) (List.nodup_finRange 96) s ⟨rfl, rfl⟩
  refine ⟨fun i hi => ?_, fun i hi => ?_, ?_⟩
  · have := h1 i (List.mem_finRange i)
    rw [if_pos hi] at this
    exact this
  · have := h1 i (List.mem_finRange i)
    rw [if_neg (by rw [hi]; exact Bool.false_ne_true)] at this
    exact this
  · rw [filter_map_flatMap]
    exact h2

/-- R138: what a door's closing seals. -/
theorem sealByDoor_lots (zones : ZoneSet) (s : State) :
    (∀ i, (s.lots.get i).state = .handover → (s.lots.get i).handover ≠ none → zones.getLsbD (s.lots.get i).zone.val = true →
      SealedAt .doorClose s.trip.clock (retentionDeadline s.trip) (s.lots.get i) ((sealByDoor zones s).lots.get i)) ∧
    (∀ i, ((s.lots.get i).state ≠ .handover ∨ (s.lots.get i).handover = none ∨ zones.getLsbD (s.lots.get i).zone.val = false) →
      Marked (s.lots.get i) ((sealByDoor zones s).lots.get i)) ∧
    (s.journal.entries.length + 96 ≤ 6144 → ∃ more,
      (sealByDoor zones s).journal.entries = s.journal.entries ++ more ∧ ∀ y ∈ more, y.kind = .seal) := by
  obtain ⟨h1, h2, h3⟩ := sealLots_lots .doorClose (fun l => zones.getLsbD l.zone.val)
    (fun a b hm => by unfold Marked at hm; rw [hm]) s
  refine ⟨fun i a b c => h1 i ?_, fun i hi => h2 i ?_, fun hl => ?_⟩
  · simp only [sealable, a, c, Option.isSome_iff_ne_none.2 b, decide_true, Bool.and_self]
  · unfold sealable
    rcases hi with hi | hi | hi
    · simp [hi]
    · simp [hi]
    · simp only [hi, Bool.false_and]
  · obtain ⟨new, e, hd, -⟩ := h3 (by
      have := List.length_filter_le (fun i => sealable (fun l => zones.getLsbD l.zone.val) (s.lots.get i)) (List.finRange 96)
      rw [List.length_finRange] at this
      rw [List.length_map]; omega)
    refine ⟨new, e, fun y hy => ?_⟩
    have hy := List.mem_map_of_mem (f := JEntry.draft) hy
    rw [hd] at hy
    obtain ⟨i, -, hi⟩ := List.mem_map.1 hy
    exact (congrArg Draft.kind hi).symm

/-! ### Properties of the queue and the journal -/

/-- A property that only the trunk port and the journal bear on, and that frames, raisings and appends keep. -/
structure Logged (P : State → Prop) : Prop where
  only   : ∀ {s t : State}, P s → t.trunk = s.trunk → t.journal = s.journal → P t
  hand   : ∀ f s, P s → P (Machine.hand f s).1
  raise  : ∀ k sub s, P s → P (Machine.raise k sub s)
  append : ∀ d s, P s → P (Machine.append d s)

theorem logged_queue : Logged QueueBounded where
  only := fun hs h _ => by unfold QueueBounded at *; rw [h]; exact hs
  hand := hand_queue_le
  raise := raise_queue_le
  append := append_queue_le

theorem logged_journal : Logged JournalBounded where
  only := fun hs _ h => by unfold JournalBounded at *; rw [h]; exact hs
  hand := hand_journal_le
  raise := raise_journal_le
  append := append_journal_le

theorem logged_ordered : Logged JournalOrdered where
  only := fun hs _ h => by unfold JournalOrdered at *; rw [h]; exact hs
  hand := fun f s h => by unfold JournalOrdered at *; rw [(hand_sent f s).journal]; exact h
  raise := fun k sub s h => by unfold JournalOrdered at *; rw [(raise_raised k sub s).journal]; exact h
  append := append_ordered

variable {P : State → Prop}

theorem markUnconfirmed_logged (hP : Logged P) (p : ProofItem) (s : State) (h : P s) : P (markUnconfirmed p s) :=
  hP.raise _ _ _ (hP.only h rfl rfl)

theorem addProof_logged (hP : Logged P) (p : ProofItem) (s : State) (h : P s) : P (addProof p s) := by
  unfold addProof
  simp only
  split
  · exact hP.only h rfl rfl
  · split
    · exact hP.only h rfl rfl
    · rename_i old rest _
      exact hP.only (markUnconfirmed_logged hP old { s with proofs := { s.proofs with list := rest } } (hP.only h rfl rfl)) rfl rfl

theorem sealLot_logged (hP : Logged P) (c : SealCause) (i : Fin 96) (s : State) (h : P s) : P (sealLot c i s) := by
  unfold sealLot
  simp only
  split
  · exact hP.hand _ _ (addProof_logged hP _ _ (hP.append _ _ (hP.only h rfl rfl)))
  · exact h

theorem sealLots_logged (hP : Logged P) (c : SealCause) (p : LotEntry → Bool) (s : State) (h : P s) :
    P (sealLots c p s) := by
  unfold sealLots
  apply foldl_keeps P _ _ _ s h
  intro s i hs
  split
  · exact sealLot_logged hP c i s hs
  · exact hs

theorem openDoor_logged (hP : Logged P) (d : Fin 4) (s : State) (h : P s) : P (openDoor d s) := by
  unfold openDoor
  simp only
  split
  · exact hP.append _ _ (hP.only h rfl rfl)
  · exact hP.raise _ _ _ (hP.append _ _ (hP.only h rfl rfl))

theorem closeDoor_logged (hP : Logged P) (d : Fin 4) (s : State) (h : P s) : P (closeDoor d s) := by
  unfold closeDoor
  exact sealLots_logged hP _ _ _ (hP.append _ _ (hP.only h rfl rfl))

theorem judgeContact_logged (hP : Logged P) (d : Fin 4) (s : State) (h : P s) : P (judgeContact d s) := by
  unfold judgeContact
  simp only
  split <;> split <;> first | exact h | exact openDoor_logged hP d s h | exact closeDoor_logged hP d s h

theorem edge_logged (hP : Logged P) (d : Fin 4) (s : State) (h : P s) : P (edge d s) := by
  have h1 : P (s.modDoorRt d (fun r => { r with level := r.line, changedAt := none })) := hP.only h rfl rfl
  unfold edge
  simp only
  split
  · exact judgeContact_logged hP d _ h1
  · split
    · exact hP.only (openDoor_logged hP d _ h1) rfl rfl
    · exact h1
  · split
    · exact hP.append _ _ (hP.raise _ _ _ (hP.only h1 rfl rfl))
    · exact h1
  · exact h1
  · exact h1

theorem settleLine_logged (hP : Logged P) (d : Fin 4) (s : State) (h : P s) : P (settleLine d s) := by
  unfold settleLine
  split
  · exact edge_logged hP d s h
  · exact h

/-! ### Doors -/

theorem openDoor_custody (d : Fin 4) (s : State) : CustodyOnly s (openDoor d s) := by
  unfold openDoor
  simp only
  split
  · exact (modDoorRt_custody s d _).trans (append_recorded _ _).custody
  · exact ((modDoorRt_custody s d _).trans (append_recorded _ _).custody).trans (raise_raised _ _ _).recorded.custody

theorem closeDoor_custody (d : Fin 4) (s : State) : CustodyOnly s (closeDoor d s) := by
  unfold closeDoor
  exact ((modDoorRt_custody s d _).trans (append_recorded _ _).custody).trans (sealByDoor_custody _ _)

/-- Sealing leaves the doors as they were. -/
theorem sealLots_doors (c : SealCause) (p : LotEntry → Bool) (s : State) : (sealLots c p s).doors = s.doors := by
  unfold sealLots
  refine foldl_keeps (fun t => t.doors = s.doors) _ _ (fun t i h => ?_) s rfl
  split
  · refine Eq.trans ?_ h
    unfold sealLot
    simp only
    split
    · rw [(hand_sent _ _).doors]
      unfold addProof
      simp only
      split
      · exact (append_recorded _ _).doors
      · split
        · exact (append_recorded _ _).doors
        · unfold markUnconfirmed
          rw [(raise_raised _ _ _).doors]
          exact (append_recorded _ _).doors
    · rfl
  · exact h

/-- R95, R138: everything that a closing leaves, once the door's runtime is written. -/
theorem closeDoor_closed (d : Fin 4) (s : State) :
    let e := s.doors.entries.get d
    let r := s.doors.rts.get d
    let within := if s.trip.record.state.stop.isSome then stretchInVisit s.ref s.trip.visitStart r else 0
    Closed e.zones { kind := .doorClose, zones := some e.zones, door := some d, v1 := countWord (stretchSeconds s.ref r), v2 := r.openSince.getD 0 }
      (s.modDoorRt d (fun r => r.closing s.clock e.recovery within)) (closeDoor d s) := by
  intro e r within
  generalize hu : s.modDoorRt d (fun r => r.closing s.clock e.recovery within) = u
  generalize hd : ({ kind := .doorClose, zones := some e.zones, door := some d, v1 := countWord (stretchSeconds s.ref r), v2 := r.openSince.getD 0 } : Draft) = x
  have hc : closeDoor d s = sealByDoor e.zones (append x u) := by rw [← hu, ← hd]; rfl
  rw [hc]
  obtain ⟨h1, h2, h3⟩ := sealByDoor_lots e.zones (append x u)
  have hr := append_recorded x u
  have ht : (append x u).trip = u.trip := hr.trip
  refine ⟨hr.custody.trans (sealByDoor_custody _ _), (sealLots_doors _ _ _).trans hr.doors, fun i a b c => ?_, fun i hi => ?_, fun hl => ?_⟩
  · have := h1 i (by rw [hr.lots i]; exact a) (by rw [hr.lots i]; exact b) (by rw [hr.lots i]; exact c)
    rw [ht] at this
    obtain ⟨p, h1, h2, h3⟩ := this
    rw [h3]
    exact ⟨rfl, rfl, p, rfl, h1, h2⟩
  · exact (hr.marked i).trans (h2 i (by rw [hr.lots i]; exact hi))
  · have hj : (append x u).journal = u.journal.push (entryOf x u) := by
      unfold append
      rw [if_pos (show _ < Config.journalCap by simp only [Config.journalCap]; omega), placeEntry_journal]
    obtain ⟨more, hm, hk⟩ := h3 (by rw [hj]; simp only [Journal.push, List.length_append, List.length_cons, List.length_nil]; omega)
    refine ⟨more, ?_, hk⟩
    rw [hm, hj]
    simp only [Journal.push, List.append_assoc]
    rfl

theorem judgeContact_custody (d : Fin 4) (s : State) : CustodyOnly s (judgeContact d s) := by
  unfold judgeContact
  simp only
  split <;> split <;> first
    | exact CustodyOnly.refl s | exact openDoor_custody d s | exact closeDoor_custody d s

theorem breakSeal_custody (d : Fin 4) (s : State) : CustodyOnly s (breakSeal d s) :=
  ((modDoorRt_custody s d _).trans (raise_raised _ _ _).recorded.custody).trans (append_recorded _ _).custody

/-- Everything that an edge of a door line can do outside custody: nothing. -/
theorem edge_custody (d : Fin 4) (s : State) : CustodyOnly s (edge d s) := by
  have h1 := modDoorRt_custody s d (fun r => { r with level := r.line, changedAt := none })
  unfold edge
  simp only
  split
  · exact h1.trans (judgeContact_custody d _)
  · split
    · exact (h1.trans (openDoor_custody d _)).trans (modDoorRt_custody _ d _)
    · exact h1
  · split
    · exact h1.trans (breakSeal_custody d _)
    · exact h1
  · exact h1
  · exact h1

theorem settleLine_custody (d : Fin 4) (s : State) : CustodyOnly s (settleLine d s) := by
  unfold settleLine
  split
  · exact edge_custody d s
  · exact CustodyOnly.refl s

end Sys2Proof.Machine
end

