-- ==== Sys2Proof/Laws/Line.lean ====
section
/-! SUPPORT. What the end of an exchange, of a poll and of a round, a POLL's verdict, a node write's fields and a zone's computation can
do (spec 01 R2, R6 to R12; spec 02 R30 to R34). -/

namespace Sys2Proof.Machine

/-! ### The end of a poll -/

/-- R10: the end of a turn touches the round and the rotation alone. -/
theorem closeTurn_rest (x : Sensor) :
    x.closeTurn = { x with phase := x.closeTurn.phase, rotation := x.closeTurn.rotation } := by
  unfold Sensor.closeTurn
  cases hp : x.phase with
  | waiting _ => simp only
  | running r =>
    simp only
    cases r.turn with
    | none => simp only
    | some t =>
      simp only
      by_cases h : t.left = 0
      · simp only [if_pos h]
      · simp only [if_neg h]

/-- R6, R10: everything that the end of a poll can do. -/
theorem endPoll_rest (x : Sensor) (accessory : Bool) :
    x.endPoll accessory = { x with
      exchange := none, arbiter := (x.endPoll accessory).arbiter, phase := (x.endPoll accessory).phase,
      rotation := (x.endPoll accessory).rotation } := by
  cases accessory
  · rfl
  · unfold Sensor.endPoll Sensor.free
    rw [if_pos rfl, closeTurn_rest x]

/-- R12: what a POLL carries, with the open bytes as State's counter gives them. -/
theorem pollFrame_body (s : State) (n : Fin 32) : PollBody s n (pollFrame s n).payload := by
  unfold PollBody pollFrame
  simp only
  cases h : (s.sensor.nodes.get n).kind with
  | probe => rfl
  | scanner =>
    simp only [pollVerdict]
    cases hv : (s.scans.mem.get n).verdict with
    | none => exact ⟨⟨_, rfl, rfl⟩, fun _ => ⟨_, rfl⟩, fun v _ e => nomatch e⟩
    | some v =>
      simp only
      by_cases hn : (s.scans.mem.get n).number = 0
      · rw [if_pos hn, hn]
        exact ⟨⟨_, rfl, rfl⟩, fun _ => ⟨_, rfl⟩, fun v h => absurd rfl h⟩
      · rw [if_neg hn]
        refine ⟨⟨_, rfl, ?_⟩, fun e => e.elim (fun e => absurd e hn) (fun e => nomatch e), fun w _ e => ?_⟩
        · cases v.outcome <;> rfl
        · cases e
          refine ⟨fun ho => by rw [ho]; exact ⟨_, _, rfl⟩, fun k ho => ?_, fun why ho => by rw [ho]; exact ⟨_, rfl⟩⟩
          rw [ho]
          cases (s.scans.mem.get n).pending <;> rfl

/-! ### Zone air -/

/-- R30: the mean is rounded to the nearest tenth, a halfway mean to the warmer. -/
theorem roundedMean_bounds (v : Int) (vs : List Int) :
    2 * (vs.length + 1 : Int) * roundedMean (v :: vs) ≤ 2 * (v :: vs).sum + (vs.length + 1) ∧
    2 * (v :: vs).sum + (vs.length + 1) < 2 * (vs.length + 1 : Int) * (roundedMean (v :: vs) + 1) := by
  unfold roundedMean
  have hl : (((v :: vs).length : Nat) : Int) = vs.length + 1 := by simp
  rw [hl]
  generalize (v :: vs).sum = sum
  have hp : (0 : Int) < 2 * (vs.length + 1) := by positivity
  generalize (2 * (vs.length + 1 : Int)) = twice at *
  generalize (vs.length + 1 : Int) = count
  have h1 := Int.mul_ediv_add_emod (2 * sum + count) twice
  have h2 := Int.emod_nonneg (2 * sum + count) (ne_of_gt hp)
  have h3 := Int.emod_lt_of_pos (2 * sum + count) hp
  rw [mul_add]
  constructor <;> linarith

/-- R97: whether a zone is served, as a statement about the doors. -/
theorem zoneServed_iff (clock : Clock) (x : Doors) (z : Fin 12) : zoneServed clock x z = true ↔
    ∃ d : Fin 4, (x.entries.get d).zones.getLsbD z.val = true ∧ serves clock (x.entries.get d) (x.rts.get d) = true := by
  unfold zoneServed
  rw [List.any_eq_true]
  simp

/-- R33, R34: everything that a step can do. -/
theorem takeStep_spec (z : Fin 12) (held new : Int) (s : State) :
    let t := takeStep z held new s
    Recorded (s.modZoneRt z (fun r => { r with stepFlag := true })) t ∧
    t.trunk.flags.get EventKind.step.index = { raised := true, subject := .zone z } ∧
    (zoneServed s.trip.clock s.doors z = true → t.journal = s.journal) ∧
    (zoneServed s.trip.clock s.doors z = false →
      t.trunk.flags.get EventKind.unexplainedStep.index = { raised := true, subject := .zone z } ∧
      Appends s t { kind := .unexplainedStep, zone := some z, v1 := tempWord held, v2 := tempWord new }) := by
  intro t
  generalize hw : s.modZoneRt z (fun r => { r with stepFlag := true }) = w
  have hwj : w.journal = s.journal := by rw [← hw]; rfl
  have hwt : w.trip = s.trip := by rw [← hw]; rfl
  have h1 := raise_raised .step (.zone z) w
  cases hz : zoneServed s.trip.clock s.doors z with
  | true =>
    have ht : t = raise .step (.zone z) w := by
      show takeStep _ _ _ _ = _
      unfold takeStep
      simp only
      rw [if_pos hz, hw]
    rw [ht]
    exact ⟨h1.recorded, raise_flag _ _ _, fun _ => h1.journal.trans hwj, fun h => nomatch h⟩
  | false =>
    have ht : t = unexplained z held new (raise .step (.zone z) w) := by
      show takeStep _ _ _ _ = _
      unfold takeStep
      simp only
      rw [if_neg (by rw [hz]; decide), hw]
    have h2 := raise_raised .unexplainedStep (.zone z) (raise .step (.zone z) w)
    have hj := h2.journal.trans (h1.journal.trans hwj)
    have hp := h2.trip.trans (h1.trip.trans hwt)
    rw [ht]
    unfold unexplained
    refine ⟨(h1.trans h2).recorded.trans (append_recorded _ _), ?_, fun h => (nomatch h), fun _ => ⟨?_, fun hl => ?_⟩⟩
    · rw [append_flag _ _ (by decide), raise_flag_ne _ _ (by decide)]
      exact raise_flag _ _ _
    · rw [append_flag _ _ (by decide)]
      exact raise_flag _ _ _
    · have ha := append_appends { kind := .unexplainedStep, zone := some z, v1 := tempWord held, v2 := tempWord new }
        (raise .unexplainedStep (.zone z) (raise .step (.zone z) w)) (by rw [hj]; exact hl)
      rw [hj, hp] at ha
      exact ha

/-- R30, R31, R33: everything that computing a zone can do, with the runtime that it leaves. -/
theorem computeZone_spec (z : Fin 12) (s : State) :
    let t := computeZone z s
    let rt := s.zones.rts.get z
    Recorded { s with zones := t.zones } t ∧ t.zones.entries = s.zones.entries ∧
    (∀ y, y ≠ z → t.zones.rts.get y = s.zones.rts.get y) ∧
    (freshValues s z = [] → t.zones.rts.get z = { rt with state := if rt.state = .live then .stale else rt.state }) ∧
    (∀ v vs, freshValues s z = v :: vs → t.zones.rts.get z =
      { state := .live, air := some (roundedMean (v :: vs)),
        stepFlag := rt.stepFlag || isStep (s.zones.entries.get z).step rt.air (roundedMean (v :: vs)) }) := by
  intro t rt
  have ht : t = computeZone z s := rfl
  unfold computeZone at ht
  simp only at ht
  cases hf : freshValues s z with
  | nil =>
    rw [hf] at ht
    simp only at ht
    by_cases hl : rt.state = .live
    · rw [if_pos hl] at ht
      have hr := raise_raised .zoneStale (.zone z) (s.modZoneRt z (fun r => { r with state := .stale }))
      rw [← ht] at hr
      refine ⟨by rw [hr.zones]; exact hr.recorded, by rw [hr.zones]; rfl, fun y hy => ?_, fun _ => ?_, fun _ _ h => nomatch h⟩
      · rw [hr.zones]; exact get_upd_ne _ hy _
      · rw [hr.zones, if_pos hl]; exact get_upd_self _ _ _
    · rw [if_neg hl] at ht
      rw [ht]
      exact ⟨Recorded.refl _, rfl, fun _ _ => rfl, fun _ => by rw [if_neg hl], fun _ _ h => nomatch h⟩
  | cons v vs =>
    rw [hf] at ht
    simp only at ht
    cases hi : isStep (s.zones.entries.get z).step (s.zones.rts.get z).air (roundedMean (v :: vs)) with
    | false =>
      rw [hi] at ht
      simp only [Bool.false_eq_true, if_false] at ht
      refine ⟨by rw [ht]; exact Recorded.refl _, by rw [ht]; rfl, fun y hy => by rw [ht]; exact get_upd_ne _ hy _,
        fun h => (nomatch h), fun a as h => ?_⟩
      cases h
      rw [ht, hi, Bool.or_false]
      exact get_upd_self _ _ _
    | true =>
      rw [hi] at ht
      simp only [if_true] at ht
      obtain ⟨hr, _⟩ := takeStep_spec z ((s.zones.rts.get z).air.getD 0) (roundedMean (v :: vs))
        (s.modZoneRt z (fun r => { r with state := .live, air := some (roundedMean (v :: vs)) }))
      rw [← ht] at hr
      refine ⟨by rw [hr.zones]; exact hr, by rw [hr.zones]; rfl, fun y hy => ?_, fun h => (nomatch h), fun a as h => ?_⟩
      · rw [hr.zones]; exact (get_upd_ne _ hy _).trans (get_upd_ne _ hy _)
      · cases h
        rw [hr.zones, hi, Bool.or_true]
        refine (get_upd_self _ _ _).trans ?_
        rw [show (State.modZoneRt s z _).zones.rts.get z = _ from get_upd_self _ _ _]

/-- R28, R29: the fresh readings depend on the sensor line, the zone entries and the clock alone. -/
theorem freshValues_congr {s t : State} (h1 : t.sensor = s.sensor) (h2 : t.zones.entries = s.zones.entries)
    (h3 : t.trip = s.trip) (z : Fin 12) : freshValues t z = freshValues s z := by
  unfold freshValues
  congr 1
  funext n
  unfold freshValue
  simp only [State.clock, h1, h2, h3]

/-- R30: what computing a list of zones leaves: each enabled one as it would be computed alone. -/
theorem foldl_zones (l : List (Fin 12)) (hl : l.Nodup) (s : State) :
    let t := l.foldl (fun s z => if (s.zones.entries.get z).enabled then computeZone z s else s) s
    Recorded { s with zones := t.zones } t ∧ t.zones.entries = s.zones.entries ∧
    (∀ z, z ∉ l ∨ (s.zones.entries.get z).enabled = false → t.zones.rts.get z = s.zones.rts.get z) ∧
    (∀ z, z ∈ l → (s.zones.entries.get z).enabled = true → t.zones.rts.get z = (computeZone z s).zones.rts.get z) := by
  induction l generalizing s with
  | nil => exact ⟨Recorded.refl _, rfl, fun _ _ => rfl, fun z h => nomatch h⟩
  | cons a l ih =>
    obtain ⟨ha, hn⟩ := List.nodup_cons.1 hl
    simp only [List.foldl_cons]
    by_cases he : (s.zones.entries.get a).enabled = true
    · rw [if_pos he]
      obtain ⟨z1, z2, z3, _⟩ := computeZone_spec a s
      obtain ⟨i1, i2, i3, i4⟩ := ih hn (computeZone a s)
      refine ⟨?_, i2.trans z2, fun z hz => ?_, fun z hz hez => ?_⟩
      · generalize List.foldl _ (computeZone a s) l = t at *
        exact Recorded.trans (b := { computeZone a s with zones := t.zones })
          ⟨z1.pending, z1.ref, z1.straps, z1.sensor, rfl, z1.engine, z1.lots, z1.doors, z1.beacons, z1.trip, z1.scans,
           z1.proofs, z1.window, z1.trunk⟩ i1
      · have hza : z ≠ a := by
          rintro rfl
          rcases hz with h | h
          · exact h (List.mem_cons_self ..)
          · rw [he] at h; exact nomatch h
        rw [i3 z (by rw [z2]; exact hz.imp (fun h hm => h (List.mem_cons_of_mem _ hm)) (fun h => h)), z3 z hza]
      · rcases List.mem_cons.1 hz with rfl | hm
        · exact i3 z (Or.inl ha)
        · have hza : z ≠ a := by rintro rfl; exact ha hm
          rw [i4 z hm (by rw [z2]; exact hez)]
          have hfv := freshValues_congr (s := s) (t := computeZone a s) z1.sensor z2 z1.trip z
          obtain ⟨_, _, _, e1, e2⟩ := computeZone_spec z (computeZone a s)
          obtain ⟨_, _, _, g1, g2⟩ := computeZone_spec z s
          cases hf : freshValues s z with
          | nil => rw [e1 (hfv.trans hf), g1 hf, z3 z hza]
          | cons v vs => rw [e2 v vs (hfv.trans hf), g2 v vs hf, z3 z hza, z2]
    · rw [if_neg he]
      obtain ⟨i1, i2, i3, i4⟩ := ih hn s
      refine ⟨i1, i2, fun z hz => i3 z (hz.imp (fun h hm => h (List.mem_cons_of_mem _ hm)) (fun h => h)), fun z hz hez => ?_⟩
      rcases List.mem_cons.1 hz with rfl | hz
      · exact absurd hez he
      · exact i4 z hz hez

/-- R30: everything that a round end's computation can do. -/
theorem computeZones_spec (s : State) :
    let t := computeZones s
    Recorded { s with zones := t.zones } t ∧ t.zones.entries = s.zones.entries ∧
    (∀ z, (s.zones.entries.get z).enabled = false → t.zones.rts.get z = s.zones.rts.get z) ∧
    (∀ z, (s.zones.entries.get z).enabled = true → t.zones.rts.get z = (computeZone z s).zones.rts.get z) := by
  have h := foldl_zones (List.finRange 12) (List.nodup_finRange 12) s
  simp only [← computeZones.eq_1] at h
  obtain ⟨h1, h2, h3, h4⟩ := h
  exact ⟨h1, h2, fun z h => h3 z (Or.inr h), fun z => h4 z (List.mem_finRange z)⟩

/-! ### Writes of a node entry (R2) -/

theorem byte_le_one {x : Byte} (h : x.toNat ≤ 1) : x = 0 ∨ x = 1 := by
  rcases Nat.le_one_iff_eq_zero_or_eq_one.1 h with h | h
  · left; exact BitVec.eq_of_toNat_eq h
  · right; exact BitVec.eq_of_toNat_eq h

theorem boolOf_le {x : Byte} (h : x.toNat ≤ 1) : boolOf x = some (decide (x = 1)) := by
  rcases byte_le_one h with rfl | rfl <;> rfl

theorem nodeKindOf_le {x : Byte} (h : x.toNat ≤ 1) : nodeKindOf x = some (if x = 0 then .probe else .scanner) := by
  rcases byte_le_one h with rfl | rfl <;> rfl

/-- R2: the policy that a policy byte and its parameter give, and whether the parameter was brought into range. -/
theorem policyOf_le {x : Byte} (p : Byte) (h : x.toNat ≤ 3) :
    policyOf x p = some (if x = 0 then .pass else if x = 1 then .everyN (max 2 (min 255 p.toNat))
        else if x = 2 then .change (max 1 (min 100 p.toNat)) else .silent,
      decide ¬((x = 1 → 2 ≤ p.toNat) ∧ (x = 2 → 1 ≤ p.toNat ∧ p.toNat ≤ 100))) := by
  have hx : x = 0 ∨ x = 1 ∨ x = 2 ∨ x = 3 := by
    have : x.toNat = 0 ∨ x.toNat = 1 ∨ x.toNat = 2 ∨ x.toNat = 3 := by omega
    rcases this with h | h | h | h
    · left; exact BitVec.eq_of_toNat_eq h
    · right; left; exact BitVec.eq_of_toNat_eq h
    · right; right; left; exact BitVec.eq_of_toNat_eq h
    · right; right; right; exact BitVec.eq_of_toNat_eq h
  have hp := p.isLt
  rcases hx with rfl | rfl | rfl | rfl
  · simp [policyOf]
  · rw [policyOf, if_neg (by decide), if_pos rfl]
    refine congrArg some (Prod.ext rfl (decide_eq_decide.2 ?_))
    rw [clamp]
    constructor
    · rintro h ⟨a, -⟩; have := a rfl; omega
    · intro h e; exact h ⟨fun _ => by omega, fun h => absurd h (by decide)⟩
  · rw [policyOf, if_neg (by decide), if_neg (by decide), if_pos rfl]
    refine congrArg some (Prod.ext rfl (decide_eq_decide.2 ?_))
    rw [clamp]
    constructor
    · rintro h ⟨-, a⟩; have := a rfl; omega
    · intro h e; exact h ⟨fun h => absurd h (by decide), fun _ => by omega⟩
  · simp [policyOf]

/-- R2: the entry that a write of values that exist gives, and whether a field was brought into range. -/
theorem nodeOf_fields (f : NodeFields) (z : Fin 12) (h1 : f.enabled.toNat ≤ 1) (h2 : f.kind.toNat ≤ 1)
    (h3 : f.zone = BitVec.ofNat 8 (z.val + 1)) (h4 : f.policy.toNat ≤ 3) :
    nodeOf f = some
      ({ enabled := decide (f.enabled = 1), address := f.address, kind := if f.kind = 0 then .probe else .scanner, zone := z,
         offset := max (-50) (min 50 f.offset.toInt), dwell := max 1 (min 4 f.dwell.toNat),
         policy := if f.policy = 0 then .pass else if f.policy = 1 then .everyN (max 2 (min 255 f.policyParam.toNat))
           else if f.policy = 2 then .change (max 1 (min 100 f.policyParam.toNat)) else .silent,
         aliasAddr := f.aliasAddr, lostLimit := max 1 (min 15 f.lostLimit.toNat) },
       decide ¬((-50 ≤ f.offset.toInt ∧ f.offset.toInt ≤ 50) ∧ (1 ≤ f.dwell.toNat ∧ f.dwell.toNat ≤ 4) ∧
        (1 ≤ f.lostLimit.toNat ∧ f.lostLimit.toNat ≤ 15) ∧ (f.policy = 1 → 2 ≤ f.policyParam.toNat) ∧
        (f.policy = 2 → 1 ≤ f.policyParam.toNat ∧ f.policyParam.toNat ≤ 100))) := by
  unfold nodeOf
  rw [boolOf_le h1, nodeKindOf_le h2, h3, zoneOf_number, policyOf_le _ h4]
  simp only [Option.some.injEq, Prod.mk.injEq]
  refine ⟨rfl, ?_⟩
  rw [← Bool.decide_or]
  apply decide_eq_decide.2
  unfold clamp clampInt
  constructor
  · rintro (h | h) ⟨a, b, c, d⟩
    · exact h d
    · omega
  · intro h
    by_contra hx
    rw [not_or, not_not] at hx
    refine h ⟨?_, ?_, ?_, hx.1⟩ <;> omega

/-- R2: an entry whose address and alias exist and are no other enabled entry's is taken. -/
theorem node_taken (f : NodeFields) (nodes : Vector NodeEntry 32) (n : Fin 32) (e : NodeEntry)
    (he : e.enabled = decide (f.enabled = 1)) (hd : e.address = f.address) (hn : e.aliasAddr = f.aliasAddr) (h1 : f.address.toNat ≤ 62) (h2 : f.enabled = 1 → f.address ≠ 0)
    (h3 : ∀ a, f.aliasAddr = some a → 0x80 ≤ a.toNat ∧ a.toNat ≤ 0xBF)
    (h4 : f.enabled = 1 → ∀ m : Fin 32, m ≠ n → (nodes.get m).enabled = true →
      (nodes.get m).address ≠ f.address ∧ ∀ a, f.aliasAddr = some a → (nodes.get m).aliasAddr ≠ some a) :
    nodeNames e = true ∧ nodeClash nodes n e = false := by
  constructor
  · unfold nodeNames
    rw [he, hd, hn]
    simp only [Bool.and_eq_true, Bool.or_eq_true, decide_eq_true_eq, Bool.not_eq_true', decide_eq_false_iff_not]
    refine ⟨⟨h1, ?_⟩, ?_⟩
    · by_cases hx : f.enabled = 1
      · right
        have := h2 hx
        rw [ne_eq, BitVec.toNat_eq] at this
        have : f.address.toNat ≠ 0 := this
        omega
      · exact Or.inl hx
    · cases ha : f.aliasAddr with
      | none => rfl
      | some a => exact decide_eq_true (h3 a ha)
  · unfold nodeClash
    rw [he, hd, hn]
    by_cases hx : f.enabled = 1
    · rw [Bool.and_eq_false_iff]
      right
      rw [List.any_eq_false]
      intro m _ hm
      simp only [Bool.and_eq_true, Bool.or_eq_true, decide_eq_true_eq] at hm
      obtain ⟨⟨q1, q2⟩, q3⟩ := hm
      obtain ⟨q4, q5⟩ := h4 hx m q1 q2
      rcases q3 with q3 | ⟨q3, q6⟩
      · exact q4 q3
      · obtain ⟨a, ha⟩ := Option.isSome_iff_exists.1 q3
        exact q5 a ha (q6.trans ha)
    · rw [decide_eq_false hx]; rfl

/-! ### The end of a round -/

/-- R7, R9, R10, R11: with no turn in progress a round has nothing left to poll exactly when its walk has ended and no turn
is owed to a scanner. -/
theorem plan_roundEnd_iff (x : Sensor) (r : Round) (h : r.turn = none) :
    x.plan r = .roundEnd ↔ (r.walkEnded = true ∨ ∀ m, x.walkPolls r m = false) ∧
      ¬(x.rotation ≠ [] ∧ (r.count = 4 ∨ (r.walkEnded = false ∧ ((1 ≤ r.count ∧ r.count ≤ 3) ∨ r.polled = false)))) := by
  have hw : ∀ c : Nat, (List.finRange 32).find? (x.walkPolls { r with count := c }) = (List.finRange 32).find? (x.walkPolls r) :=
    fun c => rfl
  have walk : ∀ c : Nat, x.planWalk { r with count := c } = .roundEnd ↔ (r.walkEnded = true ∨ ((∀ m, x.walkPolls r m = false) ∧
      ¬(x.rotation ≠ [] ∧ ((1 ≤ c ∧ c ≤ 3) ∨ r.polled = false)))) := fun c => by
    unfold Sensor.planWalk
    rw [hw]
    dsimp only
    cases hwe : r.walkEnded
    · simp only [Bool.false_eq_true, if_false, false_or]
      cases hf : (List.finRange 32).find? (x.walkPolls r) with
      | some n =>
        have := List.find?_some hf
        simp only [reduceCtorEq, false_iff]
        exact fun h => by rw [h.1 n] at this; exact nomatch this
      | none =>
        have : ∀ m, x.walkPolls r m = false := by simpa using hf
        simp only [this, implies_true, true_and, Sensor.planEnd, Sensor.planTurn]
        cases x.rotation with
        | nil => simp
        | cons n rest => simp only; split_ifs with hh <;> simp [hh]
    · simp
  unfold Sensor.plan
  rw [h]
  by_cases hc : r.count = 4
  · simp only [hc, if_true]
    unfold Sensor.planTurn
    cases hrot : x.rotation with
    | nil =>
      have w0 := walk 0
      rw [h] at w0
      simp [w0, hrot]
    | cons n rest => simp
  · simp only [hc, if_false, false_or]
    have := walk r.count
    rw [show { r with count := r.count } = r from rfl] at this
    rw [this]
    cases r.walkEnded <;> simp

/-- R7: an entry that the walk passes over. -/
theorem walkPolls_false (x : Sensor) (r : Round) (m : Fin 32) : x.walkPolls r m = false ↔
    (m.val < r.walked ∨ (x.nodes.get m).enabled = false ∨ (x.nodes.get m).kind = .scanner ∨
      (x.roundNo ≠ 0 ∧ (x.rts.get m).state = .lost)) := by
  have hk : (x.nodes.get m).kind = .scanner ↔ ¬(x.nodes.get m).kind = .probe := by cases (x.nodes.get m).kind <;> simp
  rw [hk]
  cases he : (x.nodes.get m).enabled <;> simp [Sensor.walkPolls, he, imp_iff_not_or, or_assoc]

/-- R11: when a poll is in flight. -/
theorem polling_iff (x : Sensor) : polling x = true ↔ ∃ n accessory sent windowEnd, x.exchange = some (.poll n accessory sent windowEnd) := by
  unfold polling
  constructor
  · split
    · next h => exact fun _ => ⟨_, _, _, _, h⟩
    · exact fun h => nomatch h
  · rintro ⟨n, a, f, w, h⟩
    rw [h]

/-! ### The line when an exchange has ended (R6) -/

/-- R6, R7, R9, R10: when a scheduled poll is due. -/
theorem pollDue_iff (x : Sensor) : x.pollDue = true ↔ PollAwaits x := by
  have walks (r : Round) (m : Fin 32) : x.walkPolls r m = true ↔ (r.walked ≤ m.val ∧ (x.nodes.get m).enabled = true ∧
      (x.nodes.get m).kind = .probe ∧ (x.roundNo = 0 ∨ (x.rts.get m).state ≠ .lost)) := by
    simp [Sensor.walkPolls, and_assoc]
  have walk (r : Round) : x.planWalk r ≠ .roundEnd ↔ (r.walkEnded = false ∧ ((∃ m, x.walkPolls r m = true) ∨
      (x.rotation ≠ [] ∧ ((1 ≤ r.count ∧ r.count ≤ 3) ∨ r.polled = false)))) := by
    unfold Sensor.planWalk
    cases hwe : r.walkEnded with
    | true => simp
    | false =>
      simp only [Bool.false_eq_true, if_false, true_and]
      cases hf : (List.finRange 32).find? (x.walkPolls r) with
      | some n =>
        have := List.find?_some hf
        simp only [ne_eq, reduceCtorEq, not_false_eq_true, true_iff]
        exact Or.inl ⟨n, this⟩
      | none =>
        have hn : ∀ m, x.walkPolls r m = false := by simpa using hf
        simp only [hn, Bool.false_eq_true, exists_false, false_or, Sensor.planEnd, Sensor.planTurn]
        cases x.rotation with
        | nil => simp
        | cons n rest => simp only; split_ifs with hh <;> simp [hh]
  unfold Sensor.pollDue PollAwaits
  cases hp : x.phase with
  | waiting t => simp
  | running r =>
    simp only [decide_eq_true_eq, RoundPhase.running.injEq, exists_eq_left']
    simp only [← walks]
    unfold Sensor.plan
    cases ht : r.turn with
    | some t =>
      simp only [Option.some.injEq, exists_eq_left', reduceCtorEq, false_and, false_or]
      by_cases hl : 0 < t.left
      · simp [hl]
      · rw [if_neg hl, walk]
        simp only [hl, false_or]
        tauto
    | none =>
      simp only [reduceCtorEq, false_and, exists_false, false_or, true_and]
      by_cases hc : r.count = 4
      · simp only [hc, if_true, true_or, and_true]
        unfold Sensor.planTurn
        cases hrot : x.rotation with
        | nil =>
          have w0 := walk { r with count := 0 }
          rw [ht] at w0
          simp only [hrot] at w0
          simp only [ne_eq, not_true_eq_false, false_and, or_false] at w0 ⊢
          exact w0
        | cons n rest => simp
      · simp only [hc, if_false, false_or]
        rw [walk]
        tauto

/-- R6: what the arbiter holds when an exchange has ended. -/
theorem free_lineFree (x : Sensor) (ended : Arbiter) : LineFree ended x (x.free ended).arbiter := by
  have hd : ({ x with exchange := none } : Sensor).pollDue = x.pollDue := rfl
  unfold Sensor.free
  simp only [hd]
  refine ⟨fun hq hp => ?_, fun h => ?_⟩
  · rw [if_pos]
    exact ⟨by rw [hq]; rfl, by rw [← Bool.not_eq_true, pollDue_iff]; exact hp⟩
  · rw [if_neg]
    rintro ⟨hq, hp⟩
    rcases h with h | h
    · exact h (List.isEmpty_iff.1 hq)
    · rw [← pollDue_iff, hp] at h; exact nomatch h

/-- R6, R10: the end of a poll: an accessory turn ends with its last poll, and the arbiter chooses anew. -/
theorem endPoll_ended (x : Sensor) (accessory : Bool) : PollEnded accessory x (x.endPoll accessory) := by
  refine ⟨?_, fun h => by subst h; exact ⟨rfl, rfl⟩, fun r t h hp ht => ?_⟩
  · unfold Sensor.endPoll
    have h := free_lineFree (if accessory = true then x.closeTurn else x) .pollEnded
    generalize hy : (if accessory = true then x.closeTurn else x) = y at h ⊢
    have hr : y = { x with phase := y.phase, rotation := y.rotation } := by
      rw [← hy]
      split
      · exact closeTurn_rest x
      · rfl
    have e1 : (y.free .pollEnded).phase = y.phase := rfl
    have e2 : (y.free .pollEnded).rotation = y.rotation := rfl
    rw [e1, e2, ← hr]
    exact h
  subst h
  unfold Sensor.endPoll Sensor.free
  rw [if_pos rfl]
  unfold Sensor.closeTurn
  rw [hp]
  simp only [ht]
  refine ⟨fun hl => ?_, fun hl => ?_⟩
  · rw [if_neg hl]; exact ⟨hp, rfl⟩
  · rw [if_pos hl]; exact ⟨rfl, fun rest hr => by rw [hr]; exact if_pos rfl⟩

end Sys2Proof.Machine
end

