-- ==== Sys2Proof/Laws/Doors.lean ====
section
/-! SUPPORT. What an edge, an opening and a closing of a door leave, and a door write's fields, in the terms of the
statements (spec 05 R86, R87, R94, R95). -/

namespace Sys2Proof.Machine

/-- R87: a line whose change has not held its time stays. -/
theorem settleLine_waits (d : Fin 4) (s : State) (h : debounceHeld s d = false) : settleLine d s = s := by
  unfold settleLine
  rw [h]
  exact if_neg (by decide)

/-- R94: everything that an opening of a door that is not Open can do. -/
theorem openDoor_spec (d : Fin 4) (s : State) (hc : (s.doors.rts.get d).state ≠ .opened) :
    let r := s.doors.rts.get d
    let opened : DoorRt :=
      { r with state := .opened, lastOpen := some s.trip.clock, openSince := some s.trip.clock, stretchAt := some s.ref,
               openings := if s.trip.record.state.stop.isSome then min 65535 (r.openings + 1) else r.openings }
    let u : State := { s with doors := { s.doors with rts := s.doors.rts.set d.val opened d.isLt } }
    Recorded u (openDoor d s) ∧
    Appends u (openDoor d s)
      { kind := .doorOpen, zones := some (s.doors.entries.get d).zones, door := some d, v1 := if authorized s.trip d then 1 else 0,
        v2 := match s.trip.record.state.stop with | some k => BitVec.ofNat 32 k.val | none => 255 } ∧
    (authorized s.trip d = false →
      (openDoor d s).trunk.flags.get EventKind.doorUnauthorized.index = { raised := true, subject := .door d }) := by
  intro r opened u
  generalize hx : (({
      kind := .doorOpen, zones := some (s.doors.entries.get d).zones, door := some d, v1 := if authorized s.trip d then 1 else 0,
      v2 := match s.trip.record.state.stop with | some k => BitVec.ofNat 32 k.val | none => 255 }) : Draft) = x
  have hu : s.modDoorRt d (fun r => r.opening s.clock s.ref s.trip.record.state.stop.isSome) = u := by
    unfold State.modDoorRt upd
    simp only [DoorRt.opening, if_neg hc]
    rfl
  have ho : openDoor d s = if authorized s.trip d then append x u else raise .doorUnauthorized (.door d) (append x u) := by
    unfold openDoor
    simp only
    rw [hu, ← hx]
    cases s.trip.record.state.stop <;> rfl
  have h1 := append_recorded x u
  have h2 := append_appends x u
  rw [ho]
  cases authorized s.trip d with
  | true => exact ⟨h1, h2, fun h => nomatch h⟩
  | false =>
    have h3 := raise_raised .doorUnauthorized (.door d) (append x u)
    refine ⟨h1.trans h3.recorded, ?_, fun _ => raise_flag _ _ _⟩
    unfold Appends
    rw [if_neg (by decide), h3.journal]
    exact h2

/-- R95, R138: everything that a closing of an Open door can do. -/
theorem closeDoor_spec (d : Fin 4) (s : State) (start : Nat) (since : Clock) :
    let r := s.doors.rts.get d
    let e := s.doors.entries.get d
    let within := if s.trip.record.state.stop.isSome then (s.ref - max start s.trip.visitStart) / 1000 else 0
    r.stretchAt = some start → r.openSince = some since → (s.ref - start) / 1000 < 4294967296 →
    r.openSeconds.toNat + within < 4294967296 →
    let closed : DoorRt :=
      { r with state := .closed, lastClose := some s.trip.clock, openSince := none, stretchAt := none, openUntil := none,
               recoveryAt := some (BitVec.ofNat 32 (min 4294967295 (s.trip.clock.toNat + e.recovery))),
               openSeconds := BitVec.ofNat 32 (r.openSeconds.toNat + within) }
    Closed e.zones { kind := .doorClose, zones := some e.zones, door := some d, v1 := BitVec.ofNat 32 ((s.ref - start) / 1000), v2 := since }
      { s with doors := { s.doors with rts := s.doors.rts.set d.val closed d.isLt } } (closeDoor d s) := by
  intro r e within h2 h3 h4 h5 closed
  have h := closeDoor_closed d s
  rw [show (s.doors.rts.get d) = r from rfl] at h
  simp only [stretchInVisit, stretchSeconds, h2, h3, Option.getD_some] at h
  rw [countWord_eq h4] at h
  have hm : s.modDoorRt d (fun r => r.closing s.clock e.recovery within)
      = { s with doors := { s.doors with rts := s.doors.rts.set d.val closed d.isLt } } := by
    unfold State.modDoorRt upd
    simp only [DoorRt.closing, deadline_eq, State.clock]
    rw [countWord_eq h5]
  rw [← hm]
  exact h

/-- What a closing leaves, with the doors written again after it. -/
theorem Closed.written {zones : ZoneSet} {x : Draft} {s t : State} (h : Closed zones x s t) (doors : Doors) :
    Closed zones x { s with doors := doors } { t with doors := doors } := by
  obtain ⟨a, _, lots, others, entries⟩ := h
  exact ⟨⟨a.pending, a.ref, a.straps, a.sensor, a.zones, a.engine, rfl, a.beacons, a.clock, a.unsynced, a.stops, a.visit,
    a.scans, a.acks, a.window, a.trunk⟩, rfl, lots, others, entries⟩

/-! ### Lines (R87) -/

/-- Door runtimes that hold the same of their line: its level, the debounced level and the change being timed. -/
def DoorRt.sameLine (a b : DoorRt) : Prop := b.line = a.line ∧ b.level = a.level ∧ b.changedAt = a.changedAt

/-- R87, R94: an opening leaves the line of the door. -/
theorem openDoor_line (d : Fin 4) (s : State) : (s.doors.rts.get d).sameLine ((openDoor d s).doors.rts.get d) := by
  have h : (openDoor d s).doors = (s.modDoorRt d (fun r => r.opening s.clock s.ref s.trip.record.state.stop.isSome)).doors := by
    unfold openDoor
    simp only
    split
    · exact (append_recorded _ _).doors
    · rw [(raise_raised _ _ _).doors]; exact (append_recorded _ _).doors
  rw [h]
  simp only [State.modDoorRt, get_upd_self]
  unfold DoorRt.opening
  split <;> exact ⟨rfl, rfl, rfl⟩

/-- R87, R95: a closing leaves the line of the door. -/
theorem closeDoor_line (d : Fin 4) (s : State) : (s.doors.rts.get d).sameLine ((closeDoor d s).doors.rts.get d) := by
  unfold closeDoor
  simp only
  rw [show ∀ z x, (sealByDoor z x).doors = x.doors from fun z x => sealLots_doors _ _ x, (append_recorded _ _).doors]
  simp only [State.modDoorRt, get_upd_self]
  exact ⟨rfl, rfl, rfl⟩

/-- R87, R90: the breaking of a seal leaves the line of the door. -/
theorem breakSeal_line (d : Fin 4) (s : State) : (s.doors.rts.get d).sameLine ((breakSeal d s).doors.rts.get d) := by
  unfold breakSeal
  simp only
  rw [(append_recorded _ _).doors, (raise_raised _ _ _).doors]
  simp only [State.modDoorRt, get_upd_self]
  exact ⟨rfl, rfl, rfl⟩

/-- R87: after an edge the debounced level is the line's, and no change is timed. -/
theorem edge_line (d : Fin 4) (s : State) :
    ((edge d s).doors.rts.get d).line = (s.doors.rts.get d).line ∧ ((edge d s).doors.rts.get d).level = (s.doors.rts.get d).line ∧
    ((edge d s).doors.rts.get d).changedAt = none := by
  have base : ((s.modDoorRt d (fun r => { r with level := r.line, changedAt := none })).doors.rts.get d) =
      { s.doors.rts.get d with level := (s.doors.rts.get d).line, changedAt := none } := by
    simp only [State.modDoorRt, get_upd_self]
  have key : ∀ x : DoorRt, DoorRt.sameLine ((s.modDoorRt d (fun r => { r with level := r.line, changedAt := none })).doors.rts.get d) x →
      x.line = (s.doors.rts.get d).line ∧ x.level = (s.doors.rts.get d).line ∧ x.changedAt = none := fun x h => by
    rw [base] at h; exact h
  apply key
  unfold edge
  simp only
  split
  · unfold judgeContact
    simp only
    split <;> split <;> first | exact ⟨rfl, rfl, rfl⟩ | exact openDoor_line _ _ | exact closeDoor_line _ _
  · split
    · have := openDoor_line d (s.modDoorRt d (fun r => { r with level := r.line, changedAt := none }))
      generalize openDoor d (s.modDoorRt d (fun r => { r with level := r.line, changedAt := none })) = u at this ⊢
      simp only [State.modDoorRt, get_upd_self] at this ⊢
      exact this
    · exact ⟨rfl, rfl, rfl⟩
  · split
    · exact breakSeal_line _ _
    · exact ⟨rfl, rfl, rfl⟩
  · exact ⟨rfl, rfl, rfl⟩
  · exact ⟨rfl, rfl, rfl⟩

/-! ### Writes of a door entry (R86) -/

/-- R86: the debounce written is the nearest multiple of 10 up to 250, from halfway the greater. -/
theorem nearestDebounce_spec (n : Nat) :
    (10 ∣ nearestDebounce n ∧ nearestDebounce n ≤ 250) ∧
    (∀ q : Nat, 10 ∣ q → q ≤ 250 → ((nearestDebounce n : Int) - n).natAbs ≤ ((q : Int) - n).natAbs) ∧
    (n % 10 = 5 → n < 250 → nearestDebounce n = n + 5) := by
  unfold nearestDebounce
  refine ⟨?_, fun q h1 h2 => ?_, fun h1 h2 => ?_⟩ <;> omega

theorem doorModeOf_le {x : Byte} (h : x.toNat ≤ 4) :
    doorModeOf x = some (if x = 0 then .off else if x = 1 then .contact else if x = 2 then .seal
      else if x = 3 then .count else .inhibit) := by
  have hx : x = 0 ∨ x = 1 ∨ x = 2 ∨ x = 3 ∨ x = 4 := by
    have : x.toNat = 0 ∨ x.toNat = 1 ∨ x.toNat = 2 ∨ x.toNat = 3 ∨ x.toNat = 4 := by omega
    rcases this with h | h | h | h | h
    · left; exact BitVec.eq_of_toNat_eq h
    · right; left; exact BitVec.eq_of_toNat_eq h
    · right; right; left; exact BitVec.eq_of_toNat_eq h
    · right; right; right; left; exact BitVec.eq_of_toNat_eq h
    · right; right; right; right; exact BitVec.eq_of_toNat_eq h
  rcases hx with rfl | rfl | rfl | rfl | rfl <;> rfl

theorem polarityOf_le {x : Byte} (h : x.toNat ≤ 1) : polarityOf x = some (if x = 0 then .highIsOpen else .lowIsOpen) := by
  rcases byte_le_one h with rfl | rfl <;> rfl

/-- R86: the entry that a write of values that exist gives, and whether a field was brought into range. -/
theorem doorEntryOf_fields (f : DoorFields) (h1 : f.mode.toNat ≤ 4) (h2 : f.polarity.toNat ≤ 1) (h3 : f.zones.toNat < 4096) :
    doorEntryOf f = some
      ({ mode := if f.mode = 0 then .off else if f.mode = 1 then .contact else if f.mode = 2 then .seal
           else if f.mode = 3 then .count else .inhibit,
         polarity := if f.polarity = 0 then .highIsOpen else .lowIsOpen, debounce := nearestDebounce f.debounce.toNat,
         zones := f.zones.setWidth 12, recovery := min 900 f.recovery.toNat, assumed := max 1 (min 600 f.assumed.toNat) },
       decide ¬(nearestDebounce f.debounce.toNat = f.debounce.toNat ∧ f.recovery.toNat ≤ 900 ∧
         (1 ≤ f.assumed.toNat ∧ f.assumed.toNat ≤ 600))) := by
  unfold doorEntryOf
  rw [doorModeOf_le h1, polarityOf_le h2, maskOf_some (n := 12) h3]
  simp only [Option.some.injEq, Prod.mk.injEq]
  refine ⟨by simp only [clamp, Nat.zero_max], decide_eq_decide.2 ?_⟩
  unfold clamp
  constructor
  · rintro h ⟨a, b, c⟩; omega
  · intro h; by_contra hx; apply h; omega

end Sys2Proof.Machine
end

