-- ==== Sys2Proof/Laws/Lots.lean ====
section
/-! SUPPORT. What the seals, the conversions, the emptying of the proof list and an update event leave of every lot
(spec 03 R45 to R58; spec 04 R78, R79; spec 08 R152, R156). -/

namespace Sys2Proof.Machine

/-- Lot entries that differ in their gap count alone. -/
def Gapped (a b : LotEntry) : Prop := b = { a with gaps := b.gaps }

theorem Gapped.refl (a : LotEntry) : Gapped a a := rfl

theorem Gapped.trans {a b c : LotEntry} (h : Gapped a b) (g : Gapped b c) : Gapped a c := by
  unfold Gapped at *
  rw [g, h]

theorem Gapped.marked {a b : LotEntry} (h : Gapped a b) : Marked a b := by
  unfold Gapped at h
  unfold Marked
  rw [h]

theorem Recorded.gapped {s t : State} (h : Recorded s t) (i : Fin 96) : Gapped (s.lots.get i) (t.lots.get i) := h.lots i

/-! ### Operations that write a lot and append one entry (R78, R79) -/

/-- What writing the lots that a test picks, each with one entry told to the journal, does. -/
theorem append_each {g : State → Fin 96 → State} {Env : State → Prop} (p : LotEntry → Bool) (f : LotEntry → LotEntry)
    (d : LotEntry → Draft) (hp : ∀ a b, Gapped a b → p b = p a ∧ Gapped (f a) (f b) ∧ d b = d a)
    (hg : ∀ s i, Env s → g s i = if p (s.lots.get i) then append (d (s.lots.get i)) (s.modLot i f) else s)
    (he : ∀ s t : State, Env s → t.trip = s.trip → Env t) :
    Each g Env Gapped (fun _ a b => if p a then Gapped (f a) b else Gapped a b) (fun _ a _ => if p a then [d a] else []) := by
  have trip : ∀ s i, Env s → (g s i).trip = s.trip := fun s i h => by
    rw [hg s i h]
    split
    · exact (append_recorded _ _).trip
    · rfl
  refine ⟨Gapped.refl, Gapped.trans, fun {i a b c} h r => ?_, fun {i a b c} r h => ?_, fun s i h => he s _ h (trip s i h),
    fun s i h => ?_, fun s i h => ?_, fun s i j h hj => ?_, fun s i h => ?_⟩
  · rw [(hp a b h).1] at r ⊢
    refine ⟨?_, by simp only [(hp a b h).2.2]⟩
    split at r
    · rename_i hq; rw [if_pos hq]; exact (hp a b h).2.1.trans r
    · rename_i hq; rw [if_neg hq]; exact h.trans r
  · refine ⟨?_, rfl⟩
    split at r
    · rename_i hq; rw [if_pos hq]; exact Gapped.trans r h
    · rename_i hq; rw [if_neg hq]; exact Gapped.trans r h
  · rw [trip s i h]; exact ⟨rfl, rfl⟩
  · rw [hg s i h]
    split
    · refine Gapped.trans ?_ ((append_recorded _ _).gapped i)
      simp only [State.modLot, get_upd_self]
      exact Gapped.refl _
    · exact Gapped.refl _
  · rw [hg s i h]
    split
    · refine Gapped.trans ?_ ((append_recorded _ _).gapped j)
      simp only [State.modLot, get_upd_ne _ hj]
      exact Gapped.refl _
    · exact Gapped.refl _
  · rw [hg s i h]
    split
    · exact (append_tells (d (s.lots.get i)) (s.modLot i f)).congr rfl ⟨rfl, rfl⟩ rfl
    · exact Tells.of_eq rfl

/-- R78: what the Short conversion leaves. -/
theorem shortAll_lots (stop : Nat) (s : State) :
    let t := shortAll stop s
    (∀ i, (s.lots.get i).state = .expected →
      Gapped { s.lots.get i with state := .short, retention := some (retentionDeadline s.trip) } (t.lots.get i)) ∧
    (∀ i, (s.lots.get i).state ≠ .expected → Gapped (s.lots.get i) (t.lots.get i)) ∧
    Tells s t ((List.finRange 96).flatMap fun i => if (s.lots.get i).state = .expected then
      [{ kind := .short, lot := some (s.lots.get i).lot, zone := some (s.lots.get i).zone, v1 := natWord stop }] else []) := by
  have h := append_each (g := fun s i => if (s.lots.get i).state = .expected then makeShort stop i s else s)
    (Env := fun t => t.trip = s.trip) (fun l => decide (l.state = .expected))
    (fun l => { l with state := .short, retention := some (retentionDeadline s.trip) })
    (fun l => { kind := .short, lot := some l.lot, zone := some l.zone, v1 := natWord stop })
    (fun a b hm => by unfold Gapped at hm; rw [hm]; exact ⟨rfl, rfl, rfl⟩)
    (fun t i ht => by simp only [decide_eq_true_eq, makeShort, ht]) (fun _ _ h1 h2 => h2.trans h1)
  obtain ⟨-, -, h1, -, h2⟩ := h.foldl (List.finRange 96) (List.nodup_finRange 96) s rfl
  simp only [decide_eq_true_eq] at h1 h2
  refine ⟨fun i hi => ?_, fun i hi => ?_, h2⟩
  · have := h1 i (List.mem_finRange i); rw [if_pos hi] at this; exact this
  · have := h1 i (List.mem_finRange i); rw [if_neg hi] at this; exact this

/-- R79: what the Returned conversion leaves. -/
theorem returnAll_lots (s : State) :
    let t := returnAll s
    (∀ i, (s.lots.get i).state = .onBoard →
      Gapped { s.lots.get i with state := .returned, retention := some (retentionDeadline s.trip) } (t.lots.get i)) ∧
    (∀ i, (s.lots.get i).state ≠ .onBoard → Gapped (s.lots.get i) (t.lots.get i)) ∧
    Tells s t ((List.finRange 96).flatMap fun i => if (s.lots.get i).state = .onBoard then
      [{ kind := .returned, lot := some (s.lots.get i).lot, zone := some (s.lots.get i).zone,
         v1 := natWord (s.lots.get i).grade.number, v2 := natWord (shown (s.lots.get i).total) }] else []) := by
  have h := append_each (g := fun s i => if (s.lots.get i).state = .onBoard then makeReturned i s else s)
    (Env := fun t => t.trip = s.trip) (fun l => decide (l.state = .onBoard))
    (fun l => { l with state := .returned, retention := some (retentionDeadline s.trip) })
    (fun l => { kind := .returned, lot := some l.lot, zone := some l.zone, v1 := natWord l.grade.number, v2 := natWord (shown l.total) })
    (fun a b hm => by unfold Gapped at hm; rw [hm]; exact ⟨rfl, rfl, rfl⟩)
    (fun t i ht => by simp only [decide_eq_true_eq, makeReturned, ht]) (fun _ _ h1 h2 => h2.trans h1)
  obtain ⟨-, -, h1, -, h2⟩ := h.foldl (List.finRange 96) (List.nodup_finRange 96) s rfl
  simp only [decide_eq_true_eq] at h1 h2
  refine ⟨fun i hi => ?_, fun i hi => ?_, h2⟩
  · have := h1 i (List.mem_finRange i); rw [if_pos hi] at this; exact this
  · have := h1 i (List.mem_finRange i); rw [if_neg hi] at this; exact this

/-! ### The proof list (R152, R156) -/

/-- R152: what adding a proof leaves of the list, and the marks of the lots that it drops from it. -/
theorem addProof_list (p : ProofItem) (s : State) :
    ∃ dropped, s.proofs.list ++ [p] = dropped ++ (addProof p s).proofs.list ∧ (s.proofs.list.length < 16 → dropped = []) ∧
      dropped.length ≤ s.proofs.list.length ∧
      ∀ j, ((addProof p s).lots.get j).unconfirmed = ((s.lots.get j).unconfirmed || dropped.any fun q => q.index == j) := by
  unfold addProof
  by_cases h1 : s.proofs.list.length < Config.proofCap
  · simp only [h1, if_true]
    exact ⟨[], rfl, fun _ => rfl, Nat.zero_le _, fun j => by simp⟩
  · simp only [h1, if_false]
    have hc : ¬ s.proofs.list.length < 16 := h1
    cases h2 : s.proofs.list with
    | nil => rw [h2] at hc; exact absurd (by decide) hc
    | cons old rest =>
      have hr := raise_raised .proofUnconfirmed (.lot old.lot)
        (State.modLot { s with proofs := { s.proofs with list := rest } } old.index (fun l => { l with unconfirmed := true }))
      refine ⟨[old], ?_, fun h => absurd (h2 ▸ h) hc, by simp, fun j => ?_⟩
      · show _ = [old] ++ ((raise _ _ _).proofs.list ++ [p])
        rw [hr.proofs]
        rfl
      · show ((raise _ _ _).lots.get j).unconfirmed = _
        rw [hr.lots]
        simp only [State.modLot, get_upd, List.any_cons, List.any_nil, Bool.or_false]
        by_cases hj : j = old.index
        · subst hj; simp
        · rw [if_neg hj, beq_eq_false_iff_ne.2 (Ne.symm hj), Bool.or_false]

/-- R149, R152: what the seal of a lot in Handover leaves of the list. -/
theorem sealLot_list (c : SealCause) (i : Fin 96) (s : State) (hs : (s.lots.get i).state = .handover)
    (hh : (s.lots.get i).handover ≠ none) :
    ∃ (dropped : List ProofItem) (p : ProofItem), p.index = i ∧ p.lot = (s.lots.get i).lot ∧
      s.proofs.list ++ [p] = dropped ++ (sealLot c i s).proofs.list ∧ (s.proofs.list.length < 16 → dropped = []) ∧
      dropped.length ≤ s.proofs.list.length ∧
      ∀ j, ((sealLot c i s).lots.get j).unconfirmed = ((s.lots.get j).unconfirmed || dropped.any fun q => q.index == j) := by
  obtain ⟨h, hh⟩ := Option.ne_none_iff_exists'.1 hh
  unfold sealLot
  simp only [hs, hh]
  generalize hs1 : (append _ _) = s2
  generalize hp : (ProofItem.mk _ _ _ _ _) = p
  obtain ⟨dropped, d1, d2, d3, d4⟩ := addProof_list p s2
  have e1 : s2.proofs = s.proofs := by rw [← hs1, (append_recorded _ _).proofs]; rfl
  have e2 : ∀ j, (s2.lots.get j).unconfirmed = (s.lots.get j).unconfirmed := fun j => by
    rw [← hs1, (append_recorded _ _).lots j]
    simp only [State.modLot, get_upd]
    split
    · next h => subst h; rfl
    · rfl
  rw [e1] at d1 d2 d3
  refine ⟨dropped, p, by rw [← hp], by rw [← hp], ?_, d2, d3, fun j => ?_⟩
  · rw [(hand_sent _ _).proofs]; exact d1
  · rw [(hand_sent _ _).lots, d4 j, e2 j]

/-- R138, R140, R152: what sealing one lot after another leaves of the list. -/
theorem foldl_seal_list (c : SealCause) (pick : LotEntry → Bool) (hp : ∀ a b, Marked a b → pick b = pick a) (l : List (Fin 96))
    (hn : l.Nodup) (s : State) :
    let t := l.foldl (fun s i => if pick (s.lots.get i) then sealLot c i s else s) s
    let taken := l.filter fun i => sealable pick (s.lots.get i)
    ∃ dropped items : List ProofItem, items.map ProofItem.index = taken ∧
      items.map ProofItem.lot = taken.map (fun i => (s.lots.get i).lot) ∧ s.proofs.list ++ items = dropped ++ t.proofs.list ∧
      (s.proofs.list.length + taken.length ≤ 16 → dropped = []) ∧ (s.proofs.list ++ items ≠ [] → t.proofs.list ≠ []) ∧
      ∀ j, (t.lots.get j).unconfirmed = ((s.lots.get j).unconfirmed || dropped.any fun q => q.index == j) := by
  induction l generalizing s with
  | nil => exact ⟨[], [], rfl, rfl, by simp, fun _ => rfl, fun h => by simpa using h, fun j => by simp⟩
  | cons a l ih =>
    obtain ⟨ha, hn⟩ := List.nodup_cons.1 hn
    simp only [List.foldl_cons]
    rw [sealLot_step c pick s a]
    by_cases hq : sealable pick (s.lots.get a) = true
    · rw [if_pos hq, List.filter_cons_of_pos (by exact hq)]
      have ht := ((sealable_iff _ _).1 hq).2
      obtain ⟨d, p, p1, p2, p3, p4, p5, p6⟩ := sealLot_list c a s ht.1 ht.2
      have hm := (sealLot_lots c a s ht.1 ht.2).2.1
      obtain ⟨d', ps, q1, q2, q3, q4, q6, q5⟩ := ih hn (sealLot c a s)
      have hne : ∀ i ∈ l, i ≠ a := fun i hi e => ha (e ▸ hi)
      have hf : l.filter (fun i => sealable pick ((sealLot c a s).lots.get i)) = l.filter fun i => sealable pick (s.lots.get i) :=
        List.filter_congr fun i hi => sealable_congr hp (hm i (hne i hi))
      rw [hf] at q1 q2 q4
      refine ⟨d ++ d', p :: ps, by rw [List.map_cons, p1, q1], ?_, ?_, fun hl => ?_, fun _ => q6 fun he => ?_, fun j => ?_⟩
      · rw [List.map_cons, p2, q2, List.map_cons]
        congr 1
        refine List.map_congr_left fun i hi => ?_
        have := hm i (hne i (List.mem_of_mem_filter hi))
        unfold Marked at this
        rw [this]
      · rw [← List.singleton_append, ← List.append_assoc, p3, List.append_assoc, q3, List.append_assoc]
      · rw [List.length_cons] at hl
        have hd := p4 (by omega)
        have hlen := congrArg List.length p3
        rw [hd] at hlen
        simp only [List.length_append, List.length_cons, List.length_nil] at hlen
        rw [hd, q4 (by omega)]
        rfl
      · rw [(List.append_eq_nil_iff.1 he).1, List.append_nil] at p3
        have hlen := congrArg List.length p3
        rw [List.length_append, List.length_cons, List.length_nil] at hlen
        omega
      · rw [q5 j, p6 j, List.any_append, Bool.or_assoc]
    · rw [if_neg hq, List.filter_cons_of_neg (by exact hq)]
      exact ih hn s

/-! ### Seals as a whole (R140, R145, R147, R152) -/

/-- With no export running a new entry is not offered. -/
theorem exportOnEntry_idle (e : JEntry) (s : State) (h : s.exporter.run = none) : exportOnEntry e s = s := by
  unfold exportOnEntry; rw [h]

/-- With room in the journal and no export running an append leaves the trunk port as it was. -/
theorem append_quiet (d : Draft) (s : State) (h1 : s.journal.entries.length < 6144) (h2 : s.exporter.run = none) :
    (append d s).trunk = s.trunk := by
  rw [append, if_pos (show _ < Config.journalCap from h1)]
  unfold placeEntry
  simp only
  have : (claimsOnEntry (entryOf d s) { s with journal := s.journal.push (entryOf d s) }).exporter = s.exporter := by
    rw [claimsOnEntry_claims_only]
  rw [exportOnEntry_idle _ _ (by rw [this]; exact h2), claimsOnEntry_claims_only]

/-- R152: a proof joins the tail of a list with room. -/
theorem addProof_room (p : ProofItem) (s : State) (h : s.proofs.list.length < 16) :
    addProof p s = { s with proofs := { s.proofs with list := s.proofs.list ++ [p] } } := by
  unfold addProof
  simp only
  rw [if_pos (show _ < Config.proofCap from h)]

/-- R152: a full list first loses its head, whose lot is marked and named. -/
theorem addProof_full (p old : ProofItem) (rest : List ProofItem) (s : State) (h : s.proofs.list = old :: rest)
    (h1 : 15 ≤ rest.length) :
    (addProof p s).proofs.list = rest ++ [p] ∧
    (addProof p s).trunk.flags.get EventKind.proofUnconfirmed.index = { raised := true, subject := .lot old.lot } ∧
    ∀ j, (addProof p s).lots.get j =
      { s.lots.get j with unconfirmed := (s.lots.get j).unconfirmed || decide (j = old.index) } := by
  unfold addProof
  have : ¬ s.proofs.list.length < Config.proofCap := by
    rw [h]; show ¬ rest.length + 1 < 16; omega
  simp only [this, if_false]
  rw [h]
  simp only
  unfold markUnconfirmed
  have hr := raise_raised .proofUnconfirmed (.lot old.lot)
    (State.modLot { s with proofs := { s.proofs with list := rest } } old.index (fun l => { l with unconfirmed := true }))
  refine ⟨by rw [hr.proofs]; rfl, raise_flag _ _ _, fun j => ?_⟩
  show (Vector.get (State.lots (raise _ _ _)) j) = _
  rw [hr.lots]
  simp only [State.modLot, get_upd]
  split
  · next h => subst h; simp
  · next h => simp [h]

/-- R147, R197: the 50 bytes of the proof record of a seal. -/
theorem buildRecord_bytes (trip : Trip) (l : LotEntry) (h : Handover) (n : Nat) (c : SealCause) :
    (buildRecord trip l h n c).bytes = b4 trip.record.tripId ++ b2 (BitVec.ofNat 16 n) ++ b4 l.lot ++ [BitVec.ofNat 8 l.cls.val]
      ++ b4 (trip.stops.get h.stop).stopId ++ [h.scanner] ++ b4 h.token ++ b4 h.clock ++ b4 trip.clock ++ b1 c.number
      ++ b1 l.grade.number ++ b4 (BitVec.ofNat 32 (shown l.total)) ++ b4 (BitVec.ofNat 32 (shown l.handling))
      ++ b4 (BitVec.ofNat 32 (shown l.equipment)) ++ b4 (BitVec.ofNat 32 (shown l.inherited))
      ++ b2 (BitVec.ofInt 16 l.peak) ++ [BitVec.ofNat 8 l.cycles]
      ++ [BitVec.ofNat 8 ((if l.blind then 1 else 0) + (if decide (l.gaps ≠ 0) then 2 else 0) + (if h.hold then 4 else 0)
      + (if h.misdrop then 8 else 0) + (if trip.unsynced then 16 else 0))] := by
  rfl

/-- R145: the steps of a seal of a lot in Handover, in the order of their effects. -/
theorem sealLot_run (c : SealCause) (i : Fin 96) (s : State) (h : Handover) (n : Nat) (hs : (s.lots.get i).state = .handover)
    (hh : (s.lots.get i).handover = some h) (hn : takeNumber s.lots s.trip.record = n)
    (r : ProofRecord) (check : Word) (p : ProofFields) (ret : Clock) (item : ProofItem) (f : OutFrame)
    (h1 : buildRecord s.trip (s.lots.get i) h n c = r) (h2 : r.check s.trip.record.sealWord = check)
    (h3 : p = { number := n, sealClock := s.clock, cause := c, check := check, record := r })
    (h4 : retentionDeadline s.trip = ret)
    (h5 : item = { index := i, lot := (s.lots.get i).lot, number := n, check := check, ackBy := deadline s.clock s.proofs.window })
    (h6 : proofFrame r check = f) :
    sealLot c i s = (hand f (addProof item (append
      { kind := .seal, lot := some (s.lots.get i).lot, zone := some (s.lots.get i).zone, v1 := natWord n, v2 := check }
      (State.modLot (s.modTrip (fun t => { t with nextProof := min 65535 (n + 1) })) i (fun l => l.sealed p ret))))).1 := by
  subst h1 h2 h3 h4 h5 h6 hn
  unfold sealLot
  simp only [hs, hh]

/-- Appends one after another leave everything beside the lots as one append does. -/
theorem Recorded.rest {a b c : State} (h : Recorded { a with lots := b.lots } b) (g : Recorded { b with lots := c.lots } c) :
    Recorded { a with lots := c.lots } c :=
  Recorded.trans (b := { b with lots := c.lots })
    ⟨h.pending, h.ref, h.straps, h.sensor, h.zones, h.engine, fun _ => rfl, h.doors, h.beacons, h.trip, h.scans, h.proofs,
      h.window, h.trunk⟩ g

/-- What acts on one lot after another as an append does beside the lots, does so as a whole. -/
theorem foldl_rest {g : State → Fin 96 → State} (hg : ∀ s i, Recorded { s with lots := (g s i).lots } (g s i))
    (l : List (Fin 96)) (s : State) :
    Recorded { s with lots := (l.foldl g s).lots } (l.foldl g s) := by
  induction l generalizing s with
  | nil => exact Recorded.refl s
  | cons a l ih => exact Recorded.rest (hg s a) (ih _)

/-- An append after a write of a lot changes beside the lots what an append may change. -/
theorem append_rest (d : Draft) (s : State) (i : Fin 96) (f : LotEntry → LotEntry) :
    Recorded { s with lots := (append d (s.modLot i f)).lots } (append d (s.modLot i f)) := by
  have h := append_recorded d (s.modLot i f)
  exact ⟨h.pending, h.ref, h.straps, h.sensor, h.zones, h.engine, fun _ => rfl, h.doors, h.beacons, h.trip, h.scans, h.proofs,
      h.window, h.trunk⟩

/-- R78: the Short conversion changes beside the lots what appends may change. -/
theorem shortAll_rest (k : Nat) (s : State) : Recorded { s with lots := (shortAll k s).lots } (shortAll k s) := by
  refine foldl_rest (fun s i => ?_) _ s
  split
  · exact append_rest _ s i _
  · exact Recorded.refl s

/-- R79: the Returned conversion changes beside the lots what appends may change. -/
theorem returnAll_rest (s : State) : Recorded { s with lots := (returnAll s).lots } (returnAll s) := by
  refine foldl_rest (fun s i => ?_) _ s
  split
  · exact append_rest _ s i _
  · exact Recorded.refl s

/-- R140, R152: what the seal of every lot in Handover leaves. -/
theorem seal_all (c : SealCause) (s : State) (hr : HandoversRecorded s) :
    let t := sealLots c (fun l => decide (l.state = .handover)) s
    let taken := (List.finRange 96).filter fun i => decide ((s.lots.get i).state = .handover)
    CustodyOnly s t ∧ t.doors = s.doors ∧ t.trip.record = { s.trip.record with nextProof := t.trip.record.nextProof } ∧
    (∀ i, (s.lots.get i).state = .handover → SealedAt c s.trip.clock (retentionDeadline s.trip) (s.lots.get i) (t.lots.get i)) ∧
    (∀ i, (s.lots.get i).state ≠ .handover → Marked (s.lots.get i) (t.lots.get i)) ∧
    Tells s t (taken.map fun i => sealDraft (s.lots.get i) (t.lots.get i)) ∧
    ∃ dropped items : List ProofItem, items.map ProofItem.index = taken ∧
      items.map ProofItem.lot = taken.map (fun i => (s.lots.get i).lot) ∧ s.proofs.list ++ items = dropped ++ t.proofs.list ∧
      (s.proofs.list.length + taken.length ≤ 16 → dropped = []) ∧ (s.proofs.list ++ items ≠ [] → t.proofs.list ≠ []) ∧
      ∀ j, (t.lots.get j).unconfirmed = ((s.lots.get j).unconfirmed || dropped.any fun q => q.index == j) := by
  have hp : ∀ a b : LotEntry, Marked a b → decide (b.state = .handover) = decide (a.state = .handover) := fun a b h => by
    unfold Marked at h; rw [h]
  have hs : ∀ i, sealable (fun l => decide (l.state = .handover)) (s.lots.get i) =
      decide ((s.lots.get i).state = .handover) := fun i => by
    have := hr i
    unfold sealable
    by_cases h : (s.lots.get i).state = .handover
    · simp [h, this.1 h]
    · simp [h]
  obtain ⟨h1, h2, h3⟩ := sealLots_lots c _ hp s
  have h4 := foldl_seal_list c _ hp (List.finRange 96) (List.nodup_finRange 96) s
  have hf : (List.finRange 96).filter (fun i => sealable (fun l => decide (l.state = .handover)) (s.lots.get i)) =
      (List.finRange 96).filter fun i => decide ((s.lots.get i).state = .handover) := List.filter_congr fun i _ => hs i
  rw [hf] at h3
  simp only [hf] at h4
  rw [show (List.finRange 96).foldl (fun x i => if decide ((x.lots.get i).state = .handover) = true then sealLot c i x else x) s
    = sealLots c (fun l => decide (l.state = .handover)) s from rfl] at h4
  exact ⟨sealLots_custody _ _ s, sealLots_doors _ _ s, sealLots_record _ _ s, fun i hi => h1 i (by rw [hs]; simpa using hi),
    fun i hi => h2 i (by rw [hs]; simpa using hi), h3, h4⟩

/-- R112: a DEPART, from the state that its seals and Short conversions leave. -/
theorem departTrip_of {k : Fin 25} {s sh : State}
    (h : shortAll k.val (sealLots .depart (fun l => decide (l.state = .handover)) (dropAdvisories s)) = sh) :
    departTrip k s = append { kind := .depart, v1 := natWord k.val, v2 := (sh.trip.stops.get k).stopId }
      ((endVisit sh).modTrip (fun r => { r with state := .transit })) := by
  unfold departTrip
  simp only [h]
  congr 1

/-- An operation over custody that leaves the trip record but its next proof number leaves the trip so. -/
theorem CustodyOnly.trip_of {x y : State} (h : CustodyOnly x y)
    (h1 : y.trip.record = { x.trip.record with nextProof := y.trip.record.nextProof }) :
    y.trip = { x.trip with record := { x.trip.record with nextProof := y.trip.record.nextProof } } := by
  rw [← h1]
  have : y.trip = ⟨y.trip.record, y.trip.stops, y.trip.clock, y.trip.unsynced, y.trip.visitStart⟩ := rfl
  rw [this, h.clock, h.unsynced, h.stops, h.visit]

/-- R156: what emptying the proof list leaves. -/
theorem emptyProofs_spec (n : Nat) (s : State) (h : s.proofs.list.length ≤ n) :
    let t := emptyProofs n s
    Raised { s with lots := t.lots, proofs := t.proofs } t ∧ t.proofs = { s.proofs with list := [] } ∧
    (∀ i, t.lots.get i = { s.lots.get i with
      unconfirmed := (s.lots.get i).unconfirmed || s.proofs.list.any fun q => q.index == i }) ∧
    (∀ a p, s.proofs.list = a ++ [p] →
      t.trunk.flags.get EventKind.proofUnconfirmed.index = { raised := true, subject := .lot p.lot }) := by
  induction n generalizing s with
  | zero =>
    have he : s.proofs.list = [] := List.length_eq_zero_iff.1 (Nat.le_zero.1 h)
    refine ⟨Raised.refl s, ?_, fun i => ?_, fun a p e => ?_⟩
    · rw [← he]; rfl
    · rw [he]; simp [emptyProofs]
    · rw [he] at e; simp at e
  | succ n ih =>
    cases he : s.proofs.list with
    | nil =>
      have hs : emptyProofs (n + 1) s = s := by unfold emptyProofs; rw [he]
      rw [hs]
      refine ⟨Raised.refl s, ?_, fun i => by simp, fun a p e => by simp at e⟩
      rw [← he]
    | cons p rest =>
      have hs : emptyProofs (n + 1) s = emptyProofs n (markUnconfirmed p { s with proofs := { s.proofs with list := rest } }) := by
        rw [emptyProofs, he]
      rw [hs]
      generalize hx : State.modLot { s with proofs := { s.proofs with list := rest } } p.index (fun l => { l with unconfirmed := true }) = x
      have hm : markUnconfirmed p { s with proofs := { s.proofs with list := rest } } = raise .proofUnconfirmed (.lot p.lot) x := by
        rw [← hx]; rfl
      rw [hm]
      have hr := raise_raised .proofUnconfirmed (.lot p.lot) x
      have hpx : x.proofs = { s.proofs with list := rest } := by rw [← hx]; rfl
      have hlx : x.lots = upd s.lots p.index (fun l => { l with unconfirmed := true }) := by rw [← hx]; rfl
      have h1 := hr.proofs.trans hpx
      rw [he, List.length_cons] at h
      obtain ⟨i1, i2, i3, i4⟩ := ih (raise .proofUnconfirmed (.lot p.lot) x) (by rw [h1]; exact Nat.le_of_succ_le_succ h)
      rw [h1] at i2 i3 i4
      refine ⟨?_, i2, fun i => ?_, fun a q e => ?_⟩
      · generalize emptyProofs n (raise .proofUnconfirmed (.lot p.lot) x) = t at *
        refine Raised.trans (b := { raise .proofUnconfirmed (.lot p.lot) x with lots := t.lots, proofs := t.proofs }) ?_ i1
        rw [← hx] at hr ⊢
        exact ⟨hr.pending, hr.ref, hr.straps, hr.free, hr.sensor, hr.zones, hr.engine, rfl, hr.doors, hr.beacons, hr.trip,
          hr.scans, rfl, hr.journal, hr.claims, hr.trunk⟩
      · rw [i3 i, hr.lots, hlx, get_upd, List.any_cons]
        by_cases hj : i = p.index
        · subst hj; simp
        · rw [if_neg hj, beq_eq_false_iff_ne.2 (Ne.symm hj), Bool.false_or]
      · rcases List.eq_nil_or_concat rest with hrest | ⟨b, q', hrest⟩
        · subst hrest
          have : a = [] ∧ p = q := by
            cases a with
            | nil => simpa using e
            | cons _ a => simp at e
          rw [← this.2]
          cases n with
          | zero => exact raise_flag _ _ _
          | succ n => unfold emptyProofs; rw [h1]; exact raise_flag _ _ _
        · rw [List.concat_eq_append] at hrest
          have : q = q' := by
            rw [hrest, ← List.cons_append] at e
            exact (List.append_inj_right' e rfl |> List.cons.inj).1.symm
          rw [this]
          exact i4 b q' hrest

/-! ### An update event (R45 to R58) -/

theorem Recorded.modLot {s t : State} (h : Recorded s t) (i : Fin 96) {f : LotEntry → LotEntry}
    (hf : ∀ a b, Gapped a b → Gapped (f a) (f b)) : Recorded (s.modLot i f) (t.modLot i f) :=
  ⟨h.pending, h.ref, h.straps, h.sensor, h.zones, h.engine, fun j => by
    simp only [State.modLot, get_upd]
    split
    · exact hf _ _ (h.gapped i)
    · exact h.lots j, h.doors, h.beacons, h.trip, h.scans, h.proofs, h.window, h.trunk⟩

theorem modLot_modLot (s : State) (i : Fin 96) (f g : LotEntry → LotEntry) :
    (s.modLot i f).modLot i g = s.modLot i fun l => g (f l) := by
  have h : upd (upd s.lots i f) i g = upd s.lots i fun l => g (f l) := table_ext fun j => by
    simp only [get_upd]
    split <;> simp only [if_true]
  unfold State.modLot
  simp only [h]

/-- R57: a lot entry as stage 6 leaves it. -/
def LotEntry.graded (l : LotEntry) (c : ClassEntry) : LotEntry :=
  if l.grade.number < (computedGrade c l).number then { l with grade := computedGrade c l } else l

/-- R57: the entry that stage 6 appends. -/
def gradeDrafts (a b : LotEntry) : List Draft :=
  if a.grade.number < b.grade.number then
    [{ kind := .gradeRaise, lot := some b.lot, zone := some b.zone, v1 := natWord b.grade.number, v2 := natWord (shown b.total) }]
  else []

/-- R57: everything that stage 6 can do. -/
theorem gradeLot_spec (i : Fin 96) (s : State) :
    let l := s.lots.get i
    let x := l.graded (s.engine.classes.get l.cls)
    let t := gradeLot i s
    Recorded (s.modLot i fun _ => x) t ∧ Tells s t (gradeDrafts l x) ∧
    (l.grade.number < x.grade.number → t.trunk.flags.get (gradeEvent x.grade).index = { raised := true, subject := .lot l.lot }) ∧
    (∀ k, k ≠ EventKind.journalFull.index → (l.grade.number < x.grade.number → k ≠ (gradeEvent x.grade).index) →
      t.trunk.flags.get k = s.trunk.flags.get k) := by
  intro l x t
  have hx : x = if l.grade.number < (computedGrade (s.engine.classes.get l.cls) l).number then
    { l with grade := computedGrade (s.engine.classes.get l.cls) l } else l := rfl
  have ht : t = gradeLot i s := rfl
  clear_value x t
  unfold gradeLot at ht
  simp only at ht
  rw [show (s.lots.get i) = l from rfl] at ht
  by_cases h : l.grade.number < (computedGrade (s.engine.classes.get l.cls) l).number
  · rw [if_pos h] at hx ht
    have hg : x.grade = computedGrade (s.engine.classes.get l.cls) l := by rw [hx]
    have hd : gradeDrafts l x =
        [{ kind := .gradeRaise, lot := some l.lot, zone := some l.zone, v1 := natWord x.grade.number, v2 := natWord (shown l.total) }] := by
      unfold gradeDrafts
      rw [hg, if_pos h, hx]
      rfl
    have hu : s.modLot i (fun l' => { l' with grade := computedGrade (s.engine.classes.get l.cls) l }) = s.modLot i fun _ => x := by
      rw [hx]; rfl
    rw [hu, ← hg] at ht
    have hne : (gradeEvent x.grade).index ≠ EventKind.journalFull.index := by cases x.grade <;> decide
    have hr := raise_raised (gradeEvent x.grade) (.lot l.lot) (s.modLot i fun _ => x)
    rw [ht, hd]
    refine ⟨hr.recorded.trans (append_recorded _ _), ?_, fun _ => ?_, fun k hk hq => ?_⟩
    · refine (append_tells _ (raise (gradeEvent x.grade) (.lot l.lot) (s.modLot i fun _ => x))).congr hr.journal.symm ?_ rfl
      rw [hr.trip]; exact ⟨rfl, rfl⟩
    · rw [append_flag _ _ hne, raise_flag]
    · rw [append_flag _ _ hk, raise_flag_ne _ _ (hq (by rw [hg]; exact h))]
      rfl
  · rw [if_neg h] at hx ht
    have hd : gradeDrafts l x = [] := by unfold gradeDrafts; rw [hx]; exact if_neg (lt_irrefl _)
    have hm : s.modLot i (fun _ => x) = s := by
      have : upd s.lots i (fun _ => x) = s.lots := table_ext fun j => by
        rw [get_upd]
        split
        · next hj => subst hj; rw [hx]
        · rfl
      unfold State.modLot
      rw [this]
    rw [ht, hd, hm]
    exact ⟨Recorded.refl s, Tells.of_eq rfl, fun h => by rw [hx] at h; exact absurd h (lt_irrefl _), fun _ _ _ => rfl⟩

/-- R58: the entry that stage 7 appends, from the lot entry as it leaves it. -/
def summaryDrafts (interval : Nat) (b : LotEntry) : List Draft :=
  if b.updates.toNat % interval = 0 then
    [{ kind := .summary, lot := some b.lot, zone := some b.zone, v1 := summaryValue b, v2 := natWord (shown b.total) }]
  else []

/-- R58: everything that stage 7 can do. -/
theorem countUpdate_spec (i : Fin 96) (s : State) :
    let x : LotEntry := { s.lots.get i with updates := (s.lots.get i).updates + 1 }
    let t := countUpdate i s
    Recorded (s.modLot i fun _ => x) t ∧ Tells s t (summaryDrafts s.engine.interval x) ∧
    (∀ k, k ≠ EventKind.journalFull.index → t.trunk.flags.get k = s.trunk.flags.get k) := by
  intro x t
  have hx : (State.modLot s i fun l => { l with updates := l.updates + 1 }).lots.get i = x := get_upd_self _ _ _
  have hs : (s.modLot i fun l => { l with updates := l.updates + 1 }) = s.modLot i fun _ => x := rfl
  have ht : t = countUpdate i s := rfl
  clear_value x t
  unfold countUpdate at ht
  simp only at ht
  rw [hx, hs] at ht
  rw [show (s.modLot i fun _ => x).engine = s.engine from rfl] at ht
  unfold summaryDrafts
  split at ht
  · rename_i h
    rw [ht, if_pos h]
    exact ⟨append_recorded _ _, (append_tells _ (s.modLot i fun _ => x)).congr rfl ⟨rfl, rfl⟩ rfl,
      fun k hk => by rw [append_flag _ _ hk]; rfl⟩
  · rename_i h
    rw [ht, if_neg h]
    exact ⟨Recorded.refl _, Tells.of_eq rfl, fun _ _ => rfl⟩

/-- R47 to R57: a lot entry as stages 1 to 6 leave it in a zone that is not Unset. -/
def LotEntry.stages (l : LotEntry) (blind : Bool) (c : ClassEntry) (p : Nat) (air : Int) (served : Bool) (k : Clock) : LotEntry :=
  (({ l with blind := l.blind || blind } : LotEntry).expose c p air served k).graded c

/-- R47 to R57: a lot entry as stages 1 to 6 leave it, in the zone air, the doors and the clock of a state. -/
def LotEntry.staged (l : LotEntry) (s : State) : LotEntry :=
  let z := s.zones.rts.get l.zone
  match z.state with
  | .unset => { l with blind := true }
  | x => l.stages (decide (x = .stale)) (s.engine.classes.get l.cls) s.engine.period (z.air.getD 0) (zoneServed s.clock s.doors l.zone) s.clock

/-- R46: a lot entry as an update leaves it. -/
def LotEntry.updated (l : LotEntry) (s : State) : LotEntry := { l.staged s with updates := l.updates + 1 }

theorem expose_fields (l : LotEntry) (c : ClassEntry) (p : Nat) (air : Int) (served : Bool) (k : Clock) :
    let x := l.expose c p air served k
    x.lot = l.lot ∧ x.cls = l.cls ∧ x.zone = l.zone ∧ x.grade = l.grade ∧ x.updates = l.updates ∧ x.state = l.state := by
  unfold LotEntry.expose LotEntry.raisePeak LotEntry.soften LotEntry.addDose
  simp only
  split_ifs <;> exact ⟨rfl, rfl, rfl, rfl, rfl, rfl⟩

theorem graded_fields (l : LotEntry) (c : ClassEntry) :
    let x := l.graded c
    x.lot = l.lot ∧ x.cls = l.cls ∧ x.zone = l.zone ∧ x.updates = l.updates ∧ x.state = l.state ∧ x.total = l.total := by
  unfold LotEntry.graded
  simp only
  split_ifs <;> exact ⟨rfl, rfl, rfl, rfl, rfl, rfl⟩

/-- R48 to R55: a lot entry as stages 2 to 5 leave it. -/
theorem expose_eq (l : LotEntry) (c : ClassEntry) (p : Nat) (air : Int) (served : Bool) (k : Clock) :
    l.expose c p air served k =
      let core := nextCore c.lag l.core air
      { l with
        core := core, handling := if served then satAdd l.handling (increment c p core) else l.handling,
        equipment := if served then l.equipment else satAdd l.equipment (increment c p core),
        soft := if c.ts < core then true else if c.tw < core then l.soft else false,
        cycles := if c.ts < core ∨ c.tw < core ∨ l.soft = false then l.cycles else min 255 (l.cycles + 1),
        peak := if l.peak < core then core else l.peak, peakClock := if l.peak < core then k else l.peakClock } := by
  unfold LotEntry.expose LotEntry.raisePeak LotEntry.soften
  simp only
  generalize nextCore c.lag l.core air = core
  have hd : ∀ n, ({ l with core := core } : LotEntry).addDose served n = { l with
      core := core, handling := if served then satAdd l.handling n else l.handling,
      equipment := if served then l.equipment else satAdd l.equipment n } := fun n => by cases served <;> rfl
  rw [hd]
  by_cases h1 : c.ts < core
  · simp only [h1, if_true, true_or]
    by_cases h2 : l.peak < core
    · simp only [h2, if_true]
    · simp only [h2, if_false]
  · by_cases h3 : c.tw < core
    · simp only [h1, h3, if_true, if_false, true_or, or_true]
      by_cases h2 : l.peak < core
      · simp only [h2, if_true]
      · simp only [h2, if_false]
    · cases h4 : l.soft
      · simp only [h1, h3, if_false, false_or, Bool.false_eq_true]
        by_cases h2 : l.peak < core
        · simp only [h2, if_true]
        · simp only [h2, if_false, if_true]
      · simp only [h1, h3, if_false, if_true, or_self, Bool.true_eq_false, satSucc]
        by_cases h2 : l.peak < core
        · simp only [h2, if_true]
        · simp only [h2, if_false]

/-- R57: a lot entry as stage 6 leaves it has a grade computed from itself. -/
theorem graded_eq (l : LotEntry) (c : ClassEntry) :
    let x := l.graded c
    x = { l with grade := x.grade } ∧ x.grade = if l.grade.number < (computedGrade c x).number then computedGrade c x else l.grade := by
  have hc : ∀ g, computedGrade c { l with grade := g } = computedGrade c l := fun _ => rfl
  unfold LotEntry.graded
  split
  · rename_i h
    simp only [hc, if_pos h, and_self]
  · rename_i h
    simp only [if_neg h, and_self]

/-- R48 to R57: what stages 1 to 6, and a count of the update, leave of each field of a lot entry. -/
theorem stages_fields (l x : LotEntry) (b : Bool) (c : ClassEntry) (p : Nat) (air : Int) (served : Bool) (k : Clock) (u : Word) (n : Nat)
    (h0 : x = { l.stages b c p air served k with updates := u, gaps := n }) :
    let dose (share : Word) : Word := BitVec.ofNat 32 (min (share.toNat + increment c p x.core) 4294967295)
    x = { l with
          core := x.core, handling := x.handling, equipment := x.equipment, grade := x.grade, soft := x.soft, cycles := x.cycles,
          peak := x.peak, peakClock := x.peakClock, blind := x.blind, updates := u, gaps := x.gaps } ∧
    x.blind = (l.blind || b) ∧
          x.core = nextCore c.lag l.core air ∧
          (served = true → x.handling = dose l.handling ∧ x.equipment = l.equipment) ∧
          (¬served = true → x.equipment = dose l.equipment ∧ x.handling = l.handling) ∧
          (c.ts < x.core → x.soft = true ∧ x.cycles = l.cycles) ∧
          (c.tw < x.core → x.core ≤ c.ts → x.soft = l.soft ∧ x.cycles = l.cycles) ∧
          (x.core ≤ c.tw → x.core ≤ c.ts → x.soft = false ∧ x.cycles = if l.soft then min 255 (l.cycles + 1) else l.cycles) ∧
          (l.peak < x.core → x.peak = x.core ∧ x.peakClock = k) ∧
          (x.core ≤ l.peak → x.peak = l.peak ∧ x.peakClock = l.peakClock) ∧
          x.grade = if l.grade.number < (computedGrade c x).number then computedGrade c x else l.grade := by
  intro dose
  obtain ⟨g1, g2⟩ := graded_eq (({ l with blind := l.blind || b } : LotEntry).expose c p air served k) c
  have hx : x = { ({ l with blind := l.blind || b } : LotEntry).expose c p air served k with grade := x.grade, updates := u, gaps := n } := by
    rw [h0]
    show ({ LotEntry.graded _ c with updates := u, gaps := n } : LotEntry) = _
    rw [g1]
    rfl
  have hxg : x.grade = if l.grade.number < (computedGrade c x).number then computedGrade c x else l.grade := by
    rw [h0]
    refine Eq.trans g2 ?_
    rw [(expose_fields _ _ _ _ _ _).2.2.2.1]
    rfl
  clear h0 g1 g2
  generalize hg : x.grade = g at hx hxg
  generalize hcg : computedGrade c x = cg at hxg ⊢
  rw [expose_eq] at hx
  generalize hcore : nextCore c.lag l.core air = core at hx
  simp only at hx
  have hcx : x.core = core := by rw [hx]
  refine ⟨by rw [hx], by rw [hx], by rw [hcx, ← hcore], ?_, ?_, ?_, ?_, ?_, ?_, ?_, hxg⟩ <;> simp only [dose, hcx] <;> rw [hx]
  · intro h; simp [h, satAdd]
  · intro h; simp [h, satAdd]
  · intro h; simp [h]
  · intro h h'; simp [h, show ¬ c.ts < core by omega]
  · intro h h'; cases l.soft <;> simp [show ¬ c.tw < core by omega, show ¬ c.ts < core by omega]
  · intro h; simp [h]
  · intro h; simp [show ¬ l.peak < core by omega]

/-- An operation on a lot entry that neither reads nor writes the gap count. -/
def GapBlind (f : LotEntry → LotEntry) : Prop := ∀ (l : LotEntry) (n : Nat), f { l with gaps := n } = { f l with gaps := n }

theorem GapBlind.comp {f g : LotEntry → LotEntry} (hf : GapBlind f) (hg : GapBlind g) : GapBlind fun l => g (f l) :=
  fun l n => by simp only [hf l n, hg (f l) n]

theorem GapBlind.gapped {f : LotEntry → LotEntry} (hf : GapBlind f) {a b : LotEntry} (h : Gapped a b) : Gapped (f a) (f b) := by
  unfold Gapped at *
  rw [h, hf a b.gaps]

theorem addDose_blind (x : Bool) (n : Nat) : GapBlind fun l => l.addDose x n := fun l m => by cases x <;> rfl

theorem soften_blind (c : ClassEntry) : GapBlind fun l => l.soften c := fun l m => by
  simp only [LotEntry.soften]
  split_ifs <;> rfl

theorem raisePeak_blind (k : Clock) : GapBlind fun l => l.raisePeak k := fun l m => by
  simp only [LotEntry.raisePeak]
  split_ifs <;> rfl

theorem graded_blind (c : ClassEntry) : GapBlind fun l => l.graded c := fun l m => by
  have h : computedGrade c { l with gaps := m } = computedGrade c l := rfl
  simp only [LotEntry.graded, h]
  split_ifs <;> rfl

theorem expose_blind (c : ClassEntry) (p : Nat) (air : Int) (served : Bool) (k : Clock) :
    GapBlind fun l => l.expose c p air served k := fun l m => by
  unfold LotEntry.expose
  simp only
  rw [← raisePeak_blind k _ m, ← soften_blind c _ m, ← addDose_blind served _ _ m]

theorem stages_gaps (l : LotEntry) (m : Nat) (blind : Bool) (c : ClassEntry) (p : Nat) (air : Int) (served : Bool) (k : Clock) :
    LotEntry.stages { l with gaps := m } blind c p air served k = { l.stages blind c p air served k with gaps := m } :=
  ((expose_blind c p air served k).comp (graded_blind c)) { l with blind := l.blind || blind } m

/-- What an update leaves does not depend on the gap count. -/
theorem updated_blind (s : State) : GapBlind fun l => l.updated s := fun l m => by
  unfold LotEntry.updated LotEntry.staged
  cases hz : (s.zones.rts.get l.zone).state with
  | unset => simp only [hz]
  | live => simp only [hz, stages_gaps]
  | stale => simp only [hz, stages_gaps]

/-- R57, R58: the entries that an update appends, from the lot entry before it and after it. -/
def updateDrafts (interval : Nat) (a b : LotEntry) : List Draft := gradeDrafts a b ++ summaryDrafts interval b

theorem updateDrafts_congr (n : Nat) {a b x y : LotEntry} (h : Gapped a x) (g : Gapped b y) : updateDrafts n a b = updateDrafts n x y := by
  unfold Gapped at h g
  rw [h, g]
  rfl

/-- R57: the flags that an update of a lot leaves, the raising of a grade apart. -/
def GradeFlag (a b : LotEntry) (s t : State) : Prop :=
  (a.grade.number < b.grade.number → t.trunk.flags.get (gradeEvent b.grade).index = { raised := true, subject := .lot a.lot }) ∧
  (∀ k, k ≠ EventKind.journalFull.index → (a.grade.number < b.grade.number → k ≠ (gradeEvent b.grade).index) →
    t.trunk.flags.get k = s.trunk.flags.get k)

/-- R57, R58: stages 6 and 7 of a lot entry that stages 1 to 5 have written. -/
theorem gradeCount_spec (i : Fin 96) (s : State) (l e : LotEntry)
    (he : e.lot = l.lot ∧ e.cls = l.cls ∧ e.grade = l.grade ∧ e.updates = l.updates) :
    let x := e.graded (s.engine.classes.get l.cls)
    let y : LotEntry := { x with updates := l.updates + 1 }
    let t := countUpdate i (gradeLot i (s.modLot i fun _ => e))
    Recorded (s.modLot i fun _ => y) t ∧ Tells s t (updateDrafts s.engine.interval l y) ∧ GradeFlag l y s t := by
  intro x y t
  have hl : (s.modLot i fun _ => e).lots.get i = e := get_upd_self _ _ _
  have hx : e.graded ((s.modLot i fun _ => e).engine.classes.get e.cls) = x := by rw [he.2.1]; rfl
  have hxu : x.updates = l.updates := (graded_fields e _).2.2.2.1.trans he.2.2.2
  obtain ⟨g1, g2, g3, g4⟩ := gradeLot_spec i (s.modLot i fun _ => e)
  simp only [hl, hx] at g1 g2 g3 g4
  have ht : t = countUpdate i (gradeLot i (s.modLot i fun _ => e)) := rfl
  have hy : y = { x with updates := l.updates + 1 } := rfl
  clear_value x y t
  generalize gradeLot i (s.modLot i fun _ => e) = u at g1 g2 g3 g4 ht
  obtain ⟨c1, c2, c3⟩ := countUpdate_spec i u
  simp only [← ht] at c1 c2 c3
  have hu : Gapped x (u.lots.get i) := by
    have := g1.gapped i
    simp only [State.modLot, get_upd_self] at this
    exact this
  have hw : Gapped y { u.lots.get i with updates := (u.lots.get i).updates + 1 } := by
    unfold Gapped at hu ⊢
    rw [hy, hu, ← hxu]
  refine ⟨?_, ?_, fun h => ?_, fun k hk hq => ?_⟩
  · have h1 := g1.modLot i (f := fun l => { l with updates := l.updates + 1 }) (fun a b h => by unfold Gapped at *; rw [h])
    rw [modLot_modLot, modLot_modLot, hxu, ← hy] at h1
    exact h1.trans c1
  · have hd : updateDrafts s.engine.interval l y = gradeDrafts e x ++ summaryDrafts s.engine.interval y := by
      unfold updateDrafts gradeDrafts
      rw [hy, he.2.2.1]
      rfl
    have hs : summaryDrafts u.engine.interval { u.lots.get i with updates := (u.lots.get i).updates + 1 } =
        summaryDrafts s.engine.interval y := by
      rw [g1.engine]
      unfold Gapped at hw
      rw [hw]
      rfl
    rw [hs] at c2
    rw [hd]
    exact (Tells.congr (u := s) g2 rfl ⟨rfl, rfl⟩ rfl).trans c2 (by rw [g1.trip]; exact ⟨rfl, rfl⟩)
  · have hg : y.grade = x.grade := by rw [hy]
    rw [hg] at h ⊢
    rw [c3 _ (by cases x.grade <;> decide), g3 (by rw [he.2.2.1]; exact h), he.1]
  · have hg : y.grade = x.grade := by rw [hy]
    rw [hg] at hq
    rw [c3 k hk, g4 k hk (by rw [he.2.2.1]; exact hq)]
    rfl

/-- R46, R47: everything that the update of one lot can do. -/
theorem updateLot_spec (i : Fin 96) (s : State) :
    let l := s.lots.get i
    let t := updateLot i s
    Recorded (s.modLot i fun _ => l.updated s) t ∧ Tells s t (updateDrafts s.engine.interval l (l.updated s)) ∧
    GradeFlag l (l.updated s) s t := by
  intro l t
  have ht : t = updateLot i s := rfl
  clear_value t
  have exposed : ∀ b : Bool, let z := s.zones.rts.get l.zone
      let e := ({ l with blind := l.blind || b } : LotEntry).expose (s.engine.classes.get l.cls) s.engine.period (z.air.getD 0)
        (zoneServed s.clock s.doors l.zone) s.clock
      l.updated s = { e.graded (s.engine.classes.get l.cls) with updates := l.updates + 1 } →
      t = countUpdate i (gradeLot i (s.modLot i fun _ => e)) →
      Recorded (s.modLot i fun _ => l.updated s) t ∧ Tells s t (updateDrafts s.engine.interval l (l.updated s)) ∧
        GradeFlag l (l.updated s) s t := by
    intro b z e hy ht
    have hf := expose_fields { l with blind := l.blind || b } (s.engine.classes.get l.cls) s.engine.period (z.air.getD 0)
      (zoneServed s.clock s.doors l.zone) s.clock
    rw [ht, hy]
    exact gradeCount_spec i s l e ⟨hf.1, hf.2.1, hf.2.2.2.1, hf.2.2.2.2.1⟩
  unfold updateLot at ht
  simp only at ht
  rw [show s.lots.get i = l from rfl] at ht
  cases hz : (s.zones.rts.get l.zone).state with
  | live => exact exposed false (by simp only [LotEntry.updated, LotEntry.staged, hz]; rfl) (by rw [ht, hz]; rfl)
  | stale => exact exposed true (by simp only [LotEntry.updated, LotEntry.staged, hz]; rfl) (by rw [ht, hz]; rfl)
  | unset =>
    rw [hz] at ht
    have hl : (State.modLot s i fun l => { l with blind := true }).lots.get i = { l with blind := true } := get_upd_self _ _ _
    have hy : l.updated s = { l with blind := true, updates := l.updates + 1 } := by simp only [LotEntry.updated, LotEntry.staged, hz]
    obtain ⟨c1, c2, c3⟩ := countUpdate_spec i (State.modLot s i fun l => { l with blind := true })
    simp only [← ht, hl, ← hy] at c1 c2 c3
    rw [modLot_modLot] at c1
    have hn : ¬ l.grade.number < (l.updated s).grade.number := by rw [hy]; exact lt_irrefl _
    refine ⟨c1, ?_, fun h => absurd h hn, fun k hk _ => c3 k hk⟩
    unfold updateDrafts gradeDrafts
    rw [if_neg hn]
    exact Tells.congr c2 rfl ⟨rfl, rfl⟩ rfl

/-- What an update reads of the state beside the lot. -/
def SameAir (s t : State) : Prop := t.zones = s.zones ∧ t.engine = s.engine ∧ t.doors = s.doors ∧ t.trip = s.trip

theorem SameAir.updated {s t : State} (h : SameAir s t) (l : LotEntry) : l.updated t = l.updated s := by
  obtain ⟨h1, h2, h3, h4⟩ := h
  unfold LotEntry.updated LotEntry.staged
  simp only [State.clock, h1, h2, h3, h4]

theorem Recorded.sameAir {s u t : State} (h : SameAir s u) (r : Recorded u t) : SameAir s t :=
  ⟨r.zones.trans h.1, r.engine.trans h.2.1, r.doors.trans h.2.2.1, r.trip.trans h.2.2.2⟩

theorem Gapped.inCustody {a b : LotEntry} (h : Gapped a b) : b.inCustody = a.inCustody := by unfold Gapped at h; rw [h]; rfl

theorem gradeFlag_congr {a b x y : LotEntry} (h : Gapped a x) (g : Gapped b y) : GradeFlag x y = GradeFlag a b := by
  unfold Gapped at h g
  rw [h, g]
  rfl

/-- R45: one lot updated, when it is in custody. -/
def updateStep (s : State) (i : Fin 96) : State := if (s.lots.get i).inCustody then updateLot i s else s

/-- R45: what updating one lot after another does. -/
theorem update_each (s : State) : Each updateStep (SameAir s) Gapped
    (fun _ a b => if a.inCustody then Gapped (a.updated s) b else Gapped a b)
    (fun _ a b => if a.inCustody then updateDrafts s.engine.interval a b else []) := by
  have rest : ∀ t i, SameAir s t → SameAir s (updateStep t i) := fun t i h => by
    unfold updateStep
    split
    · exact Recorded.sameAir (u := t.modLot i fun _ => (t.lots.get i).updated t) h (updateLot_spec i t).1
    · exact h
  refine ⟨Gapped.refl, Gapped.trans, fun {i a b c} h r => ?_, fun {i a b c} r h => ?_, rest, fun t i h => ?_, fun t i h => ?_,
    fun t i j h hj => ?_, fun t i h => ?_⟩
  · rw [h.inCustody] at r ⊢
    split at r
    · rename_i hq
      rw [if_pos hq, if_pos hq, if_pos hq]
      exact ⟨((updated_blind s).gapped h).trans r, (updateDrafts_congr _ h (Gapped.refl c)).symm⟩
    · rename_i hq
      rw [if_neg hq, if_neg hq, if_neg hq]
      exact ⟨h.trans r, rfl⟩
  · split at r
    · rename_i hq
      rw [if_pos hq, if_pos hq, if_pos hq]
      exact ⟨Gapped.trans r h, updateDrafts_congr _ (Gapped.refl a) h⟩
    · rename_i hq
      rw [if_neg hq, if_neg hq, if_neg hq]
      exact ⟨Gapped.trans r h, rfl⟩
  · rw [(rest t i h).2.2.2, h.2.2.2]; exact ⟨rfl, rfl⟩
  · unfold updateStep
    split
    · have := (updateLot_spec i t).1.gapped i
      simp only [State.modLot, get_upd_self] at this
      rw [h.updated] at this
      exact this
    · exact Gapped.refl _
  · unfold updateStep
    split
    · have := (updateLot_spec i t).1.gapped j
      simp only [State.modLot, get_upd_ne _ hj] at this
      exact this
    · exact Gapped.refl _
  · unfold updateStep
    split
    · rename_i hq
      have hu := updateLot_spec i t
      have hg := hu.1.gapped i
      simp only [State.modLot, get_upd_self] at hg
      rw [← updateDrafts_congr _ (Gapped.refl _) hg, ← h.2.1]
      exact hu.2.1
    · exact Tells.of_eq rfl

/-- R57: the flag that an update event leaves for a kind is that of the last lot raised to its grade. -/
theorem updateStep_flag (s t : State) (i : Fin 96) (h : SameAir s t) :
    let l := t.lots.get i
    (l.inCustody = true → GradeFlag l (l.updated s) t (updateStep t i)) ∧
    (l.inCustody = false → (updateStep t i).trunk.flags = t.trunk.flags) := by
  intro l
  unfold updateStep
  rw [show (t.lots.get i) = l from rfl]
  refine ⟨fun hq => ?_, fun hq => ?_⟩
  · rw [if_pos hq, ← h.updated]
    exact (updateLot_spec i t).2.2
  · rw [if_neg (by rw [hq]; decide)]

/-- R45: everything that the updates of an update event leave of the lots and the journal. -/
theorem updateLots_lots (s : State) :
    let t := updateLots s
    (∀ i, (s.lots.get i).inCustody = true → Gapped ((s.lots.get i).updated s) (t.lots.get i)) ∧
    (∀ i, (s.lots.get i).inCustody = false → Gapped (s.lots.get i) (t.lots.get i)) ∧
    Tells s t ((List.finRange 96).flatMap fun i =>
      if (s.lots.get i).inCustody then updateDrafts s.engine.interval (s.lots.get i) (t.lots.get i) else []) := by
  obtain ⟨-, -, h1, -, h2⟩ := (update_each s).foldl (List.finRange 96) (List.nodup_finRange 96) s ⟨rfl, rfl, rfl, rfl⟩
  refine ⟨fun i hi => ?_, fun i hi => ?_, h2⟩
  · have := h1 i (List.mem_finRange i); rw [if_pos hi] at this; exact this
  · have := h1 i (List.mem_finRange i); rw [if_neg (by rw [hi]; decide)] at this; exact this

/-- R57: of the lots that an update event raises to one grade, the last one is the subject of the grade's flag. -/
theorem updateLots_flag (s : State) (i : Fin 96) (hi : (s.lots.get i).inCustody = true)
    (hr : (s.lots.get i).grade.number < ((s.lots.get i).updated s).grade.number)
    (hl : ∀ j, i < j → (s.lots.get j).inCustody = true → (s.lots.get j).grade.number < ((s.lots.get j).updated s).grade.number →
      gradeEvent ((s.lots.get j).updated s).grade ≠ gradeEvent ((s.lots.get i).updated s).grade) :
    (updateLots s).trunk.flags.get (gradeEvent ((s.lots.get i).updated s).grade).index =
      { raised := true, subject := .lot (s.lots.get i).lot } := by
  have hu : updateLots s = (List.finRange 96).foldl updateStep s := rfl
  obtain ⟨a, b, hab⟩ := List.append_of_mem (List.mem_finRange i)
  have hs : (a ++ i :: b).Pairwise (· < ·) := by rw [← hab]; exact List.pairwise_lt_finRange 96
  have hn : (a ++ i :: b).Nodup := by rw [← hab]; exact List.nodup_finRange 96
  rw [List.pairwise_append] at hs
  have hb : ∀ j ∈ b, i < j := fun j hj => (List.pairwise_cons.1 hs.2.1).1 j hj
  have hna := (List.nodup_append.1 hn).1
  have hia : i ∉ a := fun h => (lt_irrefl i) (hs.2.2 i h i (List.mem_cons_self ..))
  rw [hu, hab, List.foldl_append, List.foldl_cons]
  obtain ⟨e0, -, -, e2, -⟩ := (update_each s).foldl a hna s ⟨rfl, rfl, rfl, rfl⟩
  have hua : ∀ j ∈ b, j ∉ a ++ [i] := fun j hj hm => by
    rcases List.mem_append.1 hm with hm | hm
    · exact lt_irrefl j (hs.2.2 j hm j (List.mem_cons_of_mem _ hj))
    · rw [List.mem_singleton] at hm; subst hm; exact lt_irrefl _ (hb j hj)
  generalize List.foldl updateStep s a = u at e0 e2
  -- the lot itself
  have hgi := e2 i hia
  have f1 := (updateStep_flag s u i e0).1 (hgi.inCustody.trans hi)
  rw [gradeFlag_congr hgi ((updated_blind s).gapped hgi)] at f1
  have f2 := f1.1 hr
  -- those after it
  have hother : ∀ j ∈ b, Gapped (s.lots.get j) ((updateStep u i).lots.get j) := fun j hj =>
    (e2 j (fun h => hua j hj (List.mem_append_left _ h))).trans
      ((update_each s).others u i j e0 (fun h => hua j hj (by rw [h]; simp)))
  have he := (update_each s).env u i e0
  have hnb : b.Nodup := (List.nodup_cons.1 (List.nodup_append.1 hn).2.1).2
  have hlt : ∀ j ∈ b, i < j := hb
  clear hab hs hn hb hna hia hua e2 f1 hgi e0
  generalize updateStep u i = v at f2 hother he
  clear u
  induction b generalizing v with
  | nil => exact f2
  | cons c b ih =>
    rw [List.foldl_cons]
    obtain ⟨hc, hnb⟩ := List.nodup_cons.1 hnb
    refine ih hnb (fun j hj => hlt j (List.mem_cons_of_mem _ hj)) (updateStep v c) ?_ (fun j hj => ?_) ((update_each s).env v c he)
    · have hg := hother c (List.mem_cons_self ..)
      obtain ⟨q1, q2⟩ := updateStep_flag s v c he
      rw [hg.inCustody] at q1 q2
      cases hcc : (s.lots.get c).inCustody with
      | false => rw [q2 hcc]; exact f2
      | true =>
        have q := q1 hcc
        rw [gradeFlag_congr hg ((updated_blind s).gapped hg)] at q
        rw [q.2 _ (by cases ((s.lots.get i).updated s).grade <;> decide) (fun hrc he => ?_)]
        · exact f2
        · have := hl c (hlt c (List.mem_cons_self ..)) hcc hrc
          revert this he
          cases ((s.lots.get i).updated s).grade <;> cases ((s.lots.get c).updated s).grade <;> simp [gradeEvent, EventKind.index]
    · exact (hother j (List.mem_cons_of_mem _ hj)).trans ((update_each s).others v c j he (fun h => hc (h ▸ hj)))

end Sys2Proof.Machine
end

