-- ==== Sys2Proof/Laws/Held.lean ====
section
/-! SUPPORT. What the shared operations keep of the agreements among the lot table, the scan memories, the proof list and the
claim slots (`CustodyHeld`; spec 04 R62; spec 06 R114; spec 07 R132; spec 08 R147, R152; spec 10 R172). -/

namespace Sys2Proof.Machine

/-! ### Where nothing that the agreements read has changed -/

/-- What `CustodyHeld` reads is as it was, but for claim slots and advisories that have gone. -/
structure Steady (s t : State) : Prop where
  lots   : ∀ i, (t.lots.get i).lot = (s.lots.get i).lot ∧ (t.lots.get i).state = (s.lots.get i).state ∧
    (t.lots.get i).unconfirmed = (s.lots.get i).unconfirmed ∧ (t.lots.get i).proof = (s.lots.get i).proof ∧
    (t.lots.get i).handover = (s.lots.get i).handover
  proofs : t.proofs.list = s.proofs.list
  trip   : t.trip.record.tripId = s.trip.record.tripId ∧ t.trip.record.state = s.trip.record.state
  claims : s.claims.Kept t.claims
  scans  : ∀ n, (t.scans.mem.get n).pending ≠ none → (s.scans.mem.get n).pending ≠ none

theorem Steady.refl (s : State) : Steady s s := ⟨fun _ => ⟨rfl, rfl, rfl, rfl, rfl⟩, rfl, ⟨rfl, rfl⟩, Claims.Kept.refl _,
    fun _ h => h⟩

theorem Steady.trans {a b c : State} (h : Steady a b) (g : Steady b c) : Steady a c :=
  ⟨fun i => by
    obtain ⟨a1, a2, a3, a4, a5⟩ := h.lots i
    obtain ⟨b1, b2, b3, b4, b5⟩ := g.lots i
    exact ⟨b1.trans a1, b2.trans a2, b3.trans a3, b4.trans a4, b5.trans a5⟩,
   g.proofs.trans h.proofs, ⟨g.trip.1.trans h.trip.1, g.trip.2.trans h.trip.2⟩, h.claims.trans g.claims,
       fun n x => h.scans n (g.scans n x)⟩

theorem Steady.of_eq {s t : State} (h1 : t.lots = s.lots) (h2 : t.proofs = s.proofs) (h3 : t.trip.record = s.trip.record)
    (h4 : t.claims = s.claims) (h5 : t.scans = s.scans) : Steady s t :=
  ⟨fun _ => by rw [h1]; exact ⟨rfl, rfl, rfl, rfl, rfl⟩, by rw [h2], by rw [h3]; exact ⟨rfl, rfl⟩,
      by rw [h4]; exact Claims.Kept.refl _, fun n => by rw [h5]; exact id⟩

theorem Raised.steady {s t : State} (h : Raised s t) : Steady s t := .of_eq h.lots h.proofs (by rw [h.trip]) h.claims h.scans

theorem Sent.steady {s t : State} (h : Sent s t) : Steady s t := h.raised.steady

theorem append_steady (d : Draft) (s : State) : Steady s (append d s) := by
  have h := append_recorded d s
  exact ⟨fun i => by rw [h.lots i]; exact ⟨rfl, rfl, rfl, rfl, rfl⟩, by rw [h.proofs], by rw [h.trip]; exact ⟨rfl, rfl⟩,
      append_kept d s, fun n => by rw [h.scans]; exact id⟩

theorem discardSlot_steady (k : Fin 4) (s : State) : Steady s (discardSlot k s) :=
  ⟨fun _ => ⟨rfl, rfl, rfl, rfl, rfl⟩, rfl, ⟨rfl, rfl⟩, discardSlot_kept k s, fun _ h => h⟩

theorem discardFor_steady (l : Word) (s : State) : Steady s (discardFor l s) := by
  unfold discardFor; split
  · exact discardSlot_steady _ _
  · exact Steady.refl _

/-- The agreements stand where what they read is as it was. -/
theorem CustodyHeld.steady {s t : State} (h : CustodyHeld s) (g : Steady s t) : CustodyHeld t := by
  obtain ⟨h1, h0, h2, h3, h4, h5, h6⟩ := h
  obtain ⟨g1, g2, g3, g4, g5⟩ := g
  refine ⟨fun i => ?_, fun n hn => by rw [g3.2]; exact h0 n (g5 n hn), fun hn i => ?_, fun i => ?_,
      ⟨?_, fun p hp => ?_, fun hn => ?_⟩, ⟨fun i => ?_, fun i j => ?_⟩, fun j k x y hx hy e => ?_⟩
  · rw [(g1 i).2.1, (g1 i).2.2.2.2]; exact h1 i
  · rw [(g1 i).2.1]; exact h2 (g3.2 ▸ hn) i
  · rw [(g1 i).2.1, (g1 i).2.2.1]; exact h3 i
  · rw [g2]; exact h4.1
  · obtain ⟨f, a⟩ := h4.2.1 p (g2 ▸ hp)
    obtain ⟨b1, b2, b3, b4, b5⟩ := g1 p.index
    exact ⟨f, by rw [b1, b2, b3, b4, g3.1]; exact a⟩
  · rw [g2]; exact h4.2.2 (g3.2 ▸ hn)
  · rw [(g1 i).1, (g1 i).2.1]; exact h5.1 i
  · rw [(g1 i).1, (g1 j).1]; exact h5.2 i j
  · obtain ⟨x', a, b⟩ := g4 j x hx
    obtain ⟨y', a', b'⟩ := g4 k y hy
    exact h6 j k x' y' a a' (by rw [b, b', e])

theorem CustodyHeld.raise {s : State} (h : CustodyHeld s) (k : EventKind) (sub : Subject) : CustodyHeld (raise k sub s) :=
    h.steady (raise_raised _ _ _).steady

theorem CustodyHeld.append {s : State} (h : CustodyHeld s) (d : Draft) : CustodyHeld (append d s) :=
    h.steady (append_steady _ _)

theorem CustodyHeld.hand {s : State} (h : CustodyHeld s) (f : OutFrame) : CustodyHeld (hand f s).1 :=
    h.steady (hand_sent _ _).steady

/-- A lot is written, but nothing of it that the agreements read. -/
theorem modLot_steady (s : State) (i : Fin 96) (f : LotEntry → LotEntry)
    (hf : let l := s.lots.get i; (f l).lot = l.lot ∧ (f l).state = l.state ∧ (f l).unconfirmed = l.unconfirmed ∧
        (f l).proof = l.proof ∧
      (f l).handover = l.handover) : Steady s (s.modLot i f) :=
  ⟨fun j => by
    simp only [State.modLot, get_upd]
    split
    · next h => subst h; exact hf
    · exact ⟨rfl, rfl, rfl, rfl, rfl⟩, rfl, ⟨rfl, rfl⟩, Claims.Kept.refl _, fun _ h => h⟩

/-! ### Lots, seals and doors -/

/-- A lot that no entry of the proof list names is written. -/
theorem CustodyHeld.modLot {s : State} (h : CustodyHeld s) (i : Fin 96) (f : LotEntry → LotEntry)
    (h1 : (f (s.lots.get i)).state = .handover ↔ (f (s.lots.get i)).handover.isSome = true)
    (h2 : s.trip.record.state = .noTrip → (f (s.lots.get i)).state ≠ .handover)
    (h3 : (f (s.lots.get i)).unconfirmed = true → (f (s.lots.get i)).state = .delivered)
    (h4 : ∀ p ∈ s.proofs.list, p.index ≠ i)
    (h5 : (f (s.lots.get i)).state = .free ↔ (f (s.lots.get i)).lot = 0)
    (h6 : (f (s.lots.get i)).lot ≠ 0 → ∀ j, j ≠ i → (s.lots.get j).lot ≠ (f (s.lots.get i)).lot) :
        CustodyHeld (s.modLot i f) := by
  have hg : ∀ j, (s.modLot i f).lots.get j = if j = i then f (s.lots.get i) else s.lots.get j := fun j => by
    simp only [State.modLot, get_upd]
  refine ⟨fun j => ?_, h.advisories, fun hn j => ?_, fun j => ?_, ⟨h.proofs.1, fun p hp => ?_, h.proofs.2.2⟩,
      ⟨fun j => ?_, fun j k => ?_⟩, h.oneSlot⟩
  · rw [hg]; split
    · exact h1
    · exact h.recorded j
  · rw [hg]; split
    · exact h2 hn
    · exact h.inTrips hn j
  · rw [hg]; split
    · exact h3
    · exact h.unconfirmed j
  · rw [hg, if_neg (h4 p hp)]; exact h.proofs.2.1 p hp
  · rw [hg]; split
    · exact h5
    · exact h.oneEntry.1 j
  · rw [hg, hg]; intro a b
    by_cases hj : j = i <;> by_cases hk : k = i
    · rw [hj, hk]
    · rw [if_pos hj] at a b; rw [if_neg hk] at b; exact absurd b.symm (h6 a k hk)
    · rw [if_neg hj] at a b; rw [if_pos hk] at b; exact absurd b (h6 (b ▸ a) j hj)
    · rw [if_neg hj] at a b; rw [if_neg hk] at b; exact h.oneEntry.2 j k a b

/-- R152: a lot that is not Delivered stands in no entry of the proof list. -/
theorem CustodyHeld.listed {s : State} (h : CustodyHeld s) {i : Fin 96} (hs : (s.lots.get i).state ≠ .delivered) :
    ∀ p ∈ s.proofs.list, p.index ≠ i :=
  fun p hp e => by
    obtain ⟨f, a, -⟩ := h.proofs.2.1 p hp
    exact hs (e ▸ a)

/-- A lot that is not Delivered is written, its lot id kept. -/
theorem CustodyHeld.modLotKeeping {s : State} (h : CustodyHeld s) (i : Fin 96) (f : LotEntry → LotEntry)
    (hs : (s.lots.get i).state ≠ .delivered)
    (h1 : (f (s.lots.get i)).state = .handover ↔ (f (s.lots.get i)).handover.isSome = true)
    (h2 : s.trip.record.state = .noTrip → (f (s.lots.get i)).state ≠ .handover)
    (h3 : (f (s.lots.get i)).unconfirmed = (s.lots.get i).unconfirmed)
    (h5 : (f (s.lots.get i)).state = .free ↔ (s.lots.get i).state = .free)
    (h6 : (f (s.lots.get i)).lot = (s.lots.get i).lot) : CustodyHeld (s.modLot i f) := by
  refine h.modLot i f h1 h2 (fun hu => ?_) (h.listed hs) ?_ ?_
  · rw [h3] at hu; exact absurd (h.unconfirmed i hu) hs
  · rw [h5, h6]; exact h.oneEntry.1 i
  · rw [h6]; intro a j hj e; exact hj (h.oneEntry.2 i j a e.symm).symm

/-- The agreements read no part but lots, proof list, trip record, claim slots and scan memories. -/
theorem CustodyHeld.only {s t : State} (h : CustodyHeld s) (h1 : t.lots = s.lots := by rfl)
    (h2 : t.proofs.list = s.proofs.list := by rfl)
    (h3 : t.trip.record = s.trip.record := by rfl) (h4 : t.claims.slots = s.claims.slots := by rfl)
        (h5 : t.scans.mem = s.scans.mem := by rfl) : CustodyHeld t :=
  h.steady ⟨fun _ => by rw [h1]; exact ⟨rfl, rfl, rfl, rfl, rfl⟩, h2, by rw [h3]; exact ⟨rfl, rfl⟩,
      fun j x hx => ⟨x, h4 ▸ hx, rfl⟩, fun n => by rw [h5]; exact id⟩

/-- Entries leave the proof list. -/
theorem CustodyHeld.sublist {s : State} (h : CustodyHeld s) (l : List ProofItem) (hl : l.Sublist s.proofs.list) :
    CustodyHeld { s with proofs := { s.proofs with list := l } } :=
  ⟨h.recorded, h.advisories, h.inTrips, h.unconfirmed,
      ⟨h.proofs.1.sublist hl, fun p hp => h.proofs.2.1 p (hl.subset hp), fun hn => by
    have := h.proofs.2.2 hn; rw [this] at hl; exact List.sublist_nil.1 hl⟩, h.oneEntry, h.oneSlot⟩

/-- R153: a Delivered lot that no entry of the proof list names is marked Unconfirmed. -/
theorem CustodyHeld.mark {s : State} (h : CustodyHeld s) (p : ProofItem) (hd : (s.lots.get p.index).state = .delivered)
    (hp : ∀ q ∈ s.proofs.list, q.index ≠ p.index) :
    CustodyHeld (markUnconfirmed p s) := by
  refine CustodyHeld.raise (h.modLot p.index _ (h.recorded _) (fun hn => h.inTrips hn _) (fun _ => hd) hp
      (h.oneEntry.1 _) ?_) _ _
  intro a j hj e; exact hj (h.oneEntry.2 _ j a e.symm).symm

theorem CustodyHeld.dropMark {s : State} (h : CustodyHeld s) (p : ProofItem) (l : List ProofItem) (hp : p ∈ s.proofs.list)
    (hl : l.Sublist s.proofs.list)
    (hi : ∀ q ∈ l, q.index ≠ p.index) : CustodyHeld (markUnconfirmed p { s with proofs := { s.proofs with list := l } }) := by
  obtain ⟨f, a, -⟩ := h.proofs.2.1 p hp
  exact CustodyHeld.mark (h.sublist l hl) p a hi

/-- R152: an entry joins the proof list for a Delivered lot that no other names. -/
theorem CustodyHeld.push {s : State} (h : CustodyHeld s) (p : ProofItem) (hi : ∀ q ∈ s.proofs.list, q.index ≠ p.index)
    (ht : s.trip.record.state ≠ .noTrip)
    (hp : ∃ f : ProofFields, (s.lots.get p.index).state = .delivered ∧ (s.lots.get p.index).lot = p.lot ∧
    (s.lots.get p.index).unconfirmed = false ∧ (s.lots.get p.index).proof = some f ∧ f.number = p.number ∧ f.check = p.check ∧
    f.record.tripId = s.trip.record.tripId) : CustodyHeld { s with proofs :=
        { s.proofs with list := s.proofs.list ++ [p] } } := by
  refine ⟨h.recorded, h.advisories, h.inTrips, h.unconfirmed, ⟨?_, fun q hq => ?_, fun hn => absurd hn ht⟩, h.oneEntry,
      h.oneSlot⟩
  · refine List.pairwise_append.2 ⟨h.proofs.1, List.pairwise_singleton _ _, fun q hq r hr => ?_⟩
    obtain rfl := List.mem_singleton.1 hr
    exact hi q hq
  · rcases List.mem_append.1 hq with hq | hq
    · exact h.proofs.2.1 q hq
    · obtain rfl := List.mem_singleton.1 hq; exact hp

theorem CustodyHeld.addProof {s : State} (h : CustodyHeld s) (p : ProofItem) (hi : ∀ q ∈ s.proofs.list, q.index ≠ p.index)
    (ht : s.trip.record.state ≠ .noTrip)
    (hp : ∃ f : ProofFields, (s.lots.get p.index).state = .delivered ∧ (s.lots.get p.index).lot = p.lot ∧
    (s.lots.get p.index).unconfirmed = false ∧ (s.lots.get p.index).proof = some f ∧ f.number = p.number ∧ f.check = p.check ∧
    f.record.tripId = s.trip.record.tripId) : CustodyHeld (addProof p s) := by
  unfold Machine.addProof
  simp only
  split
  · exact h.push p hi ht hp
  · split
    · exact h.push p hi ht hp
    · next old rest heq =>
      have hr : rest.Sublist s.proofs.list := by rw [heq]; exact List.sublist_cons_self _ _
      have ho : old ∈ s.proofs.list := by rw [heq]; exact List.mem_cons_self ..
      have hpw := h.proofs.1; rw [heq] at hpw
      have hm := h.dropMark old rest ho hr (fun q hq => ((List.pairwise_cons.1 hpw).1 q hq).symm)
      have hR := raise_raised .proofUnconfirmed (.lot old.lot)
          (State.modLot { s with proofs := { s.proofs with list := rest } } old.index (fun l => { l with unconfirmed := true }))
      have hne : p.index ≠ old.index := (hi old ho).symm
      refine hm.push p ?_ ?_ ?_
      · intro q hq
        have : (markUnconfirmed old { s with proofs := { s.proofs with list := rest } }).proofs.list = rest := by
          unfold markUnconfirmed; rw [hR.proofs]; rfl
        rw [this] at hq; exact hi q (hr.subset hq)
      · unfold markUnconfirmed; rw [hR.trip]; exact ht
      · have e : (markUnconfirmed old { s with proofs :=
          { s.proofs with list := rest } }).lots.get p.index = s.lots.get p.index := by
          unfold markUnconfirmed; rw [hR.lots]; simp only [State.modLot, get_upd_ne _ hne]
        have e2 : (markUnconfirmed old { s with proofs := { s.proofs with list := rest } }).trip = s.trip := by
          unfold markUnconfirmed; rw [hR.trip]; rfl
        rw [e, e2]; exact hp

theorem CustodyHeld.sealLot {s : State} (h : CustodyHeld s) (c : SealCause) (i : Fin 96) : CustodyHeld (sealLot c i s) := by
  unfold Machine.sealLot
  simp only
  split
  · next hs hh =>
    have ht : s.trip.record.state ≠ .noTrip := fun hn => h.inTrips hn i hs
    generalize hn : takeNumber s.lots s.trip.record = n
    rename_i hv
    generalize hr : buildRecord s.trip (s.lots.get i) hv n c = r
    have hrt : r.tripId = s.trip.record.tripId := by rw [← hr]; rfl
    generalize hk : r.check s.trip.record.sealWord = k
    have hu : (s.lots.get i).unconfirmed = false := by
      cases e : (s.lots.get i).unconfirmed with
      | false => rfl
      | true => rw [h.unconfirmed i e] at hs; cases hs
    have hT : CustodyHeld (s.modTrip (fun t => { t with nextProof := min 65535 (n + 1) })) :=
      h.steady ⟨fun _ => ⟨rfl, rfl, rfl, rfl, rfl⟩, rfl, ⟨rfl, rfl⟩, Claims.Kept.refl _, fun _ h => h⟩
    have hne : (s.lots.get i).state ≠ .delivered := by rw [hs]; decide
    have hnl := h.listed hne
    generalize hp : (ProofFields.mk n s.clock c k r) = p
    have hM : CustodyHeld ((s.modTrip (fun t => { t with nextProof := min 65535 (n + 1) })).modLot i
        (fun l => l.sealed p (retentionDeadline s.trip))) :=
      hT.modLotKeeping i _ hne ⟨fun h => (nomatch h), fun h => (nomatch h)⟩ (fun _ h => nomatch h) rfl
        ⟨fun h => (nomatch h), fun h => absurd (hs.symm.trans h) (by decide)⟩ rfl
    generalize hd : (Draft.mk _ _ _ _ _ _ _) = d
    have hA := hM.append d
    have hAr := append_recorded d ((s.modTrip (fun t => { t with nextProof := min 65535 (n + 1) })).modLot i
        (fun l => l.sealed p (retentionDeadline s.trip)))
    refine CustodyHeld.hand (hA.addProof _ ?_ ?_ ?_) _
    · intro q hq; rw [hAr.proofs] at hq; exact hnl q hq
    · rw [hAr.trip]; exact ht
    · refine ⟨p, ?_⟩
      rw [hAr.lots, hAr.trip]
      simp only [State.modLot, get_upd_self]
      rw [← hp]
      exact ⟨rfl, rfl, hu, rfl, rfl, rfl, hrt⟩
  · exact h

theorem CustodyHeld.sealLots {s : State} (h : CustodyHeld s) (c : SealCause) (p : LotEntry → Bool) :
    CustodyHeld (sealLots c p s) := by
  unfold Machine.sealLots
  apply foldl_keeps CustodyHeld _ _ _ s h
  intro s i hs
  split
  · exact hs.sealLot c i
  · exact hs

theorem CustodyHeld.door {s : State} (h : CustodyHeld s) (d : Fin 4) (f : DoorRt → DoorRt) : CustodyHeld (s.modDoorRt d f) :=
    h.only

theorem CustodyHeld.openDoor {s : State} (h : CustodyHeld s) (d : Fin 4) : CustodyHeld (openDoor d s) := by
  unfold Machine.openDoor
  simp only
  split
  · exact (h.door d _).append _
  · exact ((h.door d _).append _).raise _ _

theorem CustodyHeld.closeDoor {s : State} (h : CustodyHeld s) (d : Fin 4) : CustodyHeld (closeDoor d s) := by
  unfold Machine.closeDoor sealByDoor
  exact ((h.door d _).append _).sealLots _ _

theorem CustodyHeld.judgeContact {s : State} (h : CustodyHeld s) (d : Fin 4) : CustodyHeld (judgeContact d s) := by
  unfold Machine.judgeContact
  simp only
  split <;> split <;> first | exact h | exact h.openDoor d | exact h.closeDoor d

theorem CustodyHeld.edge {s : State} (h : CustodyHeld s) (d : Fin 4) : CustodyHeld (edge d s) := by
  have h1 : CustodyHeld (s.modDoorRt d (fun r => { r with level := r.line, changedAt := none })) := h.only
  unfold Machine.edge
  simp only
  split
  · exact h1.judgeContact d
  · split
    · exact (h1.openDoor d).door d _
    · exact h1
  · split
    · exact ((h1.door d _).raise _ _).append _
    · exact h1
  · exact h1
  · exact h1

theorem CustodyHeld.settleLine {s : State} (h : CustodyHeld s) (d : Fin 4) : CustodyHeld (settleLine d s) := by
  unfold Machine.settleLine
  split
  · exact h.edge d
  · exact h

/-! ### Replies and requests -/

theorem CustodyHeld.foldl {α : Type} {s : State} (h : CustodyHeld s) (f : State → α → State) (l : List α)
    (hf : ∀ s a, CustodyHeld s → CustodyHeld (f s a)) : CustodyHeld (l.foldl f s) :=
  foldl_keeps CustodyHeld f l hf s h

theorem CustodyHeld.reply {s : State} (h : CustodyHeld s) (a : ReplyTo) (c : ReplyCode) : CustodyHeld (reply a c s) := h.hand _

theorem CustodyHeld.replyBody {s : State} (h : CustodyHeld s) (a : ReplyTo) (c : ReplyCode) (b : List Byte) :
    CustodyHeld (replyBody a c b s) := h.hand _

theorem CustodyHeld.offer {s : State} (h : CustodyHeld s) (n : Nat) : CustodyHeld (offer n s) :=
    h.steady (offer_sent _ _).steady

theorem CustodyHeld.onRequest {s t : State} (hd : ReqHdr) (g : State → State) (h : CustodyHeld s) (hg : CustodyHeld (g s))
    (he : onRequest hd s g = .next t) : CustodyHeld t := by
  unfold Machine.onRequest at he
  cases he
  split
  · exact h
  · split
    · exact hg
    · exact h.only

theorem CustodyHeld.answered {s t : State} (hd : ReqHdr) (k : Byte) (g : State → State × ReplyCode) (h : CustodyHeld s)
    (hg : CustodyHeld (g s).1)
    (he : Machine.onRequest hd s (fun s => answered hd k (g s)) = .next t) : CustodyHeld t :=
  CustodyHeld.onRequest hd _ h (hg.reply _ _) he

theorem CustodyHeld.nodeRt {s : State} (h : CustodyHeld s) (n : Fin 32) (f : NodeRt → NodeRt) :
    CustodyHeld (s.modNodeRt n f) := h.only

theorem CustodyHeld.sensor {s : State} (h : CustodyHeld s) (f : Sensor → Sensor) : CustodyHeld (s.modSensor f) := h.only

/-! ### The sensor line -/
theorem CustodyHeld.nodeEvent {s : State} (h : CustodyHeld s) (n k kd) : CustodyHeld (nodeEvent n k kd s) :=
    (h.raise _ _).append _

theorem CustodyHeld.goodNode {s : State} (h : CustodyHeld s) (n) : CustodyHeld (goodNode n s) := by
  unfold Machine.goodNode; simp only; split
  · exact (h.nodeRt _ _).nodeEvent _ _ _
  · exact h.nodeRt _ _

theorem CustodyHeld.takeMiss {s : State} (h : CustodyHeld s) (n a k) : CustodyHeld (takeMiss n a k s) := by
  unfold Machine.takeMiss; simp only; split
  · exact ((h.nodeRt _ _).sensor _).nodeEvent _ _ _
  · exact (h.nodeRt _ _).sensor _

theorem CustodyHeld.report {s : State} (h : CustodyHeld s) (n v) : CustodyHeld (report n v s) := by
  unfold Machine.report; simp only; split
  · exact (h.hand _).nodeRt _ _
  · exact h.hand _

theorem CustodyHeld.applyPolicy {s : State} (h : CustodyHeld s) (n v) : CustodyHeld (applyPolicy n v s) := by
  unfold Machine.applyPolicy; simp only
  split
  · exact h.report _ _
  · exact h
  · split
    · exact (h.nodeRt _ _).report _ _
    · exact h.nodeRt _ _
  · split
    · exact h.report _ _
    · exact h

theorem CustodyHeld.takeReading {s : State} (h : CustodyHeld s) (n r q) : CustodyHeld (takeReading n r q s) := by
  unfold Machine.takeReading; simp only; split
  · exact (h.nodeRt _ _).applyPolicy _ _
  · exact h

/-! ### Scans -/
/-- R132: a scan memory is written, an advisory being left pending only where the trip state takes an Unload. -/
theorem CustodyHeld.mem {s : State} (h : CustodyHeld s) (n : Fin 32) (f : ScanMem → ScanMem)
    (hf : (f (s.scans.mem.get n)).pending ≠ none → (s.scans.mem.get n).pending ≠ none ∨
        (∃ k, s.trip.record.state = .atStop k) ∨ s.trip.record.state = .dock) :
    CustodyHeld (s.modMem n f) := by
  refine ⟨h.recorded, fun m hm => ?_, h.inTrips, h.unconfirmed, h.proofs, h.oneEntry, h.oneSlot⟩
  simp only [State.modMem, get_upd] at hm
  split at hm
  · next e => subst e; rcases hf hm with a | a
              · exact h.advisories m a
              · exact a
  · exact h.advisories m hm

theorem CustodyHeld.loadLot {s : State} (h : CustodyHeld s) (i : Fin 96) (sc) (hs : (s.lots.get i).state = .expected) :
    CustodyHeld (loadLot i sc s) := by
  unfold Machine.loadLot; simp only
  refine (h.modLotKeeping i _ (by rw [hs]; decide) ?_ (fun _ => ?_) ?_ ?_ ?_).append _
  all_goals unfold LotEntry.loaded LotEntry.raisePeak
  · have := h.recorded i; rw [hs] at this
    have : (s.lots.get i).handover.isSome = false := by
      cases e : (s.lots.get i).handover.isSome with
      | false => rfl
      | true => exact absurd (this.2 e) (by decide)
    split <;> simp [this]
  all_goals split <;> simp [hs]

theorem CustodyHeld.openHandoverOf {s : State} (h : CustodyHeld s) (i : Fin 96) (sc tk mk)
    (hs : (s.lots.get i).state = .onBoard) (ht : s.trip.record.state ≠ .noTrip) :
    CustodyHeld (openHandoverOf i sc tk mk s) := by
  unfold Machine.openHandoverOf; simp only
  exact (h.modLotKeeping i _ (by rw [hs]; decide) (by simp) (fun hn => absurd hn ht) rfl (by simp [hs]) rfl).append _

theorem CustodyHeld.cancelHandover {s : State} (h : CustodyHeld s) (i : Fin 96) (sc r)
    (hs : (s.lots.get i).state = .handover) : CustodyHeld (cancelHandover i sc r s) := by
  unfold Machine.cancelHandover; simp only
  exact (h.modLotKeeping i _ (by rw [hs]; decide) (by simp) (fun hn => by simp) rfl (by simp [hs]) rfl).append _

theorem unloadState_ne {t : TripState} (h : unloadState t = true) : (∃ k, t = .atStop k) ∨ t = .dock := by
  cases t <;> simp [unloadState] at h ⊢

theorem ne_noTrip {t : TripState} (h : (∃ k, t = .atStop k) ∨ t = .dock) : t ≠ .noTrip := by
  rcases h with ⟨k, rfl⟩ | rfl <;> exact fun h => nomatch h

theorem append_scans (d : Draft) (s : State) : (append d s).scans = s.scans := (append_recorded d s).scans

theorem append_trip (d : Draft) (s : State) : (append d s).trip = s.trip := (append_recorded d s).trip

theorem CustodyHeld.judgeScan {s : State} (h : CustodyHeld s) (n : Fin 32) (sc : Byte) (a : ScanAction) (f : ScanFields) :
    CustodyHeld (judgeScan n sc a f s).1 := by
  unfold Machine.judgeScan
  cases a with
  | load =>
    simp only; unfold judgeLoad
    split
    · exact h
    · next ht =>
      split
      · exact h
      · next i hi =>
        split
        · exact h
        · next hs =>
          exact h.loadLot i sc (not_not.1 hs)
  | unload =>
    have hm : CustodyHeld (s.modMem n (fun m => { m with pending := none })) := h.mem n _ (fun h => absurd rfl h)
    simp only; unfold judgeUnload
    split
    · exact hm
    · next ht =>
      have ht : unloadState s.trip.record.state = true := by simpa using ht
      split
      · exact hm
      · next i hi =>
        simp only
        split_ifs with h1 h2 h3 h4
        · exact hm
        · exact hm
        · exact hm
        · exact hm.mem n _ (fun _ => Or.inr (unloadState_ne ht))
        · exact hm.openHandoverOf i _ _ _ (not_not.1 h2) (ne_noTrip (unloadState_ne ht))
  | confirm =>
    simp only; unfold judgeConfirm
    split
    · exact h
    · next p hp =>
      split
      · exact h
      · have hm : CustodyHeld (s.modMem n (fun m => { m with pending := none })) := h.mem n _ (fun h => absurd rfl h)
        have ht := ne_noTrip (h.advisories n (by rw [hp]; exact fun h => nomatch h))
        simp only
        split
        · exact hm
        · split_ifs with h1 h2
          · exact hm
          · exact hm
          · exact hm.openHandoverOf _ _ _ _ (not_not.1 h1) ht
  | refuse =>
    simp only; unfold judgeRefuse
    split
    · exact h
    · split_ifs with h1
      · exact h
      · exact h.cancelHandover _ _ _ (not_not.1 h1)

theorem CustodyHeld.takeScan {s : State} (h : CustodyHeld s) (n : Fin 32) (f : ScanFields) : CustodyHeld (takeScan n f s) := by
  unfold Machine.takeScan
  split
  · exact h
  · split_ifs
    · exact h
    · exact (h.judgeScan n _ _ f).mem n _ (fun h => Or.inl h)

theorem CustodyHeld.handOn {s : State} (h : CustodyHeld s) (n f) : CustodyHeld (handOn n f s) := by
  unfold Machine.handOn
  split
  · split
    · exact h.takeReading _ _ _
    · exact h
  · split
    · split
      · exact h.takeScan _ _
      · exact h
    · exact h

theorem CustodyHeld.takeReply {s : State} (h : CustodyHeld s) (n a p c f) : CustodyHeld (takeReply n a p c f s) := by
  unfold Machine.takeReply; simp only
  split
  · exact (h.sensor _).takeMiss _ _ _
  · exact ((h.sensor _).goodNode _).handOn _ _

theorem CustodyHeld.takeSensorFrame {s : State} (h : CustodyHeld s) (c f) : CustodyHeld (takeSensorFrame c f s) := by
  unfold Machine.takeSensorFrame
  split
  · exact h
  · exact h.takeReply _ _ _ _ _
  · split
    · exact (h.sensor _).hand _
    · exact h

theorem CustodyHeld.zoneRt {s : State} (h : CustodyHeld s) (z f) : CustodyHeld (s.modZoneRt z f) := h.only

theorem CustodyHeld.computeZone {s : State} (h : CustodyHeld s) (z) : CustodyHeld (computeZone z s) := by
  unfold Machine.computeZone; simp only
  split
  · split
    · exact (h.zoneRt _ _).raise _ _
    · exact h
  · split
    · unfold takeStep; simp only; split
      · exact ((h.zoneRt _ _).zoneRt _ _).raise _ _
      · exact ((((h.zoneRt _ _).zoneRt _ _).raise _ _).raise _ _).append _
    · exact h.zoneRt _ _

theorem CustodyHeld.computeZones {s : State} (h : CustodyHeld s) : CustodyHeld (computeZones s) := by
  refine h.foldl _ _ fun s z hs => ?_
  split
  · exact hs.computeZone z
  · exact hs

theorem soften_key (l : LotEntry) (c) : (l.soften c).lot = l.lot ∧ (l.soften c).state = l.state ∧
    (l.soften c).unconfirmed = l.unconfirmed ∧ (l.soften c).proof = l.proof ∧ (l.soften c).handover = l.handover := by
  unfold LotEntry.soften; split_ifs <;> exact ⟨rfl, rfl, rfl, rfl, rfl⟩

theorem expose_key (l : LotEntry) (c : ClassEntry) (p : Nat) (air : Int) (served : Bool) (k : Clock) :
    let x := l.expose c p air served k
    x.lot = l.lot ∧ x.state = l.state ∧ x.unconfirmed = l.unconfirmed ∧ x.proof = l.proof ∧ x.handover = l.handover := by
  unfold LotEntry.expose LotEntry.raisePeak LotEntry.soften LotEntry.addDose
  simp only
  split_ifs <;> exact ⟨rfl, rfl, rfl, rfl, rfl⟩

theorem CustodyHeld.updateLot {s : State} (h : CustodyHeld s) (i) : CustodyHeld (updateLot i s) := by
  have hc : ∀ s, CustodyHeld s → CustodyHeld (countUpdate i s) := fun s h => by
    unfold countUpdate; simp only
    have : CustodyHeld (s.modLot i (fun l => { l with updates := l.updates + 1 })) :=
        h.steady (modLot_steady _ _ _ ⟨rfl, rfl, rfl, rfl, rfl⟩)
    split
    · exact this.append _
    · exact this
  have hg : ∀ s, CustodyHeld s → CustodyHeld (gradeLot i s) := fun s h => by
    unfold gradeLot; simp only
    split
    · exact ((h.steady (modLot_steady _ _ _ ⟨rfl, rfl, rfl, rfl, rfl⟩)).raise _ _).append _
    · exact h
  unfold Machine.updateLot; simp only
  refine hc _ ?_
  split
  · refine hg _ (h.steady (modLot_steady _ _ _ ?_)); exact expose_key _ _ _ _ _ _
  · refine hg _ (h.steady (modLot_steady _ _ _ ?_)); exact expose_key _ _ _ _ _ _
  · exact h.steady (modLot_steady _ _ _ ⟨rfl, rfl, rfl, rfl, rfl⟩)

theorem CustodyHeld.updateLots {s : State} (h : CustodyHeld s) : CustodyHeld (updateLots s) := by
  refine h.foldl _ _ fun s z hs => ?_
  split
  · exact hs.updateLot z
  · exact hs

/-! ### The lot table's commands -/
theorem CustodyHeld.manifestAdd {s : State} (h : CustodyHeld s) (f) : CustodyHeld (manifestAdd f s).1 := by
  unfold Machine.manifestAdd
  split_ifs with h0 h1
  · exact h
  · split
    · unfold manifestPlace; simp only
      generalize (if plannedDropped s f = true then none else _) = pl
      by_cases h2 : s.trip.record.state = .transit
      · rw [if_pos h2]; exact h
      · rw [if_neg h2]
        split
        · split_ifs with h3
          · refine h.modLotKeeping _ _ (by rw [h3]; decide) ?_ (fun _ => ?_) rfl ?_ rfl
            · have := h.recorded ‹_›; rw [h3] at this; simp [LotEntry.remanifest]
              cases e : (s.lots.get ‹_›).handover with
              | none => rfl
              | some x => rw [e] at this; exact absurd (this.2 rfl) (by decide)
            · simp [LotEntry.remanifest]
            · simp [LotEntry.remanifest, h3]
          · exact h
        · next hn =>
          split
          · exact h
          · next i hi =>
            have hi : (s.lots.get i).state = .free := by
              have := findIndex_some hi; simpa using this.1
            refine h.modLot i _ (by simp [occupied, LotEntry.free]) (fun _ => by simp [occupied])
                (by simp [occupied, LotEntry.free]) (h.listed (by rw [hi]; decide))
              (by simpa [occupied] using h0) (fun _ j hj e => ?_)
            have e : (s.lots.get j).lot = f.lot := e
            rcases findLot_none.1 hn j with a | a
            · rw [(h.oneEntry.1 j).1 a] at e; exact h0 e.symm
            · exact a e
    · exact h
  · exact h

theorem CustodyHeld.freeLot {s : State} (h : CustodyHeld s) (i) (hi : ∀ p ∈ s.proofs.list, p.index ≠ i) :
    CustodyHeld (freeLot i s) :=
  h.modLot i _ (by simp [LotEntry.free]) (fun _ => by simp [LotEntry.free]) (by simp [LotEntry.free]) hi
      (by simp [LotEntry.free]) (by simp [LotEntry.free])

theorem CustodyHeld.manifestDelete {s : State} (h : CustodyHeld s) (l) : CustodyHeld (manifestDelete l s).1 := by
  unfold Machine.manifestDelete
  split
  · exact h
  · split_ifs with h1
    · refine CustodyHeld.freeLot (h.steady (discardFor_steady l s)) _ ?_
      rw [show (discardFor l s).proofs = s.proofs from (discardFor_recorded l s).proofs]
      exact h.listed (by rw [h1]; decide)
    · exact h

theorem CustodyHeld.expireLot {s : State} (h : CustodyHeld s) (i) : CustodyHeld (expireLot i s) := by
  unfold Machine.expireLot; simp only
  refine CustodyHeld.freeLot ((h.steady (discardFor_steady _ s)).sublist _ List.filter_sublist) _ ?_
  intro p hp; simpa using (List.mem_filter.1 hp).2

theorem CustodyHeld.moveLot {s : State} (h : CustodyHeld s) (l z) : CustodyHeld (moveLot l z s).1 := by
  unfold Machine.moveLot
  split
  · exact h
  · split
    · exact h
    · split_ifs
      · exact h
      · exact h
      · exact h
      · exact (h.steady (modLot_steady _ _ _ ⟨rfl, rfl, rfl, rfl, rfl⟩)).append _

theorem CustodyHeld.makeShort {s : State} (h : CustodyHeld s) (k i) (hs : (s.lots.get i).state = .expected) :
    CustodyHeld (makeShort k i s) := by
  unfold Machine.makeShort; simp only
  refine (h.modLotKeeping i _ (by rw [hs]; decide) ?_ (fun _ => by simp) rfl (by simp [hs]) rfl).append _
  have := h.recorded i; rw [hs] at this
  cases e : (s.lots.get i).handover with
  | none => simp
  | some x => rw [e] at this; exact absurd (this.2 rfl) (by decide)

theorem CustodyHeld.makeReturned {s : State} (h : CustodyHeld s) (i) (hs : (s.lots.get i).state = .onBoard) :
    CustodyHeld (makeReturned i s) := by
  unfold Machine.makeReturned; simp only
  refine (h.modLotKeeping i _ (by rw [hs]; decide) ?_ (fun _ => by simp) rfl (by simp [hs]) rfl).append _
  have := h.recorded i; rw [hs] at this
  cases e : (s.lots.get i).handover with
  | none => simp
  | some x => rw [e] at this; exact absurd (this.2 rfl) (by decide)

theorem CustodyHeld.shortAll {s : State} (h : CustodyHeld s) (k) : CustodyHeld (shortAll k s) := by
  refine h.foldl _ _ fun s z hs => ?_
  split
  · next e => exact hs.makeShort k z e
  · exact hs

theorem CustodyHeld.returnAll {s : State} (h : CustodyHeld s) : CustodyHeld (returnAll s) := by
  refine h.foldl _ _ fun s z hs => ?_
  split
  · next e => exact hs.makeReturned z e
  · exact hs

theorem CustodyHeld.emptyProofs {s : State} (h : CustodyHeld s) (n) : CustodyHeld (emptyProofs n s) := by
  induction n generalizing s with
  | zero => exact h
  | succ n ih =>
    unfold Machine.emptyProofs
    split
    · exact h
    · next p rest heq =>
      have hpw := h.proofs.1; rw [heq] at hpw
      exact ih (h.dropMark p rest (by rw [heq]; exact List.mem_cons_self ..) (by rw [heq]; exact List.sublist_cons_self _ _)
        (fun q hq => ((List.pairwise_cons.1 hpw).1 q hq).symm))

theorem emptyProofs_empty (n) (s : State) (h : s.proofs.list.length ≤ n) : (emptyProofs n s).proofs.list = [] := by
  induction n generalizing s with
  | zero => exact List.length_eq_zero_iff.1 (Nat.le_zero.1 h)
  | succ n ih =>
    unfold Machine.emptyProofs
    split
    · next h => exact h
    · next p rest heq =>
      apply ih
      rw [show (markUnconfirmed p { s with proofs := { s.proofs with list := rest } }).proofs.list = rest from by
        unfold markUnconfirmed; rw [(raise_raised _ _ _).proofs]; rfl]
      rw [heq] at h; simpa using h

theorem emptyProofs_states (n) (s : State) : (∀ i, ((emptyProofs n s).lots.get i).state = (s.lots.get i).state) ∧
    (emptyProofs n s).scans = s.scans := by
  induction n generalizing s with
  | zero => exact ⟨fun _ => rfl, rfl⟩
  | succ n ih =>
    unfold Machine.emptyProofs
    split
    · exact ⟨fun _ => rfl, rfl⟩
    · next p rest heq =>
      obtain ⟨a, b⟩ := ih (markUnconfirmed p { s with proofs := { s.proofs with list := rest } })
      refine ⟨fun i => (a i).trans ?_, b.trans ?_⟩
      · unfold markUnconfirmed; rw [(raise_raised _ _ _).lots]; simp only [State.modLot, get_upd]; split
        · next e => subst e; rfl
        · rfl
      · unfold markUnconfirmed; rw [(raise_raised _ _ _).scans]; rfl

theorem CustodyHeld.dropAdvisories {s : State} (h : CustodyHeld s) : CustodyHeld (dropAdvisories s) :=
  ⟨h.recorded, fun n hn => absurd (by simp [Machine.dropAdvisories]) hn, h.inTrips, h.unconfirmed, h.proofs, h.oneEntry,
      h.oneSlot⟩

/-- The trip record changes while no advisory is pending and nothing rests on its state and trip id. -/
theorem CustodyHeld.modTrip {s : State} (h : CustodyHeld s) (f : TripRecord → TripRecord)
    (h1 : ∀ n, (s.scans.mem.get n).pending = none)
    (h2 : (f s.trip.record).state = .noTrip → (∀ i, (s.lots.get i).state ≠ .handover) ∧ s.proofs.list = [])
    (h3 : (f s.trip.record).tripId = s.trip.record.tripId ∨ s.proofs.list = []) : CustodyHeld (s.modTrip f) :=
  ⟨h.recorded, fun n hn => absurd (h1 n) hn, fun hn => (h2 hn).1, h.unconfirmed, ⟨h.proofs.1, fun p hp => by
    rcases h3 with h3 | h3
    · show ∃ _, _ ∧ _ ∧ _ ∧ _ ∧ _ ∧ _ ∧ _ = (f s.trip.record).tripId
      rw [h3]; exact h.proofs.2.1 p hp
    · exact absurd (h3 ▸ hp : p ∈ []) (by simp), fun hn => (h2 hn).2⟩, h.oneEntry, h.oneSlot⟩

theorem CustodyHeld.pending_none {s : State} (h : CustodyHeld s)
    (ht : ¬ ((∃ k, s.trip.record.state = .atStop k) ∨ s.trip.record.state = .dock)) (n) : (s.scans.mem.get n).pending = none :=
        by
  by_contra e; exact ht (h.advisories n e)

theorem CustodyHeld.beginVisit {s : State} (h : CustodyHeld s) (k) : CustodyHeld (beginVisit k s) := h.only

theorem CustodyHeld.endVisit {s : State} (h : CustodyHeld s) : CustodyHeld (endVisit s) := h.only

theorem CustodyHeld.clearVisited {s : State} (h : CustodyHeld s) : CustodyHeld (clearVisited s) := h.only

/-! ### Trips -/

theorem CustodyHeld.tripOpen {s : State} (h : CustodyHeld s) (p) : CustodyHeld (tripOpen p s).1 := by
  unfold Machine.tripOpen
  split
  · exact h
  · next m _ =>
    split_ifs with h1
    · exact h
    · have hn : s.trip.record.state = .noTrip := by simpa [tripIsOpen] using h1
      unfold openTrip; simp only
      have hm : CustodyHeld (s.modTrip (fun _ => openedRecord m p)) :=
          h.modTrip _ (h.pending_none (by rw [hn]; simp)) (fun e => by cases m <;> simp [openedRecord] at e)
        (Or.inr (h.proofs.2.2 hn))
      have hd : ∀ s, CustodyHeld s → CustodyHeld (dropPlanned m s) := fun s h => by
        cases m with
        | van => exact h
        | room =>
          refine h.steady ⟨fun i => ?_, rfl, ⟨rfl, rfl⟩, Claims.Kept.refl _, fun _ h => h⟩
          simp only [dropPlanned, get_mapV]; split <;> exact ⟨rfl, rfl, rfl, rfl, rfl⟩
      exact ((hd _ hm.clearVisited).beginVisit 0).append _

theorem sealLots_scans (c p) (s : State) : (sealLots c p s).scans = s.scans := (sealLots_custody c p s).scans

theorem shortAll_scans (k) (s : State) : (shortAll k s).scans = s.scans := by
  unfold shortAll
  refine foldl_keeps (fun t => t.scans = s.scans) _ _ (fun t i h => ?_) s rfl
  split
  · unfold makeShort; simp only; rw [append_scans]; exact h
  · exact h

theorem returnAll_scans (s : State) : (returnAll s).scans = s.scans := by
  unfold returnAll
  refine foldl_keeps (fun t => t.scans = s.scans) _ _ (fun t i h => ?_) s rfl
  split
  · unfold makeReturned; simp only; rw [append_scans]; exact h
  · exact h

theorem CustodyHeld.depart {s : State} (h : CustodyHeld s) : CustodyHeld (depart s).1 := by
  unfold Machine.depart
  split
  · next k _ =>
    unfold departTrip; simp only
    have h2 : CustodyHeld (Machine.endVisit (Machine.shortAll k.val
        (Machine.sealLots .depart (fun l => decide (l.state = .handover)) (Machine.dropAdvisories s)))) :=
      ((h.dropAdvisories.sealLots _ _).shortAll _).endVisit
    have hp : ∀ n, ((Machine.endVisit (Machine.shortAll k.val
        (Machine.sealLots .depart (fun l => decide (l.state = .handover))
            (Machine.dropAdvisories s)))).scans.mem.get n).pending = none := fun n => by
      have e : ∀ x, (Machine.endVisit x).scans = x.scans := fun _ => rfl
      rw [e, shortAll_scans, sealLots_scans]; simp [Machine.dropAdvisories]
    generalize Machine.endVisit (Machine.shortAll k.val
        (Machine.sealLots .depart (fun l => decide (l.state = .handover)) (Machine.dropAdvisories s))) = w at h2 hp ⊢
    exact CustodyHeld.append (h2.modTrip (fun r => { r with state := .transit }) hp (fun e => absurd e (by simp))
        (Or.inl rfl)) _
  · exact h

theorem CustodyHeld.arrive {s : State} (h : CustodyHeld s) (k) : CustodyHeld (arrive k s).1 := by
  unfold Machine.arrive
  split_ifs with h1
  · exact h
  · split
    · next kk _ =>
      split_ifs
      · exact h
      · have ht : s.trip.record.state = .transit := by
          by_contra e; exact h1 (Or.inr e)
        unfold arriveAt; simp only
        have := h.modTrip (fun r => { r with state := .atStop kk }) (h.pending_none (by rw [ht]; simp))
            (fun e => absurd e (by simp)) (Or.inl rfl)
        refine CustodyHeld.append (CustodyHeld.beginVisit (CustodyHeld.only this) _) _
    · exact h

/-- R145: no lot is in Handover once every lot in Handover has been sealed. -/
theorem sealLots_none {s : State} (h : CustodyHeld s) (c) (i) :
    ((sealLots c (fun l => decide (l.state = .handover)) s).lots.get i).state ≠ .handover := by
  obtain ⟨h1, h2, -⟩ := sealLots_lots c (fun l => decide (l.state = .handover))
      (fun a b hm => by unfold Marked at hm; rw [hm]) s
  by_cases hs : (s.lots.get i).state = .handover
  · have hr : (s.lots.get i).handover ≠ none := Option.isSome_iff_ne_none.1 ((h.recorded i).1 hs)
    obtain ⟨p, -, -, e⟩ := h1 i (by rw [sealable_iff]; exact ⟨by simpa using hs, hs, hr⟩)
    rw [e]; simp
  · have := h2 i (by cases e : sealable _ (s.lots.get i) with
      | false => rfl
      | true => rw [sealable_iff] at e; exact absurd e.2.1 hs)
    unfold Marked at this; rw [this]; exact hs

theorem CustodyHeld.tripClose {s : State} (h : CustodyHeld s) : CustodyHeld (tripClose s).1 := by
  unfold Machine.tripClose
  split_ifs
  · unfold closeTrip; simp only
    have h1 := h.dropAdvisories.sealLots .closure (fun l => decide (l.state = .handover))
    have hn1 := sealLots_none h.dropAdvisories .closure
    have hs1 : ∀ n, ((Machine.sealLots .closure (fun l => decide (l.state = .handover))
        (Machine.dropAdvisories s)).scans.mem.get n).pending = none := fun n => by
      rw [sealLots_scans]; simp [Machine.dropAdvisories]
    generalize Machine.sealLots .closure (fun l => decide (l.state = .handover)) (Machine.dropAdvisories s) = s1 at h1 hn1 hs1 ⊢
    have h2 := h1.returnAll
    have hn2 : ∀ i, ((Machine.returnAll s1).lots.get i).state ≠ .handover := fun i => by
      obtain ⟨a, b, -⟩ := returnAll_lots s1
      by_cases e : (s1.lots.get i).state = .onBoard
      · have := a i e; unfold Gapped at this; rw [this]; simp
      · have := b i e; unfold Gapped at this; rw [this]; exact hn1 i
    have hs2 : ∀ n, ((Machine.returnAll s1).scans.mem.get n).pending = none := fun n => by rw [returnAll_scans]; exact hs1 n
    generalize Machine.returnAll s1 = s2 at h2 hn2 hs2 ⊢
    have h3 : CustodyHeld (if s2.trip.record.state.stop.isSome then Machine.endVisit s2 else s2) :=
        by split; exact h2.endVisit; exact h2
    have hn3 : ∀ i, ((if s2.trip.record.state.stop.isSome then Machine.endVisit s2 else s2).lots.get i).state ≠ .handover :=
        by split; exact hn2; exact hn2
    have hs3 : ∀ n, ((if s2.trip.record.state.stop.isSome then Machine.endVisit s2 else s2).scans.mem.get n).pending = none :=
        by split; exact hs2; exact hs2
    generalize (if s2.trip.record.state.stop.isSome then Machine.endVisit s2 else s2) = s3 at h3 hn3 hs3 ⊢
    refine CustodyHeld.append (CustodyHeld.modTrip (CustodyHeld.clearVisited (h3.emptyProofs _)) _ (fun n => ?_)
        (fun _ => ⟨fun i => ?_, ?_⟩) (Or.inl rfl)) _
    · show (Vector.get (Machine.emptyProofs _ s3).scans.mem n).pending = none
      rw [(emptyProofs_states _ _).2]; exact hs3 n
    · show (Vector.get (Machine.emptyProofs _ s3).lots i).state ≠ _
      rw [(emptyProofs_states _ _).1]; exact hn3 i
    · exact emptyProofs_empty _ s3 (Nat.le_refl _)
  · exact h

/-! ### Claims, exports, reads and resets -/

theorem CustodyHeld.openFor {s : State} (h : CustodyHeld s) (q) (hn : ∀ k x, s.claims.slots.get k = some x → x.lot ≠ q.lot) :
    CustodyHeld (openFor q s) := by
  unfold Machine.openFor
  split
  · next k hk =>
    refine CustodyHeld.hand ?_ _
    unfold openSlot
    let slot : Slot := { lot := q.lot, tag := q.tag, state := .queued, reach := none, deadline := none, statement := none }
    let opened : Claims := { s.claims with slots := upd s.claims.slots k (fun _ => some slot), order := s.claims.order ++ [k] }
    have hn' : CustodyHeld { s with claims := opened } := by
      refine ⟨h.recorded, h.advisories, h.inTrips, h.unconfirmed, h.proofs, h.oneEntry, fun a b x y hx hy e => ?_⟩
      simp only [opened, get_upd] at hx hy
      by_cases ha : a = k <;> by_cases hb : b = k
      · rw [ha, hb]
      · rw [if_pos ha] at hx; rw [if_neg hb] at hy; cases hx
        exact absurd e.symm (hn b y hy)
      · rw [if_neg ha] at hx; rw [if_pos hb] at hy; cases hy
        exact absurd e (hn a x hx)
      · rw [if_neg ha] at hx; rw [if_neg hb] at hy; exact h.oneSlot a b x y hx hy e
    exact hn'.steady ⟨fun _ => ⟨rfl, rfl, rfl, rfl, rfl⟩, rfl, ⟨rfl, rfl⟩, run_kept _ _ _ _ _ _ _, fun _ h => h⟩
  · exact CustodyHeld.hand h.only _

theorem CustodyHeld.handAll {s : State} (h : CustodyHeld s) (fs) : CustodyHeld (handAll fs s).1 := by
  induction fs generalizing s with
  | nil => exact h
  | cons f fs ih =>
    unfold Machine.handAll; simp only; split
    · exact ih (h.hand f)
    · exact h.hand f

theorem CustodyHeld.release {s : State} (h : CustodyHeld s) (k) : CustodyHeld { s with claims := s.claims.release k } :=
  h.steady ⟨fun _ => ⟨rfl, rfl, rfl, rfl, rfl⟩, rfl, ⟨rfl, rfl⟩, release_kept _ _, fun _ h => h⟩

theorem CustodyHeld.claimQuery {s : State} (h : CustodyHeld s) (q) : CustodyHeld (claimQuery q s) := by
  have plain : ∀ a, CustodyHeld (answerPlain q a s) := fun a => CustodyHeld.hand h.only _
  unfold Machine.claimQuery
  split
  · exact plain _
  · split
    · exact plain _
    · exact plain _
    · unfold answerFromSlots
      split
      · next hn => exact h.openFor q (slotFor_none.1 hn)
      · next k hk =>
        obtain ⟨y, hy, hl⟩ := slotFor_some hk
        rw [hy]; simp only
        split_ifs
        · split
          · unfold sendStatement; simp only; split
            · exact (h.handAll _).release k
            · exact h.handAll _
          · exact h.hand _
        · refine (h.steady (discardSlot_steady k s)).openFor q fun j x hx e => ?_
          obtain ⟨z, hz, e'⟩ := discardSlot_kept k s j x hx
          have hjk := h.oneSlot j k z y hz hy (by rw [e', e, hl])
          rw [hjk, (discardSlot_slots k s).1] at hx
          cases hx

theorem CustodyHeld.powerOn (now st c u a) (s : State) : CustodyHeld (powerOnState now st c u a s) := by
  have hl : ∀ i, (powerOnState now st c u a s).lots.get i = LotEntry.free := fun i => by simp [powerOnState, Vector.get]
  have hc : ∀ i, (powerOnState now st c u a s).claims.slots.get i = none :=
      fun i => by simp [powerOnState, Claims.powerOn, Vector.get]
  refine ⟨fun i => by rw [hl]; simp [LotEntry.free],
      fun n hn => absurd (by simp [powerOnState, Scans.powerOn, Vector.get, ScanMem.cleared]) hn,
          fun _ i => by rw [hl]; simp [LotEntry.free],
    fun i => by rw [hl]; simp [LotEntry.free], ⟨List.Pairwise.nil, fun p hp => absurd (show p ∈ [] from hp) (by simp),
        fun _ => rfl⟩, ⟨fun i => by rw [hl]; simp [LotEntry.free], fun i j => by rw [hl]; simp [LotEntry.free]⟩,
    fun j k x y hx => by rw [hc] at hx; cases hx⟩

theorem CustodyHeld.linkReset {s : State} (h : CustodyHeld s) : CustodyHeld (linkReset s) :=
  ⟨h.recorded, fun n hn => absurd (by simp [Machine.linkReset, Scans.powerOn, Vector.get, ScanMem.cleared]) hn, h.inTrips,
      h.unconfirmed, h.proofs, h.oneEntry,
   fun j k x y hx => by simp [Machine.linkReset, Claims.resetLink, Claims.powerOn, Vector.get] at hx⟩

theorem CustodyHeld.endExport {s : State} (h : CustodyHeld s) : CustodyHeld (endExport s) := h.only

theorem CustodyHeld.sendPiece {s : State} (h : CustodyHeld s) (r) : CustodyHeld (sendPiece r s) := by
  unfold Machine.sendPiece; simp only; split
  · exact CustodyHeld.hand h.only _
  · have h1 : CustodyHeld (setRead (ReadRec.after s (ReadRec.fill Config.readPiece s r)) s) := h.only
    have h2 := h1.hand (ReadRec.frame s (ReadRec.fill Config.readPiece s r))
    generalize (Machine.hand _ _).1 = w at h2 ⊢
    exact h2.only

theorem CustodyHeld.tableRead {s : State} (h : CustodyHeld s) (a b c d) : CustodyHeld (tableRead a b c d s) := by
  have h1 : CustodyHeld (setRead none s) := h.only
  unfold Machine.tableRead; simp only; split
  · exact h1.reply _ _
  · exact h1.hand _
  · unfold beginRead; exact CustodyHeld.sendPiece h1.only _

theorem CustodyHeld.jrnlReq {s : State} (h : CustodyHeld s) (a b c d) : CustodyHeld (jrnlReq a b c d s) := by
  unfold Machine.jrnlReq
  split
  · exact h.endExport.reply _ _
  · split
    · exact h.endExport.reply _ _
    · unfold startExport; simp only
      exact CustodyHeld.offer (CustodyHeld.only (h.endExport.reply _ _)) _

theorem CustodyHeld.throughReply {s : State} (h : CustodyHeld s) (f c) : CustodyHeld (throughReply f c s) := h.hand _

theorem CustodyHeld.writeNode {s : State} (h : CustodyHeld s) (n e) : CustodyHeld (writeNode n e s) := by
  have ab : ∀ s, CustodyHeld s → CustodyHeld (abandonThrough n s) := fun s h => by
    unfold abandonThrough; split
    · split
      · exact (h.sensor _).throughReply _ _
      · exact h
    · exact h
  have dr : ∀ s, CustodyHeld s → CustodyHeld (dropThrough n s) := fun s h => by
    unfold dropThrough
    exact (h.sensor _).foldl _ _ fun s a h => h.throughReply _ _
  unfold Machine.writeNode; simp only
  refine ab _ ((dr _ ?_).sensor _)
  split
  · exact (h.sensor _).mem n _ (fun h => absurd rfl h)
  · exact h.sensor _

theorem CustodyHeld.writeDoor {s : State} (h : CustodyHeld s) (d e) : CustodyHeld (writeDoor d e s) := by
  unfold Machine.writeDoor; simp only
  have hs : ∀ s, CustodyHeld s → CustodyHeld (setDoorEntry d e s) := fun s h => h.only
  have : CustodyHeld (if (s.doors.entries.get d).mode ≠ e.mode then changeMode d e s else keepMode d e s) := by
    split
    · unfold changeMode; simp only
      have h1 : CustodyHeld (if (s.doors.rts.get d).state = .opened then Machine.closeDoor d s else s) := by
        split
        · exact h.closeDoor d
        · exact h
      unfold enterMode
      split
      · exact ((CustodyHeld.door (hs _ h1) d _).door d _).judgeContact d
      all_goals exact (CustodyHeld.door (hs _ h1) d _).door d _
    · unfold keepMode; simp only; split
      · exact (hs _ h).judgeContact d
      · exact hs _ h
  split
  · exact this.settleLine d
  · exact this

theorem CustodyHeld.setTrain {s : State} (h : CustodyHeld s) (b t) : CustodyHeld (setTrain b t s) := h.only

theorem CustodyHeld.setTime {s : State} (h : CustodyHeld s) (v) : CustodyHeld (setTime v s) := by
  have h1 : CustodyHeld { s with trip := { s.trip with clock := v, unsynced := false } } := h.only
  unfold Machine.setTime; simp only; split
  · exact (h1.raise _ _).append _
  · exact h1

end Sys2Proof.Machine
end

