-- ==== Sys2Proof/Laws/Layouts.lean ====
section
/-! SUPPORT. The cutting and the length of a claim statement's bytes (spec 10 R175; spec 11 R196, R197), and the power-on
values (spec 11 R195). -/

namespace Sys2Proof.Machine

/-! ### Claim statements -/

/-- R175: the pieces of a statement's bytes: all of them, in order, 49 bytes in each but the last. -/
theorem pieces_spec (n : Nat) (bytes : List Byte) (hn : bytes.length ≤ n) (hb : bytes ≠ []) :
    (pieces 49 n bytes).flatten = bytes ∧ pieces 49 n bytes ≠ [] ∧
    ∀ j p, (pieces 49 n bytes)[j]? = some p → p ≠ [] ∧ p.length ≤ 49 ∧ (j + 1 < (pieces 49 n bytes).length → p.length = 49) := by
  induction n generalizing bytes with
  | zero => exact absurd (List.length_eq_zero_iff.1 (Nat.le_zero.1 hn)) hb
  | succ n ih =>
    unfold pieces
    split
    · next h =>
      refine ⟨by simp, by simp, fun j p hj => ?_⟩
      cases j with
      | zero => cases hj; exact ⟨hb, h, fun hh => by simp at hh⟩
      | succ j => simp at hj
    · next h =>
      have hd : (bytes.drop 49) ≠ [] := fun e => by
        have := congrArg List.length e; simp at this; omega
      obtain ⟨i1, i2, i3⟩ := ih (bytes.drop 49) (by rw [List.length_drop]; omega) hd
      refine ⟨by rw [List.flatten_cons, i1, List.take_append_drop], by simp, fun j p hj => ?_⟩
      cases j with
      | zero =>
        cases hj
        have : (bytes.take 49).length = 49 := by rw [List.length_take]; omega
        refine ⟨fun e => ?_, by omega, fun _ => this⟩
        rw [e] at this; exact absurd this (by decide)
      | succ j =>
        obtain ⟨k1, k2, k3⟩ := i3 j p (by simpa using hj)
        exact ⟨k1, k2, fun hh => k3 (by simpa using hh)⟩

/-- R175: the frames of a statement: one for each piece, in order, with First, Last and the sequence. -/
theorem statementFrames_get (q : Query) (k : Fin 4) (ps : List (List Byte)) (n : Nat) :
    (statementFrames q k n ps).length = ps.length ∧
    ∀ (j : Nat) (p : List Byte), ps[j]? = some p → (statementFrames q k n ps)[j]? = some (claimFrame q .statement (BitVec.ofNat 8 k.val)
      (BitVec.ofNat 8 ((if n + j = 0 then 128 else 0) + (if j + 1 = ps.length then 64 else 0) + (n + j) % 64)) p) := by
  induction ps generalizing n with
  | nil => exact ⟨rfl, fun j p h => nomatch h⟩
  | cons a ps ih =>
    obtain ⟨i1, i2⟩ := ih (n + 1)
    refine ⟨by simp [statementFrames, i1], fun j p h => ?_⟩
    cases j with
    | zero =>
      cases h
      simp only [statementFrames, List.getElem?_cons_zero, tagOf, Nat.add_zero, decide_eq_true_eq]
      cases ps <;> simp
    | succ j =>
      have := i2 j p (by simpa using h)
      simp only [statementFrames, List.getElem?_cons_succ, this, List.length_cons, show n + 1 + j = n + (j + 1) by omega,
        Nat.add_right_cancel_iff]

/-- R196: how long an optional field can be. -/
theorem optional_le {α : Type} {f : α → List Byte} {n : Nat} (h : ∀ a, (f a).length ≤ n) (o : Option α) :
    (optional f o).length ≤ n + 1 := by
  cases o with
  | none => exact Nat.le_add_left 1 n
  | some a => exact Nat.succ_le_succ (h a)

/-- R196: how long a list of items can be. -/
theorem flatMap_length_le {α : Type} {f : α → List Byte} {n : Nat} (h : ∀ a, (f a).length ≤ n) (l : List α) :
    (l.flatMap f).length ≤ n * l.length := by
  induction l with
  | nil => simp
  | cons a l ih => rw [List.flatMap_cons, List.length_append, List.length_cons, Nat.mul_succ]; have := h a; omega

/-- R197: a custody item takes at most 19 bytes. -/
theorem item_bytes_le (i : Item) : i.bytes.length ≤ 19 := by
  cases i <;> simp only [Item.bytes, List.length_append, b1, b4, b2, List.length_cons, List.length_nil] <;> try omega
  have := optional_le (f := Cancel.bytes) (n := 6) (fun c => le_refl 6) ‹_›
  omega

/-- R197: a statement within its bounds takes at most 710 bytes. -/
theorem statement_bytes_le (y : Statement) (h1 : y.items.length ≤ 24) (h2 : y.openings.length ≤ 16) : y.bytes.length ≤ 710 := by
  have hb1 : ∀ x, (b1 x).length = 1 := fun _ => rfl
  have hn2 : ∀ x, (n2 x).length = 2 := fun _ => rfl
  have ht2 : ∀ x, (temp2 x).length = 2 := fun _ => rfl
  have hb4 : ∀ x, (b4 x).length = 4 := fun _ => rfl
  have hn4 : ∀ x, (n4 x).length = 4 := fun _ => rfl
  have hfl : ∀ x, (flag x).length = 1 := fun _ => rfl
  have w (x : Option Word) := optional_le (f := b4) (n := 4) (fun c => (hb4 c).le) x
  have a1 := flatMap_length_le item_bytes_le y.items
  have a2 := flatMap_length_le (f := Opening.bytes) (n := 11) (fun o => by
    have := w o.duration
    simp only [Opening.bytes, List.length_append, hb1, hb4, hfl]; omega) y.openings
  have a3 := w y.reach
  have a4 := w y.oldest
  have a5 := w y.loadClock
  have a6 := optional_le (f := ProofMark.bytes) (n := 7) (fun c => by simp only [ProofMark.bytes, List.length_append, hn2, hb1, hb4]; omega) y.proof
  have a7 : y.ending.bytes.length = 6 := by
    cases y.ending <;> simp only [End.bytes, List.length_append, hb1, hb4]
  unfold Statement.bytes
  simp only [List.length_append, hb1, hn2, ht2, hb4, hn4, hfl, a7, List.length_cons, List.length_nil]
  omega

/-! ### Power-on values -/

/-- R195: every block has its power-on values. -/
theorem powerOnState_spec (now : Nat) (straps : BitVec 2) (clock : Clock) (u : Bool) (addr : Byte) (s : State) :
    PoweredOn now s (powerOnState now straps clock u addr s) := by
  refine ⟨rfl, rfl, fun n => ⟨by simp [powerOnState, Sensor.powerOn, Vector.get, NodeEntry.powerOn],
      by simp [powerOnState, Sensor.powerOn, Vector.get, NodeRt.reset]⟩, rfl, rfl, rfl, rfl,
    rfl, rfl, rfl, rfl, fun z => ?_, fun c => ?_, rfl, rfl, rfl, rfl, fun i => ?_, fun d => ?_, fun b => ?_,
    rfl, fun k => ?_, fun n => ?_, rfl, rfl, rfl, rfl,
    rfl, rfl, rfl, fun k => ?_, rfl, rfl, rfl, rfl, rfl, rfl, rfl, fun k => ?_, rfl, ?_⟩
  · simp [powerOnState, Zones.powerOn, Vector.get]
  · simp [powerOnState, Engine.powerOn, Vector.get]
  · simp [powerOnState, Vector.get, LotEntry.free]
  · refine ⟨by simp [powerOnState, Doors.resampled, Doors.powerOn, Vector.get, DoorEntry.powerOn], ?_⟩
    match d with
    | 0 => rfl
    | 1 => rfl
    | 2 => rfl
    | 3 => rfl
  · simp [powerOnState, Beacons.powerOn, Vector.get]
  · by_cases hk : k = 0
    · subst hk; rfl
    · simp [powerOnState, Trip.powerOn, hk]
      refine (get_set_ne (i := (0 : Fin 25)) _ hk _).trans ?_
      simp [Vector.get, StopEntry.powerOn]
  · simp [powerOnState, Scans.powerOn, Vector.get, ScanMem.cleared]
  · simp [powerOnState, Claims.powerOn, Vector.get]
  · simp [powerOnState, Trunk.powerOn, Vector.get, EventFlag.lowered]
  · simp [powerOnState, keptTx, Option.map_map]; rfl

end Sys2Proof.Machine
end

