-- ==== Sys2Proof/Laws/Payloads.lean ====
section
/-! SUPPORT. What the decoding of optional fields, of table writes and of commands answers, in both directions (spec 11
R188, R189, R196, R197). -/

namespace Sys2Proof.Machine

/-! ### Fields and optional fields -/

theorem b2_half (x y : Byte) : b2 (half x y) = [x, y] := by
  unfold b2 half
  have e : ∀ (k : Nat) (v : Byte), (∀ i, i < 8 → (x ++ y).getLsbD (k + i) = v.getLsbD i) → (x ++ y).extractLsb' k 8 = v :=
      fun k v h => by
    apply BitVec.eq_of_getLsbD_eq; intro i hi
    rw [BitVec.getLsbD_extractLsb', h i hi]; simp [hi]
  rw [e 8 x, e 0 y]
  all_goals intro i hi; simp only [BitVec.getLsbD_append]
  · simp [hi]
  · simp

theorem b4_word (x y z w : Byte) : b4 (word x y z w) = [x, y, z, w] := by
  unfold b4 word
  have e : ∀ (k : Nat) (v : Byte), (∀ i, i < 8 → ((x ++ y) ++ (z ++ w)).getLsbD (k + i) = v.getLsbD i) →
      ((x ++ y) ++ (z ++ w)).extractLsb' k 8 = v := fun k v h => by
    apply BitVec.eq_of_getLsbD_eq; intro i hi
    rw [BitVec.getLsbD_extractLsb', h i hi]; simp [hi]
  rw [e 24 x, e 16 y, e 8 z, e 0 w]
  all_goals intro i hi; simp only [BitVec.getLsbD_append]
  · simp [hi, show i < 16 by omega]
  · simp [show 8 + i < 16 by omega]
  · simp [hi, show ¬ 16 + i < 16 by omega, show 16 + i - 16 = i by omega]
  · simp [show ¬ 24 + i < 16 by omega, show ¬ 24 + i - 16 < 8 by omega, show 24 + i - 16 - 8 = i by omega]

/-- R196, R197: an optional byte is read from exactly its presence byte and, where that is 1, its value. -/
theorem optByte_iff {l r : List Byte} {x : Option Byte} : optByte l = some (x, r) ↔
    l = optionalBytes (x.map fun y => [y]) ++ r := by
  unfold optByte optionalBytes
  split
  · next p rest =>
    by_cases h0 : p = 0
    · subst h0; cases x <;> simp [eq_comm]
    · by_cases h1 : p = 1
      · subst h1
        rw [if_neg h0, if_pos rfl]
        cases rest <;> cases x <;> simp [eq_comm]
      · have e0 : p ≠ 0#8 := h0
        have e1 : p ≠ 1#8 := h1
        rw [if_neg h0, if_neg h1]; cases x <;> simp [e0, e1]
  · cases x <;> simp

theorem optHalf_iff {l r : List Byte} {x : Option Half} : optHalf l = some (x, r) ↔ l = optionalBytes (x.map b2) ++ r := by
  unfold optHalf optionalBytes
  split
  · next p rest =>
    by_cases h0 : p = 0
    · subst h0; cases x <;> simp [eq_comm]
    · by_cases h1 : p = 1
      · subst h1
        rw [if_neg h0, if_pos rfl]
        rcases rest with _ | ⟨a, _ | ⟨b, rest⟩⟩ <;> cases x with
          | none => simp
          | some y => first
            | (simp [b2]; done)
            | (simp only [Option.some.injEq, Prod.mk.injEq, Option.map_some, List.cons_append, List.cons.injEq, true_and, b2,
                List.nil_append]
               constructor
               · rintro ⟨rfl, rfl⟩
                 have := b2_half a b; simp only [b2, List.cons.injEq, and_true] at this
                 exact ⟨this.1.symm, this.2.symm, rfl⟩
               · rintro ⟨rfl, rfl, rfl⟩; exact ⟨half_b2 y, rfl⟩)
      · have e0 : p ≠ 0#8 := h0
        have e1 : p ≠ 1#8 := h1
        rw [if_neg h0, if_neg h1]; cases x <;> simp [e0, e1]
  · cases x <;> simp

theorem optWord_iff {l r : List Byte} {x : Option Word} : optWord l = some (x, r) ↔ l = optionalBytes (x.map b4) ++ r := by
  unfold optWord optionalBytes
  split
  · next p rest =>
    by_cases h0 : p = 0
    · subst h0; cases x <;> simp [eq_comm]
    · by_cases h1 : p = 1
      · subst h1
        rw [if_neg h0, if_pos rfl]
        rcases rest with _ | ⟨a, _ | ⟨b, _ | ⟨c, _ | ⟨d, rest⟩⟩⟩⟩ <;> cases x with
          | none => simp
          | some y => first
            | (simp [b4]; done)
            | (simp only [Option.some.injEq, Prod.mk.injEq, Option.map_some, List.cons_append, List.cons.injEq, true_and, b4,
                List.nil_append]
               constructor
               · rintro ⟨rfl, rfl⟩
                 have := b4_word a b c d; simp only [b4, List.cons.injEq, and_true] at this
                 exact ⟨this.1.symm, this.2.1.symm, this.2.2.1.symm, this.2.2.2.symm, rfl⟩
               · rintro ⟨rfl, rfl, rfl, rfl, rfl⟩; exact ⟨word_b4 y, rfl⟩)
      · have e0 : p ≠ 0#8 := h0
        have e1 : p ≠ 1#8 := h1
        rw [if_neg h0, if_neg h1]; cases x <;> simp [e0, e1]
  · cases x <;> simp

/-! ### Table writes and commands -/

/-- R188, R197: the payload that a table write is laid out in spells that write. -/
theorem decodeWrite_payload (h : ReqHdr) (p : List Byte) (c : Instr) (hc : writePayload c = some (h, p)) :
    decodeWrite h p = some c := by
  cases c <;> simp only [writePayload, Option.some.injEq, Prod.mk.injEq, reduceCtorEq] at hc
  all_goals obtain ⟨rfl, rfl⟩ := hc
  case nodeTableWrite i f => cases f with | mk a b c d e g h' i' al l => cases al <;> rfl
  case lineSettingsWrite i f => rfl
  case zoneTableWrite i f => simp [decodeWrite, decodeFields, b2, half_b2]
  case classTableWrite i f => simp [decodeWrite, decodeFields, b2, b4, half_b2, word_b4]
  case engineSettingsWrite i f => simp [decodeWrite, decodeFields, b4, word_b4]
  case manifestAdd i f =>
    have h1 : decodeManifestTail f.lot f.cls f.zone
        (optionalBytes (f.planned.map fun x => [x]) ++ optionalBytes (f.inherited.map b4) ++ optionalBytes
            (f.arrival.map b2)) = some f := by
      unfold decodeManifestTail
      rw [optByte_iff.2 (List.append_assoc _ _ _)]
      simp only
      rw [optWord_iff.2 rfl]
      simp only
      rw [optHalf_iff.2 (List.append_nil _).symm]
    simp [decodeWrite, decodeFields, decodeLotWrite, b4, word_b4] at h1 ⊢
    rw [h1]
  case manifestDelete i l => simp [decodeWrite, decodeFields, decodeLotWrite, b4, word_b4]
  case doorTableWrite i f => simp [decodeWrite, decodeFields, b2, half_b2]
  case beaconTableWrite i f => cases f with | mk a b c d al => cases al <;> simp [decodeWrite, decodeFields, decodeBeacon,
      optionalBytes, b2, half_b2]
  case stopTableWrite i f => simp [decodeWrite, decodeFields, b2, b4, half_b2, word_b4]
  case scanSettingsWrite i f => simp [decodeWrite, decodeFields]
  case proofSettingsWrite i f => simp [decodeWrite, decodeFields, b2, half_b2]
  case claimSettingsWrite i f => simp [decodeWrite, decodeFields, b2, half_b2]
  case eventSettingsWrite i f => simp [decodeWrite, decodeFields, b2, half_b2]

/-- R189, R197: the payload that a command is laid out in spells that command. -/
theorem decodeCommand_payload (h : ReqHdr) (p : List Byte) (c : Instr) (hc : commandPayload c = some (h, p)) :
    decodeCommand h p = some c := by
  cases c <;> simp only [commandPayload, Option.some.injEq, Prod.mk.injEq, reduceCtorEq] at hc
  all_goals obtain ⟨rfl, rfl⟩ := hc
  case tripOpen p =>
    have h1 : decodeTripTail p.tripId p.mode p.sealWord
        (optionalBytes (p.retention.map fun x => [x]) ++ optionalBytes (p.stopCount.map fun x => [x])) = some p := by
      unfold decodeTripTail
      rw [optByte_iff.2 rfl]
      simp only
      rw [optByte_iff.2 (List.append_nil _).symm]
    simp [decodeCommand, decodeParams, b4, word_b4] at h1 ⊢
    rw [h1]
  all_goals simp [decodeCommand, decodeParams, b4, b2, word_b4, half_b2]

theorem table_eq {t : Byte} {n : Nat} (h : t.toNat = n) : t = BitVec.ofNat 8 n := by
  rw [← h]; simp

/-- R188, R197: a payload spells no other table write than the one it is laid out as. -/
theorem payload_of_decodeWrite (h : ReqHdr) (p : List Byte) (c : Instr) (hc : decodeWrite h p = some c) :
    writePayload c = some (h, p) := by
  unfold decodeWrite at hc
  split at hc
  · next t i fs =>
    unfold decodeFields at hc
    split at hc
    · next e =>
      obtain ⟨f, hf, rfl⟩ := Option.map_eq_some_iff.1 hc
      rw [table_eq e]
      unfold decodeNode at hf
      split at hf <;> cases hf <;> rfl
    · next e =>
      rw [table_eq e]; split at hc <;> cases hc; rfl
    · next e =>
      rw [table_eq e]; split at hc <;> cases hc; simp [writePayload, b2_half]
    · next e =>
      rw [table_eq e]; split at hc <;> cases hc; simp [writePayload, b2_half, b4_word]
    · next e =>
      rw [table_eq e]; split at hc <;> cases hc; simp [writePayload, b4_word]
    · next e =>
      rw [table_eq e]
      unfold decodeLotWrite at hc
      split at hc
      · cases hc; simp [writePayload, b4_word]
      · obtain ⟨f, hf, rfl⟩ := Option.map_eq_some_iff.1 hc
        unfold decodeManifestTail at hf
        split at hf
        · cases hf
        · next hp =>
          split at hf
          · cases hf
          · next hi =>
            split at hf
            · next ha =>
              cases hf
              rw [optByte_iff.1 hp, optWord_iff.1 hi, optHalf_iff.1 ha]
              simp [writePayload, b4_word]
            · cases hf
      · cases hc
    · next e =>
      rw [table_eq e]; split at hc <;> cases hc; simp [writePayload, b2_half]
    · next e =>
      rw [table_eq e]
      obtain ⟨f, hf, rfl⟩ := Option.map_eq_some_iff.1 hc
      unfold decodeBeacon at hf
      split at hf <;> cases hf <;> simp [writePayload, b2_half, optionalBytes]
    · next e =>
      rw [table_eq e]; split at hc <;> cases hc; simp [writePayload, b2_half, b4_word]
    · next e =>
      rw [table_eq e]; split at hc <;> cases hc; rfl
    · next e =>
      rw [table_eq e]; split at hc <;> cases hc; simp [writePayload, b2_half]
    · next e =>
      rw [table_eq e]; split at hc <;> cases hc; simp [writePayload, b2_half]
    · next e =>
      rw [table_eq e]; split at hc <;> cases hc; simp [writePayload, b2_half]
    · cases hc
  · cases hc

/-- R189, R197: a payload spells no other command than the one it is laid out as. -/
theorem payload_of_decodeCommand (h : ReqHdr) (p : List Byte) (c : Instr) (hc : decodeCommand h p = some c) :
    commandPayload c = some (h, p) := by
  unfold decodeCommand at hc
  split at hc
  · next t fs =>
    unfold decodeParams at hc
    split at hc
    · next e =>
      rw [table_eq e]
      split at hc
      · obtain ⟨f, hf, rfl⟩ := Option.map_eq_some_iff.1 hc
        unfold decodeTripTail at hf
        split at hf
        · cases hf
        · next hp =>
          split at hf
          · next hi =>
            cases hf
            rw [optByte_iff.1 hp, optByte_iff.1 hi]
            simp [commandPayload, b4_word]
          · cases hf
      · cases hc
    all_goals first
      | (next e => rw [table_eq e]; split at hc <;> cases hc; simp [commandPayload, b2_half, b4_word])
      | cases hc
  · cases hc

end Sys2Proof.Machine
end

