-- ==== Sys2Proof/Tests/Slice0.lean ====
section
/-! SUPPORT. Small tests: the checks of well-formed commands, one or two steps of each kind of command, and for every
statement with hypotheses a state and operands that meet them. -/

namespace Sys2Proof.Tests

set_option Elab.async false

open Sys2Proof.Machine

/-! ### Small states -/

/-- A request to the trunk address after reset, from a fleet-side address. -/
def hdr : ReqHdr := { dest := 0x70, src := 0x55, tag := 0xC5 }

/-- The state that a command leaves; the state before it when it is refused. -/
def after (c : Instr) (s : State) : State :=
  match exec c s with
  | .next t => t
  | _ => s

/-- The reply code of the frame on the outbound line. -/
def code (s : State) : Option Byte := s.trunk.tx.bind fun x => x.frame.payload[2]?

/-- The reply code that a request brings on an idle line. -/
def codeOf (c : Instr) (s : State) : Option Byte := code (after c s)

/-- An open trip in a state. -/
def inTrip (mode : TripMode) (x : TripState) (s : State) : State :=
  s.modTrip fun r => { r with mode := mode, state := x, stopCount := 24, tripId := 7, sealWord := 0xABCD }

/-- A lot of id 9 in entry 95, in zone 12, in a state. -/
def lotIn (x : LotState) (s : State) : State :=
  s.modLot 95 fun l => { l with lot := 9, state := x, zone := 11, loadClock := if x = .expected then none else some 0 }

/-- Lot 9 in Handover, opened at stop 24 with a settle deadline. -/
def handedOver (settleAt : Clock) (s : State) : State :=
  let h : Handover := { scanner := 5, token := 3, clock := 0, stop := 24, hold := false, misdrop := false, settleAt := settleAt }
  (lotIn .handover s).modLot 95 fun l => { l with handover := some h }

/-- Node 31 is an enabled node of a kind at address 62. -/
def nodeOn (kind : NodeKind) (x : NodeState) (s : State) : State :=
  let e (e : NodeEntry) : NodeEntry := { e with enabled := true, address := 62, kind := kind, zone := 11, aliasAddr := some 0xBF }
  (s.modSensor fun y => { y with nodes := upd y.nodes 31 e }).modNodeRt 31 fun r => { r with state := x }

/-- A poll of node 31 in flight. -/
def polled (s : State) : State :=
  s.modSensor fun y => { y with exchange := some (.poll 31 false { dest := 62, src := 0, kind := 1, tag := 0xC0, payload := [] } 10) }

/-- A door's entry and runtime replaced. -/
def doorIs (d : Fin 4) (e : DoorEntry → DoorEntry) (r : DoorRt → DoorRt) (s : State) : State :=
  { s with doors := { entries := upd s.doors.entries d e, rts := upd s.doors.rts d r } }

/-- The device clock and the reference clock set. -/
def atTime (clock : Clock) (ref : Nat) (s : State) : State := { s with ref := ref, trip := { s.trip with clock := clock } }

/-- A frame of a class. -/
def frameOf (c : FrameClass) : OutFrame :=
  { cls := c, dest := 0, aliasAddr := none, kind := 0x21, tag := 0xC0, payload := [], origin := .plain }

/-- A trunk with a queue and a busy line. -/
def busyLine (q : List OutFrame) : Trunk :=
  { Trunk.powerOn 0x70 with queue := q, tx := some { frame := { dest := 0, src := 0x70, kind := 0x21, tag := 0xC0, payload := [] }, origin := .plain } }

/-- A frame whose Check is 0 when it is sent with Check 0, or not: used with both. -/
def someFrame (dest kind : Byte) (n : Nat) : Frame :=
  { dest := dest, src := 0x55, kind := kind, tag := 0xC5, payload := List.replicate n 0 }

/-- An entry of the journal, at the place that its number has when the numbers have not wrapped. -/
def anEntry (seq clock : Word) (kind : EntryKind) : JEntry :=
  { place := seq.toNat - 1, seq := seq, clock := clock, unsynced := false, kind := kind, lot := none, zone := none, zones := none, door := none, v1 := 0, v2 := 0 }

/-! ### The checks of well-formed commands -/

theorem test_wellFormed_frame : (Instr.badReply (someFrame 0 2 255) 0).wellFormed = true
    ∧ (Instr.badReply (someFrame 0 2 256) 0).wellFormed = false ∧ (Instr.straySensorFrame (someFrame 0 2 256) 0).wellFormed = false
    ∧ (Instr.thruWindowOtherFrame (someFrame 0 2 256) 0).wellFormed = false
    ∧ (Instr.frameError (someFrame 0 2 256) 0).wellFormed = false := by decide +kernel

theorem test_wellFormed_payload : (Instr.thruBack 1 0xC0 (List.replicate 56 0)).wellFormed = true
    ∧ (Instr.thruBack 1 0xC0 (List.replicate 57 0)).wellFormed = false
    ∧ (Instr.mgRead hdr (List.replicate 57 0)).wellFormed = false ∧ (Instr.proofAck hdr (List.replicate 57 0)).wellFormed = false
    ∧ (Instr.jrnlReq hdr (List.replicate 57 0)).wellFormed = false ∧ (Instr.claimQ hdr (List.replicate 57 0)).wellFormed = false := by
  decide +kernel

theorem test_wellFormed_through : (Instr.throughFrame (someFrame 0x80 1 56)).wellFormed = true
    ∧ (Instr.throughFrame (someFrame 0x7F 1 56)).wellFormed = false ∧ (Instr.throughFrame (someFrame 0xC0 1 0)).wellFormed = false
    ∧ (Instr.throughFrame (someFrame 0x80 1 57)).wellFormed = false := by decide +kernel

theorem test_wellFormed_refused : (Instr.mgWriteRefused hdr [2, 0]).wellFormed = true
    ∧ (Instr.mgWriteRefused hdr [14, 0, 30]).wellFormed = false ∧ (Instr.mgWriteRefused hdr (List.replicate 57 0)).wellFormed = false
    ∧ (Instr.mgCmdInvalid hdr [13]).wellFormed = true ∧ (Instr.mgCmdInvalid hdr [2]).wellFormed = false
    ∧ (Instr.mgCmdInvalid hdr (List.replicate 57 0)).wellFormed = false := by decide +kernel

/-! ### The frames of the trunk line -/

theorem test_check_words : crc16 [0x31, 0x32, 0x33, 0x34, 0x35, 0x36, 0x37, 0x38, 0x39] = 0x29B1
    ∧ crc32 0xFFFFFFFF [0x31, 0x32, 0x33, 0x34, 0x35, 0x36, 0x37, 0x38, 0x39] = 0x0376E6E7 := by decide +kernel

theorem test_commands_spelled : decodeCommand hdr [3, 5] = some (.arrive hdr 5)
    ∧ decodeCommand hdr [5, 0, 0, 1, 2, 12] = some (.moveLot hdr 0x102 12)
    ∧ decodeWrite hdr [13, 24, 0, 0, 0, 9, 3, 0, 10, 1, 0, 1]
      = some (.stopTableWrite hdr 24 { stopId := 9, doors := 3, budget := 10, settle := 256, visited := 1 })
    ∧ decodeWrite hdr [8, 0, 0, 0, 0, 9, 1] = some (.manifestDelete hdr 0 9) := by decide +kernel

theorem test_frame_commands :
    (let f : Frame := { dest := 0x70, src := 0x55, kind := 0x12, tag := 0xC5, payload := [4] }
     trunkCommand 0x70 f f.check = .tripClose f.hdr ∧ trunkCommand 0x71 f f.check = .frameError f f.check
       ∧ trunkCommand 0x70 f (f.check + 1) = .frameError f (f.check + 1))
    ∧ (let f : Frame := { dest := 0x80, src := 0x55, kind := 0x12, tag := 0xC5, payload := [4] }
       trunkCommand 0x70 f f.check = .throughFrame f) := by decide +kernel

/-! ### The step, the outbound queue, reads and refusals: the hypotheses met, with what the step leaves -/

theorem meets_IdleStep : State.reset.pending = [] ∧ nextDue State.reset = some .roundEnd
    ∧ (let s := after .roundEnd State.reset
       s.pending = [] ∧ nextDue s = none ∧ nextDue { s with ref := 5000 } = some .roundStart
         ∧ (match step { s with ref := 999 } with | .next t => t.trip.clock | _ => 0) = 1
         ∧ (match step (atTime 0xFFFFFFFF 999 s) with | .next t => t.trip.clock | _ => 0) = 0xFFFFFFFF) := by decide +kernel

theorem meets_WellFormedCommands : (Instr.frameError (someFrame 0x70 0x16 0) 0).wellFormed = true
    ∧ isFrameError 0x70 (someFrame 0x70 0x16 0) 0 = true ∧ (Instr.poll).wellFormed = true := by decide +kernel

theorem meets_Admission : (Trunk.powerOn 0x70).reset = .none ∧ (Trunk.powerOn 0x70).queue.length < 24
    ∧ (busyLine (List.replicate 23 (frameOf .report))).queue.length < 24
    ∧ (let t := busyLine (List.replicate 24 (frameOf .report))
       t.reset = .none ∧ t.queue.length = 24 ∧ (∀ g ∈ t.queue, (frameOf .report).cls.rank ≤ g.cls.rank)
         ∧ t.enqueue (frameOf .report) = none
         ∧ ((t.enqueue (frameOf .journal)).map fun r => r.1.queue.length) = some 24)
    ∧ (let q := List.replicate 23 (frameOf .reply) ++ frameOf .event :: []
       q.length = 24 ∧ (frameOf .event).cls.rank < (frameOf .reply).cls.rank
         ∧ (∀ x ∈ List.replicate 23 (frameOf .reply), (frameOf .event).cls.rank ≤ x.cls.rank)) := by decide +kernel

theorem meets_TransmissionEnd :
    (let q := [frameOf .report] ++ frameOf .reply :: [frameOf .reply]
     (∀ x ∈ [frameOf .report], x.cls.rank < (frameOf .reply).cls.rank)
       ∧ (∀ x ∈ [frameOf .reply], x.cls.rank ≤ (frameOf .reply).cls.rank) ∧ nextOut q = some (frameOf .reply))
    ∧ (busyLine []).tx.isSome = true ∧ nextOut (busyLine []).queue = none
    ∧ (after .transmissionEnd { State.reset with trunk := busyLine [] }).trunk.tx = none
    ∧ nextOut (busyLine [frameOf .event]).queue = some (frameOf .event)
    ∧ (after .transmissionEnd { State.reset with trunk := busyLine [frameOf .event] }).trunk.queue = [] := by decide +kernel

/-- A frame of the read in progress begins: the next frame of that read is due, and of another read it is not. -/
theorem meets_TransmissionEnd_read :
    (let r : ReadRec := { id := 4, target := replyTo hdr 0x11, table := 8, next := 96, left := 0, carry := [], frames := 1, due := false }
     let s (id : Nat) : State := setRead (some r) { State.reset with trunk := busyLine [{ frameOf .reply with origin := .read id }] }
     (s 4).trunk.tx.isSome = true ∧ (s 4).trunk.read = some r ∧ (after .transmissionEnd (s 4)).trunk.read = some { r with due := true }
       ∧ (after .transmissionEnd (s 3)).trunk.read = some r) := by decide +kernel

theorem meets_FrameErrors : (0 : Half) ≠ (someFrame 0x70 0x12 1).check ∧ 56 < (someFrame 0x70 0x12 57).payload.length
    ∧ isAlias 0x7F = false ∧ (0x7F : Byte) ≠ State.reset.trunk.addr ∧ isAlias 0xC0 = false ∧ isRequestKind 0x16 = false
    ∧ (after (.frameError (someFrame 0x70 0x12 1) 0) State.reset).trunk.errors = 1
    ∧ (after (.frameError (someFrame 0x70 0x12 1) 0) (State.reset.modTrip id |> fun s => { s with trunk := { s.trunk with errors := 65535 } })).trunk.errors = 65535 := by
  decide +kernel

/-- A request and a through frame while a RESET Full is pending, and a request to another address. -/
theorem meets_Discards :
    (let s : State := { State.reset with trunk := { Trunk.powerOn 0x70 with reset := .pending } }
     requestHeader (.tripOpen hdr { tripId := 1, mode := 0, sealWord := 2, retention := none, stopCount := none }) = some hdr
       ∧ s.trunk.reset ≠ .none ∧ (Instr.depart hdr).wellFormed = true ∧ after (.setAddress hdr 5) s = s
       ∧ (Instr.throughFrame (someFrame 0xBF 0x12 56)).wellFormed = true ∧ after (.throughFrame (someFrame 0xBF 0x12 56)) s = s
       ∧ (({ hdr with dest := 0x71 } : ReqHdr).dest.setWidth 8 : Byte) ≠ State.reset.trunk.addr
       ∧ (after (.setAddress { hdr with dest := 0x71 } 5) State.reset).trunk.errors = 1
       ∧ (after (.setAddress { hdr with dest := 0x71 } 5) State.reset).trunk.addr = 0x70) := by decide +kernel

theorem taken_after_reset : Taken hdr State.reset := ⟨rfl, rfl⟩

theorem meets_Reads : tableSpan State.reset 0 = none ∧ tableSpan State.reset 22 = none ∧ tableSpan State.reset 4 = some (1, 12)
    ∧ codeOf (.mgRead hdr [4, 0, 1]) State.reset = some 2 ∧ codeOf (.mgRead hdr [4, 1, 0]) State.reset = some 2
    ∧ codeOf (.mgRead hdr [4, 13, 1]) State.reset = some 0
    ∧ 1 ≤ (entryBytes State.reset 4 1).length ∧ (entryBytes State.reset 4 12).length ≤ 52
    ∧ ((after (.mgRead hdr [4, 12, 1]) State.reset).trunk.tx.map fun x => x.frame.payload) = some [0x11, 5, 0, 0, 0, 0, 60, 30]
    ∧ ((after (.mgRead hdr [4, 12, 2]) State.reset).trunk.tx.map fun x => x.frame.payload) = some [0x11, 5, 0, 1, 0, 0, 60, 30]
    ∧ ((after (.mgRead hdr [8, 0, 2]) State.reset).trunk.tx.map fun x => x.frame.payload.length) = some 56 := by decide +kernel

theorem meets_Reads_later :
    (let r : ReadRec := { id := 0, target := replyTo hdr 0x11, table := 8, next := 96, left := 0, carry := List.replicate 52 7, frames := 1, due := true }
     let s := setRead (some r) State.reset
     s.trunk.read = some r ∧ r.due = true ∧ r.left = 0 ∧ r.carry.length ≤ 52 ∧ 0 < r.frames
       ∧ ((after .mgReadNextFrame s).trunk.tx.map fun x => (x.frame.tag, x.frame.payload.length)) = some (0x41, 56)) := by decide +kernel

/-- A cut read: its first frame and a middle one hold the entries of the lot table one after another. -/
theorem meets_Reads_cut :
    (let first := after (.mgRead hdr [8, 0, 96]) State.reset
     let middle := after .mgReadNextFrame { first with trunk := { first.trunk with tx := none } }
     let payload (s : State) : List Byte := (s.trunk.tx.map fun x => x.frame.payload.drop 4).getD []
     let rows := entryBytes State.reset 8 0 ++ entryBytes State.reset 8 1 ++ entryBytes State.reset 8 2
     (first.trunk.read.map fun r => (r.next, r.left, r.frames, r.due)) = some (2, 94, 1, true)
       ∧ payload first = rows.take 52 ∧ payload middle = (rows.drop 52).take 52
       ∧ (middle.trunk.tx.map fun x => x.frame.tag) = some 1 ∧ (first.trunk.tx.map fun x => x.frame.tag) = some 0x80
       ∧ (first.trunk.read.map ReadRec.carry) = some ((rows.take 90).drop 52)) := by decide +kernel

/-- The bytes of entries as R187 and R197 lay them out, written out: STATUS after reset, a node, a door and its view. -/
theorem test_entryBytes :
    entryBytes State.reset 21 0 = [0, 0, 0, 0, 0, 0, 1, 96] ++ List.replicate 75 0 ++ [4] ++ List.replicate 19 0 ++ [0x70]
    ∧ entryBytes (nodeOn .scanner .alive State.reset) 1 31 = [1, 62, 1, 12, 0, 1, 0, 0, 1, 0xBF, 3]
    ∧ entryBytes State.reset 9 4 = [0, 0, 50, 0, 0, 0, 120, 0, 60] ∧ (tableSpan State.reset 17) = some (0, 0) := by decide +kernel

theorem meets_Refused : decodeWrite hdr [22, 0] = none ∧ decodeWrite hdr [] = none ∧ decodeCommand hdr [4, 0] = none
    ∧ codeOf (.mgWriteRefused hdr [22, 0]) State.reset = some 2 ∧ codeOf (.mgCmdInvalid hdr [0]) State.reset = some 2
    ∧ decodeWrite hdr [14, 0, 30] ≠ none ∧ decodeCommand hdr [4] ≠ none
    ∧ codeOf (.mgRead hdr [8, 0]) State.reset = some 2 ∧ codeOf (.claimQ hdr [0, 0, 0, 9]) State.reset = some 2 := by decide +kernel

/-- The lengths of the layouts and their neighbours, with each presence byte at 0, 1 and 2; the numbers of no writable table
and of no command; and payloads that end before their table and index, or their number. -/
theorem meets_Layouts :
    (let write (table : Byte) (fields : List Byte) : Bool := (decodeWrite hdr (table :: 0 :: fields)).isSome
     let command (number : Byte) (fields : List Byte) : Bool := (decodeCommand hdr (number :: fields)).isSome
     let zeros (n : Nat) : List Byte := List.replicate n 0
     (∀ x ∈ ([(3, 2), (4, 4), (6, 14), (7, 6), (9, 9), (13, 10), (14, 1), (16, 2), (18, 2), (20, 2)] : List (Byte × Nat)),
       write x.1 (zeros x.2) = true ∧ write x.1 (zeros (x.2 - 1)) = false ∧ write x.1 (zeros (x.2 + 1)) = false)
     ∧ (∀ x ∈ ([0, 2, 5, 10, 12, 15, 17, 19, 21, 22, 255] : List Byte), ∀ n < 15, write x (zeros n) = false)
     ∧ write 1 (zeros 10) = true ∧ write 1 (zeros 11) = false ∧ write 1 (zeros 8 ++ [1, 0, 0]) = true
     ∧ write 1 (zeros 8 ++ [1, 0]) = false ∧ write 1 (zeros 8 ++ [2, 0]) = false ∧ write 1 (zeros 8 ++ [2, 0, 0]) = false
     ∧ write 11 (zeros 6) = true ∧ write 11 (zeros 5 ++ [1, 1, 0]) = true ∧ write 11 (zeros 5 ++ [1, 1]) = false
     ∧ write 11 (zeros 5 ++ [2, 1, 0]) = false ∧ write 11 (zeros 8) = false
     ∧ write 8 (zeros 4 ++ [1]) = true ∧ write 8 (zeros 4 ++ [1, 0]) = false ∧ write 8 (zeros 4 ++ [2]) = false
     ∧ write 8 (zeros 10) = true ∧ write 8 (zeros 9) = false ∧ write 8 (zeros 7 ++ [1, 5, 1, 0, 0, 0, 9, 1, 0, 0]) = true
     ∧ write 8 (zeros 7 ++ [0, 1, 0, 0, 0, 9, 0]) = true ∧ write 8 (zeros 7 ++ [0, 0, 1, 0, 0]) = true
     ∧ write 8 (zeros 7 ++ [0, 0, 1, 0]) = false ∧ write 8 (zeros 7 ++ [0, 2, 0]) = false
     ∧ (∀ x ∈ ([(2, 0), (3, 1), (4, 0), (5, 5), (6, 1), (7, 1), (8, 4), (9, 2), (10, 1), (11, 0), (12, 0)] : List (Byte × Nat)),
       command x.1 (zeros x.2) = true ∧ command x.1 (zeros (x.2 + 1)) = false
         ∧ (x.2 ≠ 0 → command x.1 (zeros (x.2 - 1)) = false))
     ∧ (∀ x ∈ ([0, 13, 255] : List Byte), ∀ n < 15, command x (zeros n) = false)
     ∧ command 1 (zeros 11) = true ∧ command 1 (zeros 9 ++ [1, 0, 1, 0]) = true ∧ command 1 (zeros 9 ++ [0, 1, 0]) = true
     ∧ command 1 (zeros 9 ++ [1, 0, 0]) = true ∧ command 1 (zeros 9 ++ [1, 0]) = false ∧ command 1 (zeros 9 ++ [0, 2]) = false
     ∧ decodeWrite hdr [] = none ∧ decodeWrite hdr [14] = none ∧ decodeCommand hdr [] = none) := by decide +kernel

/-- A payload with its optional fields, and one with none, are those that the layouts give of what they spell. -/
theorem meets_Payloads :
    (let p : List Byte := [8, 3, 0, 0, 0, 9, 0, 7, 12, 1, 24, 1, 0, 0, 0, 60, 1, 0xFF, 0x38]
     ((decodeWrite hdr p).bind writePayload) = some (hdr, p) ∧ (decodeWrite hdr p).isSome = true)
    ∧ (let p : List Byte := [1, 0, 0, 0, 7, 1, 0, 0, 0xAB, 0xCD, 0, 0]
       ((decodeCommand hdr p).bind commandPayload) = some (hdr, p) ∧ (decodeCommand hdr p).isSome = true) := by decide +kernel

/-! ### Settings and tables -/

theorem test_settings : codeOf (.lineSettingsWrite hdr 0 { roundFloor := 60, replyWindow := 2 }) State.reset = some 0
    ∧ codeOf (.lineSettingsWrite hdr 0 { roundFloor := 61, replyWindow := 2 }) State.reset = some 1
    ∧ codeOf (.scanSettingsWrite hdr 0 4) State.reset = some 1 ∧ codeOf (.proofSettingsWrite hdr 0 3600) State.reset = some 0
    ∧ codeOf (.claimSettingsWrite hdr 1 60) State.reset = some 5 ∧ codeOf (.eventSettingsWrite hdr 0 8191) State.reset = some 0
    ∧ codeOf (.eventSettingsWrite hdr 0 8192) State.reset = some 2 := by decide +kernel

theorem meets_EngineSettings : State.reset.trip.record.state = .noTrip ∧ (inTrip .van .loading State.reset).trip.record.state ≠ .noTrip
    ∧ codeOf (.engineSettingsWrite hdr 0 { period := 15, interval := 1, lastUpdate := 0 }) (inTrip .van .loading State.reset) = some 3
    ∧ (after (.engineSettingsWrite hdr 0 { period := 63, interval := 0, lastUpdate := 9 }) State.reset).engine.period = 60
    ∧ (after (.engineSettingsWrite hdr 0 { period := 13, interval := 0, lastUpdate := 9 }) State.reset).engine.period = 15
    ∧ (after (.engineSettingsWrite hdr 0 { period := 12, interval := 0, lastUpdate := 9 }) State.reset).engine.period = 10 := by
  decide +kernel

theorem meets_EventClear : (8191 : Half).toNat < 8192
    ∧ codeOf (.eventClear hdr 8192) State.reset = some 2
    ∧ (let s := raise .step (.zone 3) State.reset
       (s.trunk.flags.get 3).raised = true ∧ ((after (.eventClear hdr 8) s).trunk.flags.get 3).raised = false
         ∧ ((after (.eventClear hdr 16) s).trunk.flags.get 3).raised = true) := by decide +kernel

theorem meets_SetAddress : codeOf (.setAddress hdr 0x7F) State.reset = some 0 ∧ codeOf (.setAddress hdr 0x80) State.reset = some 2
    ∧ codeOf (.setAddress hdr 0) State.reset = some 2 ∧ (after (.setAddress hdr 1) State.reset).trunk.addr = 1
    ∧ codeOf (.beaconClear hdr 4) State.reset = some 2 ∧ codeOf (.beaconClear hdr 2) State.reset = some 0 := by decide +kernel

/-- An enabled scanner as a node write gives it. -/
def scannerFields (address : Byte) : NodeFields :=
  { enabled := 1, address := address, kind := 1, zone := 12, offset := 0, dwell := 9, policy := 0, policyParam := 0,
    aliasAddr := some 0x80, lostLimit := 3 }

theorem meets_NodeWrites : codeOf (.nodeTableWrite hdr 32 (scannerFields 1)) State.reset = some 5
    ∧ (let s := nodeOn .probe .alive State.reset
       (s.sensor.nodes.get 31).enabled = true ∧ (s.sensor.nodes.get 31).address = (scannerFields 62).address
         ∧ codeOf (.nodeTableWrite hdr 0 (scannerFields 62)) s = some 2)
    ∧ ((nodeOf (scannerFields 62)).any fun r => nodeNames r.1 && !nodeClash State.reset.sensor.nodes 31 r.1 && r.2) = true
    ∧ State.reset.sensor.exchange = none ∧ State.reset.sensor.throughQ = []
    ∧ (after (.nodeTableWrite hdr 31 (scannerFields 62)) State.reset).sensor.rotation = [31]
    ∧ codeOf (.nodeTableWrite hdr 31 (scannerFields 62)) State.reset = some 1 := by decide +kernel

/-- The node of a poll, or of a through exchange, in flight is written; through frames of it and of another node wait. -/
theorem meets_NodeWrites_flight :
    (let f := someFrame 0xBF 0x12 1
     let s (x : Exchange) := (nodeOn .scanner .alive State.reset).modSensor fun y =>
       { y with exchange := some x, throughQ := [{ frame := f, node := 31 }, { frame := f, node := 30 }] }
     let sent : Frame := { dest := 62, src := 0, kind := 1, tag := 0xC0, payload := [] }
     let t (x : Exchange) := after (.nodeTableWrite hdr 31 (scannerFields 62)) (s x)
     (nodeClash (s (.poll 31 false sent 10)).sensor.nodes 31 ((State.reset.sensor.nodes.get 31))) = false
       ∧ (t (.poll 31 false sent 10)).sensor.exchange = none ∧ (t (.poll 31 false sent 10)).trunk.queue.length = 1
       ∧ code (t (.poll 31 false sent 10)) = some 10
       ∧ (t (.through 31 f sent 10)).sensor.exchange = none ∧ (t (.through 31 f sent 10)).trunk.queue.length = 2
       ∧ (t (.through 31 f sent 10)).sensor.throughQ = [{ frame := f, node := 30 }]
       ∧ (t (.through 30 f sent 10)).sensor.exchange.isSome = true) := by decide +kernel

theorem meets_NodeWrites_values :
    (let s := nodeOn .probe .alive State.reset
     (s.sensor.nodes.get 31).aliasAddr = some 0xBF ∧ codeOf (.nodeTableWrite hdr 0 { scannerFields 1 with aliasAddr := some 0xBF }) s = some 2)
    ∧ [scannerFields 63, scannerFields 0, { scannerFields 1 with kind := 2 }, { scannerFields 1 with zone := 13 },
        { scannerFields 1 with zone := 0 }, { scannerFields 1 with policy := 4 }, { scannerFields 1 with aliasAddr := some 0x7F },
        { scannerFields 1 with aliasAddr := some 0xC0 }, { scannerFields 1 with enabled := 2 }].all
        (fun f => codeOf (.nodeTableWrite hdr 31 f) State.reset == some 2) = true := by decide +kernel

/-- A node write clamps its fields at both ends of their ranges. -/
theorem test_node_clamps :
    (let e (f : NodeFields) : NodeEntry := (after (.nodeTableWrite hdr 31 f) State.reset).sensor.nodes.get 31
     let f := scannerFields 62
     let kept := { f with dwell := 4 }
     let low := e { f with offset := -51, dwell := 0, lostLimit := 0, policy := 1, policyParam := 1 }
     let high := e { f with offset := 51, dwell := 5, lostLimit := 16, policy := 2, policyParam := 101 }
     (low.offset, low.dwell, low.lostLimit, low.policy) = (-50, 1, 1, .everyN 2)
       ∧ (high.offset, high.dwell, high.lostLimit, high.policy) = (50, 4, 15, .change 100)
       ∧ (e { f with policy := 2, policyParam := 0 }).policy = .change 1 ∧ (e { f with policy := 1, policyParam := 255 }).policy = .everyN 255
       ∧ [kept, { kept with offset := -50, lostLimit := 15 }, { kept with offset := 50, lostLimit := 1, policy := 1, policyParam := 2 },
          { kept with policy := 3, policyParam := 0 }, { kept with policy := 2, policyParam := 100 }].map
            (fun f => codeOf (.nodeTableWrite hdr 31 f) State.reset) = List.replicate 5 (some 0)
       ∧ [{ kept with policy := 2, policyParam := 101 }, { kept with policy := 1, policyParam := 1 }].map
            (fun f => codeOf (.nodeTableWrite hdr 31 f) State.reset) = List.replicate 2 (some 1)) := by decide +kernel

/-- Zone 12 is enabled and Live. -/
def zoneLive (s : State) : State :=
  { s with zones := { entries := upd s.zones.entries 11 (fun e => { e with enabled := true }),
                      rts := upd s.zones.rts 11 (fun r => { r with state := .live, air := some (-200) }) } }

theorem meets_ZoneWrites : codeOf (.zoneTableWrite hdr 0 { enabled := 1, staleness := 10, step := 1 }) State.reset = some 5
    ∧ codeOf (.zoneTableWrite hdr 13 { enabled := 1, staleness := 10, step := 1 }) State.reset = some 5
    ∧ (let s := lotIn .onBoard (zoneLive State.reset)
       (s.zones.entries.get 11).enabled = true ∧ (s.lots.get 95).state = .onBoard ∧ (s.lots.get 95).zone = 11
         ∧ codeOf (.zoneTableWrite hdr 12 { enabled := 0, staleness := 10, step := 1 }) s = some 4
         ∧ codeOf (.zoneTableWrite hdr 12 { enabled := 1, staleness := 600, step := 200 }) s = some 0
         ∧ ((after (.zoneTableWrite hdr 12 { enabled := 1, staleness := 601, step := 0 }) s).zones.rts.get 11).air = none) := by
  decide +kernel

theorem meets_ClassWrites :
    (let f : ClassFields := { tw := -300, ts := -299, lag := 31, watch := 5, hold := 5, shock := 15 }
     codeOf (.classTableWrite hdr 8 f) State.reset = some 5
       ∧ codeOf (.classTableWrite hdr 7 f) (inTrip .room .dock State.reset) = some 3
       ∧ codeOf (.classTableWrite hdr 7 f) State.reset = some 0 ∧ codeOf (.classTableWrite hdr 7 { f with lag := 32 }) State.reset = some 2
       ∧ codeOf (.classTableWrite hdr 7 { f with ts := -300 }) State.reset = some 1
       ∧ codeOf (.classTableWrite hdr 7 { f with tw := -100, ts := -150 }) State.reset = some 2
       ∧ codeOf (.classTableWrite hdr 7 { f with hold := 4 }) State.reset = some 2) := by decide +kernel

/-- A manifest add of lot 9. -/
def addNine : ManifestFields := { lot := 9, cls := 7, zone := 12, planned := some 24, inherited := some 999999, arrival := some 600 }

theorem meets_ManifestAdds : codeOf (.manifestAdd hdr 0 { addNine with lot := 0 }) State.reset = some 2
    ∧ codeOf (.manifestAdd hdr 0 { addNine with cls := 8 }) State.reset = some 2
    ∧ codeOf (.manifestAdd hdr 0 { addNine with zone := 13 }) State.reset = some 2
    ∧ codeOf (.manifestAdd hdr 0 { addNine with planned := some 25 }) State.reset = some 2
    ∧ addNine.planned.map BitVec.toNat = (some (24 : Fin 25)).map Fin.val
    ∧ codeOf (.manifestAdd hdr 0 addNine) (inTrip .van .transit State.reset) = some 8
    ∧ findLot (lotIn .short State.reset).lots 9 = some 95 ∧ codeOf (.manifestAdd hdr 0 addNine) (lotIn .short State.reset) = some 7
    ∧ findLot State.reset.lots 9 = none ∧ codeOf (.manifestAdd hdr 0 addNine) State.reset = some 0
    ∧ ((after (.manifestAdd hdr 0 addNine) State.reset).lots.get 0).inherited = 59999940
    ∧ codeOf (.manifestAdd hdr 0 addNine) (inTrip .room .dock State.reset) = some 1
    ∧ codeOf (.manifestAdd hdr 0 addNine) (lotIn .returned State.reset) = some 0 := by decide +kernel

theorem meets_ManifestAdds_full :
    (let s : State := { State.reset with lots := Vector.replicate 96 { LotEntry.free with lot := 1, state := .short } }
     findLot s.lots 9 = none ∧ (∀ i, (s.lots.get i).state ≠ .free) ∧ codeOf (.manifestAdd hdr 0 addNine) s = some 6) := by decide +kernel

theorem meets_ManifestDeletes : findLot State.reset.lots 9 = none ∧ codeOf (.manifestDelete hdr 0 9) State.reset = some 5
    ∧ findLot (lotIn .onBoard State.reset).lots 9 = some 95 ∧ codeOf (.manifestDelete hdr 0 9) (lotIn .onBoard State.reset) = some 4
    ∧ findLot (lotIn .expected State.reset).lots 9 = some 95 ∧ (lotIn .expected State.reset).claims.slotFor 9 = none
    ∧ (after (.manifestDelete hdr 0 9) (lotIn .expected State.reset)).lots = State.reset.lots := by decide +kernel

/-- A claim slot at index 3 for lot 9. -/
def slotThree (x : SlotState) (s : State) : State :=
  let slot : Slot := { lot := 9, tag := 1, state := x, reach := none, deadline := some 30, statement := none }
  { s with claims := { s.claims with slots := s.claims.slots.set 3 (some slot), order := [3] } }

/-- A re-manifest of a Returned lot, and the discard of the slot of a lot deleted or expired. -/
theorem meets_Manifest_slots :
    (let s := (lotIn .returned State.reset).modLot 95 fun l => { l with retention := some 30, inherited := 60 }
     let l := (after (.manifestAdd hdr 0 addNine) s).lots.get 95
     findLot s.lots 9 = some 95 ∧ (s.lots.get 95).state = .returned ∧ s.trip.record.state ≠ .transit
       ∧ l.state = .expected ∧ l.cls = 7 ∧ l.retention = none ∧ l.inherited = 60 ∧ l.planned = some 24)
    ∧ (let s := slotThree .ready (lotIn .expected State.reset)
       s.claims.slotFor 9 = some 3 ∧ (s.claims.slots.get 3).isSome = true
         ∧ (after (.manifestDelete hdr 0 9) s).claims.slots.get 3 = none)
    ∧ (let s := atTime 30 0 ((slotThree .ready (lotIn .short State.reset)).modLot 95 fun l => { l with retention := some 30 })
       s.claims.slotFor (s.lots.get 95).lot = some 3 ∧ (after (.retentionExpiry 95) s).claims.slots.get 3 = none)
    ∧ (let s := atTime 30 0 (slotThree .ready State.reset)
       ((s.claims.slots.get 3).bind Slot.deadline) = some 30 ∧ (after (.claimWindowDeadline 3) s).claims.slots.get 3 = none) := by
  decide +kernel

theorem meets_BeaconWrites :
    (let f : BeaconFields := { causes := 8191, onTime := 1, offTime := 1, count := 255, inhibit := some (4, 1) }
     f.causes.toNat < 8192 ∧ f.inhibit = some (BitVec.ofNat 8 ((3 : Fin 4).val + 1), if true then 1 else 0)
       ∧ codeOf (.beaconTableWrite hdr 0 f) State.reset = some 5 ∧ codeOf (.beaconTableWrite hdr 3 f) State.reset = some 5
       ∧ codeOf (.beaconTableWrite hdr 2 { f with causes := 8192 }) State.reset = some 2
       ∧ codeOf (.beaconTableWrite hdr 2 f) State.reset = some 0
       ∧ [(0, 0), (5, 1), (4, 2), (1, 255)].all (fun x => codeOf (.beaconTableWrite hdr 2 { f with inhibit := some x }) State.reset == some 2) = true
       ∧ codeOf (.beaconTableWrite hdr 1 { f with inhibit := none, count := 0 }) State.reset = some 1) := by decide +kernel

theorem meets_StopWrites :
    (let f : StopFields := { stopId := 9, doors := 15, budget := 3600, settle := 600, visited := 0 }
     let s := inTrip .van .transit State.reset
     codeOf (.stopTableWrite hdr 25 f) s = some 5 ∧ codeOf (.stopTableWrite hdr 24 f) s = some 0
       ∧ codeOf (.stopTableWrite hdr 0 { f with doors := 14 }) s = some 1 ∧ codeOf (.stopTableWrite hdr 24 { f with doors := 16 }) s = some 2
       ∧ (let t := after (.arrive hdr 24) s
          (t.trip.stops.get 24).visited = true ∧ (t.trip.stops.get 0).visited = false
            ∧ codeOf (.stopTableWrite hdr 24 f) { t with trunk := Trunk.powerOn 0x70 } = some 3)) := by decide +kernel

/-- A Contact door over every zone. -/
def contactFields : DoorFields := { mode := 1, polarity := 0, debounce := 15, zones := 4095, recovery := 900, assumed := 600 }

theorem meets_DoorWrites : codeOf (.doorTableWrite hdr 0 contactFields) State.reset = some 5
    ∧ codeOf (.doorTableWrite hdr 5 contactFields) State.reset = some 5
    ∧ codeOf (.doorTableWrite hdr 4 { contactFields with mode := 5 }) State.reset = some 2
    ∧ codeOf (.doorTableWrite hdr 4 { contactFields with zones := 4096 }) State.reset = some 2
    ∧ codeOf (.doorTableWrite hdr 4 contactFields) State.reset = some 1
    ∧ (doorEntryOf { contactFields with mode := 2 }).isSome = true ∧ (State.reset.doors.entries.get 3).mode = .off
    ∧ (State.reset.doors.rts.get 3).state ≠ .opened ∧ (State.reset.doors.rts.get 3).changedAt = none
    ∧ ((after (.doorTableWrite hdr 4 { contactFields with mode := 2 }) State.reset).doors.rts.get 3).state = .armed := by decide +kernel

/-- A door write brings its debounce to the nearest multiple of 10, from halfway to the greater, and clamps the rest. -/
theorem test_door_clamps :
    (let e (f : DoorFields) : DoorEntry := (after (.doorTableWrite hdr 4 f) State.reset).doors.entries.get 3
     [0, 4, 5, 14, 15, 245, 250, 255].map (fun b => (e { contactFields with debounce := b }).debounce) = [0, 0, 10, 10, 20, 250, 250, 250]
       ∧ (e { contactFields with recovery := 901, assumed := 0 }).recovery = 900
       ∧ (e { contactFields with recovery := 901, assumed := 0 }).assumed = 1 ∧ (e { contactFields with assumed := 601 }).assumed = 600
       ∧ codeOf (.doorTableWrite hdr 4 { contactFields with debounce := 250 }) State.reset = some 0
       ∧ codeOf (.doorTableWrite hdr 4 { contactFields with debounce := 250, assumed := 601 }) State.reset = some 1) := by decide +kernel

/-! ### Trips, moves, seals, resets -/

theorem meets_TripOpen :
    (let p : TripOpenParams := { tripId := 7, mode := 0, sealWord := 1, retention := some 168, stopCount := some 24 }
     codeOf (.tripOpen hdr { p with mode := 2 }) State.reset = some 2
       ∧ codeOf (.tripOpen hdr p) (inTrip .van .transit State.reset) = some 8 ∧ codeOf (.tripOpen hdr p) State.reset = some 0
       ∧ (after (.tripOpen hdr p) State.reset).trip.record.state = .loading
       ∧ codeOf (.tripOpen hdr { p with mode := 1 }) State.reset = some 1
       ∧ (after (.tripOpen hdr { p with mode := 1 }) State.reset).trip.record.stopCount = 0) := by decide +kernel

theorem meets_Depart : codeOf (.depart hdr) (inTrip .room .dock State.reset) = some 8 ∧ codeOf (.depart hdr) State.reset = some 8
    ∧ (let s := handedOver 100 (inTrip .van (.atStop 24) State.reset)
       s.trip.record.mode = .van ∧ s.trip.record.state = .atStop 24
         ∧ (∀ i, (s.lots.get i).state = .handover ↔ (s.lots.get i).handover.isSome = true)
         ∧ ((after (.depart hdr) s).lots.get 95).state = .delivered ∧ (after (.depart hdr) s).trip.record.state = .transit
         ∧ (after (.depart hdr) s).proofs.list.length = 1) := by decide +kernel

theorem meets_Arrive :
    (let s := inTrip .van .transit State.reset
     codeOf (.arrive hdr 24) (inTrip .van .loading State.reset) = some 8 ∧ s.trip.record.stopCount = 24
       ∧ codeOf (.arrive hdr 0) s = some 2 ∧ codeOf (.arrive hdr 25) s = some 2
       ∧ codeOf (.arrive hdr 24) s = some 0 ∧ (after (.arrive hdr 24) s).trip.record.state = .atStop 24) := by decide +kernel

theorem meets_TripClose : codeOf (.tripClose hdr) State.reset = some 8
    ∧ (let s := lotIn .onBoard (inTrip .room .dock State.reset)
       s.trip.record.state ≠ .noTrip ∧ (∀ i, (s.lots.get i).state = .handover ↔ (s.lots.get i).handover.isSome = true)
         ∧ ((after (.tripClose hdr) s).lots.get 95).state = .returned
         ∧ (after (.tripClose hdr) s).journal.entries.length = 2) := by decide +kernel

theorem meets_TimeSet :
    (let s := inTrip .van .transit State.reset
     (after (.timeSet hdr 300) s).journal.entries.length = 0 ∧ (after (.timeSet hdr 301) s).journal.entries.length = 1
       ∧ (after (.timeSet hdr 301) s).trip.clock = 301
       ∧ ((after (.timeSet hdr 301) s).trunk.flags.get 12).raised = true
       ∧ (after (.timeSet hdr 301) State.reset).journal.entries.length = 0) := by decide +kernel

theorem meets_MoveLot :
    (let s := lotIn .onBoard (zoneLive State.reset)
     codeOf (.moveLot hdr 9 0) s = some 2 ∧ codeOf (.moveLot hdr 9 13) s = some 2 ∧ codeOf (.moveLot hdr 8 12) s = some 5
       ∧ codeOf (.moveLot hdr 9 12) (lotIn .short (zoneLive State.reset)) = some 8 ∧ codeOf (.moveLot hdr 9 1) s = some 2
       ∧ codeOf (.moveLot hdr 9 12) s = some 0 ∧ (after (.moveLot hdr 9 12) s).journal.entries.length = 0
       ∧ (let t := s.modLot 95 (fun l => { l with zone := 0 })
          findLot t.lots 9 = some 95 ∧ (t.zones.entries.get 11).enabled = true ∧ (t.lots.get 95).zone ≠ 11
            ∧ ((after (.moveLot hdr 9 12) t).lots.get 95).zone = 11)) := by decide +kernel

theorem meets_ArmSeal : codeOf (.armSeal hdr 0) State.reset = some 2 ∧ codeOf (.armSeal hdr 5) State.reset = some 2
    ∧ codeOf (.armSeal hdr 4) State.reset = some 8
    ∧ (let s := doorIs 3 (fun e => { e with mode := .seal }) (fun r => { r with state := .broken, level := true }) State.reset
       codeOf (.armSeal hdr 4) s = some 8)
    ∧ (let s := doorIs 3 (fun e => { e with mode := .seal }) (fun r => { r with state := .broken }) State.reset
       (s.doors.entries.get 3).mode = .seal ∧ ((after (.armSeal hdr 4) s).doors.rts.get 3).state = .armed) := by decide +kernel

theorem meets_Resets :
    (let s : State := { State.reset with trunk := busyLine [frameOf .report] }
     s.trunk.tx.isSome = true ∧ (after (.resetFull hdr) s).trunk.queue.length = 1 ∧ (after (.resetLink hdr) s).trunk.queue.length = 1)
    ∧ (let t := after .transmissionEnd (after (.resetFull hdr) State.reset)
       t.trunk.reset = .doneSent ∧ (after .resetFullTakesEffect t).trunk.reset = .none)
    ∧ State.reset.trunk.reset ≠ .doneSent ∧ (after (.powerOnReset 3) State.reset).trunk.addr = 0x73 := by decide +kernel

/-! ### Doors and beacons -/

theorem meets_LineChanges : (State.reset.doors.rts.get 3).line = false
    ∧ 0 < (State.reset.doors.entries.get 3).debounce
    ∧ ((after (.doorLineChange 3 true) State.reset).doors.rts.get 3).changedAt = some 0
    ∧ (let s := doorIs 3 (fun e => { e with debounce := 0 }) id State.reset
       (s.doors.rts.get 3).level ≠ true ∧ (s.doors.rts.get 3).changedAt = none ∧ (s.doors.entries.get 3).mode = .off
         ∧ ((after (.doorLineChange 3 true) s).doors.rts.get 3).level = true) := by decide +kernel

/-- A Contact door over zone 12 whose line has been high since time 0, in a trip state, at the end of its debounce. -/
def opening (x : TripState) : State :=
  atTime 8 50 (doorIs 3 (fun e => { e with mode := .contact, zones := 0b100000000000 })
    (fun r => { r with state := .closed, line := true, changedAt := some 0 }) (inTrip .van x State.reset))

theorem meets_ContactEdges :
    (let s := opening .transit
     (s.doors.rts.get 3).changedAt = some 0 ∧ 0 + (s.doors.entries.get 3).debounce ≤ s.ref ∧ (s.doors.rts.get 3).state = .closed
       ∧ (s.doors.rts.get 3).line = decide ((s.doors.entries.get 3).polarity = .highIsOpen)
       ∧ (after (.debounceExpiry 3) s).journal.entries.length = 1
       ∧ ((after (.debounceExpiry 3) s).trunk.flags.get 5).raised = true)
    ∧ ((after (.debounceExpiry 3) { opening .loading with ref := 49 }).doors.rts.get 3).state = .closed
    ∧ ((after (.debounceExpiry 3) (opening .loading)).trunk.flags.get 5).raised = false
    ∧ ((after (.debounceExpiry 3) (opening (.atStop 24))).doors.rts.get 3).state = .opened := by decide +kernel

/-- An Open door over zone 12, open since time 0, in a mode, whose line is low. -/
def openSince (mode : DoorMode) (s : State) : State :=
  atTime 8 5000 (doorIs 3 (fun e => { e with mode := mode, zones := 0b100000000000 })
    (fun r => { r with state := .opened, level := true, changedAt := some 4950, stretchAt := some 0, openSince := some 3, openUntil := some 8 }) s)

theorem meets_Closings :
    (let s := openSince .contact (lotIn .onBoard State.reset)
     let r := s.doors.rts.get 3
     r.state = .opened ∧ r.stretchAt = some 0 ∧ r.openSince = some 3 ∧ (s.ref - 0) / 1000 < 4294967296
       ∧ r.openSeconds.toNat + 0 < 4294967296 ∧ (∀ i, (s.lots.get i).state = .handover → False)
       ∧ r.changedAt = some 4950 ∧ 4950 + (s.doors.entries.get 3).debounce ≤ s.ref
       ∧ r.line = decide ((s.doors.entries.get 3).polarity = .lowIsOpen)
       ∧ ((after (.debounceExpiry 3) s).doors.rts.get 3).recoveryAt = some 128)
    ∧ (let s := openSince .count State.reset
       (s.doors.rts.get 3).openUntil = some 8 ∧ (s.doors.entries.get 3).mode = .count
         ∧ ((after (.assumedOpenTimeExpiry 3) s).doors.rts.get 3).state = .closed)
    ∧ ((after (.debounceExpiry 3) (openSince .contact (handedOver 900 State.reset))).lots.get 95).state = .delivered := by decide +kernel

theorem meets_SealBreaks :
    (let s (x : DoorState) := atTime 8 50 (doorIs 3 (fun e => { e with mode := .seal }) (fun r => { r with state := x, line := true, changedAt := some 0 }) State.reset)
     ((s .armed).doors.rts.get 3).changedAt = some 0 ∧ 0 + ((s .armed).doors.entries.get 3).debounce ≤ (s .armed).ref
       ∧ ((after (.debounceExpiry 3) (s .armed)).doors.rts.get 3).state = .broken
       ∧ (after (.debounceExpiry 3) (s .armed)).journal.entries.length = 1
       ∧ (after (.debounceExpiry 3) (s .broken)).journal.entries.length = 0) := by decide +kernel

theorem meets_DoorJudgments :
    (let s := openSince .contact (inTrip .van (.atStop 24) State.reset)
     let t : State := { s with trip := { s.trip with stops := upd s.trip.stops 24 (fun e => { e with budget := 5 }) } }
     t.trip.record.state.stop = some 24 ∧ (s.trip.stops.get 24).budget = 0 ∧ (t.doors.rts.get 3).overlong = false
       ∧ (after (.doorOverlong 3) s).journal.entries.length = 0
       ∧ (after (.doorOverlong 3) t).journal.entries.length = 1 ∧ ((after (.doorOverlong 3) t).doors.rts.get 3).overlong = true
       ∧ (t.doors.rts.get 3).openSeconds.toNat + (4999 - max 0 t.trip.visitStart) / 1000 + 1 ≤ 5
       ∧ (after (.doorOverlong 3) { t with ref := 4999 }).journal.entries.length = 0
       ∧ after (.doorOverlong 3) (doorIs 3 (fun e => { e with mode := .seal }) id t) = doorIs 3 (fun e => { e with mode := .seal }) id t
       ∧ after (.doorOverlong 3) (doorIs 3 id (fun r => { r with state := .closed, openSeconds := 9 }) t)
           = doorIs 3 id (fun r => { r with state := .closed, openSeconds := 9 }) t
       ∧ (inTrip .van .transit t).trip.record.state.stop = none ∧ after (.doorOverlong 3) (inTrip .van .transit t) = inTrip .van .transit t)
    ∧ (let r : DoorRt := { State.reset.doors.rts.get 3 with state := .closed, recoveryAt := some 128 }
       serves 127 { DoorEntry.powerOn with mode := .count } r = true ∧ serves 128 { DoorEntry.powerOn with mode := .count } r = false) := by
  decide +kernel

theorem meets_BeaconPhases :
    (let s (r : Running) : State := { State.reset with ref := 200, beacons := { State.reset.beacons with trains := State.reset.beacons.trains.set 1 (some r) } }
     (after (.beaconPhaseEnd 1) (s { on := true, endsAt := 201, remaining := some 2 })).beacons.trains.get 1
         = some { on := true, endsAt := 201, remaining := some 2 }
       ∧ (after (.beaconPhaseEnd 1) (s { on := true, endsAt := 200, remaining := some 2 })).beacons.trains.get 1
         = some { on := false, endsAt := 1000, remaining := some 2 }
       ∧ (after (.beaconPhaseEnd 1) (s { on := false, endsAt := 200, remaining := some 2 })).beacons.trains.get 1
         = some { on := true, endsAt := 400, remaining := some 1 }
       ∧ (after (.beaconPhaseEnd 1) (s { on := false, endsAt := 200, remaining := some 1 })).beacons.trains.get 1 = none
       ∧ ((after (.beaconPhaseEnd 1) (s { on := false, endsAt := 200, remaining := none })).beacons.trains.get 1).isSome = true) := by
  decide +kernel

/-- A door write into Contact mode at a level that shows open and at one that shows closed; of an Open door, to another
mode, to the other polarity, and with the mode kept. -/
theorem meets_DoorWrites_contact :
    (let rt (s : State) (f : DoorFields) := ((after (.doorTableWrite hdr 4 f) s).doors.rts.get 3)
     let high := doorIs 3 id (fun r => { r with level := true }) State.reset
     ((doorEntryOf contactFields).map fun p => (p.1.mode, p.1.polarity, p.1.debounce)) = some (.contact, .highIsOpen, 20)
       ∧ (rt State.reset contactFields).state = .closed
       ∧ (rt high contactFields).state = .opened ∧ (after (.doorTableWrite hdr 4 contactFields) high).journal.entries.length = 1
       ∧ ((after (.doorTableWrite hdr 4 contactFields) high).trunk.flags.get EventKind.doorUnauthorized.index).raised = true
       ∧ (let s := openSince .contact State.reset
          let keep := { contactFields with debounce := 50 }
          (s.doors.rts.get 3).state = .opened ∧ (s.doors.rts.get 3).stretchAt = some 0 ∧ (s.doors.rts.get 3).openSince = some 3
            ∧ (rt { s with ref := 4999 } { keep with mode := 2 }).state = .armed
            ∧ (after (.doorTableWrite hdr 4 { keep with mode := 2 }) s).journal.entries.map JEntry.kind = [.doorClose]
            ∧ (rt s { keep with polarity := 1 }).state = .closed ∧ (rt s keep).state = .opened
            ∧ (rt s contactFields).changedAt = none ∧ (rt { s with ref := 4969 } contactFields).changedAt = some 4950)) := by decide +kernel

/-- The edges of a Count door, and an edge of an Off and of an Inhibit door. -/
theorem meets_CountEdges :
    (let s (m : DoorMode) (x : DoorState) (line : Bool) : State := atTime 8 50 (doorIs 3 (fun e => { e with mode := m })
       (fun r => { r with state := x, line := line, level := !line, changedAt := some 0, openSince := some 2, stretchAt := some 9 })
       (inTrip .van (.atStop 24) State.reset))
     let rt (y : State) : DoorRt := (after (.debounceExpiry 3) y).doors.rts.get 3
     (let r := rt (s .count .closed true)
      (r.state, r.openSince, r.stretchAt, r.openUntil, r.openings) = (.opened, some 8, some 50, some 68, 1))
       ∧ (let r := rt (s .count .opened true)
          (r.state, r.openSince, r.stretchAt, r.openUntil, r.openings) = (.opened, some 2, some 9, some 68, 1))
       ∧ (after (.debounceExpiry 3) (s .count .opened true)).journal.entries.map JEntry.kind = [.doorOpen]
       ∧ (after (.debounceExpiry 3) (s .count .opened false)).journal.entries = []
       ∧ (rt (s .count .opened false)).state = .opened ∧ (rt (s .off .unused true)).level = true
       ∧ (rt (s .inhibit .unused false)).level = false) := by decide +kernel

/-- A closing with a lot in Handover in the door's zones: the lot is sealed, with an entry after that of the closing. -/
theorem meets_Closings_sealed :
    (let s := openSince .contact (handedOver 900 (inTrip .van (.atStop 24) State.reset))
     let t := after (.debounceExpiry 3) s
     (s.lots.get 95).state = .handover ∧ (s.lots.get 95).handover.isSome = true
       ∧ (s.doors.entries.get 3).zones.getLsbD (s.lots.get 95).zone.val = true ∧ s.journal.entries.length + 96 < 6144
       ∧ t.journal.entries.map JEntry.kind = [.doorClose, .seal] ∧ ((t.lots.get 95).proof.map ProofFields.cause) = some .doorClose) := by
  decide +kernel

/-- The flags that a broken seal and an overlong door raise name the door. -/
theorem meets_DoorFlags :
    (let s := atTime 8 50 (doorIs 3 (fun e => { e with mode := .seal }) (fun r => { r with state := .armed, line := true, changedAt := some 0 }) State.reset)
     (after (.debounceExpiry 3) s).trunk.flags.get EventKind.sealBroken.index = { raised := true, subject := .door 3 })
    ∧ (let s := openSince .contact (inTrip .van (.atStop 24) State.reset)
       let t : State := { s with trip := { s.trip with stops := upd s.trip.stops 24 (fun e => { e with budget := 5 }) } }
       (after (.doorOverlong 3) t).trunk.flags.get EventKind.doorOverlong.index = { raised := true, subject := .door 3 }) := by decide +kernel

/-- A raising starts a Stopped train, reloads a counted one and leaves a continuous one, and one of another kind does
nothing; the output of a train that is on, under an inhibit. -/
theorem meets_BeaconRaisings :
    (let s (count : Nat) (x : Option Running) : State := { State.reset with
       ref := 200, beacons := { entries := upd State.reset.beacons.entries 1 (fun e => { e with causes := 8, count := count, inhibit := some { door := 3, high := true } }),
                                trains := State.reset.beacons.trains.set 1 x } }
     let train (y : State) : Option Running := y.beacons.trains.get 1
     let on : Running := { on := true, endsAt := 230, remaining := some 1 }
     train (raise .step (.zone 3) (s 4 none)) = some { on := true, endsAt := 400, remaining := some 4 }
       ∧ train (raise .step (.zone 3) (s 255 none)) = some { on := true, endsAt := 400, remaining := none }
       ∧ train (raise .step (.zone 3) (s 4 (some on))) = some { on with remaining := some 4 }
       ∧ train (raise .step (.zone 3) (s 255 (some { on with remaining := none }))) = some { on with remaining := none }
       ∧ train (raise .nodeLost (.zone 3) (s 4 (some on))) = some on
       ∧ (let out (m : DoorMode) (level : Bool) : Bool :=
            let t := doorIs 3 (fun e => { e with mode := m }) (fun r => { r with level := level }) (s 4 (some on))
            t.beacons.output t.doors 1
          out .inhibit true = false ∧ out .inhibit false = true ∧ out .contact true = true)) := by decide +kernel

/-- A debounce of 0 in Contact mode: the change is an edge at once. A change that has held its time acts before the line
goes back. -/
theorem meets_LineChanges_edge :
    (let s := doorIs 3 (fun e => { e with debounce := 0 }) (fun r => { r with line := false, changedAt := none }) (opening .loading)
     let t := after (.doorLineChange 3 true) s
     (s.doors.rts.get 3).line = false ∧ (s.doors.rts.get 3).changedAt = none ∧ (s.doors.rts.get 3).level = false
       ∧ (t.doors.rts.get 3).state = .opened ∧ t.journal.entries.map JEntry.kind = [.doorOpen])
    ∧ (let s := opening .loading
       let t := after (.doorLineChange 3 false) s
       (s.doors.rts.get 3).line = true ∧ 0 + (s.doors.entries.get 3).debounce ≤ s.ref
         ∧ (t.doors.rts.get 3).state = .opened ∧ (t.doors.rts.get 3).line = false ∧ (t.doors.rts.get 3).changedAt = some 50) := by
  decide +kernel

/-- A departure and a closing with one lot in Handover and one to become Short or Returned: the entries in order, the
states, the retention deadlines, the marks, and the visit open seconds of an Open door. -/
theorem meets_TripEnds :
    (let two (x : LotState) : State := openSince .contact ((handedOver 900 (inTrip .van (.atStop 24) State.reset)).modLot 3
       fun l => { l with lot := 8, state := x, zone := 2, handling := 120, grade := .watch })
     let told (t : State) : List (EntryKind × Option Word × Word) := t.journal.entries.map fun e => (e.kind, e.lot, e.v1)
     let d := after (.depart hdr) (two .expected)
     let c := after (.tripClose hdr) (two .onBoard)
     let p : ProofItem := { index := 3, lot := 8, number := 7, check := 0, ackBy := 900 }
     told d = [(.seal, some 9, 1), (.short, some 8, 24), (.depart, none, 24)]
       ∧ (d.lots.get 3).state = .short ∧ (d.lots.get 3).retention = some 259208 ∧ (d.lots.get 95).retention = some 259208
       ∧ ((d.lots.get 95).proof.map ProofFields.cause) = some .depart ∧ (d.lots.get 95).unconfirmed = false
       ∧ d.proofs.list.map ProofItem.index = [95] ∧ d.trip.record.nextProof = 2
       ∧ ((two .expected).doors.rts.get 3).stretchAt = some 0 ∧ (d.doors.rts.get 3).openSeconds = 5 ∧ (d.doors.rts.get 3).visit = none
       ∧ told c = [(.seal, some 9, 1), (.returned, some 8, 1), (.tripClose, none, 7)]
       ∧ (c.journal.entries.map JEntry.v2).drop 1 = [2, 1]
       ∧ (c.lots.get 3).state = .returned ∧ (c.lots.get 95).unconfirmed = true ∧ (c.lots.get 3).unconfirmed = false
       ∧ ((c.lots.get 95).proof.map ProofFields.cause) = some .closure ∧ c.proofs.list = []
       ∧ c.trunk.flags.get EventKind.proofUnconfirmed.index = { raised := true, subject := .lot 9 }
       ∧ ((after (.tripClose hdr) ((two .onBoard).modList fun _ => [p])).lots.get 3).unconfirmed = true
       ∧ (c.doors.rts.get 3).visit = none
       ∧ ((after (.tripClose hdr) (openSince .contact (inTrip .van .transit State.reset))).doors.rts.get 3).openSeconds = 0) := by
  decide +kernel

/-- The EVENT frame that a raising hands over on an idle line, under a set of report bits. -/
def eventFrame (bits : BitVec 13) (k : EventKind) (x : Subject) : Option (List Byte) :=
  let s : State := { atTime 0x102 0 State.reset with trunk := { Trunk.powerOn 0x70 with reportBits := bits } }
  (raise k x s).trunk.tx.map fun y => [y.frame.dest, y.frame.kind, y.frame.tag] ++ y.frame.payload

/-- A raising hands over an EVENT frame when its kind's report bit is set, and none when it is clear. -/
theorem meets_EventFrames : eventFrame 0b1000 .step (.zone 3) = some [0, 0x22, 0xC0, 4, 0, 0, 1, 2, 2, 0, 0, 0, 4]
    ∧ eventFrame 0x1FF7 .step (.zone 3) = none
    ∧ eventFrame 0x1FFF .timeJump .none = some [0, 0x22, 0xC0, 13, 0, 0, 1, 2, 0, 0, 0, 0, 0]
    ∧ eventFrame 0x1FFF .nodeLost (.node 62) = some [0, 0x22, 0xC0, 1, 0, 0, 1, 2, 1, 0, 0, 0, 62]
    ∧ eventFrame 0x1FFF .doorUnauthorized (.door 3) = some [0, 0x22, 0xC0, 6, 0, 0, 1, 2, 3, 0, 0, 0, 4]
    ∧ eventFrame 0x1FFF .gradeHold (.lot 0x01020304) = some [0, 0x22, 0xC0, 10, 0, 0, 1, 2, 4, 1, 2, 3, 4] := by decide +kernel

/-! ### Deadlines, proofs, journal, claims -/

theorem meets_PassedDeadlines :
    (let p : Pending := { lot := 9, kinds := { hold := true, misdrop := false }, token := 1, confirmBy := 30 }
     let s (c : Clock) := atTime c 0 ((lotIn .short State.reset).modMem 31 (fun m => { m with pending := some p })
       |>.modLot 95 (fun l => { l with retention := some 30 }))
     ((s 29).scans.mem.get 31).pending = some p ∧ ((s 29).lots.get 95).retention = some 30
       ∧ ((after (.advisoryExpiry 31) (s 29)).scans.mem.get 31).pending = some p
       ∧ ((after (.advisoryExpiry 31) (s 30)).scans.mem.get 31).pending = none
       ∧ ((after (.retentionExpiry 95) (s 29)).lots.get 95).state = .short
       ∧ ((after (.retentionExpiry 95) (s 30)).lots.get 95).state = .free) := by decide +kernel

theorem meets_ClaimWindow :
    (let x : Slot := { lot := 9, tag := 1, state := .ready, reach := none, deadline := some 30, statement := none }
     let s (c : Clock) := atTime c 0 { State.reset with claims := { State.reset.claims with slots := State.reset.claims.slots.set 3 (some x), order := [3] } }
     (s 30).claims.slots.get 3 = some x ∧ x.state = .ready ∧ x.deadline = some 30
       ∧ (∀ j, (match (s 30).claims.slots.get j with | some y => decide (y.state ≠ .queued) | none => true) = true)
       ∧ (s 30).claims.builder = none ∧ (after (.claimWindowDeadline 3) (s 29)).claims.slots.get 3 = some x
       ∧ (after (.claimWindowDeadline 3) (s 30)).claims.slots.get 3 = none) := by decide +kernel

/-- The state after lot 9's handover has been sealed at its settle deadline. -/
def settled : State := after (.settleDeadline 95) (atTime 30 0 (handedOver 30 (inTrip .van (.atStop 24) State.reset)))

theorem meets_SettleDeadline :
    (let s := atTime 30 0 (handedOver 30 (inTrip .van (.atStop 24) State.reset))
     (s.lots.get 95).state = .handover ∧ (s.lots.get 95).handover.isSome = true ∧ s.proofs.list.length < 16
       ∧ s.journal.entries.length < 6144)
    ∧ (settled.lots.get 95).state = .delivered ∧ settled.trip.record.nextProof = 2
    ∧ (settled.proofs.list.map ProofItem.number) = [1] ∧ (settled.journal.entries.map JEntry.kind) = [.seal]
    ∧ ((after (.settleDeadline 95) (atTime 29 0 (handedOver 30 State.reset))).lots.get 95).state = .handover := by decide +kernel

/-- A seal with 16 proofs in the list: the head leaves it, its lot is marked and ProofUnconfirmed raised. -/
theorem meets_SettleDeadline_full :
    (let p (i : Fin 16) : ProofItem := { index := ⟨i.val, by omega⟩, lot := 100 + BitVec.ofNat 32 i.val, number := i.val, check := 0, ackBy := 900 }
     let s := (atTime 30 0 (handedOver 30 (inTrip .van (.atStop 24) State.reset))).modList (fun _ => (List.finRange 16).map p)
     let t := after (.settleDeadline 95) s
     s.proofs.list.length = 16 ∧ t.proofs.list.length = 16 ∧ (t.proofs.list.map ProofItem.index).head? = some 1
       ∧ (t.lots.get 0).unconfirmed = true ∧ (t.lots.get 1).unconfirmed = false
       ∧ t.trunk.flags.get EventKind.proofUnconfirmed.index = { raised := true, subject := .lot 100 }) := by decide +kernel

/-- A seal passes a proof number that a lot of the trip holds, and hands over its PROOF frame: the record, whose flags
byte shows Blind and Unsynced, and its check word. -/
theorem meets_SettleDeadline_frame :
    (let s := (atTime 30 0 (handedOver 30 (inTrip .van (.atStop 24) State.reset))).modLot 95 fun l => { l with blind := true }
     let q : Option ProofFields := ((settled.lots.get 95).proof.map fun p => { p with record := { p.record with number := 1 } })
     let t := after (.settleDeadline 95) (s.modLot 2 fun l => { l with lot := 8, state := .delivered, proof := q })
     let sent (t : State) := t.trunk.tx.map fun x => (x.frame.dest, x.frame.kind, x.frame.tag, x.frame.payload.length)
     s.exporter.run = none ∧ q.isSome = true ∧ ((t.lots.get 95).proof.map ProofFields.number) = some 2 ∧ t.trip.record.nextProof = 3
       ∧ ((after (.settleDeadline 95) { s with trip := { s.trip with record := { s.trip.record with nextProof := 65535 } } }).trip.record.nextProof) = 65535
       ∧ sent t = some (0, 0x23, 0xC0, 54)
       ∧ (t.trunk.tx.map fun x => (x.frame.payload.take 10, x.frame.payload[49]?)) = some ([0, 0, 0, 7, 0, 2, 0, 0, 0, 9], some 17)
       ∧ (t.trunk.tx.map fun x => x.frame.payload.drop 50) = ((t.lots.get 95).proof.map fun p => b4 p.check)) := by decide +kernel

theorem meets_AckDeadline :
    (let p : ProofItem := { index := 95, lot := 9, number := 1, check := 0xAABBCCDD, ackBy := 300 }
     let s := atTime 300 0 ((lotIn .delivered State.reset).modList (fun _ => [p]))
     s.proofs.list.find? (fun q => q.index == 95) = some p
       ∧ ((after (.ackDeadline 95) s).lots.get 95).unconfirmed = true ∧ (after (.ackDeadline 95) s).proofs.list = []
       ∧ (after (.ackDeadline 95) { s with trip := { s.trip with clock := 299 } }).proofs.list = [p]
       ∧ s.proofs.list.find? (fun q => q.number == 1 && q.check == 0xAABBCCDD) = some p
       ∧ codeOf (.proofAck hdr [0, 1, 0xAA, 0xBB, 0xCC, 0xDD]) s = some 0
       ∧ (after (.proofAck hdr [0, 1, 0xAA, 0xBB, 0xCC, 0xDD]) s).proofs.list = []
       ∧ codeOf (.proofAck hdr [0, 1, 0xAA, 0xBB, 0xCC, 0xDE]) s = some 12
       ∧ codeOf (.proofAck hdr [0, 2, 0xAA, 0xBB, 0xCC, 0xDD]) s = some 14) := by decide +kernel

theorem meets_ProofAck_late : codeOf (.proofAck hdr [0, 1, 0, 0, 0, 0])
    ((settled.modLot 95 (fun l => { l with unconfirmed := true })).modList (fun _ => []) |> fun s => { s with trunk := Trunk.powerOn 0x70 }) = some 13 := by
  decide +kernel

/-- Journal entries numbered from 1, of one kind, at clock 0. -/
def entriesOf (kind : EntryKind) (n : Nat) : List JEntry := (List.range n).map fun i => anEntry (BitVec.ofNat 32 (i + 1)) 0 kind

theorem entriesOf_all (kind : EntryKind) (n : Nat) : ∀ y ∈ entriesOf kind n, y.kind = kind ∧ y.clock = 0 := by
  intro y hy
  obtain ⟨i, -, rfl⟩ := List.mem_map.1 hy
  exact ⟨rfl, rfl⟩

theorem entriesOf_length (kind : EntryKind) (n : Nat) : (entriesOf kind n).length = n := by
  rw [entriesOf, List.length_map, List.length_range]

theorem pinned_eq (h : Option Clock) (y : JEntry) (kind : EntryKind) (hy : y.kind = kind ∧ y.clock = 0) :
    y.pinned h = (kind.isKey && (match h with | some c => decide (c.toNat ≤ 0) | none => false)) := by
  obtain ⟨h1, h2⟩ := hy
  simp only [JEntry.pinned, h1, h2]; rfl

/-- A journal of entries of one kind meets the hypotheses of the clauses about a full journal. -/
theorem journal_of (kind : EntryKind) (lots : Vector LotEntry 96) (n : Nat) (hn : 0 < n) : ∃ s : State, s.lots = lots
    ∧ s.journal.entries.length = n
    ∧ (∀ y ∈ s.journal.entries, y.kind = kind ∧ y.clock = 0)
    ∧ ∃ a x b, s.journal.entries = a ++ x :: b ∧ x.kind = kind ∧ x.clock = 0 ∧ a = [] := by
  refine ⟨{ State.reset with lots := lots, journal := { entries := entriesOf kind n, nextSeq := 6145, appended := 6144 } }, rfl,
    entriesOf_length kind n, entriesOf_all kind n, ?_⟩
  obtain ⟨m, rfl⟩ : ∃ m, n = m + 1 := ⟨n - 1, by omega⟩
  exact ⟨[], anEntry 1 0 kind, _, by show entriesOf kind (m + 1) = _; rw [entriesOf, List.range_succ_eq_map, List.map_cons]; rfl, rfl, rfl, rfl⟩

theorem meets_FullJournals_summary : ∃ s : State, s.journal.entries.length = 6144
    ∧ ∃ a x b, s.journal.entries = a ++ x :: b ∧ x.kind = .summary ∧ ∀ y ∈ a, y.kind ≠ .summary := by
  obtain ⟨s, -, h1, -, a, x, b, h, hk, -, rfl⟩ := journal_of .summary State.reset.lots 6144 (by decide)
  exact ⟨s, h1, [], x, b, h, hk, fun y hy => nomatch hy⟩

theorem meets_FullJournals_unpinned : ∃ s : State, s.journal.entries.length = 6144
    ∧ ∃ a x b, s.journal.entries = a ++ x :: b ∧ (∀ y ∈ s.journal.entries, y.kind ≠ .summary)
      ∧ x.pinned (pinHorizon s.lots) = false ∧ ∀ y ∈ a, y.pinned (pinHorizon s.lots) = true := by
  obtain ⟨s, hl, h1, ha, a, x, b, h, hk, hc, rfl⟩ := journal_of .doorOpen State.reset.lots 6144 (by decide)
  refine ⟨s, h1, [], x, b, h, fun y hy => ?_, ?_, fun y hy => nomatch hy⟩
  · rw [(ha y hy).1]; decide
  · rw [pinned_eq _ x _ ⟨hk, hc⟩, hl]; decide +kernel

theorem meets_FullJournals_pinned : ∃ s : State, s.journal.entries.length = 6144
    ∧ ∀ y ∈ s.journal.entries, y.kind ≠ .summary ∧ y.pinned (pinHorizon s.lots) = true := by
  obtain ⟨s, hl, h1, ha, -⟩ := journal_of .doorOpen (lotIn .onBoard State.reset).lots 6144 (by decide)
  refine ⟨s, h1, fun y hy => ⟨by rw [(ha y hy).1]; decide, ?_⟩⟩
  rw [pinned_eq _ y _ (ha y hy), hl]; decide +kernel

/-- A lot loaded at clock 0 pins every Key entry; with none, no entry is pinned. -/
theorem test_removable : ((∀ y ∈ entriesOf .doorOpen 3, y.kind ≠ .summary) ∧ (∀ y ∈ entriesOf .doorOpen 3,
      y.pinned (pinHorizon (lotIn .onBoard State.reset).lots) = true ∧ y.pinned (pinHorizon State.reset.lots) = false))
    ∧ (∀ y ∈ entriesOf .summary 3, y.kind = .summary)
    ∧ removable (pinHorizon State.reset.lots) (entriesOf .doorOpen 3) = some (anEntry 1 0 .doorOpen)
    ∧ removable (pinHorizon (lotIn .onBoard State.reset).lots) (entriesOf .doorOpen 3) = none := by decide +kernel

/-- The pin horizon is the earliest load clock of the lots in custody or sealed: not that of an Expected lot, and none
where no lot holds one; an entry at the horizon is pinned, one before it is not, and a Summary entry never is. -/
theorem test_pinHorizon :
    (let lot (i : Fin 96) (x : LotState) (c : Clock) (s : State) : State :=
       s.modLot i fun l => { l with lot := 9, state := x, loadClock := some c }
     let s := lot 0 .onBoard 40 (lot 3 .returned 20 (lot 7 .expected 10 (lot 9 .delivered 30 State.reset)))
     pinHorizon s.lots = some 20 ∧ pinHorizon (lot 7 .expected 10 State.reset).lots = none ∧ pinHorizon (lotIn .short State.reset).lots = none
       ∧ (anEntry 1 20 .doorOpen).pinned (some 20) = true ∧ (anEntry 1 19 .doorOpen).pinned (some 20) = false
       ∧ (anEntry 1 20 .summary).pinned (some 20) = false ∧ (anEntry 1 20 .doorOpen).pinned none = false) := by decide +kernel

/-- A part whose journal holds entries 1 to 3. -/
def withThree : State := { State.reset with journal := { entries := entriesOf .doorOpen 3, nextSeq := 4, appended := 3 } }

theorem meets_JournalRequests : codeOf (.jrnlReq hdr [0, 0, 0, 0, 0, 0, 0]) State.reset = some 2
    ∧ codeOf (.jrnlReq hdr [5, 0, 0, 0, 0, 0, 0]) State.reset = some 2
    ∧ codeOf (.jrnlReq hdr [4, 0, 0, 0, 0, 0, 0]) State.reset = some 0 ∧ State.reset.journal.startPoint 1 = none
    ∧ codeOf (.jrnlReq hdr [1, 0, 0, 0, 1, 0, 0]) State.reset = some 5
    ∧ withThree.journal.startPoint 1 = some (anEntry 1 0 .doorOpen, false)
    ∧ withThree.journal.startPoint 0 = some (anEntry 1 0 .doorOpen, true)
    ∧ codeOf (.jrnlReq hdr [2, 0, 0, 0, 1, 0, 0]) withThree = some 1 ∧ codeOf (.jrnlReq hdr [2, 0, 0, 0, 1, 4, 0]) withThree = some 0
    ∧ (after (.jrnlReq hdr [3, 0, 0, 0, 1, 0, 0]) withThree).trunk.queue.length = 3
    ∧ ((after (.jrnlReq hdr [3, 0, 0, 0, 9, 0, 0]) withThree).exporter.run.map ExportRec.cursor) = some 4 := by decide +kernel

/-- The answer code of a claim query on an idle line. -/
def claimCode (s : State) (tag : Byte) : Option Byte :=
  (after (.claimQ hdr [0, 0, 0, 9, tag]) s).trunk.tx.bind fun x => x.frame.payload[5]?

theorem meets_ClaimQueries : findLot State.reset.lots 9 = none ∧ claimCode State.reset 1 = some 2
    ∧ claimCode (lotIn .expected State.reset) 1 = some 3 ∧ claimCode (handedOver 30 State.reset) 1 = some 4
    ∧ (let s := lotIn .onBoard withThree
       findLot s.lots 9 = some 95 ∧ s.claims.slotFor 9 = none ∧ s.claims.slots.get 0 = none ∧ s.claims.builder = none
         ∧ s.claims.order = [] ∧ s.journal.entries.getLast?.isSome = true ∧ claimCode s 1 = some 1
         ∧ (let t := after (.claimQ hdr [0, 0, 0, 9, 1]) s
            ((t.claims.slots.get 0).map Slot.state) = some .building ∧ t.claims.builder.isSome = true
              ∧ (let u := after .buildCompletion { t with trunk := Trunk.powerOn 0x70 }
                 ((u.claims.slots.get 0).map Slot.state) = some .ready ∧ ((u.claims.slots.get 0).bind Slot.statement).isSome = true
                   ∧ claimCode u 1 = some 0 ∧ (after (.claimQ hdr [0, 0, 0, 9, 1]) u).claims.slots.get 0 = none))) := by decide +kernel

theorem meets_ClaimQueries_full :
    (let x : Slot := { lot := 8, tag := 1, state := .building, reach := none, deadline := none, statement := none }
     let s : State := { lotIn .onBoard withThree with claims := { State.reset.claims with slots := Vector.replicate 4 (some x), order := [0, 1, 2, 3] } }
     s.claims.slotFor 9 = none ∧ (∀ k, s.claims.slots.get k ≠ none) ∧ claimCode s 1 = some 5
       ∧ (let t : State := { s with claims := { s.claims with slots := s.claims.slots.set 3 none, order := [0, 1, 2],
                                                              builder := some { slot := 0, began := 0, taken := [], left := [] } } }
          (t.claims.slots.get 3 = none ∧ ∀ j : Fin 4, j < 3 → t.claims.slots.get j ≠ none) ∧ claimCode t 1 = some 1
            ∧ (((after (.claimQ hdr [0, 0, 0, 9, 1]) t).claims.slots.get 3).map Slot.state) = some .queued)
       ∧ (let t : State := { s with claims := { s.claims with slots := s.claims.slots.set 3 (some { x with lot := 9 }) } }
          t.claims.slotFor 9 = some 3 ∧ claimCode t 1 = some 1)) := by decide +kernel

theorem meets_BuildCompletion :
    (let s := after (.claimQ hdr [0, 0, 0, 9, 1]) (lotIn .onBoard withThree)
     let t := (handedOver 30 s)
     s.claims.builder.isSome = true ∧ ((s.claims.slots.get 0).map Slot.lot) = some 9 ∧ findLot s.lots 9 = some 95
       ∧ (after .buildCompletion t).claims.slots.get 0 = none ∧ (after .buildCompletion t).claims.builder = none) := by decide +kernel

/-- An export over the entries numbered 1 to 3, whose line is busy with a queue. -/
def exporting (x : ExportRec) (q : List OutFrame) : State := { withThree with exporter := { run := some x, epoch := 5 }, trunk := busyLine q }

/-- A Block export at a cursor. -/
def exportAt (cursor : Word) (remaining : Nat) : ExportRec :=
  { mode := .block, dest := 0x55, cursor := cursor, place := cursor.toNat - 1, remaining := remaining, gap := false, firstSent := false, frames := 0 }

/-- Offers of an export: one frame, the Last of the count, the last entry held, over a gap, not taken, and none at a
cursor without an entry. -/
theorem meets_Offers :
    (let s (x : ExportRec) (q : List OutFrame) (k : Nat) : State := offer k (exporting x q)
     let tags (x : ExportRec) (k : Nat) : List Byte := (s x [] k).trunk.queue.map OutFrame.tag
     let run (x : ExportRec) (q : List OutFrame) (k : Nat) : Option (Word × Bool × Nat) :=
       (s x q k).exporter.run.map fun y => (y.cursor, y.gap, y.remaining)
     run (exportAt 1 9) [] 1 = some (2, false, 8) ∧ tags (exportAt 1 9) 1 = [128]
       ∧ tags (exportAt 1 2) 9 = [128, 65] ∧ run (exportAt 1 2) [] 9 = none ∧ tags (exportAt 1 9) 9 = [128, 1, 66]
       ∧ run (exportAt 1 9) [] 9 = none ∧ run { exportAt 1 0 with mode := .follow } [] 9 = some (4, false, 0)
       ∧ tags { exportAt 3 0 with mode := .single } 9 = [192]
       ∧ run (exportAt 1 9) (List.replicate 24 (frameOf .reply)) 9 = some (1, false, 9)
       ∧ run (exportAt 4 9) [] 9 = some (4, false, 9)
       ∧ (let t : State := { exporting (exportAt 1 9) [] with journal := { entries := [anEntry 1 0 .doorOpen, anEntry 3 0 .doorOpen], nextSeq := 4, appended := 3 } }
          ((offer 1 t).exporter.run.map fun y => (y.cursor, y.gap)) = some (3, true))) := by decide +kernel

/-- A frame handed over that removes a frame of the running export, at an entry held, removed and at the next number, of
an ended one, and of another class; and the removal of the entry at the cursor and of another. -/
theorem meets_StepBacks :
    (let g (epoch : Nat) (cursor : Word) : OutFrame := { frameOf .journal with origin := .journal epoch (exportAt cursor 9) }
     let run (f : OutFrame) (es : List JEntry) : Option (Word × Bool) :=
       let s := exporting (exportAt 3 7) (f :: List.replicate 23 (frameOf .reply))
       (hand (frameOf .reply) { s with journal := { s.journal with entries := es } }).1.exporter.run.map fun y => (y.cursor, y.gap)
     let three := entriesOf .doorOpen 3
     run (g 5 2) three = some (2, false) ∧ run (g 4 2) three = some (3, false)
       ∧ run (frameOf .report) three = some (3, false) ∧ run (g 5 1) (three.drop 1) = some (2, true)
       ∧ run (g 5 1) (three.drop 2) = some (3, true) ∧ run (g 5 4) three = some (4, false)
       ∧ (let s := { exporting (exportAt 3 7) (g 5 3 :: List.replicate 23 (frameOf .reply)) with
                     journal := { entries := [anEntry 1 0 .doorOpen], nextSeq := 4, appended := 3 } }
          ((hand (frameOf .reply) s).1.exporter.run.map fun y => (y.cursor, y.gap)) = some (4, true))
       ∧ (let t (k : Word) := evict (anEntry 2 0 .doorOpen) (exporting (exportAt k 7) [])
          (t 2).journal.entries.map JEntry.seq = [1, 3] ∧ ((t 2).exporter.run.map fun y => (y.cursor, y.gap)) = some (3, true)
            ∧ ((t 3).exporter.run.map fun y => (y.cursor, y.gap)) = some (3, false)
            ∧ (let u := evict (anEntry 3 0 .doorOpen) (exporting (exportAt 3 7) [])
               (u.exporter.run.map fun y => (y.cursor, y.gap)) = some (4, true)))) := by decide +kernel

/-- The entries held stand in the order of their places, with two of one number 2^32 places apart too; an export goes
on from its own place: a Follow past the newest waits there, and offers the new entry and not the old one of its number;
an entry removed moves the cursor to the next placed, whatever its number. -/
theorem meets_JournalOrders : JournalOrdered withThree
    ∧ (let old : JEntry := anEntry 2 0 .doorOpen
       let new : JEntry := { anEntry 1 9 .doorClose with place := 4294967296 }
       let x : ExportRec := { exportAt 2 0 with mode := .follow, place := 4294967297 }
       let s (es : List JEntry) (n : Nat) : State := { exporting x [] with
         journal := { entries := es, nextSeq := BitVec.ofNat 32 (n + 1), appended := n }, trunk := Trunk.powerOn 0x70 }
       let run (t : State) : Option (Word × Nat × Bool) := t.exporter.run.map fun y => (y.cursor, y.place, y.gap)
       JournalOrdered (s [old, new] 4294967297)
         ∧ run (offer 9 (s [old, new] 4294967297)) = some (2, 4294967297, false)
         ∧ (let t := append { kind := .arrive } (s [old, new] 4294967297)
            run t = some (3, 4294967298, false)
              ∧ (t.trunk.tx.map fun y => y.frame.payload.take 5) = some [0, 0, 0, 2, 0])
         ∧ (let t : State := { s [old, new] 4294967297 with exporter := { run := some (exportAt 2 9), epoch := 5 } }
            run (evict old t) = some (1, 4294967296, true))
         ∧ (s [old, new] 4294967297).journal.startPoint 2 = some (old, false)) := by
  unfold JournalOrdered; decide +kernel

/-- A slot under another tag is discarded and the lowest free one opened, with an idle builder, with the builder at
work on that slot and on another, and with another slot Queued; an opening with an empty journal is Ready at once. -/
theorem meets_ClaimQueries_tag :
    (let s := slotThree .ready (lotIn .onBoard withThree)
     let t (u : State) : State := after (.claimQ hdr [0, 0, 0, 9, 2]) u
     let b (k : Fin 4) : Build := { slot := k, began := 0, taken := [], left := [] }
     let other : Slot := { lot := 8, tag := 1, state := .queued, reach := none, deadline := none, statement := none }
     let build (x : Option Build) : State := { s with claims := { s.claims with builder := x } }
     let full (x : Slot) : State := { s with claims := { s.claims with slots := #v[some x, some x, some x, s.claims.slots.get 3], order := [0, 3] } }
     s.claims.slotFor 9 = some 3 ∧ s.journal.entries ≠ [] ∧ claimCode s 2 = some 1
       ∧ (t s).claims.slots.get 3 = none ∧ (((t s).claims.slots.get 0).map fun x => (x.tag, x.state)) = some (2, .building)
       ∧ (((t (build (some (b 3)))).claims.slots.get 0).map Slot.state) = some .building
       ∧ (((t (build (some (b 2)))).claims.slots.get 0).map Slot.state) = some .queued
       ∧ (((t (full { other with state := .ready })).claims.slots.get 3).map fun x => (x.tag, x.state)) = some (2, .building)
       ∧ (((t (full other)).claims.slots.get 3).map fun x => (x.tag, x.state)) = some (2, .queued))
    ∧ (let s := lotIn .onBoard State.reset
       let t := after (.claimQ hdr [0, 0, 0, 9, 1]) s
       s.journal.entries = [] ∧ s.claims.builder = none ∧ claimCode s 1 = some 1
         ∧ ((t.claims.slots.get 0).map Slot.state) = some .ready ∧ t.claims.builder = none
         ∧ (((t.claims.slots.get 0).bind Slot.statement).map fun y => (y.reach, y.items)) = some (none, [])) := by decide +kernel

/-- An entry of lot 9 in zone 12. -/
def ofNine (kind : EntryKind) (v1 v2 : Word) : JEntry := { anEntry 1 4 kind with lot := some 9, zone := some 11, v1 := v1, v2 := v2 }

/-- An entry of door 4 over zone 12. -/
def ofDoor (kind : EntryKind) (v1 : Word) : JEntry := { anEntry 1 5 kind with door := some 3, zones := some 0b100000000000, v1 := v1 }

/-- A walk over a custody with a handover cancelled, a door opened and closed in it and opened after it. -/
theorem meets_Walks :
    (let h := ofNine .handoverOpen 6 0x3E180002
     let w := walkOver 9 [ofDoor .doorOpen 1, ofNine .load 100 62, ofDoor .doorOpen 0, ofDoor .doorClose 7, h, ofNine .handoverCancel 15 62,
       ofNine .handoverCancel 15 62, h, ofDoor .doorOpen 1, ofNine .move 3 0, ofNine .seal 1 0, ofDoor .doorOpen 1, ofNine .confirm 1 0]
     w.items = [.load 4 11 100 62, .handover 4 6 62 24 true false (some { clock := 4, reason := 15, scanner := 62 }),
                .handover 4 6 62 24 true false none, .move 4 12 3]
       ∧ w.openings = [{ door := 3, clock := 5, authorized := false, duration := some 7 },
                       { door := 3, clock := 5, authorized := true, duration := none }]
       ∧ w.sealFound = true ∧ w.cancelLost = true ∧ w.inCustody = false)
    ∧ (walkOver 9 [ofNine .short 0 0]).items = [.short 4 11 0] ∧ (walkOver 9 [ofNine .handoverCancel 1 1]).cancelLost = true
    ∧ (walkOver 9 [ofNine .load 100 62, ofNine .returned 1 5]).items = [.load 4 11 100 62, .ret 4 11 1 5]
    ∧ (walkOver 9 [{ ofNine .load 100 62 with zone := some 10 }, ofDoor .doorOpen 1]).openings = [] := by decide +kernel

/-- A build completion over 25 items, over 17 openings, and with another slot Queued. -/
theorem meets_BuildCompletion_long :
    (let s (es : List JEntry) : State :=
       let u := slotThree .building (lotIn .onBoard { State.reset with journal := { entries := es, nextSeq := 99, appended := 98 } })
       let x : Slot := { lot := 8, tag := 1, state := .queued, reach := none, deadline := none, statement := none }
       { u with claims := { u.claims with slots := u.claims.slots.set 0 (some x), order := [3, 0], builder := some { slot := 3, began := 0, taken := [], left := es } } }
     let y (es : List JEntry) : Option Statement := ((after .buildCompletion (s es)).claims.slots.get 3).bind Slot.statement
     let items := ofNine .load 100 62 :: (List.range 24).map fun k => ofNine .move (BitVec.ofNat 32 k) 0
     (y items).map (fun y => (y.items.length, y.passedOver, y.items.getLast?)) = some (24, 1, some (.move 4 12 23))
       ∧ (y (items.take 24)).map (fun y => (y.items.length, y.passedOver)) = some (24, 0)
       ∧ (y (ofNine .load 100 62 :: List.replicate 17 (ofDoor .doorOpen 1))).map (fun y => (y.openings.length, y.beyond)) = some (16, 1)
       ∧ (let t := after .buildCompletion (s items)
          (t.claims.builder.map fun b => (b.slot, b.taken.length, b.left.length)) = some (0, 0, 25)
            ∧ ((t.claims.slots.get 0).map fun x => (x.state, x.reach)) = some (.building, some 1))) := by decide +kernel

/-- How the custody of a lot stands at the end of a statement. -/
theorem meets_BuildCompletion_endings :
    (let y (x : LotState) (es : List JEntry) : Option Statement :=
       let u := slotThree .building (lotIn x { State.reset with journal := { entries := es, nextSeq := 99, appended := 98 } })
       let v : State := { u with claims := { u.claims with builder := some { slot := 3, began := 0, taken := es, left := [] } } }
       ((after .buildCompletion v).claims.slots.get 3).bind Slot.statement
     (y .onBoard []).map (fun y => (y.ending, y.incomplete)) = some (.inCustody 0, true)
       ∧ (let u := slotThree .building ((lotIn .short { State.reset with journal := { entries := [], nextSeq := 99, appended := 98 } }).modLot 95
              fun l => { l with loadClock := none })
          let v : State := { u with claims := { u.claims with builder := some { slot := 3, began := 0, taken := [ofNine .short 0 0], left := [] } } }
          (((after .buildCompletion v).claims.slots.get 3).bind Slot.statement).map (fun y => (y.ending, y.items, y.passedOver, y.incomplete))
            = some (.short 4, [], 0, false))
       ∧ (y .short [ofNine .short 0 0]).map (fun y => (y.ending, y.items)) = some (.short 4, [.short 4 11 0])
       ∧ (y .short []).map Statement.ending = some (.short 0)
       ∧ (y .returned [ofNine .returned 1 5]).map Statement.ending = some (.returned 4)
       ∧ (y .returned []).map Statement.ending = some (.returned 0)
       ∧ y .expected [] = none
       ∧ (let s := slotThree .building settled
          let v : State := { s with claims := { s.claims with builder := some { slot := 3, began := 0, taken := [], left := [] } } }
          (((after .buildCompletion v).claims.slots.get 3).bind Slot.statement).map Statement.ending = some (.sealed .settle 30))) := by
  decide +kernel

/-- The claim unit with slots for lots 9 and 8, the second of them Queued, and a builder. -/
def claiming (x : SlotState) (b : Option Build) (s : State) : State :=
  let slot (lot : Word) (x : SlotState) : Slot := { lot := lot, tag := 1, state := x, reach := none, deadline := none, statement := none }
  { s with claims := { s.claims with slots := #v[some (slot 8 .queued), none, none, some (slot 9 x)], order := [3, 0], builder := b } }

/-- A build of a slot that has walked nothing of the entries 1 to 3. -/
def building (k : Fin 4) : Build := { slot := k, began := 0, taken := [], left := entriesOf .doorOpen 3 }

/-- The entry that an append places, handed on: a Key entry of lot 9 discards its slot and no other, the builder taking the
Queued slot when it was idle or at work on the discarded one, and standing when it is at work on another; a Summary entry,
an entry with no lot and one of a lot with no slot touch no slot. -/
theorem meets_Placed :
    (let lotNine (x : SlotState) (b : Option Build) : State := claiming x b withThree
     let t (d : Draft) (s : State) : Claims := (append d s).claims
     let d : Draft := { kind := .move, lot := some 9 }
     let s := lotNine .ready none
     s.journal.entries.length < 6144 ∧ (∀ x, s.claims.slots.get 3 = some x → x.lot = 9)
       ∧ (append d s).journal.entries = s.journal.entries ++ [{ anEntry 4 0 .move with unsynced := true, lot := some 9 }]
       ∧ (t d s).slots.get 3 = none ∧ (t d s).order = [0]
       ∧ ((t d s).slots.get 0).map (fun x => (x.lot, x.state, x.reach)) = some (8, .building, some 4)
       ∧ (t d s).builder.map (fun b => (b.slot, b.left.length)) = some (0, 4)
       ∧ (t d (lotNine .building (some (building 3)))).builder.map Build.slot = some 0
       ∧ (let u := lotNine .ready (some (building 0))
          (t d u).slots.get 3 = none ∧ (t d u).builder = some (building 0) ∧ (t d u).slots.get 0 = u.claims.slots.get 0)
       ∧ (let u := slotThree .ready withThree
          (t d u).slots.get 3 = none ∧ (t d u).builder = none ∧ (t d u).order = [])
       ∧ t { kind := .summary, lot := some 9 } s = s.claims ∧ t { kind := .doorOpen } s = s.claims
       ∧ t { kind := .move, lot := some 7 } s = s.claims) := by decide +kernel

/-- The placed entry and the export: offered at the cursor of a Follow that waits for it, and not with the cursor elsewhere,
or with no export. -/
theorem meets_Placed_export :
    (let run (cursor : Word) : State := append { kind := .doorOpen } { exporting { exportAt cursor 0 with mode := .follow } [] with trunk := Trunk.powerOn 0x70 }
     (run 4).exporter.run.map ExportRec.place = some 4 ∧ ((run 4).trunk.tx.map fun x => x.frame.payload.take 4) = some [0, 0, 0, 4]
       ∧ (run 2).exporter.run.map ExportRec.place = some 1 ∧ (run 2).trunk.tx = none
       ∧ (append { kind := .doorOpen } withThree).trunk = withThree.trunk) := by decide +kernel

/-- A removal with no build and no export in progress leaves all but the journal; with a build, it keeps the build, on its
slot. -/
theorem meets_Removals :
    (let e := anEntry 2 0 .doorOpen
     let s := claiming .ready none withThree
     let u := claiming .building (some (building 3)) withThree
     evict e s = { s with journal := { s.journal with entries := [anEntry 1 0 .doorOpen, anEntry 3 0 .doorOpen] } }
       ∧ u.claims.builder = some (building 3) ∧ (evict e u).claims.builder.isSome = true
       ∧ (evict e u).claims.slots = u.claims.slots) := by
  refine ⟨by decide +kernel, by decide +kernel, rfl, rfl⟩

/-- The bytes of a journal entry and of a statement, written out from R197. -/
theorem test_record_bytes :
    JEntry.bytes { ofDoor .doorClose 7 with unsynced := true, v2 := 3 } true
        = [0, 0, 0, 1, 0, 0, 0, 5, 0x8E, 15, 0, 0, 0, 0, 8, 0, 4, 0, 0, 0, 7, 0, 0, 0, 3]
    ∧ JEntry.bytes (ofNine .summary 0x1FF38 2) false
        = [0, 0, 0, 1, 0, 0, 0, 4, 0x70, 22, 0, 0, 0, 9, 0, 12, 0, 0, 1, 0xFF, 0x38, 0, 0, 0, 2]
    ∧ Item.bytes (.handover 4 6 62 24 true false (some { clock := 5, reason := 15, scanner := 61 }))
        = [3, 0, 0, 0, 4, 0, 0, 0, 6, 62, 24, 2, 1, 0, 0, 0, 5, 15, 61]
    ∧ (let s := after (.claimQ hdr [0, 0, 0, 9, 2]) (lotIn .returned State.reset)
       let y := (s.claims.slots.get 0).bind Slot.statement
       y.map (fun y => y.bytes.take 17) = some [0, 0, 0, 9, 2, 0, 0, 0, 0, 1, 0, 0, 0, 6, 12, 0, 0]
         ∧ y.map (fun y => y.bytes.length) = some 63
         ∧ y.map (fun y => y.bytes.drop 50) = some [1, 0, 0, 0, 3, 0, 0, 0, 0, 0, 0, 0, 0]
         ∧ y.map (fun y => (pieces 49 y.bytes.length y.bytes).map List.length) = some [49, 14]) := by decide +kernel

/-! ### The sensor line -/

/-- Between rounds, the next one set for time 5000. -/
def waiting (s : State) : State := s.modSensor fun x => { x with phase := .waiting 5000, roundNo := 1 }

theorem meets_Rounds : (after .roundStart { waiting State.reset with ref := 4999 }).sensor.phase = .waiting 5000
    ∧ (after .roundStart { waiting State.reset with ref := 5007 }).sensor.phase = .running (Round.start 5000) := by decide +kernel

theorem meets_Polls :
    (let s := nodeOn .probe .alive State.reset
     s.sensor.phase = .running (Round.start 0) ∧ s.sensor.exchange = none ∧ s.sensor.arbiter ≠ .pollEnded
       ∧ (s.sensor.nodes.get 31).enabled = true ∧ (s.sensor.nodes.get 31).kind = .probe ∧ (s.sensor.rts.get 31).state ≠ .lost
       ∧ (∀ m : Fin 32, m < 31 → (s.sensor.nodes.get m).enabled = false)
       ∧ (after .poll s).sensor.exchange = (polled s).sensor.exchange
       ∧ (after .poll (after .poll s)) = after .poll s)
    ∧ (let s := (nodeOn .probe .alive State.reset).modSensor fun x =>
         { x with arbiter := .pollEnded, throughQ := [{ frame := someFrame 0xBF 0x12 1, node := 31 }] }
       s.sensor.arbiter = .pollEnded ∧ s.sensor.throughQ ≠ [] ∧ after .poll s = s) := by decide +kernel

/-- A polled probe with a report policy. -/
def probeWith (p : Policy) (r : NodeRt → NodeRt) : State :=
  let s := polled (nodeOn .probe .alive State.reset)
  (s.modSensor fun x => { x with nodes := upd x.nodes 31 fun e => { e with policy := p, offset := -50 } }).modNodeRt 31 r

/-- What the polled probe holds, and whether a REPORT was sent, after a reading of 60.0 degrees. -/
def readAt (s : State) : Option Int × Option Int × Nat × Bool :=
  let t := after (.replyReading 62 0xC0 600 1) s
  let r := t.sensor.rts.get 31
  (r.last.map Reading.value, r.lastReported, r.everyN, t.trunk.tx.isSome)

theorem meets_Readings : (probeWith .pass id).sensor.exchange = (polled State.reset).sensor.exchange
    ∧ ((probeWith .pass id).sensor.nodes.get 31).kind = .probe ∧ ((probeWith .pass id).sensor.rts.get 31).state ≠ .lost
    ∧ (1 : Byte).getLsbD 0 = true ∧ -600 ≤ (600 : Half).toInt ∧ (600 : Half).toInt ≤ 600 := by decide +kernel

theorem test_policies : [probeWith .pass id, probeWith .silent id, probeWith (.everyN 2) id,
      probeWith (.everyN 2) (fun r => { r with everyN := 1 }), probeWith (.change 5) (fun r => { r with lastReported := some 546 }),
      probeWith (.change 5) (fun r => { r with lastReported := some 545 }), probeWith (.change 5) id].map readAt
    = [(some 550, some 550, 0, true), (some 550, none, 0, false), (some 550, none, 1, false), (some 550, some 550, 0, true),
       (some 550, some 546, 0, false), (some 550, some 550, 0, true), (some 550, some 550, 0, true)] := by decide +kernel

theorem test_invalid_reading : ((after (.replyReading 62 0xC0 601 1) (probeWith .pass id)).sensor.rts.get 31).last = none
    ∧ ((after (.replyReading 62 0xC0 600 0) (probeWith .pass id)).sensor.rts.get 31).last = none := by decide +kernel

/-- A reading of a Lost probe, valid and Invalid: NodeBack first, and then the reading, stored when it is valid. -/
theorem meets_Readings_lost :
    (let s := polled (nodeOn .probe .lost State.reset)
     let t (raw : Half) (quality : Byte) : State := after (.replyReading 62 0xC0 raw quality) s
     ((s.sensor.rts.get 31).state = .lost)
       ∧ (t 600 1).journal.entries.map (fun e => (e.kind, e.v1)) = [(.nodeBack, 62)]
       ∧ ((t 600 1).sensor.rts.get 31).last = some { value := 600, clock := 0 }
       ∧ (t 600 1).trunk.queue.length = 1 ∧ (t 601 1) = after (.replyIdle 62 0xC0) s
       ∧ (t 600 0) = after (.replyIdle 62 0xC0) s ∧ (t (-601) 1) = after (.replyIdle 62 0xC0) s
       ∧ ((t (-601) 1).sensor.rts.get 31).state = .alive) := by decide +kernel

theorem meets_RepliesAndMisses :
    (let s := polled (nodeOn .probe .lost State.reset)
     (after (.replyIdle 62 0xC0) s).journal.entries.length = 1 ∧ ((after (.replyIdle 62 0xC0) s).sensor.rts.get 31).state = .alive
       ∧ ((after (.replyIdle 62 0xC0) s).trunk.flags.get 1).raised = true)
    ∧ (let s := (polled (nodeOn .probe .alive State.reset)).modNodeRt 31 fun r => { r with misses := 1 }
       min 255 ((s.sensor.rts.get 31).misses + 1) < (s.sensor.nodes.get 31).lostLimit
         ∧ (after .replyWindowExpiry { s with ref := 9 }) = { s with ref := 9 }
         ∧ ((after .replyWindowExpiry { s with ref := 10 }).sensor.rts.get 31).misses = 2
         ∧ ((after .replyWindowExpiry { s with ref := 10 }).sensor.rts.get 31).state = .alive
         ∧ (after (.badReply (someFrame 0 2 0) 0) s).sensor.fault.kind = .badCheck
         ∧ (after (.badReply (someFrame 0 2 0) (someFrame 0 2 0).check) s).sensor.fault.kind = .wrongSource
         ∧ (let f : Frame := { dest := 0, src := 62, kind := 4, tag := 0xC0, payload := [] }
            (after (.badReply f f.check) s).sensor.fault.kind = .wrongKind)
         ∧ (let t := s.modNodeRt 31 fun r => { r with misses := 2 }
            ((after .replyWindowExpiry { t with ref := 10 }).sensor.rts.get 31).state = .lost)) := by decide +kernel

/-- The node and the accessory mark of the poll in flight. -/
def pollOf (s : State) : Option (Fin 32 × Bool) :=
  match s.sensor.exchange with
  | some (.poll n accessory _ _) => some (n, accessory)
  | _ => none

/-- A round in progress. -/
def inRound (r : Round) (s : State) : State := s.modSensor fun x => { x with phase := .running r, exchange := none }

/-- Accessory turns: at count 4 and at the end of the walk, of a Lost scanner, a turn that goes on, and the walk going on
with an empty rotation or with nothing left. -/
theorem meets_Turns :
    (let r : Round := Round.start 0
     let s (x : NodeState) : State := (nodeOn .scanner x State.reset).modSensor fun y =>
       { y with rotation := [31], nodes := upd y.nodes 31 fun e => { e with dwell := 9 } }
     let left (y : State) : Option (Nat × Nat) := match y.sensor.phase with
       | .running x => x.turn.map fun t => (t.left, x.count)
       | .waiting _ => none
     let poll (x : Round) (y : NodeState) : State := after .poll (inRound x (s y))
     left (poll { r with count := 4, polled := true } .alive) = some (8, 0)
       ∧ left (poll { r with count := 4, polled := true } .lost) = some (0, 0)
       ∧ left (poll { r with count := 3, polled := true } .alive) = some (8, 0) ∧ left (poll r .alive) = some (8, 0)
       ∧ left (poll { r with turn := some { node := 31, left := 3 } } .alive) = some (2, 0)
       ∧ pollOf (poll r .alive) = some (31, true) ∧ pollOf (poll { r with walkEnded := true } .alive) = none
       ∧ pollOf (poll { r with polled := true } .alive) = none
       ∧ (let y (x : Round) : State := after .poll (inRound x (nodeOn .probe .alive State.reset))
          pollOf (y { r with count := 4, polled := true }) = some (31, false)
            ∧ pollOf (y { r with count := 4, polled := true, walked := 32 }) = none)) := by decide +kernel

/-- The verdict that a POLL carries to a scanner: none, accepted, advised and rejected. -/
theorem meets_PollVerdicts :
    (let v (o : ScanOutcome) : ScanMem := { number := 5, verdict := some { action := .unload, lot := 9, outcome := o }, pending := none }
     let body (m : ScanMem) (k : Nat) : List Byte :=
       (pollFrame (nodeOn .scanner .alive (State.reset.modMem 31 fun _ => m)) 31).payload.take k
     body { number := 0, verdict := none, pending := none } 2 = [0, 0] ∧ body (v .accepted) 7 = [5, 1, 2, 0, 0, 0, 9]
       ∧ body { v (.advise { hold := true, misdrop := true }) with
                pending := some { lot := 9, kinds := { hold := true, misdrop := true }, token := 0, confirmBy := 300 } } 9
           = [5, 2, 2, 0, 0, 0, 9, 3, 255]
       ∧ body (v (.rejected .notManifested)) 8 = [5, 3, 2, 0, 0, 0, 9, 6]) := by decide +kernel

/-- A miss at the lost limit, a reply of a wrong length, one from a wrong source, and one of a wrong kind. -/
theorem meets_Misses :
    (let s := (polled (nodeOn .probe .alive State.reset)).modNodeRt 31 fun r => { r with misses := 2 }
     let t := after .replyWindowExpiry { s with ref := 10 }
     (s.sensor.nodes.get 31).lostLimit ≤ min 255 ((s.sensor.rts.get 31).misses + 1)
       ∧ t.journal.entries.map (fun e => (e.kind, e.zone, e.v1)) = [(.nodeLost, some 11, 62)]
       ∧ t.trunk.flags.get EventKind.nodeLost.index = { raised := true, subject := .node 62 }
       ∧ (let f : Frame := { dest := 0, src := 62, kind := 3, tag := 0xC0, payload := [1, 2] }
          (after (.badReply f f.check) s).sensor.fault.kind = .wrongKind)
       ∧ (after (.replyIdle 61 0xC0) s).sensor.fault = { kind := .wrongSource, address := 62, clock := 0 }
       ∧ (after (.replyReading 61 0xC0 0 1) s).sensor.fault.kind = .wrongSource
       ∧ (after (.replyScan 62 0xC0 { number := 1, action := 1, lot := 9, token := 0, reason := 0 }) s).sensor.fault.kind = .wrongKind
       ∧ (after (.replyReading 62 0xC0 0 1) (polled (nodeOn .scanner .alive State.reset))).sensor.fault.kind = .wrongKind)
    ∧ (let s := polled (nodeOn .scanner .lost State.reset)
       (after (.replyIdle 62 0xC0) s).journal.entries.map (fun e => (e.kind, e.zone, e.v1)) = [(.nodeBack, none, 62)]) := by decide +kernel

/-! ### Scans -/

/-- A scan of lot 9 with an action. -/
def scanOf (action : Byte) : ScanFields := { number := 255, action := action, lot := 9, token := 6, reason := 15 }

/-- A polled scanner during a visit of stop 24, with lot 9 in a state. -/
def scanning (x : LotState) : State := polled (nodeOn .scanner .alive (inTrip .van (.atStop 24) (lotIn x State.reset)))

theorem meets_Load :
    (let s := scanning .expected
     s.sensor.exchange.isSome = true ∧ (s.sensor.nodes.get 31).kind = .scanner ∧ (s.sensor.nodes.get 31).address = 62
       ∧ (s.sensor.rts.get 31).state ≠ .lost ∧ (scanOf 1).number ≠ (s.scans.mem.get 31).number
       ∧ s.trip.record.state.stop ≠ none ∧ findLot s.lots 9 = some 95 ∧ (s.lots.get 95).state = .expected
       ∧ (let t := after (.replyScan 62 0xC0 (scanOf 1)) s
          (t.lots.get 95).state = .onBoard ∧ (t.lots.get 95).core = -180 ∧ (t.lots.get 95).blind = true ∧ t.journal.entries.length = 1
            ∧ (after (.replyScan 62 0xC0 (scanOf 1)) { t with sensor := s.sensor }).journal.entries.length = 1)) := by decide +kernel

theorem meets_UnloadAndRefuse :
    (let s := scanning .onBoard
     handovers s.lots < 8 ∧ s.trip.record.state = .atStop 24 ∧ (s.lots.get 95).grade = .good
       ∧ ((after (.replyScan 62 0xC0 (scanOf 2)) s).lots.get 95).state = .handover
       ∧ (let t := s.modLot 95 fun l => { l with grade := .hold, planned := some 23 }
          (((after (.replyScan 62 0xC0 (scanOf 2)) t).scans.mem.get 31).pending.map Pending.kinds) = some { hold := true, misdrop := true }
            ∧ ((after (.replyScan 62 0xC0 (scanOf 2)) t).lots.get 95).state = .onBoard
            ∧ (let c := judgeScan 31 62 .confirm (scanOf 3) (after (.replyScan 62 0xC0 (scanOf 2)) t)
               c.2 = .accepted ∧ ((c.1.lots.get 95).handover.map fun h => (h.token, h.hold, h.misdrop)) = some (6, true, true)))
       ∧ (judgeScan 31 62 .confirm (scanOf 3) s).2 = .rejected .noPending
       ∧ (((after (.replyScan 62 0xC0 (scanOf 4)) s).scans.mem.get 31).verdict.map Verdict.outcome) = some (.rejected .wrongState))
    ∧ (let s := polled (nodeOn .scanner .alive (handedOver 30 State.reset))
       findLot s.lots 9 = some 95 ∧ ((after (.replyScan 62 0xC0 (scanOf 4)) s).lots.get 95).state = .onBoard) := by decide +kernel

/-- Scans judged by the other rows: no visit open, no such lot, a lot in another state, a full part, the same scanner and
another one, the dock, and each Confirm. -/
theorem meets_ScanRows :
    (let onTrip (x : TripState) (y : LotState) : State := inTrip .van x (lotIn y State.reset)
     let p : Pending := { lot := 9, kinds := { hold := true, misdrop := false }, token := 7, confirmBy := 300 }
     let warned (s : State) : State := s.modMem 31 fun m => { m with pending := some p }
     let full (s : State) : State := (List.finRange 8).foldl (fun x i => x.modLot ⟨i.val, by omega⟩ fun l => { l with lot := 100, state := .handover }) s
     let out (a : ScanAction) (s : State) : ScanOutcome := (judgeScan 31 62 a (scanOf 1) s).2
     let loose := onTrip (.atStop 24) .free
     [out .load (onTrip .transit .expected), out .load (onTrip .loading .onBoard), out .load (loose.modLot 95 fun l => { l with lot := 0 }),
       out .unload (onTrip .loading .onBoard), out .unload (onTrip (.atStop 24) .expected), out .unload (full (onTrip (.atStop 24) .onBoard)),
       out .unload (loose.modLot 95 fun l => { l with lot := 0 }), out .unload (onTrip .dock .onBoard),
       out .confirm (onTrip (.atStop 24) .onBoard), out .confirm (warned (onTrip (.atStop 24) .short)),
       out .confirm (full (warned (onTrip (.atStop 24) .onBoard))), out .confirm (warned (loose.modLot 95 fun l => { l with lot := 0 })),
       out .confirm (warned (onTrip .dock .onBoard)), out .refuse (loose.modLot 95 fun l => { l with lot := 0 }), out .refuse (onTrip .dock .onBoard)]
       = [.rejected .wrongTripState, .rejected .wrongState, .rejected .notManifested,
          .rejected .wrongTripState, .rejected .wrongState, .rejected .busy, .rejected .noSuchLot, .accepted,
          .rejected .noPending, .rejected .wrongState, .rejected .busy, .rejected .noSuchLot, .accepted, .rejected .noSuchLot, .rejected .wrongState]
       ∧ (judgeScan 31 62 .unload (scanOf 1) (onTrip .dock .onBoard)).1.journal.entries.map (fun e => (e.kind, e.v1, e.v2))
           = [(.handoverOpen, 6, 0x3E000000)]
       ∧ (judgeScan 31 62 .confirm (scanOf 1) (warned (onTrip (.atStop 24) .onBoard))).1.journal.entries.map (fun e => (e.kind, e.v1, e.v2))
           = [(.handoverOpen, 7, 0x3E180002)]
       ∧ (let s := handedOver 30 (inTrip .van (.atStop 24) State.reset)
          (judgeScan 31 5 .unload (scanOf 1) s).2 = .accepted ∧ (judgeScan 31 62 .unload (scanOf 1) s).2 = .rejected .wrongState)) := by
  decide +kernel

/-- A malformed scan and a duplicate one leave what a REPLY_IDLE leaves. -/
theorem meets_ScanShapes :
    (let s := scanning .onBoard
     let same (f : ScanFields) : Bool := decide ((after (.replyScan 62 0xC0 f) s).scans = s.scans)
     same { scanOf 2 with number := 0 } = true ∧ same (scanOf 0) = true ∧ same (scanOf 5) = true
       ∧ same { scanOf 4 with reason := 0 } = true ∧ same { scanOf 4 with reason := 16 } = true
       ∧ (let t := s.modMem 31 fun m => { m with number := 255 }
          ((after (.replyScan 62 0xC0 (scanOf 2)) t).lots.get 95).state = .onBoard) ∧ same (scanOf 2) = false) := by decide +kernel

/-! ### Through exchanges -/

theorem meets_Through :
    (let f := someFrame 0xBF 0x12 56
     let s := nodeOn .probe .alive State.reset
     let q : ThroughEntry := { frame := f, node := 31 }
     0x80 ≤ f.dest.toNat ∧ f.dest.toNat ≤ 0xBF ∧ (s.sensor.nodes.get 31).aliasAddr = some f.dest
       ∧ (∀ n, (State.reset.sensor.nodes.get n).enabled = false) ∧ codeOf (.throughFrame f) State.reset = some 10
       ∧ (after (.throughFrame f) s).sensor.throughQ = [q]
       ∧ codeOf (.throughFrame f) (s.modSensor fun x => { x with throughQ := [q, q, q, q] }) = some 9
       ∧ (after .thruOut s) = s ∧ (after .thruOut (polled s)) = polled s
       ∧ (let t := after .thruOut (s.modSensor fun x => { x with throughQ := [q], arbiter := .pollEnded })
          t.sensor.throughQ = [] ∧ t.sensor.exchange.isSome = true
            ∧ ((after (.thruBack 62 0xC0 (List.replicate 56 1)) t).trunk.tx.map fun x => (x.frame.dest, x.frame.src)) = some (0x55, 0xBF)
            ∧ after (.thruWindowOtherFrame (someFrame 0 6 0) 0) t = t ∧ after .throughWindowExpiry { t with ref := 9 } = { t with ref := 9 }
            ∧ codeOf .throughWindowExpiry { t with ref := 10 } = some 11)
       ∧ after (.straySensorFrame f 0) s = s) := by decide +kernel

/-- A round whose walk has node 31 still to poll. -/
def walking : State := inRound { Round.start 0 with walked := 31, polled := true } (nodeOn .probe .alive State.reset)

theorem walking_awaits : PollAwaits walking.sensor :=
  ⟨{ Round.start 0 with walked := 31, polled := true }, rfl, Or.inr (Or.inl ⟨rfl, 31, by decide +kernel⟩)⟩

/-- What the arbiter holds after an exchange: with a poll due, with a through frame waiting, with neither; and a through
frame that waits for the poll that is due. -/
theorem meets_LineFree :
    (let f := someFrame 0xBF 0x12 1
     let q : ThroughEntry := { frame := f, node := 31 }
     let on (x : Exchange) (l : List ThroughEntry) (s : State) : State := s.modSensor fun y => { y with exchange := some x, throughQ := l }
     let sent : Frame := { dest := 62, src := 0, kind := 1, tag := 0xC0, payload := [] }
     let idle := inRound { Round.start 0 with walked := 32, polled := true } (nodeOn .probe .alive State.reset)
     let ended (c : Instr) (s : State) : Arbiter × Bool := ((after c s).sensor.arbiter, (after c s).sensor.exchange.isNone)
     ended (.replyIdle 62 0xC0) (on (.poll 31 false sent 10) [] idle) = (.idle, true)
       ∧ ended (.replyIdle 62 0xC0) (on (.poll 31 false sent 10) [q] idle) = (.pollEnded, true)
       ∧ ended .replyWindowExpiry (on (.poll 31 false sent 0) [] walking) = (.pollEnded, true)
       ∧ ended .throughWindowExpiry (on (.through 31 f sent 0) [] idle) = (.idle, true)
       ∧ ended (.thruBack 62 0xC0 []) (on (.through 31 f sent 10) [] walking) = (.throughEnded, true)
       ∧ ended (.nodeTableWrite hdr 31 (scannerFields 62)) (on (.poll 31 false sent 10) [{ q with node := 30 }] idle) = (.pollEnded, true)
       ∧ (let t := after (.nodeTableWrite hdr 31 { scannerFields 62 with enabled := 0 }) (on (.poll 31 false sent 10) [q] idle)
          t.sensor.arbiter = .idle ∧ t.sensor.throughQ = [])
       ∧ (let s := walking.modSensor fun y => { y with throughQ := [q], arbiter := .throughEnded }
          s.sensor.phase = walking.sensor.phase ∧ after .thruOut s = s
            ∧ (after .poll s).sensor.exchange.isSome = true)) := by decide +kernel

/-! ### Zones and exposure -/

/-- Zone 12 with one reading of a probe, stored at clock 40. -/
def zoneRead (value : Int) (s : State) : State :=
  (nodeOn .probe .alive s).modNodeRt 31 fun r => { r with last := some { value := value, clock := 40 } }

theorem meets_RoundEnd :
    (let s := atTime 99 2000 ((zoneRead (-181) (zoneLive State.reset)).modSensor fun x => { x with phase := .running { Round.start 0 with walkEnded := true } })
     s.sensor.exchange = none ∧ s.sensor.plan { Round.start 0 with walkEnded := true } = .roundEnd
       ∧ (after .roundEnd s).sensor.phase = .waiting 5000 ∧ (after .roundEnd s).sensor.roundNo = 1
       ∧ ((after .roundEnd s).zones.rts.get 11).air = some (-181) ∧ (State.reset.zones.entries.get 0).enabled = false) := by decide +kernel

/-- A round does not end while a poll is in flight, a turn is in progress or one is owed; it ends with a through exchange in
flight, and with none owed. -/
theorem meets_RoundEnd_not :
    (let r : Round := { Round.start 0 with walkEnded := true, count := 4, polled := true }
     let number (s : State) : BitVec 3 := (after .roundEnd s).sensor.roundNo
     let sent : Frame := { dest := 62, src := 0, kind := 5, tag := 0xC0, payload := [] }
     let scanner := (nodeOn .scanner .alive State.reset).modSensor fun y => { y with rotation := [31] }
     number (waiting State.reset) = 1 ∧ number (inRound r State.reset) = 1 ∧ number (inRound r scanner) = 0
       ∧ number (inRound { r with count := 3 } scanner) = 1 ∧ number (inRound { r with count := 3, walkEnded := false } scanner) = 0
       ∧ number (inRound { r with count := 0, walkEnded := false } scanner) = 1
       ∧ number (inRound { r with turn := some { node := 31, left := 1 } } State.reset) = 0
       ∧ number (polled (inRound r State.reset)) = 0
       ∧ number ((inRound r State.reset).modSensor fun y => { y with exchange := some (.through 31 sent sent 10) }) = 1) := by decide +kernel

theorem meets_Zones :
    (let s := atTime 99 0 (zoneRead (-181) (zoneLive State.reset))
     freshValues s 11 = [-181] ∧ freshValues { s with trip := { s.trip with clock := 100 } } 11 = []
       ∧ freshValue s 11 31 = some (-181) ∧ freshValue { s with trip := { s.trip with clock := 100 } } 11 31 = none
       ∧ freshValue { s with trip := { s.trip with clock := 0 } } 11 31 = some (-181)
       ∧ freshValue s 10 31 = none ∧ freshValue s 11 30 = none ∧ freshValue (nodeOn .scanner .alive s) 11 31 = none
       ∧ freshValue (nodeOn .probe .lost s) 11 31 = some (-181)
       ∧ freshValue (s.modSensor fun y => { y with nodes := upd y.nodes 31 (fun e => { e with enabled := false }) }) 11 31 = none
       ∧ ((computeZone 11 { s with trip := { s.trip with clock := 100 } }).zones.rts.get 11).state = .stale
       ∧ (State.reset.zones.rts.get 11).state ≠ .live ∧ freshValues State.reset 11 = [])
    ∧ roundedMean [-180, -181] = -180 ∧ roundedMean [15, 16] = 16 ∧ roundedMean [-180, -181, -183] = -181 := by decide +kernel

theorem meets_UpdateEvent :
    (let s := atTime 15 15000 (lotIn .onBoard (zoneLive State.reset))
     after .updateEvent { s with ref := 14999 } = { s with ref := 14999 } ∧ (s.lots.get 95).state = .onBoard
       ∧ ((after .updateEvent s).lots.get 95).updates = 1 ∧ (after .updateEvent s).engine.timerStart = 15000
       ∧ (after .updateEvent s).engine.lastUpdate = 15) := by decide +kernel

/-- An update due, with lot 9 in OnBoard in a Live zone 12 of an air value. -/
def updating (f : LotEntry → LotEntry) (air : Int) : State :=
  let u := (atTime 15 15000 (zoneLive (lotIn .onBoard State.reset))).modLot 95 f
  { u with zones := { u.zones with rts := upd u.zones.rts 11 fun r => { r with air := some air } } }

/-- Lot 9 after an update. -/
def updated (s : State) : LotEntry := (after .updateEvent s).lots.get 95

/-- An update of a lot stage by stage: in an Unset zone; in a Live one with its dose to the equipment share, and with a
door that serves as open to the handling share; Soft, the cycles and the peak. -/
theorem meets_UpdateEvent_stages :
    (let x := updated (atTime 15 15000 ((lotIn .onBoard State.reset).modLot 95 fun l => { l with core := 4 }))
     x.blind = true ∧ x.core = 4 ∧ x.equipment = 0 ∧ x.updates = 1)
    ∧ (let x := updated (updating (fun l => { l with core := -100 }) (-100))
       x.core = -100 ∧ x.handling = 0 ∧ x.equipment = 2100 ∧ x.soft = true ∧ x.peak = -100 ∧ x.peakClock = 15 ∧ x.blind = false)
    ∧ (let x := updated { openSince .contact (updating (fun l => { l with core := -100 }) (-100)) with ref := 15000 }
       x.handling = 2100 ∧ x.equipment = 0)
    ∧ (let x := updated (updating (fun l => { l with core := -180, soft := true, cycles := 255, peak := -180 }) (-180))
       x.soft = false ∧ x.cycles = 255 ∧ x.equipment = 0 ∧ x.peak = -180 ∧ x.peakClock = 0) := by decide +kernel

/-- An update that raises two lots to one grade and brings one Summary: the entries in index order, and the flag of the
last lot raised. -/
theorem meets_UpdateEvent_entries :
    (let s := (updating (fun l => { l with inherited := 36000, core := -200 }) (-200)).modLot 3
       fun l => { l with lot := 8, state := .handover, zone := 11, inherited := 36000, updates := 59, core := -200 }
     let t := after .updateEvent s
     t.journal.entries.map (fun e => (e.kind, e.lot, e.v1, e.v2))
         = [(.gradeRaise, some 8, 1, 600), (.summary, some 8, 0x0001FF38, 600), (.gradeRaise, some 9, 1, 600)]
       ∧ t.trunk.flags.get EventKind.gradeWatch.index = { raised := true, subject := .lot 9 }) := by decide +kernel

theorem meets_Exposure : ((Engine.powerOn 0).classes.get 0).tw = -180 ∧ nextCore 0b01010 0 (-51) = -15 ∧ nextCore 0b00011 0 (-7) = -4
    ∧ nextCore 0 5 40 = 40 ∧ (let c := (Engine.powerOn 0).classes.get 0
        c.tw < c.ts ∧ increment c 15 (-180) = 0 ∧ increment c 15 (-178) = 30 ∧ increment c 15 (-110) = 1500
          ∧ increment { c with tw := -300, ts := -299 } 60 600 = 215820
          ∧ (let l : LotEntry := { LotEntry.free with core := -180, soft := true, cycles := 255 }
             (l.soften c).cycles = 255 ∧ (l.soften c).soft = false ∧ ({ l with core := -119 }.soften c).soft = true
               ∧ ({ l with core := -120 }.soften c) = { l with core := -120 } ∧ ({ l with soft := false }.soften c).cycles = 255
               ∧ computedGrade c l = .hold ∧ computedGrade c { l with cycles := 1, handling := 36000 } = .watch
               ∧ computedGrade c { l with cycles := 1, handling := 35999 } = .good ∧ computedGrade c { l with cycles := 0, inherited := 180000 } = .hold)) := by
  decide +kernel

/-- A step at a round end: below the threshold, explained by a door that serves the zone, and unexplained. -/
theorem meets_Steps :
    (let s (threshold : Nat) (door : DoorMode) : State :=
       let u := openSince door (zoneRead (-150) (zoneLive State.reset))
       { u with zones := { u.zones with entries := upd u.zones.entries 11 fun e => { e with step := threshold } } }
     let t (k : Nat) (d : DoorMode) : State := computeZone 11 (s k d)
     freshValues (s 50 .off) 11 = [-150] ∧ ((s 50 .off).zones.rts.get 11).air = some (-200)
       ∧ ((t 51 .off).zones.rts.get 11).stepFlag = false ∧ ((t 50 .off).zones.rts.get 11).stepFlag = true
       ∧ (t 50 .off).trunk.flags.get EventKind.step.index = { raised := true, subject := .zone 11 }
       ∧ (t 50 .contact).journal.entries = []
       ∧ (t 50 .off).trunk.flags.get EventKind.unexplainedStep.index = { raised := true, subject := .zone 11 }
       ∧ (t 50 .off).journal.entries.map (fun e => (e.kind, e.zone, e.v1.toInt, e.v2.toInt)) = [(.unexplainedStep, some 11, -200, -150)]) := by
  decide +kernel

/-! ### Invariants -/

/-- A part at stop 24 with lot 9 sealed there, its proof in the list and a claim slot for it, another lot in Handover, and an
advisory pending. -/
def inCustody : State :=
  let h : Handover := { scanner := 5, token := 3, clock := 30, stop := 24, hold := false, misdrop := false, settleAt := 60 }
  let s := slotThree .ready (settled.modLot 0 fun l => { l with lot := 8, state := .handover, zone := 11, loadClock := some 0, handover := some h })
  s.modMem 31 fun m => { m with pending := some { lot := 7, kinds := { hold := true, misdrop := false }, token := 1, confirmBy := 40 } }

/-- The agreements hold there together, and the lot that a lot id finds and the slot of a lot are those that hold them. -/
theorem meets_CustodyHeld : CustodyHeld inCustody ∧ handovers inCustody.lots = 1 ∧ findLot inCustody.lots 9 = some 95
    ∧ inCustody.claims.slotFor 9 = some 3 ∧ inCustody.proofs.list.length = 1
    ∧ (inCustody.scans.mem.get 31).pending ≠ none
    ∧ (match step inCustody with | .next _ => true | _ => false) = true := by
  have listed : ∀ p ∈ inCustody.proofs.list, (match (inCustody.lots.get p.index).proof with
      | some f => decide ((inCustody.lots.get p.index).state = .delivered ∧ (inCustody.lots.get p.index).lot = p.lot ∧
          (inCustody.lots.get p.index).unconfirmed = false ∧ f.number = p.number ∧ f.check = p.check ∧
          f.record.tripId = inCustody.trip.record.tripId)
      | none => false) = true := by decide +kernel
  have occupied : ∀ i, (inCustody.lots.get i).lot ≠ 0 → i = 0 ∨ i = 95 := by decide +kernel
  have slots : ∀ j k, j = k ∨ inCustody.claims.slots.get j = none ∨ inCustody.claims.slots.get k = none := by decide +kernel
  refine ⟨⟨by unfold HandoversRecorded; decide +kernel, ?_, fun h => absurd h (by decide +kernel), by unfold UnconfirmedWhenDelivered; decide +kernel,
    ⟨by decide +kernel, fun p hp => ?_, fun h => absurd h (by decide +kernel)⟩, ⟨by decide +kernel, fun i j hi e => ?_⟩, fun j k x y hx hy _ => ?_⟩,
    by decide +kernel, by decide +kernel, by decide +kernel, by decide +kernel, by decide +kernel, by decide +kernel⟩
  · exact fun _ _ => Or.inl ⟨24, by decide +kernel⟩
  · have hl := listed p hp
    cases hf : (inCustody.lots.get p.index).proof with
    | none => rw [hf] at hl; exact nomatch hl
    | some f =>
      rw [hf] at hl
      obtain ⟨a, b, c, d, e, g⟩ := of_decide_eq_true hl
      exact ⟨f, a, b, c, rfl, d, e, g⟩
  · rcases occupied i hi with rfl | rfl <;> rcases occupied j (e ▸ hi) with rfl | rfl <;>
      first | rfl | exact absurd e (by decide +kernel)
  · rcases slots j k with h | h | h
    · exact h
    · rw [h] at hx; exact nomatch hx
    · rw [h] at hy; exact nomatch hy

/-- A proof record carries the refusal count that its lot entry held at its seal. -/
theorem test_record_refusals :
    (let s := (atTime 30 0 (handedOver 30 (inTrip .van (.atStop 24) State.reset))).modLot 95 fun l => { l with refusals := 3 }
     ((after (.settleDeadline 95) s).lots.get 95).proof.map (fun p => p.record.refusals) = some 3) := by decide +kernel

theorem meets_Invariants : (let s := after .roundEnd State.reset
    s.trunk.queue.length ≤ 24 ∧ s.journal.entries.length ≤ 6144 ∧ s.proofs.list.length ≤ 16 ∧ s.sensor.throughQ.length ≤ 4
      ∧ handovers s.lots ≤ 8 ∧ (∀ i, (s.lots.get i).state = .handover ↔ (s.lots.get i).handover.isSome = true)
      ∧ (s.trip.stops.get 0).doors = 0b1111 ∧ (∀ c, (s.engine.classes.get c).tw < (s.engine.classes.get c).ts)
      ∧ (∀ z, (s.zones.rts.get z).air = none ↔ (s.zones.rts.get z).state = .unset) ∧ s.trunk.addr = 0x70
      ∧ (match step s with | .next _ => true | _ => false) = true) := by decide +kernel

end Sys2Proof.Tests
end

section
/-! PROOFS. The settings records (O9). -/

namespace Sys2Proof.Machine

/-! ### Settings records (R5, R125, R151, R173, R192) -/

/-- R188: a field stays as it is when its clamped value is the value given. -/
theorem doneOr_clamp {lo hi n : Nat} (h : lo ≤ hi) :
    doneOr (decide (clamp lo hi n ≠ n)) = if lo ≤ n ∧ n ≤ hi then .done else .adjusted := by
  rw [doneOr, ite_cond_congr (eq_iff_iff.2 decide_eq_true_iff), ite_not,
    ite_cond_congr (eq_iff_iff.2 (clamp_eq_iff h))]

/-- R5: what a write to the line settings leaves and answers. -/
theorem lineWrite_eq (index : Byte) (f : LineFields) (s : State) : lineWrite index f s =
    (if index = 0 then { s with sensor := { s.sensor with settings :=
        { roundFloor := max 1 (min 60 f.roundFloor.toNat), replyWindow := max 2 (min 50 f.replyWindow.toNat) } } } else s,
     if index ≠ 0 then .noEntry
     else if (1 ≤ f.roundFloor.toNat ∧ f.roundFloor.toNat ≤ 60) ∧ (2 ≤ f.replyWindow.toNat ∧ f.replyWindow.toNat ≤ 50) then .done
     else .adjusted) := by
  by_cases hi : index = 0
  · have h1 := clamp_eq_iff (lo := 1) (hi := 60) (n := f.roundFloor.toNat) (by decide)
    have h2 := clamp_eq_iff (lo := 2) (hi := 50) (n := f.replyWindow.toNat) (by decide)
    simp only [lineWrite, hi, ne_eq, not_true_eq_false, if_true, if_false, doneOr, ← h1, ← h2, ← not_and_or, decide_eq_true_eq,
      ite_not]
    rfl
  · simp only [lineWrite, if_pos hi, if_neg hi]

/-- R125: what a write to the scan settings leaves and answers. -/
theorem scanSettingsWrite_eq (index w : Byte) (s : State) : scanSettingsWrite index w s =
    (if index = 0 then { s with scans := { s.scans with advisory := max 5 (min 120 w.toNat) } } else s,
     if index ≠ 0 then .noEntry else if 5 ≤ w.toNat ∧ w.toNat ≤ 120 then .done else .adjusted) := by
  by_cases hi : index = 0
  · rw [scanSettingsWrite, if_neg (not_not.2 hi), if_pos hi, if_neg (not_not.2 hi)]
    exact Prod.ext rfl (doneOr_clamp (by decide))
  · rw [scanSettingsWrite, if_pos hi, if_neg hi, if_pos hi]

/-- R151: what a write to the proof settings leaves and answers. -/
theorem proofSettingsWrite_eq (index : Byte) (w : Half) (s : State) : proofSettingsWrite index w s =
    (if index = 0 then { s with proofs := { s.proofs with window := max 10 (min 3600 w.toNat) } } else s,
     if index ≠ 0 then .noEntry else if 10 ≤ w.toNat ∧ w.toNat ≤ 3600 then .done else .adjusted) := by
  by_cases hi : index = 0
  · rw [proofSettingsWrite, if_neg (not_not.2 hi), if_pos hi, if_neg (not_not.2 hi)]
    exact Prod.ext rfl (doneOr_clamp (by decide))
  · rw [proofSettingsWrite, if_pos hi, if_neg hi, if_pos hi]

/-- R173: what a write to the claim settings leaves and answers. -/
theorem claimSettingsWrite_eq (index : Byte) (w : Half) (s : State) : claimSettingsWrite index w s =
    (if index = 0 then { s with claims := { s.claims with window := max 10 (min 600 w.toNat) } } else s,
     if index ≠ 0 then .noEntry else if 10 ≤ w.toNat ∧ w.toNat ≤ 600 then .done else .adjusted) := by
  by_cases hi : index = 0
  · rw [claimSettingsWrite, if_neg (not_not.2 hi), if_pos hi, if_neg (not_not.2 hi)]
    exact Prod.ext rfl (doneOr_clamp (by decide))
  · rw [claimSettingsWrite, if_pos hi, if_neg hi, if_pos hi]

/-- R192: what a write to the event settings leaves and answers; a kind that does not exist is BadValue. -/
theorem eventSettingsWrite_eq (index : Byte) (kinds : Half) (s : State) : eventSettingsWrite index kinds s =
    (if index = 0 ∧ kinds.toNat < 8192 then { s with trunk := { s.trunk with reportBits := kinds.setWidth 13 } } else s,
     if index ≠ 0 then .noEntry else if kinds.toNat < 8192 then .done else .badValue) := by
  by_cases hi : index = 0
  · by_cases hk : kinds.toNat < 8192
    · simp only [eventSettingsWrite, hi, hk, maskOf_some (n := 13) hk, ne_eq, not_true_eq_false, and_self, if_true, if_false]
    · simp only [eventSettingsWrite, hi, hk, maskOf_none (n := 13) (Nat.not_lt.1 hk), ne_eq, not_true_eq_false, and_false,
        if_false]
  · simp only [eventSettingsWrite, hi, ne_eq, not_false_eq_true, false_and, if_true, if_false]

/-- Settles O9: each settings write is its unit's write, answered by one MG_RSP. -/
theorem settingsAreClamped : Obligations.SettingsAreClamped := fun _ _ _ ht =>
  ⟨fun _ => replies_of rfl ht (lineWrite_eq ..), fun _ => replies_of rfl ht (scanSettingsWrite_eq ..),
   fun _ => replies_of rfl ht (proofSettingsWrite_eq ..), fun _ => replies_of rfl ht (claimSettingsWrite_eq ..),
   fun _ => replies_of rfl ht (eventSettingsWrite_eq ..)⟩

end Sys2Proof.Machine
end

section
/-! PROOFS. Polls and the rounds they make (O44; spec 01 R6, R7, R9 to R12). -/

namespace Sys2Proof.Machine

/-! ### When a round starts (R11) -/

/-- R11: what ROUND_START does between rounds. -/
theorem roundStart_waiting {s : State} {start : Nat} (hp : s.sensor.phase = .waiting start) : exec .roundStart s =
    .next (if start ≤ s.ref then { s with sensor := { s.sensor with phase := .running (Round.start start) } } else s) := by
  show execRoundStart s = _
  rw [execRoundStart, hp]
  rfl

/-! ### What a round polls next (R7, R9, R10) -/

/-- R7: an entry that the walk does not pass over. -/
theorem walkPolls_true {x : Sensor} {r : Round} {m : Fin 32} : x.walkPolls r m = true ↔
    ¬(m.val < r.walked ∨ (x.nodes.get m).enabled = false ∨ (x.nodes.get m).kind = .scanner ∨
      (x.roundNo ≠ 0 ∧ (x.rts.get m).state = .lost)) := by
  rw [← walkPolls_false, Bool.not_eq_false]

/-- R7: the first entry that the walk does not pass over is the one it finds. -/
theorem find_walkPolls {x : Sensor} {r : Round} {n : Fin 32} (hn : x.walkPolls r n = true)
    (hm : ∀ m, m < n → x.walkPolls r m = false) : (List.finRange 32).find? (x.walkPolls r) = some n := by
  have hg : ∀ i, (Vector.ofFn fun i : Fin 32 => i).get i = i := fun i => by simp [Vector.get_eq_getElem]
  have h : findIndex (x.walkPolls r) (Vector.ofFn fun i => i) = some n :=
    findIndex_first (by rw [hg]; exact hn) (fun j hj => by rw [hg]; exact hm j hj)
  simpa only [findIndex, hg] using h

/-- R7: the walk polls the first entry that it does not pass over. -/
theorem planWalk_probe {x : Sensor} {r : Round} {n : Fin 32} (hw : r.walkEnded = false) (hn : x.walkPolls r n = true)
    (hm : ∀ m, m < n → x.walkPolls r m = false) :
    x.planWalk r = .probe n { r with walked := n.val + 1, count := r.count + 1, polled := true } := by
  rw [Sensor.planWalk, hw, find_walkPolls hn hm]
  rfl

/-- R7, R9: a walk that passes over every entry has reached its end. -/
theorem planWalk_end {x : Sensor} {r : Round} (hw : r.walkEnded = false) (hm : ∀ m, x.walkPolls r m = false) :
    x.planWalk r = x.planEnd r := by
  have hf : (List.finRange 32).find? (x.walkPolls r) = none := List.find?_eq_none.2 fun m _ => by rw [hm m]; decide
  rw [Sensor.planWalk, hw, hf]
  rfl

/-- R10: a turn with a poll left makes it. -/
theorem plan_turn {x : Sensor} {r : Round} {t : Turn} (ht : r.turn = some t) (hl : 0 < t.left) :
    x.plan r = .accessory t.node { r with turn := some { t with left := t.left - 1 } } := by
  simp only [Sensor.plan, ht, if_pos hl]

/-- R9: after four probe polls a turn comes, and then the walk. -/
theorem plan_fourth {x : Sensor} {r : Round} (ht : r.turn = none) (hc : r.count = 4) :
    x.plan r = x.planTurn r (x.planWalk { r with count := 0 }) := by
  simp only [Sensor.plan, ht, if_pos hc]

/-- R7: with no turn in progress or owed by the count, the walk goes on. -/
theorem plan_walk {x : Sensor} {r : Round} (ht : r.turn = none) (hc : r.count < 4) : x.plan r = x.planWalk r := by
  simp only [Sensor.plan, ht, if_neg (Nat.ne_of_lt hc)]

/-- R9, R10: a turn goes to the head of the rotation. -/
theorem planTurn_cons {x : Sensor} {n : Fin 32} {rest : List (Fin 32)} (hr : x.rotation = n :: rest) (r : Round) (p : Plan) :
    x.planTurn r p = .accessory n { r with count := 0, turn := some { node := n, left := x.turnPolls n - 1 } } := by
  rw [Sensor.planTurn, hr]

/-- R10: with an empty rotation a turn makes no poll. -/
theorem planTurn_nil {x : Sensor} (hr : x.rotation = []) (r : Round) (p : Plan) : x.planTurn r p = p := by
  rw [Sensor.planTurn, hr]

/-- R9: at the end of the walk a turn is owed after one to three probe polls, and when the round made none. -/
theorem planEnd_owed {x : Sensor} {r : Round} (h : (1 ≤ r.count ∧ r.count ≤ 3) ∨ r.polled = false) :
    x.planEnd r = x.planTurn { r with walkEnded := true } .roundEnd := if_pos h

/-- R7, R9, R11: with no turn in progress, a round whose walk has ended and that owes no turn has nothing left to poll. -/
theorem plan_nothingLeft {x : Sensor} {r : Round} (ht : r.turn = none)
    (hw : r.walkEnded = true ∨ ∀ m, x.walkPolls r m = false)
    (h : x.rotation = [] ∨ (r.walkEnded = true ∧ r.count < 4) ∨ (r.count = 0 ∧ r.polled = true)) : x.plan r = .roundEnd := by
  refine (plan_roundEnd_iff x r ht).2 ⟨hw, fun ⟨hr, ho⟩ => ?_⟩
  rcases h with h | ⟨h1, h2⟩ | ⟨h1, h2⟩
  · exact hr h
  · rw [h1] at ho
    exact ho.elim (Nat.ne_of_lt h2) (fun h => nomatch h.1)
  · simp [h1, h2] at ho

/-! ### What a POLL does (R6, R12) -/

/-- R6: when the arbiter lets a scheduled poll begin. -/
theorem pollFree_iff (s : State) : pollFree s = true ↔
    s.sensor.exchange = none ∧ (s.sensor.arbiter ≠ .pollEnded ∨ s.sensor.throughQ = []) := by
  simp [pollFree]

/-- R6: no poll begins that the arbiter does not let begin. -/
theorem poll_held {s : State} (h : pollFree s = false) : exec .poll s = .next s := by
  show execPoll s = _
  rw [execPoll, h]
  rfl

/-- R6, R12: on a free line a POLL makes what the round has next. -/
theorem poll_plan {s : State} {r : Round} (hf : pollFree s = true) (hp : s.sensor.phase = .running r) :
    (∀ n x, s.sensor.plan r = .probe n x → exec .poll s = .next (beginPoll n false x s)) ∧
    (∀ n x, s.sensor.plan r = .accessory n x → exec .poll s = .next (beginPoll n true x s)) ∧
    (s.sensor.plan r = .roundEnd → exec .poll s = .next s) := by
  have he : exec .poll s = execPoll s := rfl
  refine ⟨fun n x h => ?_, fun n x h => ?_, fun h => ?_⟩ <;> rw [he, execPoll, if_pos hf, hp] <;> simp only [h]

/-- R12: a POLL to a Probe carries nothing. -/
theorem pollFrame_probe {s : State} {n : Fin 32} (hk : (s.sensor.nodes.get n).kind = .probe) : pollFrame s n =
    { dest := (s.sensor.nodes.get n).address, src := 0, kind := 0x01, tag := 0xC0, payload := [] } := by
  simp only [pollFrame, hk]
  rfl

/-- R12: a poll that begins carries what a POLL to its node carries. -/
theorem beginPoll_body {c : Instr} {s : State} {n : Fin 32} {accessory : Bool} {x : Round}
    (h : exec c s = .next (beginPoll n accessory x s)) : ∃ body, PollBody s n body ∧
      exec c s = .next { s with free := s.free + 1, sensor := { s.sensor with
        phase := .running x,
        exchange := some (.poll n accessory
          { dest := (s.sensor.nodes.get n).address, src := 0, kind := 0x01, tag := 0xC0, payload := body }
          (s.ref + s.sensor.settings.replyWindow)) } } :=
  ⟨_, pollFrame_body s n, h⟩

/-- R6, R12: on a free line the walk's next probe is polled. -/
theorem poll_nextProbe {s : State} {r : Round} {n : Fin 32} (hp : s.sensor.phase = .running r) (hf : pollFree s = true)
    (ht : r.turn = none) (hc : r.count < 4) (hw : r.walkEnded = false) (hn : s.sensor.walkPolls r n = true)
    (hm : ∀ m, m < n → s.sensor.walkPolls r m = false) (hk : (s.sensor.nodes.get n).kind = .probe) :
    exec .poll s = .next { s with free := s.free + 1, sensor := { s.sensor with
      phase := .running { r with walked := n.val + 1, count := r.count + 1, polled := true },
      exchange := some (.poll n false
        { dest := (s.sensor.nodes.get n).address, src := 0, kind := 0x01, tag := 0xC0, payload := [] }
        (s.ref + s.sensor.settings.replyWindow)) } } := by
  rw [(poll_plan hf hp).1 n _ ((plan_walk ht hc).trans (planWalk_probe hw hn hm)), beginPoll, pollFrame_probe hk]
  rfl

/-- Settles O44, from what a round has next (R7, R9, R10) and when the arbiter lets a poll begin (R6). -/
theorem roundsStartAndPollTheNextProbe : Obligations.RoundsStartAndPollTheNextProbe := by
  refine ⟨fun s start hp => ⟨fun h => ?_, fun h => ?_⟩, ?_, fun s r hp he ha => ?_⟩
  · rw [roundStart_waiting hp, if_pos h]; rfl
  · rw [roundStart_waiting hp, if_neg (Nat.not_le.2 h)]
  · intro s r n hp e
    refine ⟨fun h => poll_held (Bool.eq_false_iff.2 fun hf => ?_), ?_⟩
    · obtain ⟨h1, h2⟩ := (pollFree_iff s).1 hf
      exact h.elim (fun h => h h1) fun ⟨a, b⟩ => h2.elim (fun h => h a) (fun h => b h)
    · intro he ha ht hc hw hwn hen hk hl hm
      refine poll_nextProbe hp ((pollFree_iff s).2 ⟨he, ha⟩) ht hc hw ?_ (fun m h => (walkPolls_false _ _ _).2 ?_) hk
      · simp [Sensor.walkPolls, hwn, show (s.sensor.nodes.get n).enabled = true from hen,
          show (s.sensor.nodes.get n).kind = .probe from hk, hl]
      · exact (Nat.lt_or_ge m.val r.walked).imp id fun h1 => hm m h1 h
  intro polls passed turn
  obtain ⟨probe, accessory, nothing⟩ := poll_plan ((pollFree_iff s).2 ⟨he, ha⟩) hp
  have pass : ∀ m, passed m → s.sensor.walkPolls r m = false := fun m => (walkPolls_false _ _ m).2
  refine ⟨fun t ht hl => ?_, fun n rest ht hr => ⟨fun hc => ?_, fun hc hw hm ho => ?_⟩, fun n ht hr hc hw hn hm => ?_,
    fun ht _ hw h => ?_⟩
  · exact beginPoll_body (accessory _ _ (plan_turn ht hl))
  · exact beginPoll_body (accessory _ _ ((plan_fourth ht hc).trans (planTurn_cons hr _ _)))
  · have owed : (1 ≤ r.count ∧ r.count ≤ 3) ∨ r.polled = false := ho.imp (fun h => ⟨h, by omega⟩) id
    have hplan := calc s.sensor.plan r
      _ = s.sensor.planWalk r := plan_walk ht hc
      _ = s.sensor.planEnd r := planWalk_end hw fun m => pass m (hm m)
      _ = s.sensor.planTurn { r with walkEnded := true } .roundEnd := planEnd_owed owed
      _ = _ := planTurn_cons hr _ _
    exact beginPoll_body (accessory _ _ hplan)
  · have hplan := calc s.sensor.plan r
      _ = s.sensor.planTurn r (s.sensor.planWalk { r with count := 0 }) := plan_fourth ht hc
      _ = s.sensor.planWalk { r with count := 0 } := planTurn_nil hr _ _
      _ = _ := planWalk_probe hw (walkPolls_true.2 hn) fun m h => pass m (hm m h)
    exact beginPoll_body (probe _ _ hplan)
  · exact nothing (plan_nothingLeft ht (hw.imp id fun h m => pass m (h m)) h)

end Sys2Proof.Machine
end

section
/-! PROOFS. What ends a poll: good replies and misses (O46; spec 01 R10, R13 to R18). -/

namespace Sys2Proof.Machine

/-! ### What the end of a poll with a node leaves (R15 to R18) -/

/-- What the line and the polled node's runtime are once a poll of it has ended. -/
structure PollTaken (s t : State) (n : Fin 32) (accessory : Bool) (x : NodeRt) (fault : LinkFault) : Prop where
  sensor : t.sensor = { s.sensor with rts := t.sensor.rts, exchange := none, fault := fault, arbiter := t.sensor.arbiter,
                                      phase := t.sensor.phase, rotation := t.sensor.rotation }
  node   : t.sensor.rts.get n = x
  others : ∀ j, j ≠ n → t.sensor.rts.get j = s.sensor.rts.get j
  ended  : PollEnded accessory s.sensor t.sensor

/-- R6, R10: the line after a poll whose node's runtime is written. -/
theorem pollTaken_of_sensor {s t : State} {n : Fin 32} {accessory : Bool} {f : NodeRt → NodeRt} {fault : LinkFault}
    (h : t.sensor = { s.sensor.endPoll accessory with rts := upd s.sensor.rts n f, fault := fault }) :
    PollTaken s t n accessory (f (s.sensor.rts.get n)) fault := by
  refine ⟨?_, by rw [h]; exact get_upd_self _ _ _, fun j hj => by rw [h]; exact get_upd_ne _ hj _, ?_⟩
  · rw [h, endPoll_rest]
  · rw [h]; exact endPoll_ended s.sensor accessory

/-- R18: what the raising and the entry of a lost or found node leave, when only the line differs from `s` before them. -/
structure NodeTold (s t : State) (e : NodeEntry) (event : EventKind) (kind : EntryKind) : Prop where
  recorded : Recorded { s with sensor := t.sensor } t
  entry    : Appends s t { kind := kind, zone := if e.kind = .probe then some e.zone else none, v1 := e.address.setWidth 32 }
  flag     : t.trunk.flags.get event.index = { raised := true, subject := .node e.address }

theorem nodeEvent_sensor (n : Fin 32) (k : EventKind) (kind : EntryKind) (s : State) :
    (nodeEvent n k kind s).sensor = s.sensor := by
  rw [nodeEvent, (append_recorded _ _).sensor, (raise_raised _ _ _).sensor]

/-- R18: NodeLost or NodeBack is raised for the node and appended. -/
theorem nodeEvent_told {s u : State} (hu : u = { s with sensor := u.sensor }) (n : Fin 32) {k : EventKind} (kind : EntryKind)
    (hk : k.index ≠ EventKind.journalFull.index) (hn : u.sensor.nodes = s.sensor.nodes) :
    NodeTold s (nodeEvent n k kind u) (s.sensor.nodes.get n) k kind := by
  have hr := raise_raised k (.node (u.sensor.nodes.get n).address) u
  have hj : (raise k (.node (u.sensor.nodes.get n).address) u).journal = s.journal := by rw [hr.journal, hu]
  have ht : (raise k (.node (u.sensor.nodes.get n).address) u).trip = s.trip := by rw [hr.trip, hu]
  refine ⟨?_, fun hl => ?_, ?_⟩
  · rw [nodeEvent_sensor, ← hu]
    exact hr.recorded.trans (append_recorded _ _)
  · have ha := append_appends (nodeEntryDraft kind (u.sensor.nodes.get n)) _ (by rw [hj]; exact hl)
    rw [hj, ht] at ha
    rw [← hn]
    exact ha
  · rw [nodeEvent, append_flag _ _ hk, raise_flag, hn]

/-! ### Good replies (R15) -/

/-- R15, R18: what a REPLY_IDLE of the polled node does. -/
theorem replyIdle_good {s : State} {n : Fin 32} {accessory : Bool} {sent : Frame} {windowEnd : Nat}
    (hx : s.sensor.exchange = some (.poll n accessory sent windowEnd)) (tag : Byte) :
    exec (.replyIdle sent.dest tag) s = .next (goodNode n (s.modSensor fun x => x.endPoll accessory)) := by
  have hj : judgeReply (s.sensor.nodes.get n).kind sent.dest true
      { dest := 0, src := sent.dest, kind := kReplyIdle, tag := tag, payload := [] } = none := by
    simp [judgeReply, mayReply, replyLength, kReplyIdle, kReplyReading, kReplyScan]
  show execReplyIdle _ _ s = _
  rw [execReplyIdle, takeSensorFrame, hx]
  simp only [takeReply, hj]
  rfl

/-- R15, R18: a good reply takes the node's misses to 0 and its state to Alive, and tells of a node that was Lost. -/
theorem goodNode_spec (s : State) (n : Fin 32) (accessory : Bool) :
    let t := goodNode n (s.modSensor fun x => x.endPoll accessory)
    let rt := s.sensor.rts.get n
    PollTaken s t n accessory { rt with misses := 0, state := .alive } s.sensor.fault ∧
    (rt.state ≠ .lost → t = { s with sensor := t.sensor }) ∧
    (rt.state = .lost → NodeTold s t (s.sensor.nodes.get n) .nodeBack .nodeBack) := by
  intro t rt
  have hrt : (s.modSensor fun x => x.endPoll accessory).sensor.rts = s.sensor.rts := by
    rw [modSensor_sensor, endPoll_rest]
  have hfault : (s.sensor.endPoll accessory).fault = s.sensor.fault := by rw [endPoll_rest]
  have hnodes : (s.sensor.endPoll accessory).nodes = s.sensor.nodes := by rw [endPoll_rest]
  generalize hw : (s.modSensor fun x => x.endPoll accessory).modNodeRt n (fun x => { x with misses := 0, state := .alive }) = w
  have hws : w.sensor = { s.sensor.endPoll accessory with
      rts := upd s.sensor.rts n fun x => { x with misses := 0, state := .alive }, fault := s.sensor.fault } := by
    rw [← hw, ← hrt, ← hfault]; rfl
  have hwu : w = { s with sensor := w.sensor } := by rw [← hw]; rfl
  have ht : t = if rt.state = .lost then nodeEvent n .nodeBack .nodeBack w else w := by
    show goodNode _ _ = _
    rw [goodNode, hw, hrt]
  by_cases hl : rt.state = .lost
  · rw [if_pos hl] at ht
    refine ⟨?_, fun h => absurd hl h, fun _ => ?_⟩
    · exact pollTaken_of_sensor (f := fun x => { x with misses := 0, state := .alive }) (by rw [ht, nodeEvent_sensor, hws])
    · rw [ht]; exact nodeEvent_told hwu n _ (by decide) (by rw [hws]; exact hnodes)
  · rw [if_neg hl] at ht
    rw [ht]
    exact ⟨pollTaken_of_sensor hws, fun _ => hwu, fun h => absurd h hl⟩

/-! ### Misses (R16, R17, R18) -/

/-- R16, R17: the state after a miss has been counted, its node's runtime and the link fault record written. -/
def countMiss (n : Fin 32) (accessory : Bool) (f : NodeRt → NodeRt) (fault : LinkFault) (s : State) : State :=
  ((s.modSensor fun x => x.endPoll accessory).modNodeRt n f).modSensor fun y => { y with fault := fault }

theorem countMiss_sensor (n : Fin 32) (accessory : Bool) (f : NodeRt → NodeRt) (fault : LinkFault) (s : State) :
    (countMiss n accessory f fault s).sensor =
      { s.sensor.endPoll accessory with rts := upd s.sensor.rts n f, fault := fault } := by
  simp only [countMiss, modSensor_sensor, modNodeRt_sensor]
  rw [show (s.sensor.endPoll accessory).rts = s.sensor.rts by rw [endPoll_rest]]

/-- R16, R18: a miss is counted, and one that brings a node that is not Lost to its lost limit takes it to Lost. -/
theorem takeMiss_endPoll (n : Fin 32) (accessory : Bool) (address : Byte) (kind : MissKind) (s : State) :
    let rt := s.sensor.rts.get n
    let m := min 255 (rt.misses + 1)
    let fault : LinkFault := { kind := kind, address := address, clock := s.trip.clock }
    let t := takeMiss n address kind (s.modSensor fun x => x.endPoll accessory)
    (rt.state = .lost ∨ m < (s.sensor.nodes.get n).lostLimit →
      t = countMiss n accessory (fun x => { x with misses := m }) fault s) ∧
    (rt.state ≠ .lost → (s.sensor.nodes.get n).lostLimit ≤ m →
      t = nodeEvent n .nodeLost .nodeLost (countMiss n accessory (fun x => { x with misses := m, state := .lost }) fault s)) := by
  intro rt m fault t
  have hrt : (s.modSensor fun x => x.endPoll accessory).sensor.rts = s.sensor.rts := by
    rw [modSensor_sensor, endPoll_rest]
  have hnodes : (s.modSensor fun x => x.endPoll accessory).sensor.nodes = s.sensor.nodes := by
    rw [modSensor_sensor, endPoll_rest]
  have ht : t = takeMiss n address kind (s.modSensor fun x => x.endPoll accessory) := rfl
  rw [takeMiss, hrt, hnodes] at ht
  refine ⟨fun h => ?_, fun h1 h2 => ?_⟩
  · have hn : (decide (rt.state ≠ .lost) && decide ((s.sensor.nodes.get n).lostLimit ≤ m)) = false := by
      rw [Bool.and_eq_false_iff, decide_eq_false_iff_not, decide_eq_false_iff_not]
      exact h.imp (fun h => not_not.2 h) (fun h => Nat.not_le.2 h)
    rw [ht, show satSucc 255 (s.sensor.rts.get n).misses = m from rfl, hn]
    rfl
  · have hl : (decide (rt.state ≠ .lost) && decide ((s.sensor.nodes.get n).lostLimit ≤ m)) = true := by
      rw [decide_eq_true h1, decide_eq_true h2]; rfl
    rw [ht, show satSucc 255 (s.sensor.rts.get n).misses = m from rfl, hl]
    rfl

/-- What an event that is a miss of a kind leaves. -/
def Missed (s : State) (n : Fin 32) (accessory : Bool) (address : Byte) (c : Instr) (kind : MissKind) : Prop :=
  let e := s.sensor.nodes.get n
  let rt := s.sensor.rts.get n
  let m := min 255 (rt.misses + 1)
  let fault : LinkFault := { kind := kind, address := address, clock := s.trip.clock }
  (rt.state = .lost ∨ m < e.lostLimit → ∃ t, exec c s = .next t ∧ t = { s with sensor := t.sensor } ∧
    PollTaken s t n accessory { rt with misses := m } fault) ∧
  (rt.state ≠ .lost → e.lostLimit ≤ m → ∃ t, exec c s = .next t ∧
    PollTaken s t n accessory { rt with misses := m, state := .lost } fault ∧ NodeTold s t e .nodeLost .nodeLost)

/-- R16, R17, R18: an event that ends the poll with a miss counts it, and may take the node to Lost. -/
theorem missed_of_takeMiss {s : State} {n : Fin 32} {accessory : Bool} {address : Byte} {c : Instr} {kind : MissKind}
    (h : exec c s = .next (takeMiss n address kind (s.modSensor fun x => x.endPoll accessory))) :
    Missed s n accessory address c kind := by
  obtain ⟨counted, lost⟩ := takeMiss_endPoll n accessory address kind s
  refine ⟨fun hc => ⟨_, h.trans (congrArg _ (counted hc)), rfl, ?_⟩, fun h1 h2 => ⟨_, h.trans (congrArg _ (lost h1 h2)), ?_, ?_⟩⟩
  · exact pollTaken_of_sensor (countMiss_sensor ..)
  · exact pollTaken_of_sensor (f := fun x => { x with misses := _, state := .lost })
      (by rw [nodeEvent_sensor]; exact countMiss_sensor ..)
  · refine nodeEvent_told rfl n _ (by decide) ?_
    rw [countMiss_sensor, endPoll_rest]

/-- R14, R16: a frame in a poll's window that is judged a miss is one. -/
theorem missed_of_judge {s : State} {n : Fin 32} {accessory : Bool} {sent : Frame} {windowEnd : Nat}
    (hx : s.sensor.exchange = some (.poll n accessory sent windowEnd)) {c : Instr} {checkOk : Bool} {f : Frame}
    {kind : MissKind} (hc : exec c s = .next (takeSensorFrame checkOk f s))
    (hj : judgeReply (s.sensor.nodes.get n).kind sent.dest checkOk f = some kind) : Missed s n accessory sent.dest c kind := by
  refine missed_of_takeMiss (hc.trans ?_)
  rw [takeSensorFrame, hx]
  simp only [takeReply, hj]

/-- R13, R16: a window that passes with no frame is a NoReply miss, and before its end nothing passes. -/
theorem replyWindowExpiry_poll {s : State} {n : Fin 32} {accessory : Bool} {sent : Frame} {windowEnd : Nat}
    (hx : s.sensor.exchange = some (.poll n accessory sent windowEnd)) : exec .replyWindowExpiry s =
    .next (if windowEnd ≤ s.ref then takeMiss n sent.dest .noReply (s.modSensor fun x => x.endPoll accessory) else s) := by
  show execReplyWindowExpiry s = _
  rw [execReplyWindowExpiry, hx]

/-! ### The kinds of a miss (R14, R17) -/

theorem judgeReply_badCheck (k : NodeKind) (polled : Byte) {checkOk : Bool} {f : Frame}
    (h : checkOk = false ∨ 56 < f.payload.length) : judgeReply k polled checkOk f = some .badCheck :=
  if_pos (h.imp (fun h => by rw [h]; rfl) id)

theorem judgeReply_wrongSource (k : NodeKind) {polled : Byte} {f : Frame} (hl : f.payload.length ≤ 56)
    (hs : f.src ≠ polled) : judgeReply k polled true f = some .wrongSource := by
  rw [judgeReply, if_neg (by simpa using hl), if_pos hs]

/-- R14 rows 3 to 5: a kind that the node may not send, or another length than the kind's. -/
theorem judgeReply_wrongKind {k : NodeKind} {polled : Byte} {f : Frame} (hl : f.payload.length ≤ 56) (hs : f.src = polled)
    (h : mayReply k f.kind = false ∨ f.payload.length ≠ replyLength f.kind) :
    judgeReply k polled true f = some .wrongKind := by
  rw [judgeReply, if_neg (by simpa using hl), if_neg (not_not.2 hs)]
  rcases h with h | h
  · rw [if_pos (by rw [h]; rfl)]
  · rw [if_pos h, ite_self]

/-- R14 row 3: a Probe sends no other kinds than an idle reply and a reading. -/
theorem mayReply_probe {kind : Byte} (h1 : kind ≠ 0x02) (h2 : kind ≠ 0x03) : mayReply .probe kind = false :=
  Bool.or_eq_false_iff.2 ⟨decide_eq_false h1, decide_eq_false h2⟩

/-- R14 row 4: a Scanner sends no other kinds than an idle reply and a scan. -/
theorem mayReply_scanner {kind : Byte} (h1 : kind ≠ 0x02) (h2 : kind ≠ 0x04) : mayReply .scanner kind = false :=
  Bool.or_eq_false_iff.2 ⟨decide_eq_false h1, decide_eq_false h2⟩

/-- Settles O46, from what a good reply leaves (R15), what a miss leaves (R16 to R18), and which frames are misses (R14). -/
theorem repliesFindTheNodeAndMissesAreCounted : Obligations.RepliesFindTheNodeAndMissesAreCounted := by
  intro s n accessory sent windowEnd hx e rt m entry ends raises missed
  have hends : ∀ {t x fault}, PollTaken s t n accessory x fault → ends t x fault :=
    fun h => ⟨h.sensor, h.node, h.others, h.ended⟩
  have hraises : ∀ {t event kind}, NodeTold s t e event kind → raises t event kind :=
    fun h => ⟨h.recorded, h.entry, h.flag⟩
  have hmissed : ∀ {c kind}, Missed s n accessory sent.dest c kind → missed c kind := fun ⟨counted, lost⟩ =>
    ⟨fun h => (counted h).imp fun t ⟨h1, h2, h3⟩ => ⟨h1, h2, hends h3⟩,
     fun h1 h2 => (lost h1 h2).imp fun t ⟨h3, h4, h5⟩ => ⟨h3, hends h4, hraises h5⟩⟩
  have hbad : ∀ {f check kind}, judgeReply e.kind sent.dest (decide (check = f.check)) f = some kind →
      missed (.badReply f check) kind := fun h => hmissed (missed_of_judge hx rfl h)
  refine ⟨fun src tag hs => ?_, fun hw => ?_, fun hw => ?_, fun f check => ⟨fun h => ?_, fun hc hl hs => ?_, fun hc hl hs h => ?_⟩,
    fun src tag raw quality scan => ⟨fun hs => ?_, fun hs => ⟨fun hk => ?_, fun hk => ?_⟩⟩⟩
  · subst hs
    obtain ⟨taken, quiet, told⟩ := goodNode_spec s n accessory
    exact ⟨_, replyIdle_good hx tag, hends taken, quiet, fun h => hraises (told h)⟩
  · exact hmissed (missed_of_takeMiss ((replyWindowExpiry_poll hx).trans (by rw [if_pos hw])))
  · rw [replyWindowExpiry_poll hx, if_neg (Nat.not_le.2 hw)]
  · exact hbad (judgeReply_badCheck _ _ (h.imp (fun h => decide_eq_false h) id))
  · exact hbad (by rw [decide_eq_true hc]; exact judgeReply_wrongSource _ hl hs)
  · refine hbad ?_
    rw [decide_eq_true hc]
    refine judgeReply_wrongKind hl hs ?_
    rcases h with ⟨hk, h1, h2⟩ | ⟨hk, h1, h2⟩ | ⟨hk, h⟩ | ⟨hk, h⟩ | ⟨hk, h⟩
    · exact Or.inl (by rw [hk]; exact mayReply_probe h1 h2)
    · exact Or.inl (by rw [hk]; exact mayReply_scanner h1 h2)
    all_goals exact Or.inr (by rw [hk]; exact h)
  · have wrong : ∀ {c f}, exec c s = .next (takeSensorFrame true f s) → f.payload.length ≤ 56 → f.src = src →
        missed c .wrongSource := fun hc hl hf =>
      hmissed (missed_of_judge hx hc (judgeReply_wrongSource _ hl (hf.trans_ne hs)))
    exact ⟨wrong rfl (Nat.zero_le _) rfl, wrong rfl (show 3 ≤ 56 by decide) rfl, wrong rfl (show 11 ≤ 56 by decide) rfl⟩
  · refine hmissed (missed_of_judge hx (f := readingFrame src tag raw quality) (checkOk := true) rfl ?_)
    exact judgeReply_wrongKind (show 3 ≤ 56 by decide) hs (Or.inl (by rw [hk]; rfl))
  · refine hmissed (missed_of_judge hx (f := scanFrame src tag scan) (checkOk := true) rfl ?_)
    exact judgeReply_wrongKind (show 11 ≤ 56 by decide) hs (Or.inl (by rw [hk]; rfl))

end Sys2Proof.Machine
end

section
/-! PROOFS. Through exchanges (O49; spec 01 R13, R19 to R21). -/

namespace Sys2Proof.Machine

/-! ### Answers to through frames (R19, R21) -/

/-- R19, R197: the MG_RSP to a through frame, which names the address that the frame was sent to. -/
def throughRsp (f : Frame) (code : ReplyCode) : OutFrame :=
  rspFrame { dest := f.src, kind := f.kind, seq := f.tag &&& 0x3F } code 0xC0 false [f.dest] .plain

/-- R19: an answer to a through frame is handed to the trunk port. -/
theorem throughReply_eq (f : Frame) (code : ReplyCode) (s : State) : throughReply f code s = (hand (throughRsp f code) s).1 :=
  rfl

/-- A command that hands a frame to the trunk port, and does nothing more than that to a state, completes. -/
theorem completes_hand {c : Instr} {s u : State} {f : OutFrame} (h : exec c s = .next (hand f u).1) : Completes c s u f :=
  ⟨h, hand_sent f u⟩

/-! ### Through frames (R19) -/

/-- R19: a through frame is taken while no RESET Full is pending. -/
theorem throughFrame_taken {s : State} {f : Frame} (hr : s.trunk.reset = .none) (h1 : 0x80 ≤ f.dest.toNat)
    (h2 : f.dest.toNat ≤ 0xBF) (hl : f.payload.length ≤ 56) : exec (.throughFrame f) s = .next (takeThrough f s) := by
  show execThroughFrame f s = _
  rw [execThroughFrame, if_pos ⟨decide_eq_true ⟨h1, h2⟩, hl⟩, if_neg (not_not.2 hr)]

/-- R19: when an entry does not answer for a fleet-side address. -/
theorem holdsAlias_false (e : NodeEntry) (a : Byte) : (e.enabled && (e.aliasAddr == some a)) = false ↔
    (e.enabled = true → e.aliasAddr ≠ some a) := by
  cases e.enabled <;> simp

/-- R19: a fleet-side address that no enabled entry holds finds none. -/
theorem aliasNode_none {nodes : Vector NodeEntry 32} {a : Byte}
    (h : ∀ n, (nodes.get n).enabled = true → (nodes.get n).aliasAddr ≠ some a) : aliasNode nodes a = none :=
  findIndex_none.2 fun n => (holdsAlias_false _ _).2 (h n)

/-- R19: a fleet-side address finds the first enabled entry that holds it. -/
theorem aliasNode_some {nodes : Vector NodeEntry 32} {a : Byte} {n : Fin 32} (he : (nodes.get n).enabled = true)
    (ha : (nodes.get n).aliasAddr = some a)
    (h : ∀ m, m < n → (nodes.get m).enabled = true → (nodes.get m).aliasAddr ≠ some a) : aliasNode nodes a = some n :=
  findIndex_first (by rw [he, ha]; exact beq_self_eq_true _) fun m hm => (holdsAlias_false _ _).2 (h m hm)

/-- R19: a through frame for an address that an entry holds joins the queue, or is answered Busy when it is full. -/
theorem takeThrough_some {s : State} {f : Frame} {n : Fin 32} (h : aliasNode s.sensor.nodes f.dest = some n) :
    (4 ≤ s.sensor.throughQ.length → takeThrough f s = throughReply f .busy s) ∧
    (s.sensor.throughQ.length < 4 → takeThrough f s = { s with sensor := { s.sensor with
      throughQ := s.sensor.throughQ ++ [{ frame := f, node := n }] } }) := by
  simp only [takeThrough, h]
  exact ⟨fun hq => if_pos hq, fun hq => if_neg (Nat.not_le.2 hq)⟩

/-- R19: a through frame for an address that no entry holds is answered NoSuchAlias. -/
theorem takeThrough_none {s : State} {f : Frame} (h : aliasNode s.sensor.nodes f.dest = none) :
    takeThrough f s = throughReply f .noSuchAlias s := by
  simp only [takeThrough, h]

/-! ### Sending (R20) -/

/-- R6: when the arbiter lets a through exchange begin. -/
theorem thruFree_iff (s : State) : thruFree s = true ↔
    s.sensor.exchange = none ∧ (s.sensor.arbiter ≠ .throughEnded ∨ ¬PollAwaits s.sensor) := by
  rw [← pollDue_iff]
  simp [thruFree]

/-- R20: THRU_OUT begins the exchange at the head of the queue when the arbiter lets it. -/
theorem thruOut_eq (s : State) : exec .thruOut s = .next (if thruFree s then beginThrough s else s) := rfl

theorem beginThrough_nil {s : State} (h : s.sensor.throughQ = []) : beginThrough s = s := by
  rw [beginThrough, h]

/-- R20: the frame that is sent to the node, with its window. -/
theorem beginThrough_cons {s : State} {q : ThroughEntry} {rest : List ThroughEntry} (h : s.sensor.throughQ = q :: rest) :
    beginThrough s = { s with sensor := { s.sensor with
      throughQ := rest,
      exchange := some (.through q.node q.frame
        { dest := (s.sensor.nodes.get q.node).address, src := 0, kind := 0x05, tag := q.frame.tag, payload := q.frame.payload }
        (s.ref + s.sensor.settings.replyWindow)) } } := by
  rw [beginThrough, h]
  rfl

/-! ### The window of a through exchange (R21) -/

section
variable {s : State} {n : Fin 32} {request sent : Frame} {windowEnd : Nat}

/-- R21: a frame received in a through window ends the exchange and is forwarded, or leaves the window running. -/
theorem takeSensorFrame_through (hx : s.sensor.exchange = some (.through n request sent windowEnd)) (checkOk : Bool)
    (f : Frame) :
    takeSensorFrame checkOk f s =
      if endsThrough sent.dest checkOk f then (hand (forwarded request f) (s.modSensor Sensor.endThrough)).1 else s := by
  rw [takeSensorFrame, hx]

/-- R21: a window that has passed is answered ThroughFail. -/
theorem throughWindowExpiry_through (hx : s.sensor.exchange = some (.through n request sent windowEnd)) :
    exec .throughWindowExpiry s = .next (if windowEnd ≤ s.ref
      then (hand (throughRsp request .throughFail) (s.modSensor Sensor.endThrough)).1 else s) := by
  show execThroughWindowExpiry s = _
  rw [execThroughWindowExpiry, hx]
  rfl

end

/-- R21: the frames that do not end a through exchange. -/
theorem endsThrough_false {address : Byte} {f : Frame} {check : Half}
    (h : check ≠ f.check ∨ 56 < f.payload.length ∨ f.kind ≠ 0x06 ∨ f.src ≠ address) :
    endsThrough address (decide (check = f.check)) f = false := by
  simp only [endsThrough, Bool.and_eq_false_iff, decide_eq_false_iff_not, Nat.not_le, or_assoc]
  exact h

/-- R13: with no exchange in flight every frame received is discarded. -/
theorem takeSensorFrame_idle {s : State} (hx : s.sensor.exchange = none) (checkOk : Bool) (f : Frame) :
    takeSensorFrame checkOk f s = s := by
  rw [takeSensorFrame, hx]

/-- Settles O49, part by part: through frames (R19), sending (R6, R20), the window (R21), and stray frames (R13). -/
theorem throughFramesAreQueuedSentAndAnswered : Obligations.ThroughFramesAreQueuedSentAndAnswered := by
  refine ⟨?frames, fun s => ⟨fun hq => ?_, fun h => ?_, fun q rest hq he ha => ?_⟩, ?window,
    fun s f check hx => congrArg _ (takeSensorFrame_idle hx _ _)⟩
  case frames =>
    intro s f hr h1 h2 hl rsp
    have taken := throughFrame_taken hr h1 h2 hl
    refine ⟨fun h => completes_hand (taken.trans (congrArg _ (takeThrough_none (aliasNode_none h)))), fun n he ha h => ?_⟩
    obtain ⟨full, room⟩ := takeThrough_some (aliasNode_some he ha h)
    exact ⟨fun hq => completes_hand (taken.trans (congrArg _ (full hq))), fun hq => taken.trans (congrArg _ (room hq))⟩
  · rw [thruOut_eq, beginThrough_nil hq, ite_self]
  · rw [thruOut_eq, if_neg]
    intro hf
    obtain ⟨h1, h2⟩ := (thruFree_iff s).1 hf
    exact h.elim (fun h => h h1) fun ⟨a, b⟩ => h2.elim (fun h => h a) (fun h => h b)
  · rw [thruOut_eq, if_pos ((thruFree_iff s).2 ⟨he, ha⟩), beginThrough_cons hq]
  case window =>
    intro s n request sent windowEnd hx ended
    refine ⟨fun tag payload hl => completes_hand ?_, fun f check h => ?_, fun hw => completes_hand ?_,
      fun hw => ?_, rfl, rfl, rfl, rfl, rfl, rfl, free_lineFree _ _⟩
    · have he : endsThrough sent.dest true { dest := 0, src := sent.dest, kind := kThruBack, tag := tag, payload := payload } := by
        simp [endsThrough, hl]
      show Host.Outcome.next (takeSensorFrame true _ s) = _
      rw [takeSensorFrame_through hx, if_pos he]
      rfl
    · show Host.Outcome.next (takeSensorFrame (decide (check = f.check)) f s) = _
      rw [takeSensorFrame_through hx, endsThrough_false h]
      rfl
    · rw [throughWindowExpiry_through hx, if_pos hw]
      rfl
    · rw [throughWindowExpiry_through hx, if_neg (Nat.not_le.2 hw)]

end Sys2Proof.Machine
end

section
/-! PROOFS. The end of a round (O50; spec 01 R7, R9, R11; spec 02 R30, R31, R33). -/

namespace Sys2Proof.Machine

/-- R11: a round that has ended computes the zones, numbers on, and sets the start of the next one. -/
theorem roundEnd_due {s : State} {r : Round} (hp : s.sensor.phase = .running r) (hd : roundEndDue s = true) :
    exec .roundEnd s = .next ((computeZones s).modSensor fun x =>
      { x with roundNo := x.roundNo + 1, phase := .waiting (nextStart s.ref r.began x.settings.roundFloor) }) := by
  show execRoundEnd s = _
  simp only [execRoundEnd, hp, if_pos hd]

/-- R11: before the round has ended, and between rounds, the event does nothing (log 3). -/
theorem roundEnd_notDue {s : State} (hd : roundEndDue s = false) : exec .roundEnd s = .next s := by
  show execRoundEnd s = _
  cases hp : s.sensor.phase <;> simp [execRoundEnd, hp, hd]

/-- R11: a round ends with no poll in flight and nothing left to poll. -/
theorem roundEndDue_running {s : State} {r : Round} (hp : s.sensor.phase = .running r) :
    roundEndDue s = true ↔ polling s.sensor = false ∧ s.sensor.plan r = .roundEnd := by
  simp [roundEndDue, hp]

/-- R10: with a poll of its turn left a round has not ended. -/
theorem plan_turnLeft {x : Sensor} {r : Round} {t : Turn} (ht : r.turn = some t) (hl : 0 < t.left) :
    x.plan r ≠ .roundEnd := by
  rw [plan_turn ht hl]
  exact fun h => nomatch h

/-- R30, R31: at the end of a round a Live zone with no fresh readings goes Stale, and any other one with none stays. -/
theorem computeZones_stale {s : State} {z : Fin 12} (he : (s.zones.entries.get z).enabled = true) (hf : freshValues s z = []) :
    (computeZones s).zones.rts.get z = { s.zones.rts.get z with
      state := if (s.zones.rts.get z).state = .live then .stale else (s.zones.rts.get z).state } :=
  ((computeZones_spec s).2.2.2 z he).trans ((computeZone_spec z s).2.2.2.1 hf)

/-- R30, R33: at the end of a round a zone with fresh readings is Live with their mean, its step flag set by a step. -/
theorem computeZones_live {s : State} {z : Fin 12} (he : (s.zones.entries.get z).enabled = true) {v : Int} {vs : List Int}
    (hf : freshValues s z = v :: vs) : (computeZones s).zones.rts.get z =
      { state := .live, air := some (roundedMean (v :: vs)), stepFlag := (s.zones.rts.get z).stepFlag ||
          isStep (s.zones.entries.get z).step (s.zones.rts.get z).air (roundedMean (v :: vs)) } :=
  ((computeZones_spec s).2.2.2 z he).trans ((computeZone_spec z s).2.2.2.2 v vs hf)

/-- R30: the state after a round's end, with the computation of its zones written out, in zone order (log 17). -/
theorem computeZones_modSensor (s : State) (f : Sensor → Sensor) : (computeZones s).modSensor f =
    { (List.finRange 12).foldl (fun x z => if (x.zones.entries.get z).enabled then computeZone z x else x) s with
      sensor := ((computeZones s).modSensor f).sensor } := by
  rw [modSensor_sensor]
  simp only [computeZones.eq_1]
  rfl

/-- Settles O50, from when a round has nothing left to poll (R7, R9, R11) and what computing its zones leaves (R30 to R33). -/
theorem roundsEndAndNumberOn : Obligations.RoundsEndAndNumberOn := by
  refine ⟨fun s start hp => roundEnd_notDue (by simp [roundEndDue, hp]), ?_⟩
  intro s r hp passed walkEnded turnOwed flying
  have walk : (r.walkEnded = true ∨ ∀ m, s.sensor.walkPolls r m = false) ↔ walkEnded :=
    or_congr Iff.rfl (forall_congr' fun m => walkPolls_false s.sensor r m)
  have due : roundEndDue s = true ↔ ¬flying ∧ s.sensor.plan r = .roundEnd :=
    (roundEndDue_running hp).trans (and_congr (by rw [← Bool.not_eq_true, polling_iff]) Iff.rfl)
  have ends : r.turn = none → (s.sensor.plan r = .roundEnd ↔ walkEnded ∧ ¬turnOwed) := fun ht =>
    (plan_roundEnd_iff s.sensor r ht).trans (and_congr walk Iff.rfl)
  refine ⟨fun h => ?_, fun hf ht hw ho => ?_⟩
  · refine roundEnd_notDue (Bool.eq_false_iff.2 fun hd => ?_)
    obtain ⟨hf, hplan⟩ := due.1 hd
    rcases h with h | ⟨t, ht, hl⟩ | ⟨ht, h⟩
    · exact hf h
    · exact plan_turnLeft ht hl hplan
    · obtain ⟨hw, ho⟩ := (ends ht).1 hplan
      exact h.elim (fun h => h hw) ho
  · obtain ⟨recorded, entries, disabled, -⟩ := computeZones_spec s
    have stale := fun z => computeZones_stale (s := s) (z := z)
    have live := fun z => computeZones_live (s := s) (z := z)
    have answer := roundEnd_due hp (due.2 ⟨hf, (ends ht).2 ⟨hw, ho⟩⟩)
    refine ⟨_, answer, ?_, computeZones_modSensor s _, ?_⟩
    · rw [modSensor_sensor, recorded.sensor]
      rfl
    generalize computeZones s = u at *
    refine ⟨entries, recorded.trip, recorded.engine, recorded.doors, recorded.scans, recorded.proofs, recorded.lots,
      disabled, fun z he => ⟨stale z he, fun v vs h => ⟨roundedMean (v :: vs), ?_, ?_, live z he h⟩⟩⟩
    · exact (roundedMean_bounds v vs).1
    · exact (roundedMean_bounds v vs).2

end Sys2Proof.Machine
end

section
/-! PROOFS. Node table writes (O12; spec 01 R2 to R4, R6, R8, R10, R22; spec 11 R188). -/

namespace Sys2Proof.Machine

/-! ### Fields of values that exist (R2, R188) -/

theorem boolOf_some_le {x : Byte} {b : Bool} (h : boolOf x = some b) : x.toNat ≤ 1 ∧ b = decide (x = 1) := by
  unfold boolOf at h
  split at h
  · next h0 => cases h; subst h0; decide
  · split at h
    · next h1 => cases h; subst h1; decide
    · exact nomatch h

theorem nodeKindOf_some_le {x : Byte} {k : NodeKind} (h : nodeKindOf x = some k) : x.toNat ≤ 1 := by
  unfold nodeKindOf at h
  split at h
  · next h0 => subst h0; decide
  · split at h
    · next h1 => subst h1; decide
    · exact nomatch h

theorem policyOf_some_le {x p : Byte} {q : Policy × Bool} (h : policyOf x p = some q) : x.toNat ≤ 3 := by
  unfold policyOf at h
  split at h
  · next h0 => subst h0; decide
  · split at h
    · next h1 => subst h1; decide
    · split at h
      · next h2 => subst h2; decide
      · split at h
        · next h3 => subst h3; decide
        · exact nomatch h

/-- R2: what a write whose values exist holds, and the entry's own names. -/
theorem nodeOf_some {f : NodeFields} {e : NodeEntry} {adjusted : Bool} (h : nodeOf f = some (e, adjusted)) :
    (f.enabled.toNat ≤ 1 ∧ f.kind.toNat ≤ 1 ∧ ¬(f.zone = 0 ∨ 12 < f.zone.toNat) ∧ f.policy.toNat ≤ 3) ∧
    e.enabled = decide (f.enabled = 1) ∧ e.address = f.address ∧ e.aliasAddr = f.aliasAddr := by
  unfold nodeOf at h
  split at h
  · next enabled kind zone policy adj he hk hz hp =>
    cases h
    obtain ⟨h1, h2⟩ := boolOf_some_le he
    refine ⟨⟨h1, nodeKindOf_some_le hk, fun hn => ?_, policyOf_some_le hp⟩, h2, rfl, rfl⟩
    rw [zoneOf_none.2 hn] at hz
    exact nomatch hz
  · exact nomatch h

/-- R2: the address, or the fleet-side one, of another enabled entry clashes. -/
theorem nodeClash_of {nodes : Vector NodeEntry 32} {n m : Fin 32} {e : NodeEntry} (hn : n ≠ m) (he : e.enabled = true)
    (hm : (nodes.get m).enabled = true)
    (h : (nodes.get m).address = e.address ∨ ∃ a, e.aliasAddr = some a ∧ (nodes.get m).aliasAddr = some a) :
    nodeClash nodes n e = true := by
  rw [nodeClash, he, Bool.true_and, List.any_eq_true]
  refine ⟨m, List.mem_finRange m, ?_⟩
  rw [decide_eq_true (Ne.symm hn), hm, Bool.true_and, Bool.true_and, Bool.or_eq_true]
  rcases h with h | ⟨a, h1, h2⟩
  · exact Or.inl (decide_eq_true h)
  · exact Or.inr (by rw [h1, h2]; exact decide_eq_true rfl)

/-- R2: an address, or a fleet-side one, that no entry can hold (log 13). -/
theorem nodeNames_false {e : NodeEntry} (h : 62 < e.address.toNat ∨ (e.enabled = true ∧ e.address = 0) ∨
    ∃ a, e.aliasAddr = some a ∧ (a.toNat < 0x80 ∨ 0xBF < a.toNat)) : nodeNames e = false := by
  rw [← Bool.not_eq_true, nodeNames, Bool.and_eq_true, Bool.and_eq_true, decide_eq_true_eq]
  rintro ⟨⟨h1, h2⟩, h3⟩
  rcases h with h | ⟨he, ha⟩ | ⟨a, ha, h⟩
  · omega
  · rw [he, ha] at h2
    exact nomatch h2
  · rw [ha] at h3
    have := of_decide_eq_true h3
    omega

/-! ### The answer to a write (R2, R3, R188) -/

section
variable {n : Fin 32} {f : NodeFields} {s : State}

theorem nodeIndex_toNat (n : Fin 32) : (BitVec.ofNat 8 n.val).toNat = n.val := by
  rw [BitVec.toNat_ofNat, Nat.mod_eq_of_lt]
  omega

/-- Log 49: an index outside the table is NoEntry, whatever the fields. -/
theorem nodeWrite_noEntry {index : Byte} (h : 32 ≤ index.toNat) : nodeWrite index f s = (s, .noEntry) :=
  dif_neg (Nat.not_lt.2 h)

/-- R2, R3: a write whose values exist, to an entry of the table. -/
theorem nodeWrite_some {e : NodeEntry} {adjusted : Bool} (hf : nodeOf f = some (e, adjusted)) :
    nodeWrite (BitVec.ofNat 8 n.val) f s = if !nodeNames e ∨ nodeClash s.sensor.nodes n e then (s, .badValue)
      else (writeNode n e s, doneOr adjusted) := by
  have hn := nodeIndex_toNat n
  rw [nodeWrite, dif_pos (by rw [hn]; exact n.isLt)]
  simp only [hn, hf]

/-- R188: a write of a value that does not exist, to an entry of the table. -/
theorem nodeWrite_none (hf : nodeOf f = none) : nodeWrite (BitVec.ofNat 8 n.val) f s = (s, .badValue) := by
  rw [nodeWrite, dif_pos (by rw [nodeIndex_toNat]; exact n.isLt), hf]

/-- R188: a write whose values exist for no entry, or whose names are not to be taken, changes nothing. -/
theorem nodeWrite_badValue (h : ∀ e adjusted, nodeOf f = some (e, adjusted) →
    nodeNames e = false ∨ nodeClash s.sensor.nodes n e = true) : nodeWrite (BitVec.ofNat 8 n.val) f s = (s, .badValue) := by
  cases hf : nodeOf f with
  | none => exact nodeWrite_none hf
  | some r =>
    rw [nodeWrite_some hf]
    refine if_pos ((h r.1 r.2 hf).imp (fun h => ?_) id)
    rw [h]; rfl

/-- R3: a write whose names are to be taken writes its entry. -/
theorem nodeWrite_taken {e : NodeEntry} {adjusted : Bool} (hf : nodeOf f = some (e, adjusted))
    (h : nodeNames e = true ∧ nodeClash s.sensor.nodes n e = false) :
    nodeWrite (BitVec.ofNat 8 n.val) f s = (writeNode n e s, doneOr adjusted) := by
  simp only [nodeWrite_some hf, h.1, h.2, Bool.not_true, Bool.false_eq_true, or_self, if_false]

end

/-! ### The exchange that a write ends (R6, R8, R22) -/

/-- R22: the through frame in flight for a node. -/
def flyingTo (n : Fin 32) : Option Exchange → Option Frame
  | some (.through m request _ _) => if m = n then some request else none
  | _ => none

/-- R8, R22: whether the exchange in flight is with a node. -/
def exchangeWith (n : Fin 32) : Option Exchange → Bool
  | some (.poll m _ _ _) => decide (m = n)
  | some (.through m _ _ _) => decide (m = n)
  | none => false

/-- R6, R8, R22: the line after a write of a node's entry has ended an exchange with it. -/
def Sensor.release (n : Fin 32) (x : Sensor) : Sensor :=
  if exchangeWith n x.exchange then x.free (if (flyingTo n x.exchange).isSome then .throughEnded else .pollEnded) else x

/-- R6: an exchange with the node ends; beside it only what the arbiter holds changes. -/
theorem release_rest (n : Fin 32) (x : Sensor) : x.release n = { x with
    exchange := if exchangeWith n x.exchange then none else x.exchange, arbiter := (x.release n).arbiter } := by
  unfold Sensor.release
  cases exchangeWith n x.exchange <;> rfl

/-- R6: the arbiter chooses anew when the exchange ends, and else holds what it held. -/
theorem release_arbiter (n : Fin 32) (x : Sensor) :
    (exchangeWith n x.exchange = false → (x.release n).arbiter = x.arbiter) ∧
    (exchangeWith n x.exchange = true →
      LineFree (if (flyingTo n x.exchange).isSome then .throughEnded else .pollEnded) (x.release n) (x.release n).arbiter) := by
  unfold Sensor.release
  refine ⟨fun h => by rw [if_neg (by rw [h]; decide)], fun h => ?_⟩
  rw [if_pos h]
  exact free_lineFree x _

/-! ### What a taken write leaves (R3, R4, R8, R10, R22) -/

/-- Handing frames reads and writes nothing of the sensor line. -/
theorem foldl_hand_modSensor (l : List OutFrame) (g : Sensor → Sensor) (s : State) :
    l.foldl (fun x f => (hand f x).1) (s.modSensor g) = (l.foldl (fun x f => (hand f x).1) s).modSensor g := by
  induction l generalizing s with
  | nil => rfl
  | cons f l ih => rw [List.foldl_cons, List.foldl_cons, hand_modSensor, ih]

/-- R3, R4, R10: a node's entry written, its runtime and a Scanner's memory reset, and its turn ended. -/
def entryWritten (n : Fin 32) (e : NodeEntry) (s : State) : State :=
  { s with
    sensor := { s.sensor with
      nodes := s.sensor.nodes.set n.val e n.isLt, rts := s.sensor.rts.set n.val NodeRt.reset n.isLt,
      rotation := rotationAfter n e s.sensor.rotation, phase := endTurnOf n s.sensor.phase },
    scans := if e.kind = .scanner then { s.scans with mem := s.scans.mem.set n.val ScanMem.cleared n.isLt } else s.scans }

/-- R22: the entry written, and the node's through frames out of the queue. -/
def nodeWritten (n : Fin 32) (e : NodeEntry) (s : State) : State :=
  (entryWritten n e s).modSensor fun x => { x with throughQ := x.throughQ.filter (fun q => q.node != n) }

/-- R22: the through frames of a node that a write answers: those queued, and then the one in flight (log 16). -/
def refusedFrames (n : Fin 32) (x : Sensor) : List Frame :=
  (x.throughQ.filter (fun q => q.node == n)).map ThroughEntry.frame ++ (flyingTo n x.exchange).toList

/-- R22: the answers to them. -/
def refusals (n : Fin 32) (x : Sensor) : List OutFrame := (refusedFrames n x).map fun f => throughRsp f .noSuchAlias

/-- R22: the queued through frames of a node leave the queue, each answered. -/
theorem dropThrough_eq (n : Fin 32) (s : State) : dropThrough n s =
    ((s.sensor.throughQ.filter (fun q => q.node == n)).map fun q => throughRsp q.frame .noSuchAlias).foldl
      (fun x f => (hand f x).1) (s.modSensor fun x => { x with throughQ := x.throughQ.filter (fun q => q.node != n) }) := by
  rw [dropThrough, List.foldl_map]
  rfl

/-- R8: with no through exchange in flight, ending a poll of the node is all that ending an exchange with it is. -/
theorem abandonPoll_eq_release {n : Fin 32} {x : Sensor} (h : ∀ m q f w, x.exchange ≠ some (.through m q f w)) :
    x.abandonPoll n = x.release n := by
  unfold Sensor.abandonPoll Sensor.release
  cases hx : x.exchange with
  | none => rfl
  | some y =>
    cases y with
    | poll m a f w => by_cases hm : m = n <;> simp [exchangeWith, flyingTo, hm]
    | through m q f w => exact absurd hx (h m q f w)

/-- R22: with no through exchange in flight nothing is answered. -/
theorem abandonThrough_none {n : Fin 32} {s : State} (h : ∀ m q f w, s.sensor.exchange ≠ some (.through m q f w)) :
    abandonThrough n s = s ∧ flyingTo n s.sensor.exchange = none := by
  unfold abandonThrough
  cases hx : s.sensor.exchange with
  | none => exact ⟨rfl, rfl⟩
  | some y =>
    cases y with
    | poll m a f w => exact ⟨rfl, rfl⟩
    | through m q f w => exact absurd hx (h m q f w)

/-- R8, R22: the exchange in flight with the node ends, and a through frame in flight is answered. -/
theorem abandon_eq (n : Fin 32) (s : State) : abandonThrough n (s.modSensor (Sensor.abandonPoll n)) =
    ((flyingTo n s.sensor.exchange).toList.map fun f => throughRsp f .noSuchAlias).foldl
      (fun x f => (hand f x).1) (s.modSensor (Sensor.release n)) := by
  by_cases h : ∀ m q f w, s.sensor.exchange ≠ some (.through m q f w)
  · have hr : s.modSensor (Sensor.abandonPoll n) = s.modSensor (Sensor.release n) := by
      rw [State.modSensor, State.modSensor, abandonPoll_eq_release h]
    have hn : ∀ m q f w, (s.modSensor (Sensor.release n)).sensor.exchange ≠ some (.through m q f w) := fun m q f w => by
      rw [modSensor_sensor, release_rest]
      dsimp only
      split
      · exact fun h => nomatch h
      · exact h m q f w
    rw [hr, (abandonThrough_none hn).1, (abandonThrough_none (n := n) h).2]
    rfl
  · push Not at h
    obtain ⟨m, q, f, w, hx⟩ := h
    have ha : s.modSensor (Sensor.abandonPoll n) = s := by rw [State.modSensor, Sensor.abandonPoll, hx]
    rw [ha, abandonThrough, State.modSensor, State.modSensor, Sensor.release, hx]
    by_cases hm : m = n
    · simp only [exchangeWith, flyingTo, hm, decide_true, if_true]
      rfl
    · simp only [exchangeWith, flyingTo, hm, decide_false, if_false]
      rfl

/-- R3, R8, R22: a taken write: the entry written, the exchange ended, and the through frames of the node answered. -/
theorem writeNode_eq (n : Fin 32) (e : NodeEntry) (s : State) : writeNode n e s =
    (refusals n s.sensor).foldl (fun x f => (hand f x).1) ((nodeWritten n e s).modSensor (Sensor.release n)) := by
  have hw : writeNode n e s = abandonThrough n ((dropThrough n (entryWritten n e s)).modSensor (Sensor.abandonPoll n)) := by
    unfold writeNode entryWritten
    split <;> rfl
  have hsent := (foldl_hand_sent ((s.sensor.throughQ.filter (fun q => q.node == n)).map fun q =>
    throughRsp q.frame .noSuchAlias) (nodeWritten n e s)).sensor
  rw [hw, abandon_eq, dropThrough_eq, show (entryWritten n e s).sensor.throughQ = s.sensor.throughQ from rfl, ← nodeWritten,
    hsent, ← foldl_hand_modSensor, refusals, refusedFrames, List.map_append, List.foldl_append, List.map_map]
  rfl

/-- R10: a write of a node's entry ends its turn, and leaves the round as it is else. -/
theorem endTurnOf_eq (n : Fin 32) (p : RoundPhase) : endTurnOf n p = match p with
    | .waiting t => .waiting t
    | .running r => .running (match r.turn with
      | some t => if t.node = n then { r with turn := none } else r
      | none => r) := by
  cases p with
  | waiting t => rfl
  | running r =>
    simp only [endTurnOf]
    cases r.turn with
    | none => rfl
    | some t => exact (apply_ite RoundPhase.running _ _ _).symm

/-- R22: with no exchange in flight and an empty through queue nothing is answered, and the arbiter is left as it is. -/
theorem writeNode_quiet {n : Fin 32} {e : NodeEntry} {s : State} (hx : s.sensor.exchange = none) (hq : s.sensor.throughQ = []) :
    writeNode n e s = entryWritten n e s := by
  rw [writeNode_eq, refusals, refusedFrames, hx, hq]
  unfold nodeWritten State.modSensor Sensor.release entryWritten
  simp [hx, hq, exchangeWith, flyingTo]

/-- R188: a write is answered Adjusted when a field was brought into range, else Done. -/
theorem doneOr_not (kept : Prop) [Decidable kept] : doneOr (decide ¬kept) = if kept then .done else .adjusted := by
  by_cases h : kept <;> simp [doneOr, h]

/-- R2: a kind byte of 1 is a Scanner's. -/
theorem kind_scanner_iff {x : Byte} (h : x.toNat ≤ 1) :
    (if x = 0 then NodeKind.probe else .scanner) = .scanner ↔ decide (x = 1) = true := by
  rcases byte_le_one h with rfl | rfl <;> decide

/-- R3, R4, R10: a node's entry written, by the fields of the write. -/
theorem entryWritten_eq (n : Fin 32) (e : NodeEntry) (s : State) {enabled : Prop} [Decidable enabled] {scanner : Bool}
    {phase : RoundPhase} (he : e.enabled = true ↔ enabled) (hk : e.kind = .scanner ↔ scanner = true)
    (hp : endTurnOf n s.sensor.phase = phase) : entryWritten n e s = { s with
      sensor := { s.sensor with
        nodes := s.sensor.nodes.set n.val e n.isLt, rts := s.sensor.rts.set n.val NodeRt.reset n.isLt,
        rotation := s.sensor.rotation.filter (fun m => m != n) ++ (if enabled ∧ scanner then [n] else []),
        phase := phase },
      scans := if scanner then { s.scans with mem := s.scans.mem.set n.val ScanMem.cleared n.isLt } else s.scans } := by
  simp only [entryWritten, rotationAfter, he, hk, hp]

/-- R3, R6, R8, R22: a taken write, with its own answer handed after those to the through frames of the node (log 16). -/
theorem nodeWrite_answers {n : Fin 32} {e : NodeEntry} {f : NodeFields} {s : State} {h : ReqHdr} {code : ReplyCode}
    (ht : Taken h s) (hw : nodeWrite (BitVec.ofNat 8 n.val) f s = (writeNode n e s, code)) :
    let u := (nodeWritten n e s).modSensor (Sensor.release n)
    let t := (refusals n s.sensor ++ [rsp h kMgWrite code]).foldl (fun x g => (hand g x).1) u
    exec (.nodeTableWrite h (BitVec.ofNat 8 n.val) f) s = .next t ∧ Sent u t := by
  refine ⟨?_, foldl_hand_sent _ _⟩
  obtain ⟨he, -⟩ : Replies (.nodeTableWrite h (BitVec.ofNat 8 n.val) f) s (writeNode n e s) h kMgWrite code :=
    replies_of rfl ht hw
  rw [he, writeNode_eq, List.foldl_append]
  rfl

/-- Settles O12, from what a write answers (R2, R188) and what a taken one leaves (R3, R4, R6, R8, R10, R22). -/
theorem nodeWritesResetTheNode : Obligations.NodeWritesResetTheNode := by
  intro h f s ht
  refine ⟨fun index hi => replies_of rfl ht (nodeWrite_noEntry hi), fun n m hn he hm hc => replies_of rfl ht ?_,
    fun n hb => replies_of rfl ht ?_, ?_⟩
  · refine nodeWrite_badValue fun e adjusted hf => Or.inr ?_
    obtain ⟨-, h1, h2, h3⟩ := nodeOf_some hf
    exact nodeClash_of hn (by rw [h1]; exact decide_eq_true he) hm (by rw [h2, h3]; exact hc)
  · refine nodeWrite_badValue fun e adjusted hf => Or.inl (nodeNames_false ?_)
    obtain ⟨⟨b1, b2, b3, b4⟩, h1, h2, h3⟩ := nodeOf_some hf
    rw [h1, h2, h3, decide_eq_true_eq]
    rcases hb with hb | hb | hb | hb | hb | hb
    · omega
    · omega
    · exact absurd (Or.inl hb) b3
    · exact absurd (Or.inr hb) b3
    · omega
    · exact hb
  · intro n z b1 b2 b3 b4 a1 a2 a3 a4 policy e kept rt mem scanner phase
    have hf := nodeOf_fields f z b1 b2 b3 b4
    have taken : nodeWrite (BitVec.ofNat 8 n.val) f s = (writeNode n e s, if kept then .done else .adjusted) :=
      (nodeWrite_taken hf (node_taken f s.sensor.nodes n e rfl rfl rfl a1 a2 a3 a4)).trans (Prod.ext rfl (doneOr_not kept))
    have written := entryWritten_eq n e s (decide_eq_true_iff (p := f.enabled = 1)) (kind_scanner_iff b2) (endTurnOf_eq n _)
    refine ⟨fun hx hq => replies_of rfl ht (taken.trans (Prod.ext ((writeNode_quiet hx hq).trans written) rfl)), ?_⟩
    intro flying ends refused answers
    obtain ⟨stands, chooses⟩ := release_arbiter n (nodeWritten n e s).sensor
    refine ⟨(nodeWritten n e s).modSensor (Sensor.release n), ?_, stands, chooses, nodeWrite_answers ht taken⟩
    calc (nodeWritten n e s).modSensor (Sensor.release n)
      _ = { nodeWritten n e s with sensor := (nodeWritten n e s).sensor.release n } := rfl
      _ = _ := by
        rw [release_rest, nodeWritten, written]
        rfl

end Sys2Proof.Machine
end

section
/-! PROOFS. Which commands write the zone unit, and that every step keeps a zone's air value absent exactly while the zone
is Unset (O59; spec 02 R27). -/

namespace Sys2Proof.Machine

/-! ### Operations that leave the zone unit as it was

Frames, raisings and appends; then the operations of each unit, in the order of the units. -/

@[simp] theorem hand_zones (f : OutFrame) (s : State) : (hand f s).1.zones = s.zones := (hand_sent f s).zones

@[simp] theorem offer_zones (n : Nat) (s : State) : (offer n s).zones = s.zones := (offer_sent n s).zones

@[simp] theorem reply_zones (r : ReplyTo) (c : ReplyCode) (s : State) : (reply r c s).zones = s.zones := hand_zones _ s

@[simp] theorem throughReply_zones (f : Frame) (c : ReplyCode) (s : State) : (throughReply f c s).zones = s.zones :=
  hand_zones _ s

@[simp] theorem raise_zones (k : EventKind) (sub : Subject) (s : State) : (raise k sub s).zones = s.zones :=
  (raise_raised k sub s).zones

@[simp] theorem append_zones (d : Draft) (s : State) : (append d s).zones = s.zones := (append_recorded d s).zones

@[simp] theorem discardFor_zones (lot : Word) (s : State) : (discardFor lot s).zones = s.zones :=
  (discardFor_recorded lot s).zones

/-- A fold of operations that leave the zone unit leaves it. -/
theorem foldl_keepsZones {α : Type} {f : State → α → State} (hf : ∀ s a, (f s a).zones = s.zones) (l : List α) (s : State) :
    (l.foldl f s).zones = s.zones :=
  foldl_keeps (fun t => t.zones = s.zones) f l (fun t a h => (hf t a).trans h) s rfl

/-! The sensor line and the readings (spec 01, R24, R25). -/

@[simp] theorem nodeEvent_zones (n : Fin 32) (k : EventKind) (kind : EntryKind) (s : State) :
    (nodeEvent n k kind s).zones = s.zones := by simp [nodeEvent]

@[simp] theorem goodNode_zones (n : Fin 32) (s : State) : (goodNode n s).zones = s.zones := by
  simp [goodNode, apply_ite State.zones]

@[simp] theorem takeMiss_zones (n : Fin 32) (a : Byte) (k : MissKind) (s : State) : (takeMiss n a k s).zones = s.zones := by
  simp [takeMiss, apply_ite State.zones]

@[simp] theorem report_zones (n : Fin 32) (v : Int) (s : State) : (report n v s).zones = s.zones := by
  simp [report, apply_ite State.zones]

@[simp] theorem applyPolicy_zones (n : Fin 32) (v : Int) (s : State) : (applyPolicy n v s).zones = s.zones := by
  unfold applyPolicy
  cases (s.sensor.nodes.get n).policy <;> simp [apply_ite State.zones]

@[simp] theorem takeReading_zones (n : Fin 32) (raw : Half) (q : Byte) (s : State) : (takeReading n raw q s).zones = s.zones := by
  simp [takeReading, apply_ite State.zones]

theorem takeThrough_zones (f : Frame) (s : State) : (takeThrough f s).zones = s.zones := by
  unfold takeThrough
  split
  · simp
  · simp [apply_ite State.zones]

theorem beginThrough_zones (s : State) : (beginThrough s).zones = s.zones := by
  unfold beginThrough
  split <;> rfl

theorem nodeWrite_zones (index : Byte) (f : NodeFields) (s : State) : (nodeWrite index f s).1.zones = s.zones := by
  have written (n : Fin 32) (e : NodeEntry) : (writeNode n e s).zones = s.zones := by
    rw [writeNode_eq, (foldl_hand_sent _ _).zones]
    rfl
  unfold nodeWrite
  split
  · split
    · rfl
    · split
      · rfl
      · exact written _ _
  · rfl

/-! Scans and handovers (spec 07). -/

theorem judgeLoad_zones (scanner : Byte) (lot : Word) (s : State) : (judgeLoad scanner lot s).1.zones = s.zones := by
  unfold judgeLoad
  repeat' split
  · rfl
  · rfl
  · rfl
  · simp [loadLot]

theorem judgeUnload_zones (n : Fin 32) (scanner : Byte) (f : ScanFields) (s : State) :
    (judgeUnload n scanner f s).1.zones = s.zones := by
  unfold judgeUnload
  dsimp only
  repeat' split
  · rfl
  · rfl
  · rfl
  · rfl
  · rfl
  · rfl
  · simp [openHandoverOf]

theorem judgeConfirm_zones (n : Fin 32) (scanner : Byte) (f : ScanFields) (s : State) :
    (judgeConfirm n scanner f s).1.zones = s.zones := by
  unfold judgeConfirm
  dsimp only
  repeat' split
  · rfl
  · rfl
  · rfl
  · rfl
  · rfl
  · simp [openHandoverOf]

theorem judgeRefuse_zones (scanner : Byte) (f : ScanFields) (s : State) : (judgeRefuse scanner f s).1.zones = s.zones := by
  unfold judgeRefuse
  repeat' split
  · rfl
  · rfl
  · simp [cancelHandover]

theorem judgeScan_zones (n : Fin 32) (scanner : Byte) (a : ScanAction) (f : ScanFields) (s : State) :
    (judgeScan n scanner a f s).1.zones = s.zones := by
  cases a with
  | load => exact judgeLoad_zones scanner f.lot s
  | unload => exact judgeUnload_zones n scanner f _
  | confirm => exact judgeConfirm_zones n scanner f s
  | refuse => exact judgeRefuse_zones scanner f s

@[simp] theorem takeScan_zones (n : Fin 32) (f : ScanFields) (s : State) : (takeScan n f s).zones = s.zones := by
  unfold takeScan
  split
  · rfl
  · split
    · rfl
    · simp [judgeScan_zones]

@[simp] theorem handOn_zones (n : Fin 32) (f : Frame) (s : State) : (handOn n f s).zones = s.zones := by
  unfold handOn
  repeat' split
  all_goals simp

theorem takeSensorFrame_zones (ok : Bool) (f : Frame) (s : State) : (takeSensorFrame ok f s).zones = s.zones := by
  unfold takeSensorFrame
  split
  · rfl
  · unfold takeReply
    dsimp only
    split <;> simp
  · simp [apply_ite State.zones]

/-! Lots and trips (spec 03, 04, 06). -/

theorem updateLots_zones (s : State) : (updateLots s).zones = s.zones := by
  refine foldl_keepsZones (fun t i => ?_) _ s
  split
  · exact (updateLot_spec i t).1.zones
  · rfl

theorem manifestAdd_zones (f : ManifestFields) (s : State) : (manifestAdd f s).1.zones = s.zones := by
  unfold manifestAdd manifestPlace
  dsimp only
  repeat' split
  all_goals rfl

theorem manifestDelete_zones (lot : Word) (s : State) : (manifestDelete lot s).1.zones = s.zones := by
  unfold manifestDelete
  repeat' split
  all_goals simp [freeLot]

theorem expireLot_zones (i : Fin 96) (s : State) : (expireLot i s).zones = s.zones := by simp [expireLot, freeLot]

theorem moveLot_zones (lot : Word) (z : Byte) (s : State) : (moveLot lot z s).1.zones = s.zones := by
  unfold moveLot
  repeat' split
  all_goals simp [moveTo]

@[simp] theorem shortAll_zones (stop : Nat) (s : State) : (shortAll stop s).zones = s.zones := by
  refine foldl_keepsZones (fun t i => ?_) _ s
  simp [makeShort, apply_ite State.zones]

@[simp] theorem returnAll_zones (s : State) : (returnAll s).zones = s.zones := by
  refine foldl_keepsZones (fun t i => ?_) _ s
  simp [makeReturned, apply_ite State.zones]

@[simp] theorem markUnconfirmed_zones (p : ProofItem) (s : State) : (markUnconfirmed p s).zones = s.zones := by
  simp [markUnconfirmed]

@[simp] theorem emptyProofs_zones (n : Nat) (s : State) : (emptyProofs n s).zones = s.zones := by
  induction n generalizing s with
  | zero => rfl
  | succ n ih =>
    unfold emptyProofs
    split
    · rfl
    · simp [ih]

@[simp] theorem sealLots_zones (c : SealCause) (p : LotEntry → Bool) (s : State) : (sealLots c p s).zones = s.zones :=
  (sealLots_custody c p s).zones

theorem dropPlanned_zones (m : TripMode) (s : State) : (dropPlanned m s).zones = s.zones := by cases m <;> rfl

theorem tripOpen_zones (p : TripOpenParams) (s : State) : (tripOpen p s).1.zones = s.zones := by
  have opened (m : TripMode) : (openTrip m p s).zones = s.zones := by
    rw [openTrip, append_zones]
    exact dropPlanned_zones m _
  unfold tripOpen
  split
  · rfl
  · split
    · rfl
    · exact opened _

theorem depart_zones (s : State) : (depart s).1.zones = s.zones := by
  unfold depart
  split
  · simp [departTrip, endVisit, dropAdvisories]
  · rfl

theorem arrive_zones (stop : Byte) (s : State) : (arrive stop s).1.zones = s.zones := by
  unfold arrive
  repeat' split
  all_goals simp [arriveAt, beginVisit]

theorem tripClose_zones (s : State) : (tripClose s).1.zones = s.zones := by
  unfold tripClose
  split
  · simp [closeTrip, clearVisited, endVisit, dropAdvisories, apply_ite State.zones]
  · rfl

theorem stopWrite_zones (index : Byte) (f : StopFields) (s : State) : (stopWrite index f s).1.zones = s.zones := by
  unfold stopWrite
  repeat' split
  all_goals rfl

theorem setTime_zones (v : Clock) (s : State) : (setTime v s).zones = s.zones := by
  simp [setTime, apply_ite State.zones]

theorem proofAck_zones (n : Half) (check : Word) (s : State) : (proofAck n check s).1.zones = s.zones := by
  unfold proofAck
  repeat' split
  all_goals simp [confirmProof]

/-! Doors and beacons (spec 05). -/

theorem closeDoor_zones (d : Fin 4) (s : State) : (closeDoor d s).zones = s.zones := (closeDoor_custody d s).zones

@[simp] theorem judgeContact_zones (d : Fin 4) (s : State) : (judgeContact d s).zones = s.zones :=
  (judgeContact_custody d s).zones

@[simp] theorem settleLine_zones (d : Fin 4) (s : State) : (settleLine d s).zones = s.zones := (settleLine_custody d s).zones

theorem armSeal_zones (door : Byte) (s : State) : (armSeal door s).1.zones = s.zones := by
  unfold armSeal
  dsimp only
  repeat' split
  all_goals rfl

theorem enterMode_zones (d : Fin 4) (m : DoorMode) (s : State) : (enterMode d m s).zones = s.zones := by
  cases m <;> simp [enterMode]

theorem doorWrite_zones (index : Byte) (f : DoorFields) (s : State) : (doorWrite index f s).1.zones = s.zones := by
  unfold doorWrite
  repeat' split
  · rfl
  · rfl
  · simp [writeDoor, changeMode, keepMode, enterMode_zones, closeDoor_zones, apply_ite State.zones]

theorem beaconWrite_zones (index : Byte) (f : BeaconFields) (s : State) : (beaconWrite index f s).1.zones = s.zones := by
  unfold beaconWrite
  repeat' split
  all_goals rfl

theorem beaconClear_zones (set : Byte) (s : State) : (beaconClear set s).1.zones = s.zones := by
  unfold beaconClear stopTrains
  split
  · rfl
  · simp [apply_ite State.zones]

/-! Exports, claims, reads and the trunk port's own commands (spec 09, 10, 11). -/

theorem jrnlReq_zones (r : ReplyTo) (m : JrnlMode) (n : Word) (count : Half) (s : State) :
    (jrnlReq r m n count s).zones = s.zones := by
  unfold jrnlReq
  repeat' split
  all_goals simp [startExport]

@[simp] theorem openFor_zones (q : Query) (s : State) : (openFor q s).zones = s.zones := by
  unfold openFor
  split <;> simp [answerSlot, answerPlain, openSlot]

theorem handAll_zones (fs : List OutFrame) (s : State) : (handAll fs s).1.zones = s.zones := by
  induction fs generalizing s with
  | nil => rfl
  | cons f fs ih =>
    unfold handAll
    dsimp only
    split
    · rw [ih, hand_zones]
    · exact hand_zones f s

theorem claimQuery_zones (q : Query) (s : State) : (claimQuery q s).zones = s.zones := by
  unfold claimQuery answerFromSlots
  repeat' split
  all_goals simp [answerPlain, answerSlot, sendStatement, handAll_zones, apply_ite State.zones]

theorem sendPiece_zones (r : ReadRec) (s : State) : (sendPiece r s).zones = s.zones := by
  simp [sendPiece, apply_ite State.zones]

theorem tableRead_zones (r : ReplyTo) (table first count : Nat) (s : State) :
    (tableRead r table first count s).zones = s.zones := by
  unfold tableRead
  dsimp only
  split <;> simp [beginRead, sendPiece_zones]

theorem setAddress_zones (a : Byte) (s : State) : (setAddress a s).1.zones = s.zones := by
  unfold setAddress
  split <;> rfl

theorem classWrite_zones (index : Byte) (f : ClassFields) (s : State) : (classWrite index f s).1.zones = s.zones := by
  unfold classWrite
  dsimp only
  repeat' split
  all_goals rfl

theorem engineWrite_zones (index : Byte) (f : EngineFields) (s : State) : (engineWrite index f s).1.zones = s.zones := by
  unfold engineWrite
  dsimp only
  repeat' split
  all_goals rfl

/-! ### Commands that leave the zone unit as it was -/

/-- Whether a command may write the zone unit: a write of a zone entry, the end of a round, a clearing of Step, a reset. -/
def Instr.writesZones : Instr → Bool
  | .zoneTableWrite _ _ _ | .roundEnd | .eventClear _ _ | .resetFullTakesEffect | .powerOnReset _ => true
  | _ => false

theorem next_zones {s t u : State} (h : (.next u : Answer) = .next t) (hu : u.zones = s.zones) : t.zones = s.zones := by
  cases h
  exact hu

/-- R183: a request leaves the zone unit when its block does. -/
theorem onRequest_zones {h : ReqHdr} {s t : State} {g : State → State} (e : onRequest h s g = .next t)
    (hg : (g s).zones = s.zones) : t.zones = s.zones :=
  onRequest_keeps (fun u => u.zones = s.zones) e rfl hg rfl

/-- R188, R189: a request that answers with a code leaves the zone unit when its effects do. -/
theorem answered_zones {h : ReqHdr} {k : Byte} {s t : State} {g : State → State × ReplyCode}
    (e : onRequest h s (fun s => answered h k (g s)) = .next t) (hg : (g s).1.zones = s.zones) : t.zones = s.zones :=
  onRequest_zones e ((reply_zones _ _ _).trans hg)

/-! The rows of frames that may belong to another row (log 4): such a frame is refused, and leaves no state. -/

theorem execThroughFrame_zones {f : Frame} {s t : State} (h : execThroughFrame f s = .next t) : t.zones = s.zones := by
  unfold execThroughFrame at h
  split at h
  · exact next_zones h (by simp [apply_ite State.zones, takeThrough_zones])
  · exact nomatch h

theorem execMgWriteRefused_zones {hd : ReqHdr} {payload : List Byte} {s t : State}
    (h : execMgWriteRefused hd payload s = .next t) : t.zones = s.zones := by
  unfold execMgWriteRefused at h
  split at h
  · exact onRequest_zones h (reply_zones _ _ s)
  · exact nomatch h

theorem execMgCmdInvalid_zones {hd : ReqHdr} {payload : List Byte} {s t : State}
    (h : execMgCmdInvalid hd payload s = .next t) : t.zones = s.zones := by
  unfold execMgCmdInvalid at h
  split at h
  · exact onRequest_zones h (reply_zones _ _ s)
  · exact nomatch h

theorem execFrameError_zones {f : Frame} {check : Half} {s t : State} (h : execFrameError f check s = .next t) :
    t.zones = s.zones := by
  unfold execFrameError at h
  split at h
  · exact next_zones h (by simp [apply_ite State.zones])
  · exact nomatch h

/-- R27: no command but those of `writesZones` touches the zone unit. -/
theorem exec_zones {c : Instr} {s t : State} (hc : Instr.writesZones c = false) (h : exec c s = .next t) :
    t.zones = s.zones := by
  cases c
  all_goals unfold exec at h
  case powerOnReset | roundEnd | zoneTableWrite | eventClear | resetFullTakesEffect => exact nomatch hc
  case roundStart => exact next_zones h (by split <;> simp [apply_ite State.zones])
  case poll =>
    refine next_zones h ?_
    repeat' split
    all_goals rfl
  case thruOut => exact next_zones h (by simp [apply_ite State.zones, beginThrough_zones])
  case replyReading | replyScan | replyIdle | badReply | straySensorFrame | thruBack | thruWindowOtherFrame =>
    exact next_zones h (takeSensorFrame_zones _ _ s)
  case replyWindowExpiry => exact next_zones h (by split <;> simp [apply_ite State.zones])
  case throughWindowExpiry => exact next_zones h (by split <;> simp [apply_ite State.zones])
  case throughFrame => exact execThroughFrame_zones h
  case updateEvent => exact next_zones h (by simp [apply_ite State.zones, updateLots_zones])
  case mgRead =>
    refine onRequest_zones h ?_
    split
    · exact tableRead_zones _ _ _ _ s
    · exact reply_zones _ _ s
  case mgReadNextFrame => exact next_zones h (by split <;> simp [apply_ite State.zones, sendPiece_zones])
  case mgWriteRefused => exact execMgWriteRefused_zones h
  case mgCmdInvalid => exact execMgCmdInvalid_zones h
  case nodeTableWrite => exact answered_zones h (nodeWrite_zones _ _ s)
  case lineSettingsWrite => exact answered_zones h (by rw [lineWrite_eq]; simp [apply_ite State.zones])
  case classTableWrite => exact answered_zones h (classWrite_zones _ _ s)
  case engineSettingsWrite => exact answered_zones h (engineWrite_zones _ _ s)
  case manifestAdd => exact answered_zones h (manifestAdd_zones _ s)
  case manifestDelete => exact answered_zones h (manifestDelete_zones _ s)
  case doorTableWrite => exact answered_zones h (doorWrite_zones _ _ s)
  case beaconTableWrite => exact answered_zones h (beaconWrite_zones _ _ s)
  case stopTableWrite => exact answered_zones h (stopWrite_zones _ _ s)
  case scanSettingsWrite => exact answered_zones h (by rw [scanSettingsWrite_eq]; simp [apply_ite State.zones])
  case proofSettingsWrite => exact answered_zones h (by rw [proofSettingsWrite_eq]; simp [apply_ite State.zones])
  case claimSettingsWrite => exact answered_zones h (by rw [claimSettingsWrite_eq]; simp [apply_ite State.zones])
  case eventSettingsWrite => exact answered_zones h (by rw [eventSettingsWrite_eq]; simp [apply_ite State.zones])
  case tripOpen => exact answered_zones h (tripOpen_zones _ s)
  case depart => exact answered_zones h (depart_zones s)
  case arrive => exact answered_zones h (arrive_zones _ s)
  case tripClose => exact answered_zones h (tripClose_zones s)
  case moveLot => exact answered_zones h (moveLot_zones _ _ s)
  case armSeal => exact answered_zones h (armSeal_zones _ s)
  case beaconClear => exact answered_zones h (beaconClear_zones _ s)
  case timeSet => exact answered_zones (g := fun s => (setTime _ s, .done)) h (setTime_zones _ s)
  case setAddress => exact answered_zones h (setAddress_zones _ s)
  case resetLink => exact answered_zones (g := fun s => (linkReset s, .done)) h rfl
  case resetFull => exact onRequest_zones h rfl
  case doorLineChange => exact next_zones h (by simp [apply_ite State.zones])
  case debounceExpiry => exact next_zones h (settleLine_zones _ s)
  case assumedOpenTimeExpiry => exact next_zones h (by simp [apply_ite State.zones, closeDoor_zones])
  case recoveryWindowEnd => exact next_zones h rfl
  case doorOverlong => exact next_zones h (by simp [apply_ite State.zones])
  case beaconPhaseEnd => exact next_zones h (by split <;> simp [apply_ite State.zones])
  case advisoryExpiry => exact next_zones h (by simp [apply_ite State.zones])
  case settleDeadline => exact next_zones h (by simp [apply_ite State.zones, (sealLot_custody _ _ s).zones])
  case ackDeadline => exact next_zones h (by split <;> simp)
  case proofAck =>
    unfold execProofAck at h
    refine answered_zones h ?_
    split
    · exact proofAck_zones _ _ s
    · rfl
  case retentionExpiry => exact next_zones h (by simp [apply_ite State.zones, expireLot_zones])
  case jrnlReq =>
    refine onRequest_zones h ?_
    repeat' split
    · exact reply_zones _ _ s
    · exact jrnlReq_zones _ _ _ _ s
    · exact reply_zones _ _ s
  case claimQ =>
    refine onRequest_zones h ?_
    split
    · exact claimQuery_zones _ s
    · exact reply_zones _ _ s
  case buildCompletion => exact next_zones h (by split <;> simp)
  case claimWindowDeadline => exact next_zones h (by simp [apply_ite State.zones])
  case frameError => exact execFrameError_zones h
  case transmissionEnd => exact next_zones h (by split <;> simp)

/-! ### The air value and the state of a zone (R27) -/

/-- The agreement reads the zone unit alone. -/
theorem AirWhileSet.of_zones {s t : State} (h : AirWhileSet s) (e : t.zones = s.zones) : AirWhileSet t := fun z => by
  rw [e]
  exact h z

/-- R26, R27: a write of a zone entry keeps the agreement: what it takes to Unset it leaves without air value. -/
theorem zoneWrite_air {s : State} (index : Byte) (f : ZoneFields) (h : AirWhileSet s) :
    AirWhileSet (zoneWrite index f s).1 := by
  unfold zoneWrite
  split
  · exact h
  · split
    · exact h
    · split
      · exact h
      · intro y
        simp only [get_upd]
        split
        · exact iff_of_true rfl rfl
        · exact h y

/-- R35, R192: a clearing of Step keeps it: step flags alone are written. -/
theorem clearEvents_air {s : State} (set : KindSet) (h : AirWhileSet s) : AirWhileSet (clearEvents set s) := fun z => by
  show ((clearSteps set s.zones).rts.get z).air = none ↔ ((clearSteps set s.zones).rts.get z).state = .unset
  unfold clearSteps
  split
  · rw [get_mapV]
    exact h z
  · exact h z

/-- R195: at power-on every zone is Unset, with no air value. -/
theorem powerOnState_air (now : Nat) (straps : BitVec 2) (clock : Clock) (unsynced : Bool) (addr : Byte) (s : State) :
    AirWhileSet (powerOnState now straps clock unsynced addr s) := fun z => by
  simp [powerOnState, Zones.powerOn]

/-- R30, R31: the end of a round keeps it: a zone with fresh readings is Live with their mean, and one with none goes at
most from Live to Stale. -/
theorem computeZones_air {s : State} (h : AirWhileSet s) : AirWhileSet (computeZones s) := fun z => by
  cases he : (s.zones.entries.get z).enabled with
  | false =>
    rw [(computeZones_spec s).2.2.1 z he]
    exact h z
  | true =>
    cases hf : freshValues s z with
    | nil =>
      have hz := h z
      rw [computeZones_stale he hf, hz]
      cases (s.zones.rts.get z).state <;> simp
    | cons v vs =>
      rw [computeZones_live he hf]
      exact iff_of_false (fun h => nomatch h) (fun h => nomatch h)

/-- R11: the end of a round, due or not, keeps it. -/
theorem execRoundEnd_air {s t : State} (ha : AirWhileSet s) (h : execRoundEnd s = .next t) : AirWhileSet t := by
  unfold execRoundEnd at h
  cases h
  split
  · exact ha
  · split
    · exact (computeZones_air ha).of_zones (modSensor_zones _ _)
    · exact ha

/-- R27: every command keeps the air value absent exactly while the zone is Unset. -/
theorem exec_air {c : Instr} {s t : State} (ha : AirWhileSet s) (h : exec c s = .next t) : AirWhileSet t := by
  cases hc : Instr.writesZones c with
  | false => exact ha.of_zones (exec_zones hc h)
  | true =>
    cases c
    case powerOnReset => cases h; exact powerOnState_air _ _ _ _ _ s
    case resetFullTakesEffect =>
      unfold exec execResetFullTakesEffect at h
      cases h
      split
      · exact powerOnState_air _ _ _ _ _ s
      · exact ha
    case roundEnd => exact execRoundEnd_air ha h
    case zoneTableWrite hd index f =>
      unfold exec execZoneTableWrite at h
      exact onRequest_keeps AirWhileSet h ha ((zoneWrite_air index f ha).of_zones (reply_zones _ _ _)) ha
    case eventClear hd kinds =>
      unfold exec execEventClear at h
      refine onRequest_keeps AirWhileSet h ha (AirWhileSet.of_zones ?_ (reply_zones _ _ _)) ha
      unfold eventClear
      split
      · exact ha
      · exact clearEvents_air _ ha
    all_goals exact nomatch hc

/-- Settles O59: a step runs a command, of the queue or due, or lets a millisecond pass, which touches no zone. -/
theorem everyStepKeepsAirWithTheState : Obligations.EveryStepKeepsAirWithTheState := by
  intro s t ha h
  unfold step at h
  split at h
  · exact exec_air (ha.of_zones (withPending_zones s _)) h
  · unfold idleStep at h
    split at h
    · exact exec_air ha h
    · cases h
      exact ha

end Sys2Proof.Machine
end

section
/-! PROOFS. Writes of the zone table (O13; spec 02 R26, R27). -/

namespace Sys2Proof.Machine

/-- R26: a zone is in use exactly when a lot in OnBoard or Handover is held there. -/
theorem zoneInUse_iff (lots : Vector LotEntry 96) (z : Fin 12) : zoneInUse lots z = true ↔
    ∃ i, ((lots.get i).state = .onBoard ∨ (lots.get i).state = .handover) ∧ (lots.get i).zone = z := by
  have custody (l : LotEntry) : l.inCustody = true ↔ l.state = .onBoard ∨ l.state = .handover := by
    unfold LotEntry.inCustody
    cases l.state <;> simp
  rw [zoneInUse, List.any_eq_true]
  constructor
  · rintro ⟨l, hl, h⟩
    obtain ⟨i, hi, rfl⟩ := List.mem_iff_getElem.1 hl
    rw [Bool.and_eq_true, custody, decide_eq_true_eq] at h
    exact ⟨⟨i, by simpa using hi⟩, by simpa [Vector.get] using h⟩
  · rintro ⟨i, h⟩
    refine ⟨lots.get i, by simp [Vector.get], ?_⟩
    rwa [Bool.and_eq_true, custody, decide_eq_true_eq]

/-- R26: the entry that a write gives, with its fields brought into range. -/
def zoneEntryOf (f : ZoneFields) : ZoneEntry :=
  { enabled := decide (f.enabled = 1), staleness := max 10 (min 600 f.staleness.toNat), step := max 1 (min 200 f.step.toNat) }

/-- R26, R27: the zone unit after a taken write: the entry written, and the zone Unset with no air value. -/
def Zones.write (x : Zones) (z : Fin 12) (f : ZoneFields) : Zones :=
  { entries := x.entries.set z.val (zoneEntryOf f) z.isLt, rts := upd x.rts z fun r => { r with state := .unset, air := none } }

section
variable {z : Fin 12} {f : ZoneFields} {s : State}

/-- Log 49: a zone number outside 1 to 12 is NoEntry, whatever the fields. -/
theorem zoneWrite_noEntry {index : Byte} (h : index = 0 ∨ 12 < index.toNat) : zoneWrite index f s = (s, .noEntry) := by
  rw [zoneWrite, zoneOf_none.2 h]

/-- R26: a write of an enabled byte that exists, to a zone of the table. -/
theorem zoneWrite_some (hf : f.enabled = 0 ∨ f.enabled = 1) : zoneWrite (BitVec.ofNat 8 (z.val + 1)) f s =
    if (s.zones.entries.get z).enabled = true ∧ f.enabled = 0 ∧ zoneInUse s.lots z = true then (s, .inUse)
    else ({ s with zones := s.zones.write z f },
      if (10 ≤ f.staleness.toNat ∧ f.staleness.toNat ≤ 600) ∧ (1 ≤ f.step.toNat ∧ f.step.toNat ≤ 200) then .done else .adjusted) := by
  have code : doneOr (decide (clamp 10 600 f.staleness.toNat ≠ f.staleness.toNat ∨ clamp 1 200 f.step.toNat ≠ f.step.toNat)) =
      if (10 ≤ f.staleness.toNat ∧ f.staleness.toNat ≤ 600) ∧ (1 ≤ f.step.toNat ∧ f.step.toNat ≤ 200) then .done else .adjusted := by
    have h1 := clamp_eq_iff (lo := 10) (hi := 600) (n := f.staleness.toNat) (by decide)
    have h2 := clamp_eq_iff (lo := 1) (hi := 200) (n := f.step.toNat) (by decide)
    simp only [doneOr, ← h1, ← h2, ← not_and_or, decide_eq_true_eq, ite_not]
  have enabled : boolOf f.enabled = some (decide (f.enabled = 1)) := by
    rcases hf with h | h <;> rw [h] <;> rfl
  have off : (!decide (f.enabled = 1)) = true ↔ f.enabled = 0 := by
    rcases hf with h | h <;> rw [h] <;> decide
  rw [zoneWrite, zoneOf_number, enabled]
  simp only [off, code]
  rfl

end

/-- Settles O13, from the answer to a write of a zone of the table (R26) and what a taken one leaves (R26, R27). -/
theorem zoneWritesUnsetTheZone : Obligations.ZoneWritesUnsetTheZone := by
  intro h f s ht
  refine ⟨fun index hi => replies_of rfl ht (zoneWrite_noEntry hi), fun z he hf hl => replies_of rfl ht ?_,
    fun z hf hl => ⟨{ s with zones := s.zones.write z f }, rfl, fun y => get_set _ z y _, fun y => ?_, replies_of rfl ht ?_⟩⟩
  · exact (zoneWrite_some (Or.inl hf)).trans (if_pos ⟨he, hf, (zoneInUse_iff _ _).2 hl⟩)
  · refine (get_upd _ z y _).trans ?_
    split
    · next hy => rw [hy]
    · rfl
  · refine (zoneWrite_some hf).trans (if_neg ?_)
    rintro ⟨he, h0, hu⟩
    obtain ⟨i, hi, hz⟩ := (zoneInUse_iff _ _).1 hu
    rcases hl with h | h | h
    · rw [he] at h; exact nomatch h
    · rw [h0] at h; exact absurd h (by decide)
    · exact hi.elim (h i hz).1 (h i hz).2

end Sys2Proof.Machine
end

section
/-! PROOFS. Readings and their reports (O45; spec 01 R15, R18; spec 02 R24, R25, R36 to R39). -/

namespace Sys2Proof.Machine

/-! ### A polled probe's reading is a good reply (R14, R15) -/

/-- R14: a reading from the polled probe is no miss. -/
theorem judgeReply_reading (src tag : Byte) (raw : Half) (quality : Byte) :
    judgeReply .probe src true (readingFrame src tag raw quality) = none := by
  simp [judgeReply, mayReply, replyLength, readingFrame, kReplyIdle, kReplyReading, b2]

/-- R15: a reading is handed to the zone unit. -/
theorem handOn_reading (n : Fin 32) (src tag : Byte) (raw : Half) (quality : Byte) (s : State) :
    handOn n (readingFrame src tag raw quality) s = takeReading n raw quality s := by
  show takeReading n (half (raw.extractLsb' 8 8) (raw.extractLsb' 0 8)) quality s = _
  rw [half_b2]

/-- R15, log 18: a reading of the polled probe does what a good reply does, and is then taken. -/
theorem replyReading_good {s : State} {n : Fin 32} {accessory : Bool} {sent : Frame} {windowEnd : Nat}
    (hx : s.sensor.exchange = some (.poll n accessory sent windowEnd)) (hk : (s.sensor.nodes.get n).kind = .probe)
    (tag : Byte) (raw : Half) (quality : Byte) : exec (.replyReading sent.dest tag raw quality) s =
      .next (takeReading n raw quality (goodNode n (s.modSensor fun x => x.endPoll accessory))) := by
  show execReplyReading _ _ _ _ s = _
  rw [execReplyReading, takeSensorFrame, hx]
  simp only [takeReply, hk, judgeReply_reading, handOn_reading]

/-! ### Which readings are valid (R24) -/

theorem readingValid_true {raw : Half} {quality : Byte} (hq : quality.getLsbD 0 = true) (h1 : -600 ≤ raw.toInt)
    (h2 : raw.toInt ≤ 600) : readingValid raw quality = true := by
  rw [readingValid, hq, decide_eq_true ⟨h1, h2⟩]
  rfl

theorem readingValid_false {raw : Half} {quality : Byte}
    (h : quality.getLsbD 0 = false ∨ raw.toInt < -600 ∨ 600 < raw.toInt) : readingValid raw quality = false := by
  rw [readingValid, Bool.and_eq_false_iff, decide_eq_false_iff_not]
  exact h.imp id (by omega)

/-! ### The report policies (R36 to R39) -/

/-- A node's runtime replaced. -/
def writeRt (n : Fin 32) (x : NodeRt) (u : State) : State := u.modNodeRt n fun _ => x

theorem modNodeRt_eq_writeRt (n : Fin 32) (f : NodeRt → NodeRt) (u : State) :
    u.modNodeRt n f = writeRt n (f (u.sensor.rts.get n)) u := rfl

theorem writeRt_get (n : Fin 32) (x : NodeRt) (u : State) : (writeRt n x u).sensor.rts.get n = x := get_upd_self _ n _

/-- Of two runtimes written one after the other the second stands. -/
theorem writeRt_writeRt (n : Fin 32) (x y : NodeRt) (u : State) : writeRt n y (writeRt n x u) = writeRt n y u := by
  simp [writeRt, State.modNodeRt, upd]

/-- R36: a report is handed to the trunk port, and its value is the last reported one when the frame is admitted. -/
theorem report_writeRt (n : Fin 32) (value : Int) (x : NodeRt) (g : State) :
    let out := hand (reportFrame (g.sensor.nodes.get n) value g.clock (g.zones.rts.get (g.sensor.nodes.get n).zone).state)
      (writeRt n x g)
    report n value (writeRt n x g) =
      if out.2 then writeRt n { x with lastReported := some value } out.1 else out.1 := by
  intro out
  have hx : out.1.sensor.rts.get n = x := by
    rw [(hand_sent _ _).sensor]
    exact writeRt_get n x g
  show (if out.2 then out.1.modNodeRt n _ else out.1) = _
  rw [modNodeRt_eq_writeRt, hx]

/-- R37, R38: what each policy makes of a value of a node whose runtime is `x`. -/
theorem applyPolicy_writeRt (n : Fin 32) (value : Int) (x : NodeRt) (g : State) :
    applyPolicy n value (writeRt n x g) = match (g.sensor.nodes.get n).policy with
      | .pass => report n value (writeRt n x g)
      | .silent => writeRt n x g
      | .everyN k => if x.everyN + 1 = k then report n value (writeRt n { x with everyN := 0 } g)
          else writeRt n { x with everyN := x.everyN + 1 } g
      | .change delta => if changed delta value x.lastReported then report n value (writeRt n x g) else writeRt n x g := by
  unfold applyPolicy
  rw [show (writeRt n x g).sensor.nodes = g.sensor.nodes from rfl]
  cases (g.sensor.nodes.get n).policy <;> simp only [modNodeRt_eq_writeRt, writeRt_get, writeRt_writeRt]

theorem changed_far {delta : Nat} {value : Int} {reported : Option Int}
    (h : ∀ last, reported = some last → delta ≤ (value - last).natAbs) : changed delta value reported = true := by
  cases reported with
  | none => rfl
  | some last => exact decide_eq_true (h last rfl)

theorem changed_near {delta : Nat} {value last : Int} (h : (value - last).natAbs < delta) :
    changed delta value (some last) = false := decide_eq_false (Nat.not_le.2 h)

/-- R24, R25: a valid reading is calibrated, stored with the clock, and passed to the policy. -/
theorem takeReading_valid {n : Fin 32} {raw : Half} {quality : Byte} {g : State} (h : readingValid raw quality = true) :
    takeReading n raw quality g =
      let value := max (-600) (min 600 (raw.toInt + (g.sensor.nodes.get n).offset))
      applyPolicy n value (writeRt n { g.sensor.rts.get n with last := some { value := value, clock := g.trip.clock } } g) := by
  rw [takeReading, if_pos h]
  rfl

/-- R39, R197: the bytes of a REPORT, its zone state by its number. -/
theorem reportFrame_eq (e : NodeEntry) (value : Int) (clock : Clock) (z : ZoneState) : reportFrame e value clock z =
    { cls := .report, dest := 0, aliasAddr := none, kind := 0x21, tag := 0xC0, origin := .plain,
      payload := [e.address, BitVec.ofNat 8 (e.zone.val + 1)] ++ b2 (BitVec.ofInt 16 value) ++ b4 clock
        ++ [match z with | .unset => (0 : Byte) | .live => 1 | .stale => 2] } := by
  cases z <;> rfl

/-- R36: an event that ends in a report hands its frame, and writes the last reported value when it is admitted. -/
theorem report_hands {c : Instr} {s g : State} {n : Fin 32} {value : Int} {x : NodeRt} {frame : OutFrame}
    (hf : reportFrame (g.sensor.nodes.get n) value g.clock (g.zones.rts.get (g.sensor.nodes.get n).zone).state = frame)
    (h : exec c s = .next (report n value (writeRt n x g))) :
    let out := hand frame (writeRt n x g)
    Sent (writeRt n x g) out.1 ∧ (out.2 = false → exec c s = .next out.1) ∧
      (out.2 = true → exec c s = .next (writeRt n { x with lastReported := some value } out.1)) := by
  intro out
  rw [report_writeRt, hf] at h
  exact ⟨hand_sent _ _, fun ho => h.trans (congrArg _ (if_neg (Bool.eq_false_iff.1 ho))),
    fun ho => h.trans (congrArg _ (if_pos ho))⟩

/-- Settles O45: a reading does what a good reply does (R15, R18), and a valid one is then stored (R24, R25) and
passed to the node's policy (R36 to R39). -/
theorem validReadingsAreStoredAndReported : Obligations.ValidReadingsAreStoredAndReported := by
  intro s src tag raw quality n acc sent windowEnd hx hsrc hk e rt c
  subst hsrc
  obtain ⟨taken, quietly, told⟩ := goodNode_spec s n acc
  have answer : exec c s = _ := replyReading_good hx hk tag raw quality
  have idle := replyIdle_good hx tag
  generalize goodNode n (s.modSensor fun x => x.endPoll acc) = g at *
  have recorded : Recorded { s with sensor := g.sensor } g := by
    by_cases hl : rt.state = .lost
    · exact (told hl).recorded
    · exact (quietly hl) ▸ Recorded.refl _
  have entry : rt.state = .lost → Appends s g { kind := .nodeBack, zone := some e.zone, v1 := e.address.setWidth 32 } :=
    fun hl => by
      have h := (told hl).entry
      rwa [if_pos hk] at h
  refine ⟨g, idle, taken.node, by rw [taken.sensor], taken.others, taken.ended, quietly,
    fun hl => ⟨recorded, entry hl, (told hl).flag⟩, fun hi => ?_, fun hq h1 h2 => ?_⟩
  · rw [answer, takeReading, readingValid_false hi]
    rfl
  intro value stored write quiet frame reports
  have nodes : g.sensor.nodes.get n = e := by rw [taken.sensor]
  have hand_frame : reportFrame (g.sensor.nodes.get n) value g.clock (g.zones.rts.get (g.sensor.nodes.get n).zone).state =
      frame := by
    rw [nodes, recorded.zones, State.clock, recorded.trip]
    exact reportFrame_eq e value _ _
  have policy : exec c s = .next (applyPolicy n value (writeRt n stored g)) := by
    rw [answer, takeReading_valid (readingValid_true hq h1 h2), nodes, taken.node, recorded.trip]
  rw [applyPolicy_writeRt, nodes] at policy
  refine ⟨fun hp => ?_, fun hp => ?_, fun k hp hn => ?_, fun k hp hn => ?_, fun k last hp hl hd => ?_, fun k hp hl => ?_⟩ <;>
    rw [hp] at policy
  · exact policy
  · exact report_hands hand_frame policy
  · exact policy.trans (congrArg _ (if_neg hn))
  · exact report_hands hand_frame (policy.trans (congrArg _ (if_pos hn)))
  · have near : changed k value stored.lastReported = false := (congrArg _ hl).trans (changed_near hd)
    exact policy.trans (congrArg _ (if_neg (Bool.eq_false_iff.1 near)))
  · exact report_hands hand_frame (policy.trans (congrArg _ (if_pos (changed_far hl))))

end Sys2Proof.Machine
end

section
/-! PROOFS. Zone air, steps, and the readings that count (O51; spec 02 R28 to R34). -/

namespace Sys2Proof.Machine

/-! ### What computing a zone does (R30, R31, R33) -/

section
variable {z : Fin 12} {s : State}

/-- R31: a Live zone with no fresh readings goes Stale, which is raised. -/
theorem computeZone_live_stale (hf : freshValues s z = []) (hl : (s.zones.rts.get z).state = .live) :
    computeZone z s = raise .zoneStale (.zone z) (s.modZoneRt z fun r => { r with state := .stale }) := by
  simp only [computeZone, hf, if_pos hl]

/-- R31: any other zone with no fresh readings stays as it is. -/
theorem computeZone_unread (hf : freshValues s z = []) (hl : (s.zones.rts.get z).state ≠ .live) : computeZone z s = s := by
  simp only [computeZone, hf, if_neg hl]

/-- R30: a zone with fresh readings takes their mean as its air value. -/
def takeMean (z : Fin 12) (air : Int) (s : State) : State := s.modZoneRt z fun r => { r with state := .live, air := some air }

/-- R30, R33: a mean that is no step brings nothing more. -/
theorem computeZone_noStep {v : Int} {vs : List Int} (hf : freshValues s z = v :: vs)
    (hs : isStep (s.zones.entries.get z).step (s.zones.rts.get z).air (roundedMean (v :: vs)) = false) :
    computeZone z s = takeMean z (roundedMean (v :: vs)) s := by
  simp only [computeZone, hf, hs]
  rfl

/-- R33: a mean that is a step from the air value held brings what a step does. -/
theorem computeZone_step {v held : Int} {vs : List Int} (hf : freshValues s z = v :: vs)
    (ha : (s.zones.rts.get z).air = some held)
    (hs : isStep (s.zones.entries.get z).step (some held) (roundedMean (v :: vs)) = true) :
    computeZone z s = takeStep z held (roundedMean (v :: vs)) (takeMean z (roundedMean (v :: vs)) s) := by
  simp only [computeZone, hf, ha, hs]
  rfl

/-- R33: a mean is no step for a zone with no air value, or one nearer to it than the threshold. -/
theorem isStep_false {threshold : Nat} {held : Option Int} {new : Int}
    (h : held = none ∨ ∃ x, held = some x ∧ (new - x).natAbs < threshold) : isStep threshold held new = false := by
  rcases h with rfl | ⟨x, rfl, h⟩
  · rfl
  · exact decide_eq_false (Nat.not_le.2 h)

/-- R33, R34: what a step of a zone's mean leaves. -/
theorem computeZone_step_spec {v held : Int} {vs : List Int} (hf : freshValues s z = v :: vs)
    (ha : (s.zones.rts.get z).air = some held)
    (hs : (s.zones.entries.get z).step ≤ (roundedMean (v :: vs) - held).natAbs) :
    let t := computeZone z s
    (t.zones.rts.get z).stepFlag = true ∧
    t.trunk.flags.get EventKind.step.index = { raised := true, subject := .zone z } ∧
    (zoneServed s.trip.clock s.doors z = true → t.journal = s.journal) ∧
    (zoneServed s.trip.clock s.doors z = false →
      t.trunk.flags.get EventKind.unexplainedStep.index = { raised := true, subject := .zone z } ∧
      Appends s t { kind := .unexplainedStep, zone := some z, v1 := tempWord held, v2 := tempWord (roundedMean (v :: vs)) }) := by
  intro t
  have step : isStep (s.zones.entries.get z).step (some held) (roundedMean (v :: vs)) = true := decide_eq_true hs
  obtain ⟨-, flag, served, unserved⟩ := takeStep_spec z held (roundedMean (v :: vs)) (takeMean z (roundedMean (v :: vs)) s)
  rw [← computeZone_step hf ha step] at flag served unserved
  refine ⟨?_, flag, served, unserved⟩
  obtain ⟨-, -, -, -, mean⟩ := computeZone_spec z s
  rw [mean v vs hf, ha, step]
  exact Bool.or_true _

/-! ### Which readings are fresh (R28, R29) -/

variable {n : Fin 32}

/-- R29: a stored reading of an enabled probe of the zone gives its value when its age is below the staleness limit. -/
theorem freshValue_stored {r : Reading} (he : (s.sensor.nodes.get n).enabled = true) (hk : (s.sensor.nodes.get n).kind = .probe)
    (hz : (s.sensor.nodes.get n).zone = z) (hr : (s.sensor.rts.get n).last = some r) : freshValue s z n =
      if age s.trip.clock r < (s.zones.entries.get z).staleness then some r.value else none := by
  simp only [freshValue, hr, if_pos (And.intro he (And.intro hk hz))]

/-- R28: entries that give the zone no reading. -/
theorem freshValue_none (h : (s.sensor.nodes.get n).enabled = false ∨ (s.sensor.nodes.get n).kind = .scanner ∨
    (s.sensor.nodes.get n).zone ≠ z ∨ (s.sensor.rts.get n).last = none) : freshValue s z n = none := by
  unfold freshValue
  dsimp only
  split
  · next hc =>
    obtain ⟨he, hk, hz⟩ := hc
    rcases h with h | h | h | h
    · rw [he] at h; exact nomatch h
    · rw [hk] at h; exact nomatch h
    · exact absurd hz h
    · rw [h]
  · rfl

/-- R29: a reading with a clock not before the device clock has age 0. -/
theorem age_eq (clock : Clock) (r : Reading) :
    age clock r = if clock.toNat ≤ r.clock.toNat then 0 else clock.toNat - r.clock.toNat := by
  unfold age
  split
  · omega
  · rfl

end

/-- Settles O51, from what computing a zone does with and without fresh readings (R30, R31, R33, R34) and from which
readings are fresh (R28, R29). -/
theorem zonesTakeTheMeanOfFreshReadings : Obligations.ZonesTakeTheMeanOfFreshReadings := by
  refine ⟨fun z s => ?_, fun s z n r he hk hz hr => ?_, fun s z n h => freshValue_none h, fun _ _ => rfl⟩
  · intro rt t
    obtain ⟨recorded, entries, others, unread, mean⟩ := computeZone_spec z s
    refine ⟨fun hf => ⟨fun hl => ?_, fun hl => computeZone_unread hf hl⟩, fun v vs hf => ?_⟩
    · have flag : t.trunk.flags.get EventKind.zoneStale.index = { raised := true, subject := .zone z } := by
        rw [show t = _ from computeZone_live_stale hf hl]
        exact raise_flag _ _ _
      rw [unread hf]
      exact ⟨if_pos hl, rfl, flag⟩
    · obtain ⟨low, high⟩ := roundedMean_bounds v vs
      have live := mean v vs hf
      refine ⟨roundedMean (v :: vs), by rw [live], by rw [live], low, high, recorded, entries, others, fun h => ?_,
        fun held ha hs => ?_⟩
      · refine ⟨?_, ?_⟩
        · rw [show t = _ from computeZone_noStep hf (isStep_false h)]
          rfl
        · rw [live, isStep_false h]
          exact Bool.or_false _
      · intro served
        obtain ⟨stepped, flag, explained, unexplained⟩ := computeZone_step_spec hf ha hs
        have hserved : zoneServed s.trip.clock s.doors z = true ↔ served := zoneServed_iff _ _ _
        exact ⟨stepped, flag, fun h => explained (hserved.2 h),
          fun h => unexplained (Bool.eq_false_iff.2 fun hz => h (hserved.1 hz))⟩
  · intro a
    rw [freshValue_stored he hk hz hr, age_eq]
    split
    · next hl => simp [a, hl]
    · next hl => simp [a, hl]

end Sys2Proof.Machine
end

section
/-! PROOFS. The formulas of the exposure engine: the core estimate, the increment, the shock cycles and the computed grade
(O53, O54; spec 03 R48, R50, R54, R56). -/

namespace Sys2Proof.Machine

/-! ### The increment (R50) -/

/-- R50: a core estimate not above Tw adds no dose. -/
theorem increment_cold {c : ClassEntry} {core : Int} (p : Nat) (h : core ≤ c.tw) : increment c p core = 0 := if_pos h

/-- R50: the increment of a core estimate above Tw, as an integer. -/
theorem increment_warm {c : ClassEntry} {core : Int} (p : Nat) (hc : c.tw < c.ts) (h : c.tw < core) :
    (increment c p core : Int) = p * ((min core c.ts - c.tw) + 4 * max 0 (core - c.ts)) := by
  rw [increment, if_neg (Int.not_le.2 h), Nat.cast_mul, Int.toNat_of_nonneg (by omega)]

/-- R50: the greatest increment: 60 seconds, each of at most 3597 tenths of a degree. -/
theorem increment_le {c : ClassEntry} {p : Nat} {core : Int} (htw : -300 ≤ c.tw) (hts : -299 ≤ c.ts)
    (hcore : core ≤ 600) (hp : p ≤ 60) : increment c p core ≤ 215820 := by
  rcases le_or_gt core c.tw with h | h
  · rw [increment_cold p h]
    exact Nat.zero_le _
  · rw [increment, if_neg (Int.not_le.2 h)]
    calc p * _ ≤ 60 * 3597 := Nat.mul_le_mul hp (by omega)
      _ = 215820 := rfl

/-- Settles O53, from the increment on either side of Tw and its bound (R50). -/
theorem theIncrementCountsAboveTw : Obligations.TheIncrementCountsAboveTw := by
  intro c p core hc
  refine ⟨increment_cold p, fun h => ?_, increment_le⟩
  have excess : 4 * max 0 (core - c.ts) = if c.ts < core then 4 * (core - c.ts) else 0 := by split <;> omega
  rw [increment_warm p hc h, excess]

/-! ### The core estimate (R48) -/

theorem nextCore_empty (core air : Int) : nextCore 0 core air = air := if_pos rfl

/-- R48: the terms of the five fractions, one by one. -/
theorem lagChange_eq (mask : BitVec 5) (d : Int) : lagChange mask d =
    (if mask.getLsbD 0 then Int.tdiv d 2 else 0) + (if mask.getLsbD 1 then Int.tdiv d 4 else 0)
    + (if mask.getLsbD 2 then Int.tdiv d 8 else 0) + (if mask.getLsbD 3 then Int.tdiv d 16 else 0)
    + (if mask.getLsbD 4 then Int.tdiv d 32 else 0) := by
  simp only [lagChange, List.map_cons, List.map_nil, List.sum_cons, List.sum_nil, Int.add_zero, Int.add_assoc]
  rfl

/-! ### Soft and the shock cycles (R54) -/

section
variable {l : LotEntry} {c : ClassEntry}

/-- R54: a core estimate above Ts makes the lot Soft. -/
theorem soften_aboveTs (h : c.ts < l.core) : l.soften c = { l with soft := true } := if_pos h

/-- R54: between Tw and Ts nothing changes. -/
theorem soften_between (hw : c.tw < l.core) (hs : l.core ≤ c.ts) : l.soften c = l := by
  rw [LotEntry.soften, if_neg (Int.not_lt.2 hs), if_pos hw]

/-- R54: a core estimate not above Tw ends a Soft lot's cycle. -/
theorem soften_notAboveTw (hc : c.tw < c.ts) (h : l.core ≤ c.tw) :
    l.soften c = if l.soft then { l with soft := false, cycles := min 255 (l.cycles + 1) } else l := by
  rw [LotEntry.soften, if_neg (by omega), if_neg (by omega)]
  rfl

end

/-! ### The computed grade (R56) -/

section
variable {c : ClassEntry} {l : LotEntry}

theorem computedGrade_hold (h : 60 * c.hold ≤ l.total.toNat ∨ (c.shock ≠ 0 ∧ c.shock ≤ l.cycles)) : computedGrade c l = .hold :=
  if_pos h

theorem computedGrade_watch (h : ¬(60 * c.hold ≤ l.total.toNat ∨ (c.shock ≠ 0 ∧ c.shock ≤ l.cycles)))
    (hw : 60 * c.watch ≤ l.total.toNat) : computedGrade c l = .watch := by rw [computedGrade, if_neg h, if_pos hw]

theorem computedGrade_good (h : ¬(60 * c.hold ≤ l.total.toNat ∨ (c.shock ≠ 0 ∧ c.shock ≤ l.cycles)))
    (hw : l.total.toNat < 60 * c.watch) : computedGrade c l = .good := by
  rw [computedGrade, if_neg h, if_neg (Nat.not_le.2 hw)]

end

/-- Settles O54, from the terms of the core estimate (R48), the three bands of Soft (R54) and the three grades (R56). -/
theorem coreCyclesAndGradeFollowTheirFormulas : Obligations.CoreCyclesAndGradeFollowTheirFormulas := by
  refine ⟨fun mask core air => ⟨?_, fun h => ?_⟩, fun l c hc => ⟨soften_aboveTs, soften_between, fun h hs => ?_, fun h hs => ?_⟩,
    fun c l => ?_⟩
  · rintro rfl
    exact nextCore_empty core air
  · rw [nextCore, if_neg h, lagChange_eq]
    simp only [Int.add_assoc]
  · rw [soften_notAboveTw hc h, if_pos hs]
  · rw [soften_notAboveTw hc h, hs, if_neg Bool.false_ne_true]
  · intro total
    have ht : l.total.toNat = total := total_toNat l
    rw [← ht]
    exact ⟨rfl, computedGrade_hold, computedGrade_watch, computedGrade_good⟩

end Sys2Proof.Machine
end

section
/-! PROOFS. Writes of the class table and of the engine settings (O10, O14; spec 03 R42 to R44; spec 11 R188). -/

namespace Sys2Proof.Machine

/-- R109: a trip is open in every state but NoTrip. -/
theorem tripIsOpen_iff (s : State) : tripIsOpen s = true ↔ s.trip.record.state ≠ .noTrip := decide_eq_true_iff

/-! ### Class writes (R42) -/

section
open Machine.ClassFields (clamped adjusted)

/-- R42: the limits of each field of a class. -/
theorem clamped_eq (f : ClassFields) : clamped f =
    { tw := max (-300) (min 0 f.tw.toInt), ts := max (-299) (min 100 f.ts.toInt), lag := f.lag.setWidth 5,
      watch := min 999999 f.watch.toNat, hold := min 999999 f.hold.toNat, shock := min 15 f.shock.toNat } := by
  simp only [clamped, clamp, clampInt, Nat.zero_max]

/-- R42 rows 5 and 6: a taken write answers Done when every field was in its range. -/
theorem doneOr_adjusted (f : ClassFields) : doneOr (adjusted f) =
    if (clamped f).tw = f.tw.toInt ∧ (clamped f).ts = f.ts.toInt ∧ (clamped f).watch = f.watch.toNat ∧
      (clamped f).hold = f.hold.toNat ∧ (clamped f).shock = f.shock.toNat then .done else .adjusted := by
  simp only [doneOr, adjusted, decide_eq_true_eq, ne_eq, ← not_and_or, ite_not]

variable {index : Byte} {f : ClassFields} {s : State}

/-- R42 row 1. -/
theorem classWrite_noEntry (h : 8 ≤ index.toNat) : classWrite index f s = (s, .noEntry) := dif_neg (Nat.not_lt.2 h)

/-- R42 row 2. -/
theorem classWrite_locked (h : index.toNat < 8) (ht : s.trip.record.state ≠ .noTrip) : classWrite index f s = (s, .locked) := by
  rw [classWrite, dif_pos h]
  exact if_pos ((tripIsOpen_iff s).2 ht)

/-- R42 rows 3 to 6: a write of a class of the table with no trip open. -/
theorem classWrite_unlocked (h : index.toNat < 8) (ht : s.trip.record.state = .noTrip) : classWrite index f s =
    if 32 ≤ f.lag.toNat then (s, .badValue)
    else if (clamped f).ts ≤ (clamped f).tw ∨ (clamped f).hold < (clamped f).watch then (s, .badValue)
    else ({ s with engine := { s.engine with classes := s.engine.classes.set index.toNat (clamped f) h } },
      doneOr (adjusted f)) := by
  rw [classWrite, dif_pos h]
  exact if_neg fun hopen => (tripIsOpen_iff s).1 hopen ht

/-- R42 rows 3 and 4. -/
theorem classWrite_badValue (h : index.toNat < 8) (ht : s.trip.record.state = .noTrip)
    (hb : 32 ≤ f.lag.toNat ∨ (clamped f).ts ≤ (clamped f).tw ∨ (clamped f).hold < (clamped f).watch) :
    classWrite index f s = (s, .badValue) := by
  rw [classWrite_unlocked h ht]
  split
  · rfl
  · next hl => exact if_pos (hb.resolve_left hl)

/-- R42 rows 5 and 6. -/
theorem classWrite_taken (h : index.toNat < 8) (ht : s.trip.record.state = .noTrip) (hl : f.lag.toNat < 32)
    (hts : (clamped f).tw < (clamped f).ts) (hh : (clamped f).watch ≤ (clamped f).hold) : classWrite index f s =
      ({ s with engine := { s.engine with classes := s.engine.classes.set index.toNat (clamped f) h } }, doneOr (adjusted f)) := by
  rw [classWrite_unlocked h ht, if_neg (Nat.not_le.2 hl), if_neg (by omega)]

end

/-- Settles O14, row by row (R42). -/
theorem classWritesFollowTheirRows : Obligations.ClassWritesFollowTheirRows := by
  intro h index f s ht tw ts watch hold shock
  have limits := clamped_eq f
  refine ⟨fun hi => replies_of rfl ht (classWrite_noEntry hi), fun hi hn => replies_of rfl ht (classWrite_locked hi hn),
    fun hi hn hb => replies_of rfl ht (classWrite_badValue hi hn (by rw [limits]; exact hb)),
    fun k hk hn hl hts hh => replies_of rfl ht ?_⟩
  have hi : index.toNat < 8 := hk ▸ k.isLt
  rw [classWrite_taken hi hn hl (by rw [limits]; exact hts) (by rw [limits]; exact hh), doneOr_adjusted, limits]
  simp only [hk]
  rfl

/-! ### Engine settings (R43, R44) -/

/-- R43: the period that a write leaves is a multiple of 5 from 5 to 60. -/
theorem nearestPeriod_legal (n : Nat) : 5 ∣ nearestPeriod n ∧ 5 ≤ nearestPeriod n ∧ nearestPeriod n ≤ 60 := by
  unfold nearestPeriod clamp
  omega

/-- R43: no legal period is nearer to the one given. -/
theorem nearestPeriod_nearest (n : Nat) {q : Nat} (hd : 5 ∣ q) (hl : 5 ≤ q) (hu : q ≤ 60) :
    ((nearestPeriod n : Int) - n).natAbs ≤ ((q : Int) - n).natAbs := by
  unfold nearestPeriod clamp
  omega

section
variable {index : Byte} {f : EngineFields} {s : State}

/-- Log 47: an index that does not exist is NoEntry, whatever the trip. -/
theorem engineWrite_noEntry (h : index ≠ 0) : engineWrite index f s = (s, .noEntry) := if_pos h

/-- R43: the engine settings are locked while a trip is open. -/
theorem engineWrite_locked (ht : s.trip.record.state ≠ .noTrip) : engineWrite 0 f s = (s, .locked) := by
  rw [engineWrite, if_neg (not_not.2 rfl), if_pos ((tripIsOpen_iff s).2 ht)]

/-- R43, R44: a taken write brings both fields into range and starts the update timer again. -/
theorem engineWrite_taken (ht : s.trip.record.state = .noTrip) : engineWrite 0 f s =
    ({ s with engine := { s.engine with
        period := nearestPeriod f.period.toNat, interval := clamp 1 255 f.interval.toNat, timerStart := s.ref } },
     if nearestPeriod f.period.toNat = f.period.toNat ∧ clamp 1 255 f.interval.toNat = f.interval.toNat then .done
     else .adjusted) := by
  rw [engineWrite, if_neg (not_not.2 rfl), if_neg fun hopen => (tripIsOpen_iff s).1 hopen ht]
  simp only [doneOr, decide_eq_true_eq, ne_eq, ← not_and_or, ite_not]

end

/-- Settles O10, with the nearest period of the model as P (R43) and the three answers of the write. -/
theorem engineSettingsAreLockedOrWritten : Obligations.EngineSettingsAreLockedOrWritten := by
  intro h f s ht
  exact ⟨fun index hi => replies_of rfl ht (engineWrite_noEntry hi), fun hn => replies_of rfl ht (engineWrite_locked hn),
    fun hn => ⟨nearestPeriod f.period.toNat, clamp 1 255 f.interval.toNat, nearestPeriod_legal _,
      fun _ => nearestPeriod_nearest _, rfl, replies_of rfl ht (engineWrite_taken hn)⟩⟩

end Sys2Proof.Machine
end

section
/-! PROOFS. The update event (O52; spec 03 R44 to R58). -/

namespace Sys2Proof.Machine

/-! ### When an update event comes (R44) -/

section
variable {s : State}

theorem updateDue_iff : updateDue s = true ↔ s.engine.timerStart + s.engine.period * 1000 ≤ s.ref := decide_eq_true_iff

/-- Log 3: an update event that is not due leaves the part as it is. -/
theorem updateEvent_early (h : s.ref < s.engine.timerStart + s.engine.period * 1000) : exec .updateEvent s = .next s := by
  show execUpdateEvent s = _
  rw [execUpdateEvent, if_neg fun due => absurd (updateDue_iff.1 due) (Nat.not_le.2 h)]

/-- R44: the exposure engine after an update event: the clock of the update noted, the timer at the end of its period. -/
def Engine.ticked (e : Engine) (clock : Clock) : Engine :=
  { e with lastUpdate := clock, timerStart := e.timerStart + e.period * 1000 }

/-- R44, R45: a due update event updates the lots and sets its timer on. -/
theorem updateEvent_due (h : s.engine.timerStart + s.engine.period * 1000 ≤ s.ref) : exec .updateEvent s =
    .next { updateLots s with engine := (updateLots s).engine.ticked (updateLots s).trip.clock } := by
  show execUpdateEvent s = _
  rw [execUpdateEvent, if_pos (updateDue_iff.2 h)]
  rfl

end

/-! ### What updating the lots leaves beside them (R45) -/

/-- A write of one lot, and appends after it, change beside the lots what appends may change. -/
theorem Recorded.besides {s t : State} {i : Fin 96} {f : LotEntry → LotEntry} (h : Recorded (s.modLot i f) t) :
    Recorded { s with lots := t.lots } t :=
  ⟨h.pending, h.ref, h.straps, h.sensor, h.zones, h.engine, fun _ => rfl, h.doors, h.beacons, h.trip, h.scans, h.proofs,
    h.window, h.trunk⟩

/-- R45: the updates change beside the lots what appends may change. -/
theorem updateLots_rest (s : State) : Recorded { s with lots := (updateLots s).lots } (updateLots s) := by
  refine foldl_rest (g := updateStep) (fun t i => ?_) _ s
  unfold updateStep
  split
  · exact (updateLot_spec i t).1.besides
  · exact Recorded.refl t

/-! ### What an update leaves of a lot (R46 to R57) -/

theorem inCustody_iff (l : LotEntry) : l.inCustody = true ↔ l.state = .onBoard ∨ l.state = .handover := by
  unfold LotEntry.inCustody
  cases l.state <;> simp

section
variable {s : State} {l : LotEntry}

/-- R46: a lot in an Unset zone becomes Blind, and is counted. -/
theorem updated_unset (hz : (s.zones.rts.get l.zone).state = .unset) :
    l.updated s = { l with blind := true, updates := l.updates + 1 } := by
  simp only [LotEntry.updated, LotEntry.staged, hz]

/-- R47 to R57: a lot in any other zone goes through the stages, Blind in a Stale one, and is counted. -/
theorem updated_stages (hz : (s.zones.rts.get l.zone).state ≠ .unset) : l.updated s =
    { l.stages (decide ((s.zones.rts.get l.zone).state = .stale)) (s.engine.classes.get l.cls) s.engine.period
        ((s.zones.rts.get l.zone).air.getD 0) (zoneServed s.clock s.doors l.zone) s.clock with updates := l.updates + 1 } := by
  cases h : (s.zones.rts.get l.zone).state with
  | unset => exact absurd h hz
  | live => simp only [LotEntry.updated, LotEntry.staged, h]
  | stale => simp only [LotEntry.updated, LotEntry.staged, h]

/-- R46 to R58: an update writes only the exposure of a lot entry and its counter. -/
theorem updated_frame {x : LotEntry} (h : Gapped (l.updated s) x) : x = { l with
    core := x.core, handling := x.handling, equipment := x.equipment, grade := x.grade, soft := x.soft, cycles := x.cycles,
    peak := x.peak, peakClock := x.peakClock, blind := x.blind, updates := l.updates + 1, gaps := x.gaps } := by
  unfold Gapped at h
  by_cases hz : (s.zones.rts.get l.zone).state = .unset
  · rw [h, updated_unset hz]
  · rw [updated_stages hz] at h
    exact (stages_fields l x _ _ _ _ _ _ _ _ h).1

theorem updated_key {x : LotEntry} (h : Gapped (l.updated s) x) : x.lot = l.lot ∧ x.zone = l.zone := by
  rw [updated_frame h]
  exact ⟨rfl, rfl⟩

end

/-! ### The entries that an update appends (R57, R58) -/

/-- R57, R58: the entries of an update, from a lot entry whose lot id and zone it keeps. -/
theorem updateDrafts_eq (n : Nat) {a b : LotEntry} (hl : b.lot = a.lot) (hz : b.zone = a.zone) :
    let total := min 4294967295 (b.inherited.toNat + b.handling.toNat + b.equipment.toNat)
    updateDrafts n a b =
      (if a.grade.number < b.grade.number then
        [{ kind := .gradeRaise, lot := some a.lot, zone := some a.zone, v1 := BitVec.ofNat 32 b.grade.number,
           v2 := BitVec.ofNat 32 (total / 60) }] else []) ++
      (if b.updates.toNat % n = 0 then
        [{ kind := .summary, lot := some a.lot, zone := some a.zone, v1 := BitVec.ofNat 16 b.grade.number ++ BitVec.ofInt 16 b.core,
           v2 := BitVec.ofNat 32 (total / 60) }] else []) := by
  intro total
  have ht : natWord (shown b.total) = BitVec.ofNat 32 (total / 60) := by rw [natWord, shown, total_toNat]
  rw [updateDrafts, gradeDrafts, summaryDrafts, hl, hz, ht]
  rfl

/-! ### The flags of the grades (R57) -/

/-- R57: each grade that a lot can be raised to has an event of its own. -/
theorem gradeEvent_inj : ∀ {a b : Grade}, 0 < a.number → 0 < b.number → gradeEvent a = gradeEvent b → a = b
  | .good, _, ha, _, _ => absurd ha (Nat.lt_irrefl 0)
  | _, .good, _, hb, _ => absurd hb (Nat.lt_irrefl 0)
  | .watch, .watch, _, _, _ => rfl
  | .hold, .hold, _, _, _ => rfl
  | .watch, .hold, _, _, h => nomatch h
  | .hold, .watch, _, _, h => nomatch h

/-- R57: the lot is in custody, and an update raises it to the grade. -/
def RaisedTo (s : State) (g : Grade) (i : Fin 96) : Prop :=
  (s.lots.get i).inCustody = true ∧ (s.lots.get i).grade.number < g.number ∧ ((s.lots.get i).updated s).grade = g

/-- R57: the lots in custody whose grade is raised to one after the updates are those that an update raises to it. -/
theorem raisedTo_iff (s : State) (g : Grade) (i : Fin 96) :
    (((s.lots.get i).state = .onBoard ∨ (s.lots.get i).state = .handover) ∧ (s.lots.get i).grade.number < g.number ∧
      ((updateLots s).lots.get i).grade = g) ↔ RaisedTo s g i := by
  rw [← inCustody_iff]
  refine and_congr_right fun hc => ?_
  obtain ⟨held, -, -⟩ := updateLots_lots s
  have grade : ((updateLots s).lots.get i).grade = ((s.lots.get i).updated s).grade := by rw [held i hc]
  rw [grade]

/-- R57: of the lots raised to a grade the last one is the subject of the grade's flag. -/
theorem updateLots_lastRaised {s : State} {g : Grade} {i : Fin 96} (hi : RaisedTo s g i) (hl : ∀ j, i < j → ¬RaisedTo s g j) :
    (updateLots s).trunk.flags.get (gradeEvent g).index = { raised := true, subject := .lot (s.lots.get i).lot } := by
  obtain ⟨hc, hr, rfl⟩ := hi
  refine updateLots_flag s i hc hr fun j hj hcj hrj he => ?_
  have hg := gradeEvent_inj (Nat.zero_lt_of_lt hrj) (Nat.zero_lt_of_lt hr) he
  exact hl j hj ⟨hcj, hg ▸ hrj, hg⟩

/-- Settles O52, from what the updates of an update event leave of each lot, of the flags and of the journal. -/
theorem updateEventsUpdateLotsInCustody : Obligations.UpdateEventsUpdateLotsInCustody := by
  intro s
  refine ⟨updateEvent_early, fun h => ⟨_, updateEvent_due h, ?_⟩⟩
  have rest := updateLots_rest s
  obtain ⟨held, others, tells⟩ := updateLots_lots s
  have lastRaised (g : Grade) (i : Fin 96) := updateLots_lastRaised (s := s) (g := g) (i := i)
  have raisedTo := raisedTo_iff s
  generalize updateLots s = u at rest held others tells lastRaised raisedTo ⊢
  refine ⟨?_, rest.sensor, rest.zones, rest.doors, rest.trip, rest.scans, rest.proofs, fun i ho hh => ?_, fun i hi => ?_, ?_, ?_⟩
  · show u.engine.ticked u.trip.clock = _
    rw [rest.engine, rest.trip]
    rfl
  · exact others i (Bool.eq_false_iff.2 fun hc => ((inCustody_iff _).1 hc).elim ho hh)
  · intro l x c z served dose
    have hx : Gapped (l.updated s) x := held i ((inCustody_iff _).2 hi)
    refine ⟨updated_frame hx, fun hz => ?_, fun air hz ha => ?_⟩
    · rw [updated_unset hz] at hx
      exact hx
    · have hserved : zoneServed s.clock s.doors l.zone = true ↔ served := zoneServed_iff _ _ _
      rw [← hserved]
      have ha : (s.zones.rts.get l.zone).air.getD 0 = air := by rw [show _ = some air from ha]; rfl
      rw [updated_stages hz, ha] at hx
      exact (stages_fields l x _ _ _ _ _ _ _ _ hx).2
  · intro custody raised flag
    have last (g : Grade) (i : Fin 96) (hi : raised i g) (hl : ∀ j, i < j → ¬raised j g) : flag (gradeEvent g) i :=
      lastRaised g i ((raisedTo g i).1 hi) fun j hj hr => hl j hj ((raisedTo g j).2 hr)
    exact ⟨last .watch, last .hold⟩
  · refine Tells.congr (t := u) ((congrArg (Tells s u) (List.flatMap_congr fun i _ => ?_)).mp tells) rfl ⟨rfl, rfl⟩ rfl
    by_cases hc : (s.lots.get i).inCustody = true
    · obtain ⟨lot, zone⟩ := updated_key (held i hc)
      rw [if_pos hc, if_pos ((inCustody_iff _).1 hc)]
      exact updateDrafts_eq _ lot zone
    · rw [if_neg hc, if_neg fun h => hc ((inCustody_iff _).2 h)]

end Sys2Proof.Machine
end

section
/-! PROOFS. Moving a lot (O25; spec 04 R76, R77). -/

namespace Sys2Proof.Machine

section
variable {lot : Word} {z : Fin 12} {i : Fin 96} {s : State}

/-- R76: a zone number outside 1 to 12 is BadValue. -/
theorem moveLot_noZone {zone : Byte} (h : zone = 0 ∨ 12 < zone.toNat) : moveLot lot zone s = (s, .badValue) := by
  rw [moveLot, zoneOf_none.2 h]

/-- R76: a lot id that no entry holds. -/
theorem moveLot_noEntry (h : findLot s.lots lot = none) :
    moveLot lot (BitVec.ofNat 8 (z.val + 1)) s = (s, .noEntry) := by
  rw [moveLot, zoneOf_number, h]

/-- R76: the rows of a lot that is found, by its custody, the zone named and the zone it stands in. -/
theorem moveLot_found (h : findLot s.lots lot = some i) : moveLot lot (BitVec.ofNat 8 (z.val + 1)) s =
    if ¬(s.lots.get i).inCustody = true then (s, .badState)
    else if (s.zones.entries.get z).enabled = false then (s, .badValue)
    else if (s.lots.get i).zone = z then (s, .done)
    else (moveTo i z s, .done) := by
  rw [moveLot, zoneOf_number, h]
  simp only [Bool.not_eq_true', Bool.not_eq_true, eq_comm (a := z)]

variable (h : findLot s.lots lot = some i)
include h

/-- R76, R66: only a lot in custody is moved. -/
theorem moveLot_badState (ho : (s.lots.get i).state ≠ .onBoard) (hh : (s.lots.get i).state ≠ .handover) :
    moveLot lot (BitVec.ofNat 8 (z.val + 1)) s = (s, .badState) :=
  (moveLot_found h).trans (if_pos fun hc => ((inCustody_iff _).1 hc).elim ho hh)

variable (hc : (s.lots.get i).state = .onBoard ∨ (s.lots.get i).state = .handover)
include hc

/-- R76: no lot is moved into a disabled zone. -/
theorem moveLot_disabled (he : (s.zones.entries.get z).enabled = false) :
    moveLot lot (BitVec.ofNat 8 (z.val + 1)) s = (s, .badValue) := by
  rw [moveLot_found h, if_neg (not_not.2 ((inCustody_iff _).2 hc)), if_pos he]

/-- R76: a lot in custody and an enabled zone. -/
theorem moveLot_enabled (he : (s.zones.entries.get z).enabled = true) : moveLot lot (BitVec.ofNat 8 (z.val + 1)) s =
    if (s.lots.get i).zone = z then (s, .done) else (moveTo i z s, .done) := by
  rw [moveLot_found h, if_neg (not_not.2 ((inCustody_iff _).2 hc)), if_neg (Bool.eq_false_iff.not_left.2 he)]

end

/-- Settles O25, row by row (R76); a move is the write of the zone and the append of its entry (R77). -/
theorem moveLotFollowsItsRows : Obligations.MoveLotFollowsItsRows := by
  intro h lot s ht
  refine ⟨fun zone hz => replies_of rfl ht (moveLot_noZone hz), fun z => ?_⟩
  intro c
  refine ⟨fun hn => replies_of rfl ht (moveLot_noEntry hn), fun i hi => ?_⟩
  intro l
  refine ⟨fun ho hh => replies_of rfl ht (moveLot_badState hi ho hh), fun hc =>
    ⟨fun he => replies_of rfl ht (moveLot_disabled hi hc he), fun he hz => replies_of rfl ht ?_,
     fun he hz => repliesRecording_of rfl ht ?_ (append_recorded _ _) (append_appends _ _)⟩⟩
  · exact (moveLot_enabled hi hc he).trans (if_pos hz)
  · exact (moveLot_enabled hi hc he).trans (if_neg hz)

end Sys2Proof.Machine
end

section
/-! PROOFS. Manifest deletes (O16; spec 04 R73; spec 10 R177). -/

namespace Sys2Proof.Machine

section
variable {lot : Word} {i : Fin 96} {s : State}

/-- R177: with no slot for the lot there is none to discard. -/
theorem discardFor_noSlot (h : s.claims.slotFor lot = none) : discardFor lot s = s := by rw [discardFor, h]

/-- R177: the slot for the lot is discarded. -/
theorem discardFor_slot {k : Fin 4} (h : s.claims.slotFor lot = some k) : discardFor lot s = discardSlot k s := by
  rw [discardFor, h]

/-- R73: a lot id that no entry holds. -/
theorem manifestDelete_noEntry (h : findLot s.lots lot = none) : manifestDelete lot s = (s, .noEntry) := by
  rw [manifestDelete, h]

/-- R73: a lot in any occupied state but Expected is not deleted. -/
theorem manifestDelete_inUse (h : findLot s.lots lot = some i) (he : (s.lots.get i).state ≠ .expected) :
    manifestDelete lot s = (s, .inUse) := by
  rw [manifestDelete, h]
  exact if_neg he

/-- R73, R177: an Expected lot loses its claim slot and its entry. -/
theorem manifestDelete_expected (h : findLot s.lots lot = some i) (he : (s.lots.get i).state = .expected) :
    manifestDelete lot s = (freeLot i (discardFor lot s), .done) := by
  rw [manifestDelete, h]
  exact if_pos he

end

/-- R63, R177: an entry freed and the claim slot of a lot discarded change the lots and the claim slots alone. -/
theorem freeLot_discardFor (lot : Word) (i : Fin 96) (s : State) : freeLot i (discardFor lot s) =
    { s with lots := s.lots.set i.val LotEntry.free i.isLt, claims := (discardFor lot s).claims } := by
  rw [discardFor_claims_only lot s]
  rfl

/-- Settles O16, from the three answers of a delete (R73) and what the discard of a slot leaves (R177). -/
theorem manifestDeletesFreeExpectedLots : Obligations.ManifestDeletesFreeExpectedLots := by
  intro h index lot s ht
  refine ⟨fun hn => replies_of rfl ht (manifestDelete_noEntry hn), fun i hi he => replies_of rfl ht (manifestDelete_inUse hi he),
    fun i hi he => ⟨freeLot i (discardFor lot s), freeLot_discardFor lot i s, fun hn => ?_,
      (discardFor_recorded lot s).window, fun k hk => ?_, replies_of rfl ht (manifestDelete_expected hi he)⟩⟩
  · rw [discardFor_noSlot hn]
    rfl
  · rw [discardFor_slot hk]
    exact discardSlot_slots k s

end Sys2Proof.Machine
end

section
/-! PROOFS. What a lot id finds, and manifest adds (O15; spec 04 R62, R68 to R71). -/

namespace Sys2Proof.Machine

/-- R188: a write is answered Adjusted when a field was brought into range or dropped, else Done. -/
theorem doneOr_iff {b : Bool} {adjusted : Prop} [Decidable adjusted] (h : b = true ↔ adjusted) :
    doneOr b = if adjusted then .adjusted else .done := by
  rw [doneOr, ite_cond_congr (eq_iff_iff.2 h)]

/-! ### The fields of an add (R68, R69, R71) -/

section
variable {f : ManifestFields} {s : State}

/-- R68: a planned stop index outside 0 to 24 is none that can be given. -/
theorem plannedOf_none {x : Option Byte} : plannedOf x = none ↔ ∃ k, x = some k ∧ 24 < k.toNat := by
  cases x with
  | none => simp [plannedOf]
  | some b => simp [plannedOf, stopOf_none, Nat.succ_le_iff]

/-- R68: a planned stop index in its range, or none, is given as it is. -/
theorem plannedOf_some {x : Option Byte} {planned : Option (Fin 25)} (h : x.map BitVec.toNat = planned.map Fin.val) :
    plannedOf x = some planned := by
  cases x with
  | none => cases planned with
    | none => rfl
    | some k => exact nomatch h
  | some b => cases planned with
    | none => exact nomatch h
    | some k =>
      have hb : b.toNat = k.val := Option.some.inj h
      simp [plannedOf, stopOf, hb]

/-- A zone number from 1 to 12 names its zone. -/
theorem zoneOf_some {x : Byte} {z : Fin 12} (h : x.toNat = z.val + 1) : zoneOf x = some z := by
  have hx : x = BitVec.ofNat 8 (z.val + 1) := by
    apply BitVec.eq_of_toNat_eq
    rw [h, BitVec.toNat_ofNat]
    omega
  rw [hx, zoneOf_number]

/-- R71: Room mode stores no planned stop while a trip is open. -/
theorem plannedDropped_iff {planned : Option (Fin 25)} (h : f.planned.map BitVec.toNat = planned.map Fin.val) :
    plannedDropped s f = true ↔ planned.isSome ∧ s.trip.record.state ≠ .noTrip ∧ s.trip.record.mode = .room := by
  have hp : f.planned.isSome = planned.isSome := by
    rw [← Option.isSome_map (f := BitVec.toNat), h, Option.isSome_map]
  rw [plannedDropped, Bool.and_eq_true, Bool.and_eq_true, hp, tripIsOpen_iff, decide_eq_true_eq, and_assoc]

/-- R68, R71: an add is adjusted, its inherited dose apart, when its planned stop is dropped or its arrival temperature is
brought into range. -/
theorem manifestAdjusted_iff : manifestAdjusted s f = true ↔
    plannedDropped s f = true ∨ ∃ t, f.arrival = some t ∧ (t.toInt < -600 ∨ 600 < t.toInt) := by
  rw [manifestAdjusted, Bool.or_eq_true]
  cases f.arrival <;> simp

/-- R69: an inherited dose as held, in tenth-degree-seconds. -/
theorem inheritedOf_eq (x : Option Word) : inheritedOf x = BitVec.ofNat 32 (60 * (min 999999 (x.getD 0).toNat)) := by
  cases x <;> rfl

/-- R69: a Free entry occupied by an add, its fields written out. -/
theorem occupied_eq (f : ManifestFields) (cls : Fin 8) (zone : Fin 12) (planned : Option (Fin 25)) :
    occupied f cls zone planned = { LotEntry.free with
      lot := f.lot, state := .expected, cls := cls, zone := zone, planned := planned,
      inherited := BitVec.ofNat 32 (60 * (min 999999 (f.inherited.getD 0).toNat)),
      arrival := f.arrival.map fun t => max (-600) (min 600 t.toInt) } := by
  rw [occupied, inheritedOf_eq]
  rfl

/-! ### The rows of an add (R68 to R70) -/

/-- R68 row 1. -/
theorem manifestAdd_badValue
    (h : f.lot = 0 ∨ 8 ≤ f.cls.toNat ∨ f.zone = 0 ∨ 12 < f.zone.toNat ∨ ∃ k, f.planned = some k ∧ 24 < k.toNat) :
    manifestAdd f s = (s, .badValue) := by
  rw [← plannedOf_none, ← or_assoc (a := f.zone = 0), ← zoneOf_none] at h
  rw [manifestAdd]
  split_ifs with hl hc
  · rfl
  · rcases (h.resolve_left hl).resolve_left (Nat.not_le.2 hc) with hz | hp
    · rw [hz]
    · rw [hp]
      cases zoneOf f.zone <;> rfl
  · rfl

variable {cls : Fin 8} {zone : Fin 12} {given : Option (Fin 25)} {i : Fin 96}

/-- R68: fields that row 1 lets pass come to rows 2 to 6. -/
theorem manifestAdd_placed (hl : f.lot ≠ 0) (hc : f.cls.toNat = cls.val) (hz : f.zone.toNat = zone.val + 1)
    (hp : f.planned.map BitVec.toNat = given.map Fin.val) : manifestAdd f s = manifestPlace f cls zone given s := by
  have hlt : f.cls.toNat < 8 := hc ▸ cls.isLt
  have hcls : (⟨f.cls.toNat, hlt⟩ : Fin 8) = cls := Fin.ext hc
  rw [manifestAdd, if_neg hl, dif_pos hlt, zoneOf_some hz, plannedOf_some hp, hcls]

/-- R68: no manifest changes in Transit. -/
theorem manifestPlace_transit (h : s.trip.record.state = .transit) :
    manifestPlace f cls zone given s = (s, .badState) := if_pos h

variable (ht : s.trip.record.state ≠ .transit)
include ht

/-- R68: a lot id held in a state other than Returned. -/
theorem manifestPlace_duplicate (hi : findLot s.lots f.lot = some i) (hr : (s.lots.get i).state ≠ .returned) :
    manifestPlace f cls zone given s = (s, .duplicate) := by
  simp only [manifestPlace, if_neg ht, hi, if_neg hr]

/-- R70: a lot id held in Returned is manifested again. -/
theorem manifestPlace_returned (hi : findLot s.lots f.lot = some i) (hr : (s.lots.get i).state = .returned) :
    manifestPlace f cls zone given s =
      (s.modLot i fun l => l.remanifest f cls zone (if plannedDropped s f then none else given),
        doneOr (manifestAdjusted s f)) := by
  simp only [manifestPlace, if_neg ht, hi, if_pos hr]

variable (hn : findLot s.lots f.lot = none)
include hn

/-- R68: a table with no Free entry takes no further lot. -/
theorem manifestPlace_tableFull (h : ∀ j, (s.lots.get j).state ≠ .free) :
    manifestPlace f cls zone given s = (s, .tableFull) := by
  have hf : findIndex (fun l => decide (l.state = .free)) s.lots = none :=
    findIndex_none.2 fun j => decide_eq_false (h j)
  simp only [manifestPlace, if_neg ht, hn, hf]

/-- R69: a lot id that no entry holds goes to the lowest-indexed Free entry. -/
theorem manifestPlace_free (h : (s.lots.get i).state = .free) (hb : ∀ j, j < i → (s.lots.get j).state ≠ .free)
    {adjusted : Prop} [Decidable adjusted]
    (ha : (manifestAdjusted s f = true ∨ ∃ d, f.inherited = some d ∧ 999999 < d.toNat) ↔ adjusted) :
    manifestPlace f cls zone given s =
      (s.modLot i fun _ => occupied f cls zone (if plannedDropped s f then none else given),
        if adjusted then .adjusted else .done) := by
  have hf : findIndex (fun l => decide (l.state = .free)) s.lots = some i :=
    findIndex_first (decide_eq_true h) fun j hj => decide_eq_false (hb j hj)
  simp only [manifestPlace, if_neg ht, hn, hf]
  refine Prod.ext rfl (doneOr_iff ?_)
  rw [Bool.or_eq_true, ← ha]
  cases f.inherited <;> simp

end

/-- R62: what a lot id finds. -/
theorem findLot_spec (lots : Vector LotEntry 96) (id : Word) :
    (∀ i, findLot lots id = some i → (lots.get i).state ≠ .free ∧ (lots.get i).lot = id) ∧
    (findLot lots id = none ↔ ∀ i, (lots.get i).state = .free ∨ (lots.get i).lot ≠ id) :=
  ⟨fun _ => findLot_some, findLot_none⟩

/-- Settles O15, from what a lot id finds (R62) and the rows of a manifest add (R68 to R70). -/
theorem manifestAddsFollowTheirRows : Obligations.ManifestAddsFollowTheirRows := by
  refine ⟨findLot_spec, fun h index f s ht => ⟨fun hb => replies_of rfl ht (manifestAdd_badValue hb),
    fun cls zone planned hl hc hz hp => ?_⟩⟩
  have place := manifestAdd_placed (s := s) hl hc hz hp
  refine ⟨fun hx => replies_of rfl ht (place.trans (manifestPlace_transit hx)),
    fun hx i hi hr => replies_of rfl ht (place.trans (manifestPlace_duplicate hx hi hr)),
    fun hx hn hf => replies_of rfl ht (place.trans (manifestPlace_tableFull hx hn hf)), fun hx => ?_⟩
  intro dropped arrival clamped
  have hd : plannedDropped s f = true ↔ dropped := plannedDropped_iff hp
  have adjusted : manifestAdjusted s f = true ↔ dropped ∨ clamped := manifestAdjusted_iff.trans (or_congr_left hd)
  refine ⟨fun i hi hr => replies_of rfl ht ?_, fun hn i hi hb => replies_of rfl ht ?_⟩
  · rw [place, manifestPlace_returned hx hi hr, doneOr_iff adjusted, ite_cond_congr (eq_iff_iff.2 hd)]
    rfl
  · rw [place, manifestPlace_free hx hn hi hb ((or_congr_left adjusted).trans or_assoc), occupied_eq,
      ite_cond_congr (eq_iff_iff.2 hd)]
    rfl

end Sys2Proof.Machine
end

section
/-! PROOFS. The beacon unit: table writes and clears (O17, O27), raisings, trains and outputs (O35; spec 05 R102 to R106;
spec 11 R191 to R193). -/

namespace Sys2Proof.Machine

/-! ### Beacon table writes (R102) -/

theorem beaconOf_none {x : Byte} (h : x = 0 ∨ 2 < x.toNat) : beaconOf x = none := by
  have h1 : x ≠ 1 := by rintro rfl; exact absurd h (by decide)
  have h2 : x ≠ 2 := by rintro rfl; exact absurd h (by decide)
  rw [beaconOf, if_neg h1, if_neg h2]

/-- R102, log 15: an inhibit of a door line or a level that does not exist. -/
theorem inhibitOf_none {line level : Byte} (h : line = 0 ∨ 4 < line.toNat ∨ 1 < level.toNat) :
    inhibitOf (some (line, level)) = none := by
  by_cases hl : line = 0 ∨ 4 < line.toNat
  · rw [inhibitOf, doorOf_none.2 hl]
  · have level_none : boolOf level = none := by
      cases hb : boolOf level with
      | none => rfl
      | some b => exact absurd (boolOf_some_le hb).1 (Nat.not_le.2 ((or_assoc.2 h).resolve_left hl))
    rw [inhibitOf, level_none]
    cases doorOf line <;> rfl

/-- R102: an inhibit that exists, in the terms of the write. -/
theorem inhibitOf_some {x : Option (Byte × Byte)} {inhibit : Option Inhibit}
    (h : x = none ∧ inhibit = none ∨ ∃ d : Fin 4, ∃ l : Bool,
      x = some (BitVec.ofNat 8 (d.val + 1), if l then 1 else 0) ∧ inhibit = some { door := d, high := l }) :
    inhibitOf x = some inhibit := by
  rcases h with ⟨rfl, rfl⟩ | ⟨d, l, rfl, rfl⟩
  · rfl
  · rw [inhibitOf, doorOf_number]
    cases l <;> rfl

/-- R102: the entry of a write, a time or count of 0 brought to 1. -/
def beaconEntryOf (f : BeaconFields) (inhibit : Option Inhibit) : BeaconEntry :=
  { causes := f.causes.setWidth 13, onTime := max 1 f.onTime.toNat, offTime := max 1 f.offTime.toNat,
    count := max 1 f.count.toNat, inhibit := inhibit }

section
variable {index : Byte} {b : Fin 2} {f : BeaconFields} {s : State}

/-- R102: an index that names no beacon. -/
theorem beaconWrite_noEntry (h : index = 0 ∨ 2 < index.toNat) : beaconWrite index f s = (s, .noEntry) := by
  rw [beaconWrite, beaconOf_none h]

/-- R102: a cause set that names a kind that does not exist. -/
theorem beaconWrite_noKind (h : 8192 ≤ f.causes.toNat) :
    beaconWrite (BitVec.ofNat 8 (b.val + 1)) f s = (s, .badValue) := by
  simp only [beaconWrite, beaconOf_number, maskOf_none (n := 13) h]

/-- R102, log 15: an inhibit that does not exist. -/
theorem beaconWrite_noInhibit (h : inhibitOf f.inhibit = none) :
    beaconWrite (BitVec.ofNat 8 (b.val + 1)) f s = (s, .badValue) := by
  simp only [beaconWrite, beaconOf_number, h]
  cases maskOf 13 f.causes <;> rfl

/-- R102: a taken write sets the entry and stops the train. -/
theorem beaconWrite_taken {inhibit : Option Inhibit} (hc : f.causes.toNat < 8192) (hi : inhibitOf f.inhibit = some inhibit) :
    beaconWrite (BitVec.ofNat 8 (b.val + 1)) f s =
      ({ s with beacons := { entries := s.beacons.entries.set b.val (beaconEntryOf f inhibit) b.isLt,
                             trains := s.beacons.trains.set b.val none b.isLt } },
       if f.onTime = 0 ∨ f.offTime = 0 ∨ f.count = 0 then .adjusted else .done) := by
  simp only [beaconWrite, beaconOf_number, maskOf_some (n := 13) hc, hi, doneOr_iff decide_eq_true_iff]
  rfl

end

/-- Settles O17, row by row (R102). -/
theorem beaconWritesStopTheTrain : Obligations.BeaconWritesStopTheTrain := fun _ _ _ ht =>
  ⟨fun _ hi => replies_of rfl ht (beaconWrite_noEntry hi), fun _ hc => replies_of rfl ht (beaconWrite_noKind hc),
   fun _ _ _ hf hb => replies_of rfl ht (beaconWrite_noInhibit (hf ▸ inhibitOf_none hb)),
   fun _ _ hc hi => replies_of rfl ht (beaconWrite_taken hc (inhibitOf_some hi))⟩

/-! ### BEACON_CLEAR and SET_ADDRESS (R105, R193) -/

/-- R105: when a set names neither beacon. -/
theorem namesNoBeacon_iff (set : Byte) : set &&& 3 = 0 ↔ set.getLsbD 0 = false ∧ set.getLsbD 1 = false := by
  revert set
  decide

/-- R105: nothing but the trains is touched. -/
theorem stopTrains_rest (set : Byte) (s : State) :
    stopTrains set s = { s with beacons := { s.beacons with trains := (stopTrains set s).beacons.trains } } := by
  unfold stopTrains
  split <;> split <;> rfl

/-- R105: the trains of the beacons named stop, and the others stand. -/
theorem stopTrains_trains (set : Byte) (s : State) (b : Fin 2) :
    (stopTrains set s).beacons.trains.get b = if set.getLsbD b.val then none else s.beacons.trains.get b := by
  have one : ∀ (c : Bool) (a : Fin 2) (t : State), (if c then setTrain a none t else t).beacons.trains.get b =
      if b = a ∧ c = true then none else t.beacons.trains.get b := fun c a t => by
    cases c
    · simp
    · simpa using get_set t.beacons.trains a b none
  simp only [stopTrains, one]
  match b with
  | 0 => simp
  | 1 => simp

/-- R105: BEACON_CLEAR of a set that names a beacon. -/
theorem beaconClear_done {set : Byte} {s : State} (h : set.getLsbD 0 = true ∨ set.getLsbD 1 = true) :
    beaconClear set s = (stopTrains set s, .done) := if_neg fun hn => by
  obtain ⟨h0, h1⟩ := (namesNoBeacon_iff set).1 hn
  rcases h with h | h
  · exact nomatch h0.symm.trans h
  · exact nomatch h1.symm.trans h

/-- Settles O27, from what the stop of the trains named leaves (R105) and the addresses that can be set (R193). -/
theorem beaconClearAndSetAddressFollowTheirRows : Obligations.BeaconClearAndSetAddressFollowTheirRows :=
  ⟨fun _ set s ht =>
    ⟨fun h0 h1 => replies_of rfl ht (if_pos ((namesNoBeacon_iff set).2 ⟨h0, h1⟩)),
     fun h => ⟨stopTrains set s, stopTrains_rest set s, stopTrains_trains set s, replies_of rfl ht (beaconClear_done h)⟩⟩,
   fun _ _ _ ht => ⟨fun h => replies_of rfl ht (if_pos h), fun h => replies_of rfl ht (if_neg h)⟩⟩

/-! ### Phases of a train (R103) -/

section
variable {b : Fin 2} {s : State} {r : Running}

/-- R103: what the end of a phase does to a running train. -/
theorem beaconPhaseEnd_running (h : s.beacons.trains.get b = some r) : exec (.beaconPhaseEnd b) s =
    .next (if r.endsAt ≤ s.ref then setTrain b (r.phaseEnd (s.beacons.entries.get b)) s else s) := by
  show execBeaconPhaseEnd b s = _
  rw [execBeaconPhaseEnd, h]

variable (e : BeaconEntry)

/-- R103: On is followed by Off. -/
theorem phaseEnd_on (h : r.on = true) :
    r.phaseEnd e = some { on := false, endsAt := r.endsAt + 50 * e.offTime, remaining := r.remaining } := by
  rw [Running.phaseEnd, if_pos h]
  rfl

/-- R103: Off of a continuous train is followed by On. -/
theorem phaseEnd_continuous (h : r.on = false) (hr : r.remaining = none) :
    r.phaseEnd e = some { on := true, endsAt := r.endsAt + 50 * e.onTime, remaining := none } := by
  rw [Running.phaseEnd, h, hr]
  rfl

/-- R103: Off of a counted train is followed by On with one pulse fewer. -/
theorem phaseEnd_counted {k : Nat} (h : r.on = false) (hr : r.remaining = some (k + 2)) :
    r.phaseEnd e = some { on := true, endsAt := r.endsAt + 50 * e.onTime, remaining := some (k + 1) } := by
  rw [Running.phaseEnd, h, hr]
  rfl

/-- R103: a counted train stops after the Off of its last pulse. -/
theorem phaseEnd_last (h : r.on = false) (hr : r.remaining = some 1) : r.phaseEnd e = none := by
  rw [Running.phaseEnd, h, hr]
  rfl

end

/-! ### Raisings (R104, R191) -/

/-- R191: the trunk's part of a raising: the flag, and the EVENT frame when the report bit is set. -/
def reported (k : EventKind) (sub : Subject) (s : State) : State :=
  let set := { s with trunk := s.trunk.setFlag k sub }
  if s.trunk.reportBits.getLsbD k.index.val then (hand (eventFrame k sub s.clock) set).1 else set

/-- R191: a raising is the trunk's part, and then the beacon unit's. -/
theorem raise_eq (k : EventKind) (sub : Subject) (s : State) :
    raise k sub s = { reported k sub s with beacons := (reported k sub s).beacons.onRaise k s.ref } := rfl

/-- R191: the trunk's part of a raising leaves the beacon unit. -/
theorem reported_beacons (k : EventKind) (sub : Subject) (s : State) : (reported k sub s).beacons = s.beacons := by
  unfold reported
  split
  · exact (hand_sent _ _).beacons
  · rfl

/-- R191, R197: the subject of an EVENT frame. -/
theorem subject_bytes (sub : Subject) : sub.bytes = match sub with
    | .none => [(0 : Byte)] ++ b4 0
    | .node address => [(1 : Byte)] ++ b4 (BitVec.ofNat 32 address.toNat)
    | .zone z => [(2 : Byte)] ++ b4 (BitVec.ofNat 32 (z.val + 1))
    | .door d => [(3 : Byte)] ++ b4 (BitVec.ofNat 32 (d.val + 1))
    | .lot id => [(4 : Byte)] ++ b4 id := by
  cases sub <;> rfl

/-- R104: what a raising makes of one beacon's train. -/
theorem raise_train (k : EventKind) (sub : Subject) (b : Fin 2) (s : State) : (raise k sub s).beacons.trains.get b =
    if (s.beacons.entries.get b).causes.getLsbD k.index.val
    then (s.beacons.entries.get b).onRaise s.ref (s.beacons.trains.get b) else s.beacons.trains.get b := by
  rw [raise_eq, reported_beacons]
  simp [Beacons.onRaise, Vector.get_eq_getElem]

/-- R104: a raising starts a Stopped train. -/
theorem onRaise_stopped (e : BeaconEntry) (now : Nat) : e.onRaise now none = some
    { on := true, endsAt := now + 50 * e.onTime, remaining := if e.count = 255 then none else some e.count } := rfl

/-- R104: a raising sets the pulses of a counted train back to the count. -/
theorem onRaise_counted {e : BeaconEntry} {r : Running} {n : Nat} (now : Nat) (hr : r.remaining = some n) (hc : e.count ≠ 255) :
    e.onRaise now (some r) = some { r with remaining := some e.count } := by
  simp only [BeaconEntry.onRaise, hr, if_neg hc]

/-- R104: a raising leaves a continuous train. -/
theorem onRaise_continuous {r : Running} (e : BeaconEntry) (now : Nat) (hr : r.remaining = none) :
    e.onRaise now (some r) = some r := by
  simp only [BeaconEntry.onRaise, hr]

/-! ### Outputs (R103, R106) -/

/-- R106: the inhibit of a beacon is active: its door line is in Inhibit mode and at its active level. -/
def InhibitActive (b : Fin 2) (s : State) : Prop := ∃ h, (s.beacons.entries.get b).inhibit = some h ∧
  (s.doors.entries.get h.door).mode = .inhibit ∧ (s.doors.rts.get h.door).level = h.high

/-- R103, R106: when a beacon's output is on. -/
theorem output_iff (b : Fin 2) (s : State) : s.beacons.output s.doors b = true ↔
    ∃ r, s.beacons.trains.get b = some r ∧ r.on = true ∧ ¬InhibitActive b s := by
  cases ht : s.beacons.trains.get b with
  | none => simp [Beacons.output, ht]
  | some r => cases hi : (s.beacons.entries.get b).inhibit <;> simp [Beacons.output, InhibitActive, ht, hi, imp_iff_not_or]

/-- Settles O35, part by part: phases (R103), raisings (R191, R192), what trains make of them (R104), and outputs
(R103, R106). -/
theorem beaconPhasesFollowOneAnother : Obligations.BeaconPhasesFollowOneAnother := by
  refine ⟨?phases, ?raisings, ?trains, output_iff⟩
  case phases =>
    intro b s r hr e write
    refine ⟨fun h => (beaconPhaseEnd_running hr).trans (by rw [if_neg (Nat.not_le.2 h)]), fun h => ?_⟩
    have ends : ∀ {x}, r.phaseEnd e = x → exec (.beaconPhaseEnd b) s = .next (write x) := fun hx =>
      (beaconPhaseEnd_running hr).trans (by rw [if_pos h, hx]; rfl)
    exact ⟨fun ho => ends (phaseEnd_on e ho), fun ho k hk => ends (phaseEnd_counted e ho hk),
      fun ho hk => ends (phaseEnd_last e ho hk), fun ho hk => ends (phaseEnd_continuous e ho hk)⟩
  case raisings =>
    intro k sub s set named frame t
    have frame_eq : frame = eventFrame k sub s.clock := by rw [eventFrame, subject_bytes]; rfl
    refine ⟨(raise_raised k sub s).beacons, fun h => ⟨hand_sent frame set, ?_⟩, fun h => ?_⟩
    · have hr : reported k sub s = (hand frame set).1 := by rw [frame_eq]; exact if_pos h
      rw [← hr]
      rfl
    · have hr : reported k sub s = set := if_neg (Bool.eq_false_iff.1 h)
      rw [← hr]
      rfl
  case trains =>
    intro k sub b s e train after
    have taken := raise_train k sub b s
    refine ⟨fun h => taken.trans (if_neg (Bool.eq_false_iff.1 h)), fun h => ?_⟩
    have after_eq : after = e.onRaise s.ref train := taken.trans (if_pos h)
    rw [after_eq]
    refine ⟨fun ht => ?_, fun r n ht hn hc => ?_, fun r ht hn => ?_⟩
    · rw [ht, onRaise_stopped]
    · rw [ht, onRaise_counted _ hn hc]
    · rw [ht, onRaise_continuous _ _ hn]

end Sys2Proof.Machine
end

section
/-! PROOFS. Lines, edges, openings and closings of doors (O30 to O33; spec 05 R87 to R92, R94, R95). -/

namespace Sys2Proof.Machine

/-! ### A door's runtime written -/

/-- The runtime of one door replaced. -/
def writeDoorRt (d : Fin 4) (x : DoorRt) (s : State) : State := s.modDoorRt d fun _ => x

theorem writeDoorRt_get (d : Fin 4) (x : DoorRt) (s : State) : (writeDoorRt d x s).doors.rts.get d = x := get_upd_self _ d _

/-- A runtime written and then changed is written once. -/
theorem modDoorRt_writeDoorRt (d : Fin 4) (x : DoorRt) (f : DoorRt → DoorRt) (s : State) :
    (writeDoorRt d x s).modDoorRt d f = writeDoorRt d (f x) s := by
  unfold writeDoorRt State.modDoorRt upd
  simp only [get_set_self, Vector.set_set]

theorem writeDoorRt_writeDoorRt (d : Fin 4) (x y : DoorRt) (s : State) :
    writeDoorRt d y (writeDoorRt d x s) = writeDoorRt d y s := modDoorRt_writeDoorRt d x _ s

/-- A runtime written as it stands changes nothing. -/
theorem writeDoorRt_self (d : Fin 4) (s : State) : writeDoorRt d (s.doors.rts.get d) s = s := by
  unfold writeDoorRt State.modDoorRt upd
  rw [Vector.get_eq_getElem, Vector.set_getElem_self]

/-- The same change of a door's runtime on both sides adds nothing to what differs between them. -/
theorem Recorded.modDoorRt {s t : State} (h : Recorded s t) (d : Fin 4) (f : DoorRt → DoorRt) :
    Recorded (s.modDoorRt d f) (t.modDoorRt d f) := by
  refine ⟨h.pending, h.ref, h.straps, h.sensor, h.zones, h.engine, h.lots, ?_, h.beacons, h.trip, h.scans, h.proofs,
    h.window, h.trunk⟩
  rw [modDoorRt_doors, modDoorRt_doors, h.doors]

/-! ### Raisings beside an append (R161, R191) -/

/-- An append told after a raising is told of the state before it. -/
theorem Appends.afterRaised {s u t : State} {x : Draft} (h : Appends u t x) (r : Raised s u) : Appends s t x := by
  unfold Appends at h ⊢
  rw [r.journal, r.trip] at h
  exact h

/-- A raising after an append leaves what was appended. -/
theorem Appends.thenRaised {s u t : State} {x : Draft} (h : Appends s u x) (r : Raised u t) : Appends s t x := fun hl =>
  r.journal.trans (h hl)

/-- A raising and then an append: both have their effect. -/
theorem append_raise_records {k : EventKind} (hk : k.index ≠ EventKind.journalFull.index) (sub : Subject) (x : Draft)
    (u : State) : Recorded u (append x (raise k sub u)) ∧ Appends u (append x (raise k sub u)) x ∧
      (append x (raise k sub u)).trunk.flags.get k.index = { raised := true, subject := sub } := by
  have raised := raise_raised k sub u
  exact ⟨raised.recorded.trans (append_recorded _ _), (append_appends _ _).afterRaised raised,
    (append_flag _ _ hk).trans (raise_flag _ _ _)⟩

/-! ### When a change has held its time (R87) -/

section
variable {d : Fin 4} {s : State}

theorem debounceHeld_true {c : Nat} (hc : (s.doors.rts.get d).changedAt = some c)
    (h : c + (s.doors.entries.get d).debounce ≤ s.ref) : debounceHeld s d = true := by
  rw [debounceHeld, hc]
  exact decide_eq_true h

theorem debounceHeld_false (h : ∀ c, (s.doors.rts.get d).changedAt = some c → s.ref < c + (s.doors.entries.get d).debounce) :
    debounceHeld s d = false := by
  unfold debounceHeld
  split
  · next c hc => exact decide_eq_false (Nat.not_le.2 (h c hc))
  · rfl

theorem settleLine_held (h : debounceHeld s d = true) : settleLine d s = edge d s := if_pos h

/-- R87: a change that has not held its time does nothing (log 3). -/
theorem debounceExpiry_waits
    (h : ∀ c, (s.doors.rts.get d).changedAt = some c → s.ref < c + (s.doors.entries.get d).debounce) :
    exec (.debounceExpiry d) s = .next s := congrArg _ (settleLine_waits d s (debounceHeld_false h))

/-- R87: a change that has held its time is an edge. -/
theorem debounceExpiry_held {c : Nat} (hc : (s.doors.rts.get d).changedAt = some c)
    (h : c + (s.doors.entries.get d).debounce ≤ s.ref) : exec (.debounceExpiry d) s = .next (edge d s) :=
  congrArg _ (settleLine_held (debounceHeld_true hc h))

/-! ### Edges by the mode of the door (R88 to R90, R92) -/

/-- R87: the line's level as the debounced level, with no change timed. -/
def DoorRt.leveled (r : DoorRt) : DoorRt := { r with level := r.line, changedAt := none }

/-- R87: what every edge does first. -/
def leveled (d : Fin 4) (s : State) : State := writeDoorRt d (s.doors.rts.get d).leveled s

theorem leveled_get (d : Fin 4) (s : State) : (leveled d s).doors.rts.get d = (s.doors.rts.get d).leveled := writeDoorRt_get d _ s

/-- R88: the edge of a Contact door. -/
theorem edge_contact (hm : (s.doors.entries.get d).mode = .contact) : edge d s = judgeContact d (leveled d s) := by
  simp only [edge, hm]
  rfl

/-- R89: the rising edge of a Count door is an opening, and sets the open-until clock. -/
theorem edge_rising (hm : (s.doors.entries.get d).mode = .count) (hl : (s.doors.rts.get d).line = true) :
    edge d s = (openDoor d (leveled d s)).modDoorRt d fun x =>
      { x with openUntil := some (deadline s.clock (s.doors.entries.get d).assumed) } := by
  simp only [edge, hm, hl]
  rfl

/-- R89: the falling edge of a Count door. -/
theorem edge_falling (hm : (s.doors.entries.get d).mode = .count) (hl : (s.doors.rts.get d).line = false) :
    edge d s = leveled d s := by
  simp only [edge, hm, hl]
  rfl

/-- R90: the edge of a seal that is Armed. -/
theorem edge_armed (hm : (s.doors.entries.get d).mode = .seal) (hs : (s.doors.rts.get d).state = .armed) :
    edge d s = breakSeal d (leveled d s) := by
  simp only [edge, hm, if_pos hs]
  rfl

/-- R90: the edge of a seal that is not Armed. -/
theorem edge_notArmed (hm : (s.doors.entries.get d).mode = .seal) (hs : (s.doors.rts.get d).state ≠ .armed) :
    edge d s = leveled d s := by
  simp only [edge, hm, if_neg hs]
  rfl

/-- R92: the edge of a door that is Off or an Inhibit line. -/
theorem edge_unused (hm : (s.doors.entries.get d).mode = .off ∨ (s.doors.entries.get d).mode = .inhibit) :
    edge d s = leveled d s := by
  rcases hm with hm | hm
  · simp only [edge, hm]
    rfl
  · simp only [edge, hm]
    rfl

/-! ### The level of a Contact door (R88) -/

/-- R88: the level that shows open. -/
theorem showsOpen_iff (p : Polarity) (level : Bool) : p.showsOpen level = true ↔ level = decide (p = .highIsOpen) := by
  cases p <;> cases level <;> decide

theorem judgeContact_opens (hl : (s.doors.rts.get d).level = decide ((s.doors.entries.get d).polarity = .highIsOpen))
    (hs : (s.doors.rts.get d).state ≠ .opened) : judgeContact d s = openDoor d s := by
  rw [judgeContact]
  exact (if_pos ((showsOpen_iff _ _).2 hl)).trans (if_neg hs)

theorem judgeContact_closes (hl : (s.doors.rts.get d).level ≠ decide ((s.doors.entries.get d).polarity = .highIsOpen))
    (hs : (s.doors.rts.get d).state = .opened) : judgeContact d s = closeDoor d s := by
  rw [judgeContact]
  exact (if_neg fun h => hl ((showsOpen_iff _ _).1 h)).trans (if_pos hs)

theorem judgeContact_stays (h : (s.doors.rts.get d).level = decide ((s.doors.entries.get d).polarity = .highIsOpen) ↔
    (s.doors.rts.get d).state = .opened) : judgeContact d s = s := by
  rw [judgeContact]
  by_cases hs : (s.doors.rts.get d).state = .opened
  · exact (if_pos ((showsOpen_iff _ _).2 (h.2 hs))).trans (if_pos hs)
  · exact (if_neg fun hl => hs (h.1 ((showsOpen_iff _ _).1 hl))).trans (if_neg hs)

/-! ### Line changes (R87) -/

/-- R87: a level that the line already has. -/
theorem doorLineChange_same {high : Bool} (h : (s.doors.rts.get d).line = high) : exec (.doorLineChange d high) s = .next s :=
  congrArg _ (if_pos h)

/-- R87, log 31: a change timed before that has held its time acts first; then the line's change is taken. -/
theorem doorLineChange_changed {high : Bool} (h : (s.doors.rts.get d).line ≠ high) : exec (.doorLineChange d high) s =
    .next (settleLine d ((settleLine d s).modDoorRt d fun r => r.setLine high (settleLine d s).ref)) :=
  congrArg _ (if_neg h)

/-- R87: a line's change when no change timed before has held its time. -/
theorem doorLineChange_waits {high : Bool} (h : (s.doors.rts.get d).line ≠ high) (hw : debounceHeld s d = false) :
    exec (.doorLineChange d high) s = .next (settleLine d (writeDoorRt d ((s.doors.rts.get d).setLine high s.ref) s)) := by
  rw [doorLineChange_changed h, settleLine_waits d s hw]
  rfl

end

/-- Settles O30: when a line's change is timed, and when it acts at once as an edge (R87). -/
theorem lineChangesAreTimed : Obligations.LineChangesAreTimed := by
  intro d high s r write
  refine ⟨doorLineChange_same, fun hl hw hd => ?timed, fun hl hc hd => ⟨fun hh => ?back, fun hh => ?atOnce⟩,
    fun c hl hc hd => ?reverts⟩
  case timed =>
    rw [doorLineChange_waits hl (debounceHeld_false hw), settleLine_waits]
    · rfl
    refine debounceHeld_false fun c hc => ?_
    rw [writeDoorRt_get] at hc
    have hc : (if high = r.level then none else some s.ref) = some c := hc
    split at hc
    · exact nomatch hc
    · cases hc
      exact Nat.lt_add_of_pos_right hd
  case back =>
    have idle : r.setLine high s.ref = { r with line := high } := by
      rw [DoorRt.setLine, if_pos hh.symm, ← hc]
    rw [doorLineChange_waits hl (debounceHeld_false fun c h => nomatch hc.symm.trans h), idle, settleLine_waits]
    · rfl
    refine debounceHeld_false fun c h => ?_
    rw [writeDoorRt_get] at h
    exact nomatch hc.symm.trans h
  case atOnce =>
    have timed : r.setLine high s.ref = { r with line := high, changedAt := some s.ref } := by
      rw [DoorRt.setLine, if_neg (Ne.symm hh)]
    have changed := doorLineChange_waits hl (debounceHeld_false fun c h => nomatch hc.symm.trans h)
    rw [timed] at changed
    generalize hu : writeDoorRt d { r with line := high, changedAt := some s.ref } s = u at changed
    have own : u.doors.rts.get d = { r with line := high, changedAt := some s.ref } := by rw [← hu]; exact writeDoorRt_get d _ s
    have held : debounceHeld u d = true := debounceHeld_true (c := s.ref) (by rw [own]) (by
      rw [← hu]
      exact Nat.le_of_eq (congrArg (s.ref + ·) hd))
    rw [settleLine_held held] at changed
    obtain ⟨line, level, timing⟩ := edge_line d u
    rw [own] at line level
    refine ⟨⟨_, changed, ?_, level, line, timing⟩, fun hm => changed.trans ?_⟩
    · show exec (.debounceExpiry d) (writeDoorRt d _ s) = _
      rw [hu]
      exact congrArg _ (settleLine_held held)
    · rw [edge_unused (.inl (by rw [← hu]; exact hm)), leveled, own, ← hu, writeDoorRt_writeDoorRt]
      rfl
  case reverts =>
    have held := debounceHeld_true hc hd
    obtain ⟨line, level, timing⟩ := edge_line d s
    refine ⟨_, debounceExpiry_held hc hd, level, timing, line, ?_⟩
    rw [doorLineChange_changed hl, doorLineChange_changed (by rw [line]; exact hl), settleLine_held held,
      settleLine_waits d (edge d s) (debounceHeld_false fun c h => nomatch timing.symm.trans h)]

/-! ### Openings (R94) -/

/-- R94 step 3: the entry of an opening, authorized or not, in a visit or in none. -/
def openDraft (d : Fin 4) (zones : ZoneSet) (ok : Bool) (visit : Option (Fin 25)) : Draft :=
  { kind := .doorOpen, zones := some zones, door := some d, v1 := if ok then 1 else 0,
    v2 := match visit with | some k => BitVec.ofNat 32 k.val | none => 255 }

theorem openDraft_eq (d : Fin 4) (zones : ZoneSet) (ok : Bool) (visit : Option (Fin 25)) : openDraft d zones ok visit =
    { kind := .doorOpen, zones := some zones, door := some d, v1 := if ok then 1 else 0,
      v2 := natWord ((visit.map Fin.val).getD 255) } := by
  cases visit <;> rfl

/-- R94: everything that an opening of a door does, Open before or not. -/
theorem openDoor_records (d : Fin 4) (s : State) :
    let u := s.modDoorRt d fun r => r.opening s.clock s.ref s.trip.record.state.stop.isSome
    Recorded u (openDoor d s) ∧
    Appends u (openDoor d s) (openDraft d (s.doors.entries.get d).zones (authorized s.trip d) s.trip.record.state.stop) ∧
    (authorized s.trip d = false →
      (openDoor d s).trunk.flags.get EventKind.doorUnauthorized.index = { raised := true, subject := .door d }) := by
  intro u
  generalize hx : openDraft d (s.doors.entries.get d).zones (authorized s.trip d) s.trip.record.state.stop = x
  have opens : openDoor d s = if authorized s.trip d then append x u else raise .doorUnauthorized (.door d) (append x u) := by
    rw [← hx, openDraft_eq]
    rfl
  have recorded := append_recorded x u
  have appends := append_appends x u
  rw [opens]
  cases authorized s.trip d with
  | true => exact ⟨recorded, appends, fun h => nomatch h⟩
  | false =>
    have raised := raise_raised .doorUnauthorized (.door d) (append x u)
    exact ⟨recorded.trans raised.recorded, appends.thenRaised raised, fun _ => raise_flag _ _ _⟩

/-- R94: an event that ends with an opening of the door, whose runtime is then changed, records the opening. -/
theorem records_of_openDoor {c : Instr} {d : Fin 4} {s u : State} {f : DoorRt → DoorRt}
    (h : exec c s = .next ((openDoor d u).modDoorRt d f)) :
    Records c s ((u.modDoorRt d fun r => r.opening u.clock u.ref u.trip.record.state.stop.isSome).modDoorRt d f)
      (openDraft d (u.doors.entries.get d).zones (authorized u.trip d) u.trip.record.state.stop) ∧
    (authorized u.trip d = false → ∃ t, exec c s = .next t ∧
      t.trunk.flags.get EventKind.doorUnauthorized.index = { raised := true, subject := .door d }) := by
  obtain ⟨recorded, appends, flagged⟩ := openDoor_records d u
  exact ⟨⟨_, h, recorded.modDoorRt d f, appends⟩, fun ha => ⟨_, h, flagged ha⟩⟩

/-- R94 step 2, R109: the authority of an opening and its visit, by the trip state. -/
theorem authorized_visit {trip : Trip} {d : Fin 4} {ok : Bool} {visit : Option (Fin 25)}
    (h : match trip.record.state with
      | .loading => ok = true ∧ visit = some 0
      | .dock => ok = true ∧ visit = some 0
      | .atStop k => ok = (trip.stops.get k).doors.getLsbD d.val ∧ visit = some k
      | .transit => ok = false ∧ visit = none
      | .noTrip => ok = false ∧ visit = none) : authorized trip d = ok ∧ trip.record.state.stop = visit := by
  unfold authorized
  cases hs : trip.record.state <;> rw [hs] at h <;> exact ⟨h.1.symm, h.2.symm⟩

/-- Settles O31, from the edges of a door by its mode (R88, R89, R92) and what an opening records (R94). -/
theorem contactEdgesOpenTheDoor : Obligations.ContactEdgesOpenTheDoor := by
  intro d s r e write
  refine ⟨debounceExpiry_waits, fun c ok visit hc hd hv => ?_⟩
  obtain ⟨hok, hvisit⟩ := authorized_visit hv
  have acts := debounceExpiry_held hc hd
  intro level opens openings
  have opening : ∀ f, edge d s = (openDoor d (leveled d s)).modDoorRt d f →
      opens (f (level.opening s.clock s.ref visit.isSome)) := fun f hf => by
    obtain ⟨records, flagged⟩ := records_of_openDoor (acts.trans (congrArg _ hf))
    refine ⟨?_, fun h => flagged (hok.trans h)⟩
    rw [leveled, modDoorRt_writeDoorRt, modDoorRt_writeDoorRt] at records
    rw [← hok, ← hvisit]
    exact records
  refine ⟨fun hm hs hl => ?_, fun hm hl => ?_, fun h => acts.trans (congrArg _ ?_)⟩
  · have contact : edge d s = (openDoor d (leveled d s)).modDoorRt d id := by
      rw [edge_contact hm, judgeContact_opens (by rw [leveled_get]; exact hl)
        (by rw [leveled_get]; exact fun h => nomatch hs.symm.trans h)]
      exact (writeDoorRt_self d _).symm
    have opened := opening id contact
    have notOpen : ¬level.state = .opened := fun h => nomatch hs.symm.trans h
    rw [DoorRt.opening, if_neg notOpen, if_neg notOpen] at opened
    exact opened
  · have opened := opening _ (edge_rising hm hl)
    rw [deadline_eq] at opened
    exact opened
  · rcases h with hm | hm | ⟨hm, hl⟩ | ⟨hm, hl⟩
    · exact edge_unused (.inl hm)
    · exact edge_unused (.inr hm)
    · exact edge_falling hm hl
    · rw [edge_contact hm, judgeContact_stays (by rw [leveled_get]; exact hl)]
      rfl

/-! ### Closings (R95) -/

/-- R95: the runtime of a door closed at the end of a stretch, with the recovery window of its entry. -/
def DoorRt.closedAt (r : DoorRt) (s : State) (recovery start : Nat) : DoorRt :=
  { r with state := .closed, lastClose := some s.trip.clock, openSince := none, stretchAt := none, openUntil := none,
           recoveryAt := some (BitVec.ofNat 32 (min 4294967295 (s.trip.clock.toNat + recovery))),
           openSeconds := BitVec.ofNat 32 (r.openSeconds.toNat +
             if s.trip.record.state.stop.isSome then (s.ref - max start s.trip.visitStart) / 1000 else 0) }

/-- R95 step 3: the entry of a closing. -/
def closeDraft (d : Fin 4) (zones : ZoneSet) (s : State) (start : Nat) (since : Clock) : Draft :=
  { kind := .doorClose, zones := some zones, door := some d, v1 := BitVec.ofNat 32 ((s.ref - start) / 1000), v2 := since }

/-- R95: a door Open since a start, whose seconds stay in range. -/
structure OpenSince (r : DoorRt) (s : State) (start : Nat) (since : Clock) : Prop where
  stretch : r.stretchAt = some start
  since   : r.openSince = some since
  seconds : (s.ref - start) / 1000 < 4294967296
  visit   : r.openSeconds.toNat + (if s.trip.record.state.stop.isSome then (s.ref - max start s.trip.visitStart) / 1000 else 0)
    < 4294967296

section
variable {d : Fin 4} {s : State} {x : DoorRt} {start : Nat} {since : Clock}

/-- R95, R138: what the closing of a door leaves, whose runtime has just been written. -/
theorem closeDoor_written (h : OpenSince x s start since) :
    Closed (s.doors.entries.get d).zones (closeDraft d (s.doors.entries.get d).zones s start since)
      (writeDoorRt d (x.closedAt s (s.doors.entries.get d).recovery start) s) (closeDoor d (writeDoorRt d x s)) := by
  have own := writeDoorRt_get d x s
  have closed := closeDoor_spec d (writeDoorRt d x s) start since (by rw [own]; exact h.stretch) (by rw [own]; exact h.since)
    h.seconds (by rw [own]; exact h.visit)
  rw [own] at closed
  have written := writeDoorRt_writeDoorRt d x (x.closedAt s (s.doors.entries.get d).recovery start) s
  rw [← written]
  exact closed

/-- R138: with no lot in Handover that the test picks, nothing is sealed. -/
theorem sealLots_unpicked (c : SealCause) {pick : LotEntry → Bool}
    (h : ∀ i, (s.lots.get i).state = .handover → pick (s.lots.get i) = false) : sealLots c pick s = s := by
  refine List.foldl_fixed' (fun i => ?_) _
  split
  · next hp => exact sealLot_else c i s (.inl fun hs => nomatch (h i hs).symm.trans hp)
  · rfl

/-- R95: a closing that seals no lot is its append alone. -/
theorem closeDoor_unsealed (h : OpenSince x s start since)
    (hn : ∀ i, (s.lots.get i).state = .handover → (s.doors.entries.get d).zones.getLsbD (s.lots.get i).zone.val = false) :
    closeDoor d (writeDoorRt d x s) = append (closeDraft d (s.doors.entries.get d).zones s start since)
      (writeDoorRt d (x.closedAt s (s.doors.entries.get d).recovery start) s) := by
  have unpicked : ∀ (y : Draft) (u : State), u.lots = s.lots →
      sealByDoor (s.doors.entries.get d).zones (append y u) = append y u := fun y u hu => by
    refine sealLots_unpicked _ fun i hs => ?_
    rw [(append_recorded y u).lots i, hu] at hs ⊢
    exact hn i hs
  have draft : closeDraft d (s.doors.entries.get d).zones s start since =
      { kind := .doorClose, zones := some (s.doors.entries.get d).zones, door := some d,
        v1 := countWord (stretchSeconds s.ref x), v2 := x.openSince.getD 0 } := by
    simp only [closeDraft, stretchSeconds, h.stretch, h.since, countWord_eq h.seconds, Option.getD_some]
  have runtime : x.closedAt s (s.doors.entries.get d).recovery start = x.closing s.clock (s.doors.entries.get d).recovery
      (if s.trip.record.state.stop.isSome then stretchInVisit s.ref s.trip.visitStart x else 0) := by
    simp only [DoorRt.closing, stretchInVisit, h.stretch, countWord_eq h.visit, deadline_eq]
    rfl
  rw [draft, runtime, closeDoor, writeDoorRt_get, modDoorRt_writeDoorRt]
  exact unpicked _ _ rfl

end

/-- R89: when the assumed open time of a Count door has ended. -/
theorem assumedOpenTimeExpiry_due {d : Fin 4} {s : State} {c : Clock} (hm : (s.doors.entries.get d).mode = .count)
    (hs : (s.doors.rts.get d).state = .opened) (hu : (s.doors.rts.get d).openUntil = some c) (hc : c.toNat ≤ s.trip.clock.toNat) :
    exec (.assumedOpenTimeExpiry d) s = .next (closeDoor d s) := by
  refine congrArg _ (if_pos ?_)
  simp only [assumedDue, hm, hs, hu, (reached_iff _ _).2 hc]
  rfl

/-- Settles O32, from what a closing leaves (R95, R138), and the closing that seals no lot. -/
theorem closingsEndTheStretch : Obligations.ClosingsEndTheStretch := by
  intro d s start since r e seconds within hs hstart hsince hseconds hwithin close write entry closes
  have closed : ∀ {c : Instr} {x : DoorRt}, OpenSince x s start since → x.openSeconds = r.openSeconds →
      exec c s = .next (closeDoor d (writeDoorRt d x s)) → closes c x := fun {c x} hx hr hc => by
    have runtime : close x = x.closedAt s e.recovery start := by rw [DoorRt.closedAt, hr]
    show (∃ t, _ ∧ Closed _ _ (write (close x)) t) ∧ (_ → Records c s (write (close x)) entry)
    rw [runtime]
    refine ⟨⟨_, hc, closeDoor_written hx⟩, fun hn => ⟨_, hc, ?_⟩⟩
    rw [closeDoor_unsealed hx hn]
    exact ⟨append_recorded _ _, append_appends _ _⟩
  have openSince : OpenSince r s start since := ⟨hstart, hsince, hseconds, hwithin⟩
  refine ⟨fun c hc hd hm hl => closed (x := r.leveled) ⟨hstart, hsince, hseconds, hwithin⟩ rfl ?_,
    fun c hu hc hm => closed openSince rfl ?_⟩
  · rw [debounceExpiry_held hc hd, edge_contact hm, judgeContact_closes]
    · rfl
    · rw [leveled_get]
      show r.line ≠ decide (e.polarity = .highIsOpen)
      rw [hl]
      cases e.polarity <;> decide
    · rw [leveled_get]
      exact hs
  · rw [assumedOpenTimeExpiry_due hm hs hu hc, writeDoorRt_self]

/-! ### Seals (R90) -/

/-- R90: the entry of a seal's breaking. -/
def breakDraft (d : Fin 4) (zones : ZoneSet) (r : DoorRt) : Draft :=
  { kind := .sealBroken, zones := some zones, door := some d, v1 := if r.armedLevel then 1 else 0, v2 := r.armingClock }

/-- Settles O33, from the edges of a seal and what its breaking raises and appends (R90). -/
theorem theFirstEdgeBreaksASeal : Obligations.TheFirstEdgeBreaksASeal := by
  intro d s c r e write hc hd hm
  have acts := debounceExpiry_held hc hd
  refine ⟨fun hs => ?_, fun hs => ?_⟩
  · obtain ⟨recorded, appends, flagged⟩ := append_raise_records (k := .sealBroken) (by decide) (.door d)
      (breakDraft d e.zones r) (write { r.leveled with state := .broken })
    have breaks : edge d s = append (breakDraft d e.zones r)
        (raise .sealBroken (.door d) (write { r.leveled with state := .broken })) := by
      rw [edge_armed hm hs, breakSeal, leveled_get, leveled, modDoorRt_writeDoorRt]
      rfl
    rw [breaks] at acts
    exact ⟨⟨_, acts, recorded, appends⟩, _, acts, flagged⟩
  · rw [acts, edge_notArmed hm fun h => nomatch hs.symm.trans h]
    rfl

end Sys2Proof.Machine
end

section
/-! PROOFS. ARM_SEAL (O26), and doors judged by their recovery window and budget (O34; spec 05 R91, R97 to R99). -/

namespace Sys2Proof.Machine

/-! ### ARM_SEAL (R91) -/

section
variable {d : Fin 4} {s : State}

/-- R91: a number that names no door. -/
theorem armSeal_badValue {door : Byte} (h : door = 0 ∨ 4 < door.toNat) : armSeal door s = (s, .badValue) := by
  rw [armSeal, doorOf_none.2 h]

/-- R91: a door in another mode, or a Broken seal at another level than the one it was armed at. -/
theorem armSeal_badState (h : (s.doors.entries.get d).mode ≠ .seal ∨
    ((s.doors.rts.get d).state = .broken ∧ (s.doors.rts.get d).level ≠ (s.doors.rts.get d).armedLevel)) :
    armSeal (BitVec.ofNat 8 (d.val + 1)) s = (s, .badState) := by
  simp only [armSeal, doorOf_number]
  split
  · rfl
  · next hm => exact if_pos (h.resolve_left hm)

/-- R91: a taken ARM_SEAL arms the door at its level. -/
theorem armSeal_done (hm : (s.doors.entries.get d).mode = .seal)
    (h : ¬((s.doors.rts.get d).state = .broken ∧ (s.doors.rts.get d).level ≠ (s.doors.rts.get d).armedLevel)) :
    armSeal (BitVec.ofNat 8 (d.val + 1)) s = (s.modDoorRt d fun r => r.arm s.clock, .done) := by
  simp only [armSeal, doorOf_number]
  rw [if_neg (not_not.2 hm), if_neg h]

end

/-- Settles O26, row by row (R91). -/
theorem armSealFollowsItsRows : Obligations.ArmSealFollowsItsRows := fun _ _ ht =>
  ⟨fun _ hd => replies_of rfl ht (armSeal_badValue hd), fun _ =>
    ⟨fun h => replies_of rfl ht (armSeal_badState h), fun hm h => replies_of rfl ht (armSeal_done hm h)⟩⟩

/-! ### Serving as open (R97) -/

section
variable {clock : Clock} {e : DoorEntry} {r : DoorRt}

/-- R97: a Contact or Count door is judged by its state. -/
theorem serves_judged (hm : e.mode = .contact ∨ e.mode = .count) : serves clock e r = match r.state with
    | .opened => true
    | .closed => (match r.recoveryAt with | some d => !reached clock d | none => false)
    | _ => false := by
  have judged : (decide (e.mode = .contact) || decide (e.mode = .count)) = true := by simpa using hm
  rw [serves, judged]
  rfl

/-- R97: an Open Contact or Count door serves as open. -/
theorem serves_opened (hm : e.mode = .contact ∨ e.mode = .count) (hs : r.state = .opened) : serves clock e r = true := by
  rw [serves_judged hm, hs]

/-- R97: a Closed Contact or Count door serves as open before its recovery deadline. -/
theorem serves_closed {x : Clock} (hm : e.mode = .contact ∨ e.mode = .count) (hs : r.state = .closed)
    (hx : r.recoveryAt = some x) : serves clock e r = decide (clock.toNat < x.toNat) := by
  rw [serves_judged hm, hs, hx]
  show (!reached clock x) = _
  rw [reached, ← decide_not]
  exact decide_eq_decide.2 Nat.not_le

/-- R97: a door in another mode does not serve as open. -/
theorem serves_other (h1 : e.mode ≠ .contact) (h2 : e.mode ≠ .count) : serves clock e r = false := by
  rw [serves, decide_eq_false h1, decide_eq_false h2]
  rfl

end

/-! ### Door budgets (R98, R99) -/

section
variable {d : Fin 4} {s : State} {v : Fin 25}

/-- R98: the visit open seconds of an Open door include those of its stretch. -/
theorem visitSeconds_opened {start : Nat} (hv : s.trip.record.state.stop = some v) (hs : (s.doors.rts.get d).state = .opened)
    (hx : (s.doors.rts.get d).stretchAt = some start) :
    visitSeconds s d = (s.doors.rts.get d).openSeconds.toNat + (s.ref - max start s.trip.visitStart) / 1000 := by
  simp only [visitSeconds, hv, hs, stretchInVisit, hx, Option.isSome_some, and_self, if_true]

/-- R99: no door is overlong while no visit is open. -/
theorem overlongDue_noVisit (hv : s.trip.record.state.stop = none) : overlongDue s d = false := by
  simp only [overlongDue, hv]

/-- R99: which doors are overlong in a visit. -/
theorem overlongDue_iff (hv : s.trip.record.state.stop = some v) : overlongDue s d = true ↔
    ((s.doors.entries.get d).mode = .contact ∨ (s.doors.entries.get d).mode = .count) ∧ (s.trip.stops.get v).budget ≠ 0 ∧
    (s.doors.rts.get d).state = .opened ∧ (s.trip.stops.get v).budget ≤ visitSeconds s d ∧
    (s.doors.rts.get d).overlong = false := by
  simp only [overlongDue, hv, Bool.and_eq_true, Bool.or_eq_true, decide_eq_true_eq, Bool.not_eq_true', and_assoc]

/-- R99: a door that is not overlong is left as it stands (log 3). -/
theorem doorOverlong_notDue (h : ¬overlongDue s d = true) : exec (.doorOverlong d) s = .next s := congrArg _ (if_neg h)

/-- R99: the entry of an overlong door. -/
def overlongDraft (d : Fin 4) (zones : ZoneSet) (v : Fin 25) (seconds : Nat) : Draft :=
  { kind := .doorOverlong, zones := some zones, door := some d, v1 := BitVec.ofNat 32 v.val, v2 := BitVec.ofNat 32 seconds }

/-- R99: an overlong door is marked, raised and journalled. -/
theorem doorOverlong_due (hv : s.trip.record.state.stop = some v) (h : overlongDue s d = true)
    (hs : visitSeconds s d < 4294967296) : exec (.doorOverlong d) s =
      .next (append (overlongDraft d (s.doors.entries.get d).zones v (visitSeconds s d))
        (raise .doorOverlong (.door d) (s.modDoorRt d fun r => { r with overlong := true }))) := by
  refine congrArg _ ((if_pos h).trans ?_)
  rw [hv, countWord_eq hs]
  rfl

end

/-- Settles O34, from which doors serve as open (R97) and which are overlong (R98, R99). -/
theorem doorsAreJudgedByTheirWindowAndBudget : Obligations.DoorsAreJudgedByTheirWindowAndBudget := by
  refine ⟨fun d s => ⟨rfl, fun clock e r => ⟨fun hm => ⟨serves_opened hm, fun hs x hx => serves_closed hm hs hx⟩, serves_other⟩⟩,
    fun d s hv => doorOverlong_notDue (Bool.eq_false_iff.1 (overlongDue_noVisit hv)), fun d s v => ?_⟩
  intro r e budget hv
  refine ⟨fun h => doorOverlong_notDue fun hd => ?_, fun start hs hx hb => doorOverlong_notDue fun hd => ?_,
    fun start hm hb hs ho hx => ?_⟩
  · obtain ⟨mode, nonzero, opened, -, fresh⟩ := (overlongDue_iff hv).1 hd
    rcases h with h | h | h | ⟨h1, h2⟩
    · exact nonzero h
    · exact nomatch h.symm.trans fresh
    · exact h opened
    · exact mode.elim h1 h2
  · obtain ⟨-, -, -, reached, -⟩ := (overlongDue_iff hv).1 hd
    rw [visitSeconds_opened hv hs hx] at reached
    exact absurd hb (Nat.not_le.2 (Nat.lt_succ_of_le reached))
  · intro seconds hr hl
    have judged : visitSeconds s d = seconds := visitSeconds_opened hv hs hx
    have due : overlongDue s d = true := (overlongDue_iff hv).2 ⟨hm, hb, hs, by rw [judged]; exact hr, ho⟩
    have acts := doorOverlong_due hv due (by rw [judged]; exact hl)
    rw [judged] at acts
    obtain ⟨recorded, appends, flagged⟩ := append_raise_records (k := .doorOverlong) (by decide) (.door d)
      (overlongDraft d e.zones v seconds) (s.modDoorRt d fun r => { r with overlong := true })
    exact ⟨⟨_, acts, recorded, appends⟩, _, acts, flagged⟩

end Sys2Proof.Machine
end

section
/-! PROOFS. Door table writes (O19; spec 05 R86, R87, R94, R95, R100, R101). -/

namespace Sys2Proof.Machine

/-! ### A door's entry and runtime written -/

/-- The entry and the runtime of one door replaced. -/
def setDoor (d : Fin 4) (e : DoorEntry) (x : DoorRt) (s : State) : State := writeDoorRt d x (setDoorEntry d e s)

section
variable (d : Fin 4) (e : DoorEntry) (x : DoorRt) (s : State)

theorem setDoor_doors : (setDoor d e x s).doors =
    { entries := s.doors.entries.set d.val e d.isLt, rts := s.doors.rts.set d.val x d.isLt } := rfl

theorem setDoor_entry : (setDoor d e x s).doors.entries.get d = e := get_set_self _ d e

theorem setDoor_rt : (setDoor d e x s).doors.rts.get d = x := writeDoorRt_get d x _

theorem modDoorRt_setDoor (f : DoorRt → DoorRt) : (setDoor d e x s).modDoorRt d f = setDoor d e (f x) s :=
  modDoorRt_writeDoorRt d x f _

/-- A door's entry is replaced beside its runtime. -/
theorem setDoorEntry_eq : setDoorEntry d e s = setDoor d e (s.doors.rts.get d) s := (writeDoorRt_self d (setDoorEntry d e s)).symm

end

/-- What a closing leaves of the closed door's runtime. -/
theorem Closed.rt {zones : ZoneSet} {draft : Draft} {d : Fin 4} {y : DoorRt} {s t : State}
    (h : Closed zones draft (writeDoorRt d y s) t) : t.doors.rts.get d = y := by
  rw [h.doors]
  exact writeDoorRt_get d y s

/-- What a closing leaves, when the door is then written. -/
theorem Closed.thenSetDoor {zones : ZoneSet} {draft : Draft} {d : Fin 4} {y : DoorRt} {s t : State}
    (h : Closed zones draft (writeDoorRt d y s) t) (e : DoorEntry) (z : DoorRt) :
    Closed zones draft (setDoor d e z s) (setDoor d e z t) := by
  have doors := calc (setDoor d e z t).doors
    _ = (setDoor d e z (writeDoorRt d y s)).doors := by rw [setDoor_doors, setDoor_doors, h.doors]
    _ = (setDoor d e z s).doors := congrArg State.doors (writeDoorRt_writeDoorRt d y z (setDoorEntry d e s))
  have same : setDoor d e z t = { t with doors := (setDoor d e z s).doors } := by
    rw [← doors]
    rfl
  rw [same]
  exact h.written _

/-! ### The line of a door through a write (R87) -/

theorem DoorRt.sameLine.trans {a b c : DoorRt} (h : a.sameLine b) (g : b.sameLine c) : a.sameLine c :=
  ⟨g.1.trans h.1, g.2.1.trans h.2.1, g.2.2.trans h.2.2⟩

/-- R87: a write of a door's entry that leaves its line, and the change being timed on it. -/
structure LineKept (d : Fin 4) (e : DoorEntry) (s t : State) : Prop where
  line  : (s.doors.rts.get d).sameLine (t.doors.rts.get d)
  entry : t.doors.entries.get d = e
  ref   : t.ref = s.ref

section
variable {d : Fin 4} {e : DoorEntry} {s t : State}

theorem setDoor_lineKept {x : DoorRt} (hx : (s.doors.rts.get d).sameLine x) (ht : t.ref = s.ref) :
    LineKept d e s (setDoor d e x t) :=
  ⟨by rw [setDoor_rt]; exact hx, setDoor_entry d e x t, ht⟩

theorem LineKept.modDoorRt (h : LineKept d e s t) {f : DoorRt → DoorRt} (hf : ∀ x : DoorRt, x.sameLine (f x)) :
    LineKept d e s (t.modDoorRt d f) :=
  ⟨h.line.trans (by rw [modDoorRt_doors, get_upd_self]; exact hf _), h.entry, h.ref⟩

/-- R88: judging a Contact door leaves its line. -/
theorem judgeContact_line (d : Fin 4) (s : State) : (s.doors.rts.get d).sameLine ((judgeContact d s).doors.rts.get d) := by
  unfold judgeContact
  simp only
  split
  · split
    · exact ⟨rfl, rfl, rfl⟩
    · exact openDoor_line d s
  · split
    · exact closeDoor_line d s
    · exact ⟨rfl, rfl, rfl⟩

theorem LineKept.judged (h : LineKept d e s t) : LineKept d e s (judgeContact d t) :=
  ⟨h.line.trans (judgeContact_line d t), by rw [(judgeContact_custody d t).doors]; exact h.entry,
    (judgeContact_custody d t).ref.trans h.ref⟩

theorem enterMode_lineKept (h : LineKept d e s t) (mode : DoorMode) : LineKept d e s (enterMode d mode t) := by
  cases mode with
  | contact =>
    refine (h.modDoorRt ?_).judged
    exact fun _ => ⟨rfl, rfl, rfl⟩
  | _ =>
    refine h.modDoorRt ?_
    exact fun _ => ⟨rfl, rfl, rfl⟩

theorem changeMode_lineKept : LineKept d e s (changeMode d e s) := by
  have left : ∀ u : State, (s.doors.rts.get d).sameLine (u.doors.rts.get d) → u.ref = s.ref →
      LineKept d e s (enterMode d e.mode ((setDoorEntry d e u).modDoorRt d fun r => r.leave (s.doors.entries.get d).mode)) :=
    fun u hl hr => by
      rw [setDoorEntry_eq]
      refine enterMode_lineKept ((setDoor_lineKept hl hr).modDoorRt ?_) _
      exact fun _ => ⟨rfl, rfl, rfl⟩
  unfold changeMode
  simp only
  split
  · exact left _ (closeDoor_line d s) (closeDoor_custody d s).ref
  · exact left s ⟨rfl, rfl, rfl⟩ rfl

/-- R101: what a write that keeps the mode does. -/
theorem keepMode_eq (d : Fin 4) (e : DoorEntry) (s : State) : keepMode d e s =
    if e.mode = .contact ∧ (s.doors.entries.get d).polarity ≠ e.polarity
    then judgeContact d (setDoor d e (s.doors.rts.get d) s) else setDoor d e (s.doors.rts.get d) s := by
  rw [keepMode, setDoorEntry_eq]

theorem keepMode_lineKept : LineKept d e s (keepMode d e s) := by
  have set : LineKept d e s (setDoor d e (s.doors.rts.get d) s) := setDoor_lineKept ⟨rfl, rfl, rfl⟩ rfl
  rw [keepMode_eq]
  split
  · exact set.judged
  · exact set

/-- R87, log 20: the debounce is as it was, or no change being timed has held the new one. -/
def StaysTimed (d : Fin 4) (e : DoorEntry) (s : State) : Prop :=
  e.debounce = (s.doors.entries.get d).debounce ∨ ∀ x, (s.doors.rts.get d).changedAt = some x → s.ref < x + e.debounce

/-- R87: a line change that stays timed does not act after a write. -/
theorem settleLine_staysTimed (h : StaysTimed d e s) (ht : LineKept d e s t) :
    (if (s.doors.entries.get d).debounce ≠ e.debounce then settleLine d t else t) = t := by
  obtain ⟨-, -, timing⟩ := ht.line
  split
  · next hd =>
    refine settleLine_waits d t (debounceHeld_false fun c hc => ?_)
    rw [ht.entry, ht.ref]
    exact h.resolve_left (Ne.symm hd) c (timing.symm.trans hc)
  · rfl

/-- R100: a write that changes the mode. -/
theorem writeDoor_changes (h : StaysTimed d e s) (hm : e.mode ≠ (s.doors.entries.get d).mode) :
    writeDoor d e s = changeMode d e s := by
  simp only [writeDoor, if_pos (Ne.symm hm)]
  exact settleLine_staysTimed h changeMode_lineKept

/-- R101: a write that keeps the mode. -/
theorem writeDoor_keeps (h : StaysTimed d e s) (hm : e.mode = (s.doors.entries.get d).mode) :
    writeDoor d e s = keepMode d e s := by
  simp only [writeDoor, if_neg (not_not.2 hm.symm)]
  exact settleLine_staysTimed h keepMode_lineKept

end

/-! ### Openings by a write (R94) -/

/-- R94: the runtime of a door, not Open before, that opens. -/
def DoorRt.openedAt (x : DoorRt) (s : State) : DoorRt :=
  { x with state := .opened, lastOpen := some s.trip.clock, openSince := some s.trip.clock, stretchAt := some s.ref,
           openings := if s.trip.record.state.stop.isSome then min 65535 (x.openings + 1) else x.openings }

/-- R94: what an opening records: its entry, and the raising of an unauthorized one. -/
structure Opens (d : Fin 4) (zones : ZoneSet) (trip : Trip) (u t : State) : Prop where
  recorded : Recorded u t
  appends  : Appends u t (openDraft d zones (authorized trip d) trip.record.state.stop)
  flagged  : authorized trip d = false →
    t.trunk.flags.get EventKind.doorUnauthorized.index = { raised := true, subject := .door d }

/-- R94: the opening of a door whose entry and runtime have just been written. -/
theorem openDoor_setDoor {d : Fin 4} {e : DoorEntry} {x : DoorRt} (s : State) (hx : x.state ≠ .opened) :
    Opens d e.zones s.trip (setDoor d e (x.openedAt s) s) (openDoor d (setDoor d e x s)) := by
  have runtime : x.opening s.clock s.ref s.trip.record.state.stop.isSome = x.openedAt s := by
    rw [DoorRt.opening, if_neg hx, if_neg hx]
    rfl
  obtain ⟨recorded, appends, flagged⟩ := openDoor_records d (setDoor d e x s)
  rw [modDoorRt_setDoor] at recorded appends
  rw [setDoor_entry] at appends
  rw [← runtime]
  exact ⟨recorded, appends, flagged⟩

/-! ### Entering a mode (R100) -/

/-- R100 step 2: the runtime of a door in its new mode, in Contact mode before its level is judged. -/
def DoorRt.entered (x : DoorRt) (mode : DoorMode) (clock : Clock) : DoorRt := match mode with
  | .seal => { x with state := .armed, armedLevel := x.level, armingClock := clock }
  | .count => { x with state := .closed }
  | .contact => { x with state := .closed }
  | _ => { x with state := .unused }

section
variable {d : Fin 4} {e : DoorEntry} {x : DoorRt} {s : State}

/-- R88, R100: a door that enters Contact mode is judged by its level. -/
theorem enterMode_contact (hm : e.mode = .contact) : enterMode d e.mode (setDoor d e x s) =
    judgeContact d (setDoor d e (x.entered e.mode s.trip.clock) s) := by
  rw [hm]
  show judgeContact d _ = _
  rw [modDoorRt_setDoor]
  rfl

/-- R100: a door enters its mode with no more than its runtime written, unless its level shows open in Contact mode. -/
theorem enterMode_quiet (h : e.mode ≠ .contact ∨ x.level ≠ decide (e.polarity = .highIsOpen)) :
    enterMode d e.mode (setDoor d e x s) = setDoor d e (x.entered e.mode s.trip.clock) s := by
  by_cases hm : e.mode = .contact
  · rw [enterMode_contact hm, judgeContact_stays]
    rw [setDoor_rt, setDoor_entry, hm]
    exact ⟨fun hl => absurd hl (h.resolve_left (not_not.2 hm)), fun hs => nomatch hs⟩
  · cases hx : e.mode with
    | contact => exact absurd hx hm
    | _ => exact modDoorRt_setDoor d e x s _

/-- R100: a door whose level shows open as it enters Contact mode is opened. -/
theorem enterMode_opens (hm : e.mode = .contact) (hl : x.level = decide (e.polarity = .highIsOpen)) :
    enterMode d e.mode (setDoor d e x s) = openDoor d (setDoor d e (x.entered e.mode s.trip.clock) s) := by
  rw [enterMode_contact hm, judgeContact_opens]
  · rw [setDoor_rt, setDoor_entry, hm]
    exact hl
  · rw [setDoor_rt, hm]
    exact fun h => nomatch h

/-- R100: the opening of a door as it enters Contact mode. -/
theorem openDoor_entered (s : State) (hm : e.mode = .contact) : Opens d e.zones s.trip
    (setDoor d e ((x.entered e.mode s.trip.clock).openedAt s) s) (openDoor d (setDoor d e (x.entered e.mode s.trip.clock) s)) :=
  openDoor_setDoor s (by rw [hm]; exact fun h => nomatch h)

/-! ### Changes of mode (R100) -/

/-- R100: a change of the mode of a door that is not Open. -/
theorem changeMode_notOpen (hs : (s.doors.rts.get d).state ≠ .opened) : changeMode d e s =
    enterMode d e.mode (setDoor d e ((s.doors.rts.get d).leave (s.doors.entries.get d).mode) s) := by
  simp only [changeMode, if_neg hs, setDoorEntry_eq, modDoorRt_setDoor]

/-- R95: a closing leaves the trip's state. -/
theorem closeDoor_state (d : Fin 4) (s : State) : (closeDoor d s).trip.record.state = s.trip.record.state := by
  unfold closeDoor
  simp only [sealByDoor]
  rw [sealLots_record, (append_recorded _ _).trip]
  rfl

/-- R94, R95: an opening after a closing is that of the state before it. -/
theorem openedAt_closeDoor (x : DoorRt) (d : Fin 4) (s : State) : x.openedAt (closeDoor d s) = x.openedAt s := by
  have custody := closeDoor_custody d s
  rw [DoorRt.openedAt, closeDoor_state, custody.clock, custody.ref]
  rfl

/-- R94, R95: an opening after a closing is judged as before it. -/
theorem authorized_closeDoor (d : Fin 4) (s : State) : authorized (closeDoor d s).trip d = authorized s.trip d := by
  unfold authorized
  rw [closeDoor_state, (closeDoor_custody d s).stops]

/-- R95, R100: the runtime of an Open door that a change of mode closes and that leaves its old mode. -/
def closedAndLeft (d : Fin 4) (s : State) (start : Nat) : DoorRt :=
  ((s.doors.rts.get d).closedAt s (s.doors.entries.get d).recovery start).leave (s.doors.entries.get d).mode

section
variable {start : Nat} {since : Clock} (hs : (s.doors.rts.get d).state = .opened)
  (ho : OpenSince (s.doors.rts.get d) s start since)

include ho in
/-- R95: what the closing of the door as it stands leaves. -/
theorem closeDoor_openSince : Closed (s.doors.entries.get d).zones (closeDraft d (s.doors.entries.get d).zones s start since)
    (writeDoorRt d ((s.doors.rts.get d).closedAt s (s.doors.entries.get d).recovery start) s) (closeDoor d s) := by
  have closed := closeDoor_written (d := d) ho
  rw [writeDoorRt_self] at closed
  exact closed

include hs ho in
/-- R100, log 19: a change of the mode of an Open door closes it first, under its old entry. -/
theorem changeMode_open :
    changeMode d e s = enterMode d e.mode (setDoor d e (closedAndLeft d s start) (closeDoor d s)) := by
  simp only [changeMode, if_pos hs, setDoorEntry_eq, modDoorRt_setDoor, (closeDoor_openSince ho).rt, closedAndLeft]

include hs ho in
/-- R100: the change of the mode of an Open door whose level then shows no Contact door open. -/
theorem changeMode_closed
    (h : e.mode ≠ .contact ∨ (s.doors.rts.get d).level ≠ decide (e.polarity = .highIsOpen)) :
    Closed (s.doors.entries.get d).zones (closeDraft d (s.doors.entries.get d).zones s start since)
      (setDoor d e ((closedAndLeft d s start).entered e.mode s.trip.clock) s) (changeMode d e s) := by
  rw [changeMode_open hs ho, enterMode_quiet (x := closedAndLeft d s start) h, (closeDoor_custody d s).clock]
  exact (closeDoor_openSince ho).thenSetDoor e _

include hs ho in
/-- R100: the change of an Open door to Contact mode at a level that shows open closes it and opens it again. -/
theorem changeMode_reopens (hm : e.mode = .contact)
    (hl : (s.doors.rts.get d).level = decide (e.polarity = .highIsOpen)) :
    ∃ w, Closed (s.doors.entries.get d).zones (closeDraft d (s.doors.entries.get d).zones s start since)
        (setDoor d e (((closedAndLeft d s start).entered e.mode s.trip.clock).openedAt s) s) w ∧
      Opens d e.zones s.trip w (changeMode d e s) := by
  have opens := openDoor_entered (d := d) (x := closedAndLeft d s start) (closeDoor d s) hm
  rw [← enterMode_opens (x := closedAndLeft d s start) hm hl, ← changeMode_open hs ho, openedAt_closeDoor,
    (closeDoor_custody d s).clock] at opens
  refine ⟨_, (closeDoor_openSince ho).thenSetDoor e _, opens.recorded, ?_,
    fun h => opens.flagged ((authorized_closeDoor d s).trans h)⟩
  rw [← authorized_closeDoor, ← closeDoor_state d s]
  exact opens.appends

end

/-! ### Writes that keep the mode (R101) -/

/-- R101: a write that keeps the mode leaves the runtime, unless a Contact door's new polarity shows the other state. -/
theorem keepMode_quiet (h : e.mode ≠ .contact ∨ e.polarity = (s.doors.entries.get d).polarity ∨
    ((s.doors.rts.get d).level = decide (e.polarity = .highIsOpen) ↔ (s.doors.rts.get d).state = .opened)) :
    keepMode d e s = setDoor d e (s.doors.rts.get d) s := by
  rw [keepMode_eq]
  split
  · next hp =>
    obtain ⟨hm, hp⟩ := hp
    refine judgeContact_stays ?_
    rw [setDoor_rt, setDoor_entry]
    exact (h.resolve_left (not_not.2 hm)).resolve_left (Ne.symm hp)
  · rfl

section
variable (hm : e.mode = .contact) (hp : e.polarity ≠ (s.doors.entries.get d).polarity)
include hm hp

/-- R101: a change of polarity opens a Contact door whose level now shows open. -/
theorem keepMode_opens (hl : (s.doors.rts.get d).level = decide (e.polarity = .highIsOpen))
    (hs : (s.doors.rts.get d).state ≠ .opened) :
    Opens d e.zones s.trip (setDoor d e ((s.doors.rts.get d).openedAt s) s) (keepMode d e s) := by
  rw [keepMode_eq, if_pos ⟨hm, Ne.symm hp⟩, judgeContact_opens]
  · exact openDoor_setDoor s hs
  · rw [setDoor_rt, setDoor_entry]
    exact hl
  · rw [setDoor_rt]
    exact hs

/-- R101: a change of polarity closes a Contact door whose level now shows closed, under the new entry. -/
theorem keepMode_closes {start : Nat} {since : Clock} (hl : (s.doors.rts.get d).level ≠ decide (e.polarity = .highIsOpen))
    (hs : (s.doors.rts.get d).state = .opened) (ho : OpenSince (s.doors.rts.get d) s start since) :
    Closed e.zones (closeDraft d e.zones s start since) (setDoor d e ((s.doors.rts.get d).closedAt s e.recovery start) s)
      (keepMode d e s) := by
  rw [keepMode_eq, if_pos ⟨hm, Ne.symm hp⟩, judgeContact_closes]
  · have closed := closeDoor_written (d := d) (s := setDoorEntry d e s) (x := s.doors.rts.get d)
      ⟨ho.stretch, ho.since, ho.seconds, ho.visit⟩
    rw [show (setDoorEntry d e s).doors.entries.get d = e from get_set_self _ d e] at closed
    exact closed
  · rw [setDoor_rt, setDoor_entry]
    exact hl
  · rw [setDoor_rt]
    exact hs

end

/-- Log 20: a change of the debounce alone, which the change being timed has held: it acts after the write. -/
theorem writeDoor_settles (hd : e.debounce ≠ (s.doors.entries.get d).debounce) (hm : e.mode = (s.doors.entries.get d).mode)
    (hp : e.polarity = (s.doors.entries.get d).polarity) :
    writeDoor d e s = settleLine d (setDoor d e (s.doors.rts.get d) s) := by
  simp only [writeDoor, if_neg (not_not.2 hm.symm), if_pos (Ne.symm hd), keepMode_quiet (.inr (.inl hp))]

/-! ### Writes and their answers (R86) -/

variable {f : DoorFields}

/-- R86: an index that names no door. -/
theorem doorWrite_noEntry {index : Byte} (h : index = 0 ∨ 4 < index.toNat) : doorWrite index f s = (s, .noEntry) := by
  rw [doorWrite, doorOf_none.2 h]

theorem doorModeOf_none : ∀ {x : Byte}, 4 < x.toNat → doorModeOf x = none := by decide

theorem polarityOf_none : ∀ {x : Byte}, 1 < x.toNat → polarityOf x = none := by decide

/-- R86: a mode, polarity or zone that does not exist. -/
theorem doorEntryOf_none (h : 4 < f.mode.toNat ∨ 1 < f.polarity.toNat ∨ 4096 ≤ f.zones.toNat) : doorEntryOf f = none := by
  rcases h with h | h | h
  · rw [doorEntryOf, doorModeOf_none h]
  · rw [doorEntryOf, polarityOf_none h]
    cases doorModeOf f.mode <;> rfl
  · rw [doorEntryOf, maskOf_none (n := 12) h]
    cases doorModeOf f.mode <;> cases polarityOf f.polarity <;> rfl

theorem doorWrite_badValue (h : 4 < f.mode.toNat ∨ 1 < f.polarity.toNat ∨ 4096 ≤ f.zones.toNat) :
    doorWrite (BitVec.ofNat 8 (d.val + 1)) f s = (s, .badValue) := by
  simp only [doorWrite, doorOf_number, doorEntryOf_none h]

/-- R86: a write of values that exist writes the entry brought into range. -/
theorem doorWrite_taken (h1 : f.mode.toNat ≤ 4) (h2 : f.polarity.toNat ≤ 1) (h3 : f.zones.toNat < 4096) :
    doorWrite (BitVec.ofNat 8 (d.val + 1)) f s =
      (writeDoor d
        { mode := if f.mode = 0 then .off else if f.mode = 1 then .contact else if f.mode = 2 then .seal
            else if f.mode = 3 then .count else .inhibit,
          polarity := if f.polarity = 0 then .highIsOpen else .lowIsOpen, debounce := nearestDebounce f.debounce.toNat,
          zones := f.zones.setWidth 12, recovery := min 900 f.recovery.toNat, assumed := max 1 (min 600 f.assumed.toNat) } s,
       if nearestDebounce f.debounce.toNat = f.debounce.toNat ∧ f.recovery.toNat ≤ 900 ∧
         (1 ≤ f.assumed.toNat ∧ f.assumed.toNat ≤ 600) then .done else .adjusted) := by
  simp only [doorWrite, doorOf_number, doorEntryOf_fields f h1 h2 h3, doneOr_iff decide_eq_true_iff, ite_not]

end

/-- A request that is answered leaves the raw flags as its effects have them. -/
theorem Replies.flags {c : Instr} {s u : State} {h : ReqHdr} {kind : Byte} {code : ReplyCode}
    (r : Replies c s u h kind code) : ∃ t, exec c s = .next t ∧ t.trunk.flags = u.trunk.flags := ⟨_, r.1, r.2.flags⟩

/-- Settles O19: the answers to a door write (R86), changes of mode (R100), writes that keep it (R101), and a change being
timed that a new debounce lets act (log 20). -/
theorem doorWritesSetTheDoor : Obligations.DoorWritesSetTheDoor := by
  intro h f s ht
  refine ⟨fun index hi => replies_of rfl ht (doorWrite_noEntry hi), fun d hb => replies_of rfl ht (doorWrite_badValue hb),
    fun d h1 h2 h3 => ?_⟩
  intro n
  obtain ⟨range, nearest, halfway⟩ := nearestDebounce_spec n
  refine ⟨nearestDebounce n, range, nearest, halfway, ?_⟩
  intro e c code old r doors shows leave enter opened ok openEntry unauthorized within closed closeEntry
  have replies : ∀ {u}, writeDoor d e s = u → Replies c s u h kMgWrite code := fun hu =>
    replies_of rfl ht (hu ▸ doorWrite_taken h1 h2 h3)
  have showsOpen : shows = true → r.level = decide (e.polarity = .highIsOpen) := eq_of_beq
  have showsClosed : shows = false → r.level ≠ decide (e.polarity = .highIsOpen) := ne_of_beq_false
  have judged : authorized s.trip d = ok := by
    simp only [ok, authorized]
    cases s.trip.record.state <;> rfl
  have entry : openDraft d e.zones (authorized s.trip d) s.trip.record.state.stop = openEntry := by rw [judged]; rfl
  have raises : ∀ {u w}, Opens d e.zones s.trip u w → writeDoor d e s = w → unauthorized := fun opens hw hk => by
    obtain ⟨t, answer, flags⟩ := (replies hw).flags
    exact ⟨t, answer, by rw [flags]; exact opens.flagged (judged.trans hk)⟩
  have records : ∀ {u w}, Opens d e.zones s.trip u w → writeDoor d e s = w →
      RepliesRecording c s u h kMgWrite code openEntry ∧ unauthorized := fun opens hw =>
    ⟨⟨_, replies hw, opens.recorded, entry ▸ opens.appends⟩, raises opens hw⟩
  refine ⟨fun timed => ⟨fun hm hs => ?newMode, fun start since hs hstart hsince hseconds hvisit => ?fromOpen,
      fun hm => ?sameMode⟩,
    fun x hd hc hx hm hp => ⟨_, rfl, replies (writeDoor_settles hd hm hp)⟩⟩
  case newMode =>
    have changes := (writeDoor_changes timed hm).trans (changeMode_notOpen hs)
    exact ⟨fun hq => replies (changes.trans (enterMode_quiet (hq.imp id showsClosed))), fun hc hl =>
      records (openDoor_entered s hc) (changes.trans (enterMode_opens hc (showsOpen hl)))⟩
  case fromOpen =>
    have openSince : OpenSince r s start since := ⟨hstart, hsince, hseconds, hvisit⟩
    refine ⟨fun hm hq => ⟨_, replies (writeDoor_changes timed hm),
        changeMode_closed hs openSince (hq.imp id showsClosed)⟩,
      fun hm hc hl => ?_, fun hm hc hp hl =>
      ⟨_, replies (writeDoor_keeps timed hm), keepMode_closes hc hp (showsClosed hl) hs openSince⟩⟩
    obtain ⟨w, shut, opens⟩ := changeMode_reopens hs openSince hc (showsOpen hl)
    have changes := writeDoor_changes timed hm
    exact ⟨⟨w, _, replies changes, shut, opens.recorded, entry ▸ opens.appends⟩, raises opens changes⟩
  case sameMode =>
    have keeps := writeDoor_keeps timed hm
    refine ⟨fun hq => replies (keeps.trans (keepMode_quiet (hq.imp id (Or.imp id fun hl => ?_)))), fun hc hp hl hs =>
      records (keepMode_opens hc hp (showsOpen hl) hs) keeps⟩
    constructor
    · exact fun hr => of_decide_eq_true (hl.symm.trans (beq_iff_eq.2 hr))
    · exact fun hs => showsOpen (hl.trans (decide_eq_true hs))

end Sys2Proof.Machine
end

section
/-! PROOFS. Which commands write the dock's door set, the class table or the trunk address, and that every step keeps them
legal (O58; spec 06 R115, spec 03 R42, spec 11 R193). -/

namespace Sys2Proof.Machine

/-! ### The settings that R115, R42 and R193 bind -/

/-- The dock's door set, the class table and the trunk address. -/
def State.settings (s : State) : DoorSet × Vector ClassEntry 8 × Byte :=
  ((s.trip.stops.get 0).doors, s.engine.classes, s.trunk.addr)

/-- R115, R42, R193: the three bounds together. -/
structure SettingsLegal (s : State) : Prop where
  dock    : DockOpenToAll s
  classes : ClassesOrdered s
  address : AddressInRange s

/-- The bounds read those settings alone. -/
theorem SettingsLegal.of_settings {s t : State} (h : SettingsLegal s) (e : t.settings = s.settings) : SettingsLegal t := by
  obtain ⟨hd, hc, ha⟩ := h
  obtain ⟨ed, e⟩ := Prod.mk.inj e
  obtain ⟨ec, ea⟩ := Prod.mk.inj e
  exact ⟨ed.trans hd, fun c => by rw [ec]; exact hc c, by unfold AddressInRange; rw [ea]; exact ha⟩

/-! ### Operations that leave them as they were

The shared operations; then the operations of each unit, in the order of the units. -/

theorem CustodyOnly.settings {s t : State} (h : CustodyOnly s t) : t.settings = s.settings := by
  unfold State.settings
  rw [h.stops, h.engine, h.trunk]

@[simp] theorem hand_settings (f : OutFrame) (s : State) : (hand f s).1.settings = s.settings :=
  (hand_sent f s).recorded.custody.settings

@[simp] theorem offer_settings (n : Nat) (s : State) : (offer n s).settings = s.settings :=
  (offer_sent n s).recorded.custody.settings

@[simp] theorem reply_settings (r : ReplyTo) (c : ReplyCode) (s : State) : (reply r c s).settings = s.settings :=
  hand_settings _ s

@[simp] theorem throughReply_settings (f : Frame) (c : ReplyCode) (s : State) : (throughReply f c s).settings = s.settings :=
  hand_settings _ s

@[simp] theorem raise_settings (k : EventKind) (sub : Subject) (s : State) : (raise k sub s).settings = s.settings :=
  (raise_raised k sub s).recorded.custody.settings

@[simp] theorem append_settings (d : Draft) (s : State) : (append d s).settings = s.settings :=
  (append_recorded d s).custody.settings

@[simp] theorem discardFor_settings (lot : Word) (s : State) : (discardFor lot s).settings = s.settings :=
  (discardFor_recorded lot s).custody.settings

theorem withZones_settings (s : State) (z : Zones) : { s with zones := z }.settings = s.settings := rfl
theorem withLots_settings (s : State) (v : Vector LotEntry 96) : { s with lots := v }.settings = s.settings := rfl
theorem withClaims_settings (s : State) (c : Claims) : { s with claims := c }.settings = s.settings := rfl
theorem withUpdateTimes_settings (s : State) (k : Clock) (n : Nat) :
    { s with engine := { s.engine with lastUpdate := k, timerStart := n } }.settings = s.settings := rfl

@[simp] theorem modLot_settings (s : State) (i : Fin 96) (f : LotEntry → LotEntry) : (s.modLot i f).settings = s.settings := rfl
@[simp] theorem modNodeRt_settings (s : State) (n : Fin 32) (f : NodeRt → NodeRt) : (s.modNodeRt n f).settings = s.settings := rfl
@[simp] theorem modMem_settings (s : State) (n : Fin 32) (f : ScanMem → ScanMem) : (s.modMem n f).settings = s.settings := rfl
@[simp] theorem modDoorRt_settings (s : State) (d : Fin 4) (f : DoorRt → DoorRt) : (s.modDoorRt d f).settings = s.settings := rfl
@[simp] theorem modTrip_settings (s : State) (f : TripRecord → TripRecord) : (s.modTrip f).settings = s.settings := rfl
@[simp] theorem modSensor_settings (s : State) (f : Sensor → Sensor) : (s.modSensor f).settings = s.settings := rfl
@[simp] theorem modList_settings (s : State) (f : List ProofItem → List ProofItem) : (s.modList f).settings = s.settings := rfl
@[simp] theorem setTrain_settings (b : Fin 2) (x : Option Running) (s : State) : (setTrain b x s).settings = s.settings := rfl
@[simp] theorem setRead_settings (r : Option ReadRec) (s : State) : (setRead r s).settings = s.settings := rfl
@[simp] theorem endExport_settings (s : State) : (endExport s).settings = s.settings := rfl
@[simp] theorem runBuilder_settings (s : State) : (runBuilder s).settings = s.settings := rfl
@[simp] theorem discardSlot_settings (k : Fin 4) (s : State) : (discardSlot k s).settings = s.settings := rfl
theorem withPending_settings (s : State) (q : List Instr) : (s.withPending q).settings = s.settings := rfl
@[simp] theorem beginVisit_settings (k : Fin 25) (s : State) : (beginVisit k s).settings = s.settings := rfl
@[simp] theorem endVisit_settings (s : State) : (endVisit s).settings = s.settings := rfl
@[simp] theorem dropAdvisories_settings (s : State) : (dropAdvisories s).settings = s.settings := rfl

/-- A fold of operations that leave the settings leaves them. -/
theorem foldl_keepsSettings {α : Type} {f : State → α → State} (hf : ∀ s a, (f s a).settings = s.settings) (l : List α)
    (s : State) : (l.foldl f s).settings = s.settings :=
  foldl_keeps (fun t => t.settings = s.settings) f l (fun t a h => (hf t a).trans h) s rfl

/-! The sensor line, readings and zones (spec 01, 02). -/

@[simp] theorem nodeEvent_settings (n : Fin 32) (k : EventKind) (kind : EntryKind) (s : State) :
    (nodeEvent n k kind s).settings = s.settings := by simp [nodeEvent]

@[simp] theorem goodNode_settings (n : Fin 32) (s : State) : (goodNode n s).settings = s.settings := by
  simp [goodNode, apply_ite State.settings]

@[simp] theorem takeMiss_settings (n : Fin 32) (a : Byte) (k : MissKind) (s : State) :
    (takeMiss n a k s).settings = s.settings := by simp [takeMiss, apply_ite State.settings]

@[simp] theorem report_settings (n : Fin 32) (v : Int) (s : State) : (report n v s).settings = s.settings := by
  simp [report, apply_ite State.settings]

@[simp] theorem applyPolicy_settings (n : Fin 32) (v : Int) (s : State) : (applyPolicy n v s).settings = s.settings := by
  unfold applyPolicy
  cases (s.sensor.nodes.get n).policy <;> simp [apply_ite State.settings]

@[simp] theorem takeReading_settings (n : Fin 32) (raw : Half) (q : Byte) (s : State) :
    (takeReading n raw q s).settings = s.settings := by simp [takeReading, apply_ite State.settings]

theorem takeThrough_settings (f : Frame) (s : State) : (takeThrough f s).settings = s.settings := by
  unfold takeThrough
  split
  · simp
  · simp [apply_ite State.settings]

theorem beginThrough_settings (s : State) : (beginThrough s).settings = s.settings := by
  unfold beginThrough
  split <;> rfl

theorem writeNode_settings (n : Fin 32) (e : NodeEntry) (s : State) : (writeNode n e s).settings = s.settings := by
  rw [writeNode_eq]
  exact (foldl_hand_sent _ _).recorded.custody.settings

theorem nodeWrite_settings (index : Byte) (f : NodeFields) (s : State) : (nodeWrite index f s).1.settings = s.settings := by
  unfold nodeWrite
  repeat' split
  · rfl
  · rfl
  · exact writeNode_settings _ _ s
  · rfl

theorem zoneWrite_settings (index : Byte) (f : ZoneFields) (s : State) : (zoneWrite index f s).1.settings = s.settings := by
  unfold zoneWrite
  repeat' split
  all_goals rfl

theorem computeZones_settings (s : State) : (computeZones s).settings = s.settings :=
  (computeZones_spec s).1.custody.settings.trans (withZones_settings s _)

/-! Scans and handovers (spec 07). -/

@[simp] theorem openHandoverOf_settings (i : Fin 96) (scanner : Byte) (token : Word) (marks : Advisory) (s : State) :
    (openHandoverOf i scanner token marks s).settings = s.settings := by simp [openHandoverOf]

theorem judgeLoad_settings (scanner : Byte) (lot : Word) (s : State) : (judgeLoad scanner lot s).1.settings = s.settings := by
  unfold judgeLoad
  repeat' split
  · rfl
  · rfl
  · rfl
  · simp [loadLot]

theorem judgeUnload_settings (n : Fin 32) (scanner : Byte) (f : ScanFields) (s : State) :
    (judgeUnload n scanner f s).1.settings = s.settings := by
  unfold judgeUnload
  dsimp only
  repeat' split
  all_goals simp

theorem judgeConfirm_settings (n : Fin 32) (scanner : Byte) (f : ScanFields) (s : State) :
    (judgeConfirm n scanner f s).1.settings = s.settings := by
  unfold judgeConfirm
  dsimp only
  repeat' split
  all_goals simp

theorem judgeRefuse_settings (scanner : Byte) (f : ScanFields) (s : State) :
    (judgeRefuse scanner f s).1.settings = s.settings := by
  unfold judgeRefuse
  repeat' split
  · rfl
  · rfl
  · simp [cancelHandover]

theorem judgeScan_settings (n : Fin 32) (scanner : Byte) (a : ScanAction) (f : ScanFields) (s : State) :
    (judgeScan n scanner a f s).1.settings = s.settings := by
  cases a with
  | load => exact judgeLoad_settings scanner f.lot s
  | unload => exact judgeUnload_settings n scanner f _
  | confirm => exact judgeConfirm_settings n scanner f s
  | refuse => exact judgeRefuse_settings scanner f s

@[simp] theorem takeScan_settings (n : Fin 32) (f : ScanFields) (s : State) : (takeScan n f s).settings = s.settings := by
  unfold takeScan
  repeat' split
  · rfl
  · rfl
  · simp [judgeScan_settings]

@[simp] theorem handOn_settings (n : Fin 32) (f : Frame) (s : State) : (handOn n f s).settings = s.settings := by
  unfold handOn
  repeat' split
  all_goals simp

theorem takeReply_settings (n : Fin 32) (accessory : Bool) (polled : Byte) (ok : Bool) (f : Frame) (s : State) :
    (takeReply n accessory polled ok f s).settings = s.settings := by
  unfold takeReply
  dsimp only
  split <;> simp

theorem takeSensorFrame_settings (ok : Bool) (f : Frame) (s : State) : (takeSensorFrame ok f s).settings = s.settings := by
  unfold takeSensorFrame
  split
  · rfl
  · exact takeReply_settings _ _ _ ok f s
  · simp [apply_ite State.settings]

/-! Lots, trips and proofs (spec 03, 04, 06, 08). -/

theorem updateLots_settings (s : State) : (updateLots s).settings = s.settings := by
  refine foldl_keepsSettings (fun t i => ?_) _ s
  split
  · exact (updateLot_spec i t).1.custody.settings
  · rfl

theorem engineWrite_settings (index : Byte) (f : EngineFields) (s : State) :
    (engineWrite index f s).1.settings = s.settings := by
  unfold engineWrite
  dsimp only
  repeat' split
  all_goals rfl

theorem manifestAdd_settings (f : ManifestFields) (s : State) : (manifestAdd f s).1.settings = s.settings := by
  unfold manifestAdd manifestPlace
  dsimp only
  repeat' split
  all_goals rfl

theorem manifestDelete_settings (lot : Word) (s : State) : (manifestDelete lot s).1.settings = s.settings := by
  unfold manifestDelete
  repeat' split
  all_goals simp [freeLot]

theorem expireLot_settings (i : Fin 96) (s : State) : (expireLot i s).settings = s.settings :=
  discardFor_settings _ s

theorem moveLot_settings (lot : Word) (z : Byte) (s : State) : (moveLot lot z s).1.settings = s.settings := by
  unfold moveLot
  repeat' split
  all_goals simp [moveTo]

@[simp] theorem shortAll_settings (stop : Nat) (s : State) : (shortAll stop s).settings = s.settings :=
  (shortAll_rest stop s).custody.settings.trans (withLots_settings s _)

@[simp] theorem returnAll_settings (s : State) : (returnAll s).settings = s.settings :=
  (returnAll_rest s).custody.settings.trans (withLots_settings s _)

@[simp] theorem sealLots_settings (c : SealCause) (p : LotEntry → Bool) (s : State) : (sealLots c p s).settings = s.settings :=
  (sealLots_custody c p s).settings

@[simp] theorem markUnconfirmed_settings (p : ProofItem) (s : State) : (markUnconfirmed p s).settings = s.settings :=
  (markUnconfirmed_custody p s).settings

@[simp] theorem emptyProofs_settings (n : Nat) (s : State) : (emptyProofs n s).settings = s.settings := by
  induction n generalizing s with
  | zero => rfl
  | succ n ih =>
    unfold emptyProofs
    split
    · rfl
    · rw [ih, markUnconfirmed_settings]
      rfl

/-- R117: clearing the visited marks leaves every door set. -/
@[simp] theorem clearVisited_settings (s : State) : (clearVisited s).settings = s.settings := by
  simp [State.settings, clearVisited]

theorem dropPlanned_settings (m : TripMode) (s : State) : (dropPlanned m s).settings = s.settings := by cases m <;> rfl

theorem tripOpen_settings (p : TripOpenParams) (s : State) : (tripOpen p s).1.settings = s.settings := by
  unfold tripOpen
  repeat' split
  · rfl
  · rfl
  · simp [openTrip, dropPlanned_settings]

theorem depart_settings (s : State) : (depart s).1.settings = s.settings := by
  unfold depart
  split
  · simp [departTrip]
  · rfl

/-- R113: an arrival marks its stop visited and leaves every door set. -/
theorem arriveAt_settings (k : Fin 25) (s : State) : (arriveAt k s).settings = s.settings := by
  have marked : ((upd s.trip.stops k fun e => { e with visited := true }).get 0).doors = (s.trip.stops.get 0).doors := by
    rw [get_upd]
    split
    next h => rw [h]
    next => rfl
  rw [arriveAt, append_settings, beginVisit_settings]
  exact congrArg (·, _) marked

theorem arrive_settings (stop : Byte) (s : State) : (arrive stop s).1.settings = s.settings := by
  unfold arrive
  repeat' split
  all_goals simp [arriveAt_settings]

theorem tripClose_settings (s : State) : (tripClose s).1.settings = s.settings := by
  unfold tripClose
  split
  · simp [closeTrip, apply_ite State.settings]
  · rfl

theorem setTime_settings (v : Clock) (s : State) : (setTime v s).settings = s.settings := by
  unfold setTime
  dsimp only
  split
  · rw [append_settings, raise_settings]
    rfl
  · rfl

theorem proofAck_settings (n : Half) (check : Word) (s : State) : (proofAck n check s).1.settings = s.settings := by
  unfold proofAck
  repeat' split
  all_goals simp [confirmProof]

/-! Doors and beacons (spec 05). -/

@[simp] theorem closeDoor_settings (d : Fin 4) (s : State) : (closeDoor d s).settings = s.settings :=
  (closeDoor_custody d s).settings

@[simp] theorem settleLine_settings (d : Fin 4) (s : State) : (settleLine d s).settings = s.settings :=
  (settleLine_custody d s).settings

theorem armSeal_settings (door : Byte) (s : State) : (armSeal door s).1.settings = s.settings := by
  unfold armSeal
  dsimp only
  repeat' split
  all_goals rfl

@[simp] theorem judgeContact_settings (d : Fin 4) (s : State) : (judgeContact d s).settings = s.settings :=
  (judgeContact_custody d s).settings

@[simp] theorem setDoorEntry_settings (d : Fin 4) (e : DoorEntry) (s : State) : (setDoorEntry d e s).settings = s.settings := rfl

@[simp] theorem enterMode_settings (d : Fin 4) (m : DoorMode) (s : State) : (enterMode d m s).settings = s.settings := by
  cases m <;> simp [enterMode]

theorem doorWrite_settings (index : Byte) (f : DoorFields) (s : State) : (doorWrite index f s).1.settings = s.settings := by
  unfold doorWrite
  repeat' split
  · rfl
  · rfl
  · simp [writeDoor, changeMode, keepMode, apply_ite State.settings]

theorem beaconWrite_settings (index : Byte) (f : BeaconFields) (s : State) : (beaconWrite index f s).1.settings = s.settings := by
  unfold beaconWrite
  repeat' split
  all_goals rfl

theorem beaconClear_settings (set : Byte) (s : State) : (beaconClear set s).1.settings = s.settings := by
  unfold beaconClear stopTrains
  split
  · rfl
  · simp [apply_ite State.settings]

/-! Exports, claims, reads and the trunk port's own commands (spec 09, 10, 11). -/

theorem jrnlReq_settings (r : ReplyTo) (m : JrnlMode) (n : Word) (count : Half) (s : State) :
    (jrnlReq r m n count s).settings = s.settings := by
  unfold jrnlReq
  repeat' split
  · simp
  · simp
  · rw [startExport, offer_settings]
    exact (reply_settings _ _ _).trans (endExport_settings s)

theorem answerPlain_settings (q : Query) (a : ClaimAnswer) (s : State) : (answerPlain q a s).settings = s.settings :=
  hand_settings _ _

@[simp] theorem openFor_settings (q : Query) (s : State) : (openFor q s).settings = s.settings := by
  unfold openFor
  split
  · exact (hand_settings _ _).trans (runBuilder_settings _)
  · exact answerPlain_settings q _ s

theorem handAll_settings (fs : List OutFrame) (s : State) : (handAll fs s).1.settings = s.settings := by
  induction fs generalizing s with
  | nil => rfl
  | cons f fs ih =>
    unfold handAll
    dsimp only
    split
    · rw [ih, hand_settings]
    · exact hand_settings f s

theorem sendStatement_settings (q : Query) (k : Fin 4) (x : Statement) (s : State) :
    (sendStatement q k x s).settings = s.settings := by
  unfold sendStatement
  dsimp only
  split
  · rw [withClaims_settings, handAll_settings]
  · exact handAll_settings _ s

theorem claimQuery_settings (q : Query) (s : State) : (claimQuery q s).settings = s.settings := by
  unfold claimQuery answerFromSlots
  repeat' split
  all_goals simp [answerPlain_settings, answerSlot, sendStatement_settings]

theorem sendPiece_settings (r : ReadRec) (s : State) : (sendPiece r s).settings = s.settings := by
  simp [sendPiece, apply_ite State.settings]

theorem tableRead_settings (r : ReplyTo) (table first count : Nat) (s : State) :
    (tableRead r table first count s).settings = s.settings := by
  unfold tableRead
  dsimp only
  split
  · simp
  · simp
  · exact sendPiece_settings _ _

theorem eventSettingsWrite_settings (index : Byte) (kinds : Half) (s : State) :
    (eventSettingsWrite index kinds s).1.settings = s.settings := by
  unfold eventSettingsWrite
  repeat' split
  all_goals rfl

theorem eventClear_settings (kinds : Half) (s : State) : (eventClear kinds s).1.settings = s.settings := by
  unfold eventClear
  split <;> rfl

/-- R184: beginning a transmission leaves the trunk address. -/
theorem begin_addr (t : Trunk) : t.begin.addr = t.addr := by rw [begin_rest]

/-- R195: a RESET_FULL that is taken leaves the trunk address. -/
theorem beginFull_addr (r : ReplyTo) (t : Trunk) : (t.beginFull r).addr = t.addr := begin_addr _

/-- R184: the end of a transmission leaves the trunk address. -/
theorem doneSent_endTx_addr (t : Trunk) : t.doneSent.endTx.addr = t.addr := by
  refine (begin_addr _).trans ?_
  unfold Trunk.doneSent
  repeat' split
  all_goals rfl

/-! ### Commands that leave the settings as they were -/

/-- Whether a command may write one of the settings: a write of the class or the stop table or of the address, a reset. -/
def Instr.writesSettings : Instr → Bool
  | .classTableWrite _ _ _ | .stopTableWrite _ _ _ | .setAddress _ _ | .resetFullTakesEffect | .powerOnReset _ => true
  | _ => false

theorem next_settings {s t u : State} (h : (.next u : Answer) = .next t) (hu : u.settings = s.settings) :
    t.settings = s.settings := by
  cases h
  exact hu

/-- R183: a request leaves the settings when its block does. -/
theorem onRequest_settings {h : ReqHdr} {s t : State} {g : State → State} (e : onRequest h s g = .next t)
    (hg : (g s).settings = s.settings) : t.settings = s.settings :=
  onRequest_keeps (fun u => u.settings = s.settings) e rfl hg rfl

/-- R188, R189: a request that answers with a code leaves the settings when its effects do. -/
theorem answered_settings {h : ReqHdr} {k : Byte} {s t : State} {g : State → State × ReplyCode}
    (e : onRequest h s (fun s => answered h k (g s)) = .next t) (hg : (g s).1.settings = s.settings) :
    t.settings = s.settings :=
  onRequest_settings e ((reply_settings _ _ _).trans hg)

/-! The rows of frames that may belong to another row (log 4): such a frame is refused, and leaves no state. -/

theorem execThroughFrame_settings {f : Frame} {s t : State} (h : execThroughFrame f s = .next t) :
    t.settings = s.settings := by
  unfold execThroughFrame at h
  split at h
  · exact next_settings h (by simp [apply_ite State.settings, takeThrough_settings])
  · exact nomatch h

theorem execMgWriteRefused_settings {hd : ReqHdr} {payload : List Byte} {s t : State}
    (h : execMgWriteRefused hd payload s = .next t) : t.settings = s.settings := by
  unfold execMgWriteRefused at h
  split at h
  · exact onRequest_settings h (reply_settings _ _ s)
  · exact nomatch h

theorem execMgCmdInvalid_settings {hd : ReqHdr} {payload : List Byte} {s t : State}
    (h : execMgCmdInvalid hd payload s = .next t) : t.settings = s.settings := by
  unfold execMgCmdInvalid at h
  split at h
  · exact onRequest_settings h (reply_settings _ _ s)
  · exact nomatch h

theorem execFrameError_settings {f : Frame} {check : Half} {s t : State} (h : execFrameError f check s = .next t) :
    t.settings = s.settings := by
  unfold execFrameError at h
  split at h
  · exact next_settings h (by split <;> rfl)
  · exact nomatch h

/-- No command but those of `writesSettings` touches the settings. -/
theorem exec_settings {c : Instr} {s t : State} (hc : Instr.writesSettings c = false) (h : exec c s = .next t) :
    t.settings = s.settings := by
  cases c
  all_goals unfold exec at h
  case throughFrame => exact execThroughFrame_settings h
  case mgWriteRefused => exact execMgWriteRefused_settings h
  case mgCmdInvalid => exact execMgCmdInvalid_settings h
  case frameError => exact execFrameError_settings h
  case powerOnReset | classTableWrite | stopTableWrite | setAddress | resetFullTakesEffect => exact nomatch hc
  case roundStart =>
    refine next_settings h ?_
    repeat' split
    all_goals rfl
  case poll =>
    refine next_settings h ?_
    repeat' split
    all_goals rfl
  case thruOut => exact next_settings h (by simp [apply_ite State.settings, beginThrough_settings])
  case replyReading | replyScan | replyIdle | badReply | straySensorFrame | thruBack | thruWindowOtherFrame =>
    exact next_settings h (takeSensorFrame_settings _ _ s)
  case replyWindowExpiry => exact next_settings h (by split <;> simp [apply_ite State.settings])
  case throughWindowExpiry => exact next_settings h (by split <;> simp [apply_ite State.settings])
  case roundEnd => exact next_settings h (by split <;> simp [apply_ite State.settings, computeZones_settings])
  case updateEvent =>
    refine next_settings h ?_
    split
    · exact (withUpdateTimes_settings _ _ _).trans (updateLots_settings s)
    · rfl
  case mgRead =>
    refine onRequest_settings h ?_
    split
    · exact tableRead_settings _ _ _ _ s
    · exact reply_settings _ _ s
  case mgReadNextFrame => exact next_settings h (by split <;> simp [apply_ite State.settings, sendPiece_settings])
  case nodeTableWrite => exact answered_settings h (nodeWrite_settings _ _ s)
  case lineSettingsWrite => exact answered_settings h (by rw [lineWrite_eq]; simp only; split <;> rfl)
  case zoneTableWrite => exact answered_settings h (zoneWrite_settings _ _ s)
  case engineSettingsWrite => exact answered_settings h (engineWrite_settings _ _ s)
  case manifestAdd => exact answered_settings h (manifestAdd_settings _ s)
  case manifestDelete => exact answered_settings h (manifestDelete_settings _ s)
  case doorTableWrite => exact answered_settings h (doorWrite_settings _ _ s)
  case beaconTableWrite => exact answered_settings h (beaconWrite_settings _ _ s)
  case scanSettingsWrite => exact answered_settings h (by rw [scanSettingsWrite_eq]; simp only; split <;> rfl)
  case proofSettingsWrite => exact answered_settings h (by rw [proofSettingsWrite_eq]; simp only; split <;> rfl)
  case claimSettingsWrite => exact answered_settings h (by rw [claimSettingsWrite_eq]; simp only; split <;> rfl)
  case eventSettingsWrite => exact answered_settings h (eventSettingsWrite_settings _ _ s)
  case tripOpen => exact answered_settings h (tripOpen_settings _ s)
  case depart => exact answered_settings h (depart_settings s)
  case arrive => exact answered_settings h (arrive_settings _ s)
  case tripClose => exact answered_settings h (tripClose_settings s)
  case moveLot => exact answered_settings h (moveLot_settings _ _ s)
  case armSeal => exact answered_settings h (armSeal_settings _ s)
  case beaconClear => exact answered_settings h (beaconClear_settings _ s)
  case timeSet => exact answered_settings (g := fun s => (setTime _ s, .done)) h (setTime_settings _ s)
  case eventClear => exact answered_settings h (eventClear_settings _ s)
  case resetLink => exact answered_settings (g := fun s => (linkReset s, .done)) h rfl
  case resetFull => exact onRequest_settings h (congrArg (_, _, ·) (beginFull_addr _ _))
  case doorLineChange => exact next_settings h (by simp [apply_ite State.settings])
  case debounceExpiry => exact next_settings h (settleLine_settings _ s)
  case assumedOpenTimeExpiry => exact next_settings h (by simp [apply_ite State.settings])
  case recoveryWindowEnd => exact next_settings h rfl
  case doorOverlong => exact next_settings h (by simp [apply_ite State.settings])
  case beaconPhaseEnd => exact next_settings h (by split <;> simp [apply_ite State.settings])
  case advisoryExpiry => exact next_settings h (by simp [apply_ite State.settings])
  case settleDeadline => exact next_settings h (by simp [apply_ite State.settings, (sealLot_custody _ _ s).settings])
  case ackDeadline => exact next_settings h (by split <;> simp)
  case proofAck =>
    refine answered_settings h ?_
    split
    · exact proofAck_settings _ _ s
    · rfl
  case retentionExpiry => exact next_settings h (by simp [apply_ite State.settings, expireLot_settings])
  case jrnlReq =>
    refine onRequest_settings h ?_
    repeat' split
    · exact reply_settings _ _ s
    · exact jrnlReq_settings _ _ _ _ s
    · exact reply_settings _ _ s
  case claimQ =>
    refine onRequest_settings h ?_
    split
    · exact claimQuery_settings _ s
    · exact reply_settings _ _ s
  case buildCompletion => exact next_settings h (by split <;> rfl)
  case claimWindowDeadline => exact next_settings h (by simp [apply_ite State.settings])
  case transmissionEnd =>
    refine next_settings h ?_
    split
    · rfl
    · rw [offer_settings]
      exact congrArg (_, _, ·) (doneSent_endTx_addr _)

/-! ### Writes of the settings, and resets -/

/-- R42: a taken class write has its limits in order. -/
theorem classWrite_legal {s : State} (index : Byte) (f : ClassFields) (h : SettingsLegal s) :
    SettingsLegal (classWrite index f s).1 := by
  unfold classWrite
  dsimp only
  split
  next hi =>
    split
    · exact h
    · split
      · exact h
      · split
        · exact h
        next ho =>
          obtain ⟨ht, hw⟩ := not_or.1 ho
          refine ⟨h.dock, fun c => ?_, h.address⟩
          show _ < ((s.engine.classes.set index.toNat (ClassFields.clamped f) hi).get c).ts ∧ _
          rw [get_set s.engine.classes ⟨index.toNat, hi⟩ c]
          split
          · exact ⟨Int.not_le.1 ht, Nat.not_lt.1 hw⟩
          · exact h.classes c
  · exact h

/-- R115, R116: a stop write leaves the dock's door set at all four doors. -/
theorem stopWrite_legal {s : State} (index : Byte) (f : StopFields) (h : SettingsLegal s) :
    SettingsLegal (stopWrite index f s).1 := by
  unfold stopWrite
  split
  · exact h
  next k _ =>
    split
    · exact h
    · split
      · exact h
      · refine ⟨?_, h.classes, h.address⟩
        unfold DockOpenToAll
        dsimp only
        rw [get_upd]
        split
        next hk => exact if_pos hk.symm
        next => exact h.dock

/-- R193: a taken SET_ADDRESS gives an address from 0x01 to 0x7F. -/
theorem setAddress_legal {s : State} (a : Byte) (h : SettingsLegal s) : SettingsLegal (setAddress a s).1 := by
  unfold setAddress
  split
  next ha => exact ⟨h.dock, h.classes, ha⟩
  next => exact h

/-- R195: power-on values are legal, with an address that is. -/
theorem powerOnState_legal (now : Nat) (straps : BitVec 2) (clock : Clock) (unsynced : Bool) {addr : Byte} (s : State)
    (ha : 1 ≤ addr.toNat ∧ addr.toNat ≤ 0x7F) : SettingsLegal (powerOnState now straps clock unsynced addr s) := by
  refine ⟨?_, fun c => ?_, ha⟩
  · show (((Vector.replicate 25 StopEntry.powerOn).set 0 { StopEntry.powerOn with doors := 0b1111 }).get 0).doors = _
    rfl
  · simp [powerOnState, Engine.powerOn]

/-- R193: every address of the strap lines is one from 0x01 to 0x7F. -/
theorem strapAddress_range (straps : BitVec 2) : 1 ≤ (strapAddress straps).toNat ∧ (strapAddress straps).toNat ≤ 0x7F := by
  revert straps
  decide

/-- A request that answers with a code keeps the settings legal when its effects do. -/
theorem answered_legal {h : ReqHdr} {k : Byte} {s t : State} {g : State → State × ReplyCode} (hs : SettingsLegal s)
    (e : onRequest h s (fun s => answered h k (g s)) = .next t) (hg : SettingsLegal (g s).1) : SettingsLegal t :=
  onRequest_keeps SettingsLegal e hs (hg.of_settings (reply_settings _ _ _)) (hs.of_settings rfl)

/-- R115, R42, R193: every command keeps the settings legal. -/
theorem exec_legal {c : Instr} {s t : State} (hs : SettingsLegal s) (h : exec c s = .next t) : SettingsLegal t := by
  cases hc : Instr.writesSettings c with
  | false => exact hs.of_settings (exec_settings hc h)
  | true =>
    cases c
    case classTableWrite => exact answered_legal hs h (classWrite_legal _ _ hs)
    case stopTableWrite => exact answered_legal hs h (stopWrite_legal _ _ hs)
    case setAddress => exact answered_legal hs h (setAddress_legal _ hs)
    case powerOnReset straps => cases h; exact powerOnState_legal _ _ _ _ s (strapAddress_range straps)
    case resetFullTakesEffect =>
      unfold exec execResetFullTakesEffect at h
      cases h
      split
      · exact powerOnState_legal _ _ _ _ s hs.address
      · exact hs
    all_goals exact nomatch hc

/-- Settles O58: a step runs a command, of the queue or due, or lets a millisecond pass, which touches no setting. -/
theorem everyStepKeepsTheSettingsLegal : Obligations.EveryStepKeepsTheSettingsLegal := by
  intro s t hd hcl ha h
  have hs : SettingsLegal s := ⟨hd, hcl, ha⟩
  have legal : SettingsLegal t := by
    unfold step at h
    split at h
    · exact exec_legal (hs.of_settings (withPending_settings s _)) h
    · unfold idleStep at h
      split at h
      · exact exec_legal hs h
      · cases h
        exact hs.of_settings rfl
  exact ⟨legal.dock, legal.classes, legal.address⟩

end Sys2Proof.Machine
end

section
/-! PROOFS. Idle steps and the clock: what a step with no command waiting does (O2; spec 06 R118, log 2), and TIME_SET
(O24; spec 06 R119, R120). -/

namespace Sys2Proof.Machine

/-! ### Idle steps (R118) -/

/-- R118: a second passes on the device clock, which holds at its greatest value. -/
theorem tickClock_eq (c : Clock) : tickClock c = if c ≠ 4294967295#32 then c + 1 else c := by
  have hc := c.isLt
  apply BitVec.eq_of_toNat_eq
  rw [tickClock, satAdd_toNat]
  split
  next h =>
    have hlt : c.toNat ≠ 4294967295 := fun e => h (BitVec.eq_of_toNat_eq e)
    rw [BitVec.toNat_add]
    show _ = (c.toNat + 1) % 4294967296
    omega
  next h =>
    rw [not_not.1 h]
    rfl

/-- R118, log 5: what a millisecond leaves. -/
theorem advance_eq (s : State) : advance s = { s with ref := s.ref + 1, trip := { s.trip with
    clock := if (s.ref + 1) % 1000 = 0 ∧ s.trip.clock ≠ 4294967295#32 then s.trip.clock + 1 else s.trip.clock } } := by
  rw [advance, tickClock_eq, ite_and]

section
variable {s : State} (hp : s.pending = [])
include hp

/-- Log 2: with no command waiting a step is an idle step. -/
theorem step_idle : step s = idleStep s := by rw [step, hp]

/-- Log 2: an idle step takes the first event that is due. -/
theorem step_due {c : Instr} (hc : nextDue s = some c) : step s = exec c s := by rw [step_idle hp, idleStep, hc]

/-- Log 2: with no event due a millisecond passes. -/
theorem step_quiet (hn : nextDue s = none) : step s = .next (advance s) := by rw [step_idle hp, idleStep, hn]

end

/-- Settles O2, from the two cases of an idle step. -/
theorem idleStepTakesADueEventOrAMillisecond : Obligations.IdleStepTakesADueEventOrAMillisecond := fun s hp =>
  ⟨fun _ hc => step_due hp hc, fun hn => by rw [step_quiet hp hn, advance_eq]⟩

/-! ### TIME_SET (R119, R120) -/

/-- R119: the size of a clock step is the distance of the two clocks. -/
theorem stepSize_eq (a b : Clock) : stepSize a b = ((a.toNat : Int) - b.toNat).natAbs := by
  unfold stepSize
  omega

/-- R119: the clock set, and its unsynced mark cleared. -/
def withClock (v : Clock) (s : State) : State := { s with trip := { s.trip with clock := v, unsynced := false } }

/-- R120: the entry of a TimeJump, from the clock before and the value given. -/
def timeJumpDraft (old v : Clock) : Draft := { kind := .timeJump, v1 := old, v2 := v }

/-- R120: with no trip open, or by a step of at most 300 s, the clock alone is set. -/
theorem setTime_quiet {v : Clock} {s : State} (h : s.trip.record.state = .noTrip ∨ stepSize v s.clock ≤ 300) :
    setTime v s = withClock v s :=
  if_neg fun ⟨hopen, hstep⟩ => h.elim ((tripIsOpen_iff s).1 hopen) (Nat.not_le.2 hstep)

/-- R120: a greater step during a trip is raised and then appended, once the clock has been set. -/
theorem setTime_jump {v : Clock} {s : State} (hopen : s.trip.record.state ≠ .noTrip) (hstep : 300 < stepSize v s.clock) :
    setTime v s = append (timeJumpDraft s.clock v) (raise .timeJump .none (withClock v s)) :=
  if_pos ⟨(tripIsOpen_iff s).2 hopen, hstep⟩

/-- Settles O24: a quiet TIME_SET sets the clock; a jump is raised and appended beside it, the flag standing after the
append and the reply. -/
theorem timeSetSetsTheClock : Obligations.TimeSetSetsTheClock := by
  intro h v s ht u step
  have size : stepSize v s.clock = step := stepSize_eq v s.clock
  refine ⟨fun hq => replies_of (g := fun s => (setTime v s, .done)) rfl ht ?_, fun hopen hstep => ?_⟩
  · rw [setTime_quiet (hq.imp_right (size ▸ ·))]
    rfl
  · obtain ⟨recorded, appends, raised⟩ := append_raise_records (k := .timeJump) (by decide) .none (timeJumpDraft s.clock v) u
    have jump := setTime_jump hopen (size ▸ hstep)
    have records : RepliesRecording (.timeSet h v) s u h kMgCmd .done (timeJumpDraft s.clock v) :=
      repliesRecording_of (g := fun s => (setTime v s, .done)) rfl ht (congrArg (·, _) jump) recorded appends
    have replies : Replies (.timeSet h v) s (append (timeJumpDraft s.clock v) (raise .timeJump .none u)) h kMgCmd .done :=
      replies_of (g := fun s => (setTime v s, .done)) rfl ht (congrArg (·, _) jump)
    exact ⟨records, _, replies.1, by rw [replies.2.flags]; exact raised⟩

end Sys2Proof.Machine
end

section
/-! PROOFS. Stop table writes (O18; spec 06 R115, R116; spec 11 R188). -/

namespace Sys2Proof.Machine

section
variable {f : StopFields} {s : State} {k : Fin 25}

/-- R116 row 1: an index that names no stop. -/
theorem stopWrite_noEntry {index : Byte} (h : 25 ≤ index.toNat) : stopWrite index f s = (s, .noEntry) := by
  rw [stopWrite, stopOf_none.2 h]

/-- R116 row 2: a stop that has been visited. -/
theorem stopWrite_locked (hk : k ≠ 0) (hv : (s.trip.stops.get k).visited = true) :
    stopWrite (BitVec.ofNat 8 k.val) f s = (s, .locked) := by
  rw [stopWrite, stopOf_number]
  exact if_pos ⟨hk, hv⟩

variable (hv : k = 0 ∨ (s.trip.stops.get k).visited = false)
include hv

/-- R116: the dock, and a stop that has not been visited, are not locked. -/
theorem stop_unlocked : ¬(k ≠ 0 ∧ (s.trip.stops.get k).visited = true) := fun ⟨hk, hvisited⟩ =>
  hv.elim hk fun hn => Bool.false_ne_true (hn.symm.trans hvisited)

/-- R116 row 3: a door that does not exist. -/
theorem stopWrite_badValue (hd : 16 ≤ f.doors.toNat) : stopWrite (BitVec.ofNat 8 k.val) f s = (s, .badValue) := by
  simp only [stopWrite, stopOf_number, if_neg (stop_unlocked hv), maskOf_none (n := 4) hd]

end

/-- R115, R116: the entry that a taken write leaves. -/
def stopEntryOf (k : Fin 25) (f : StopFields) (old : StopEntry) : StopEntry :=
  { old with stopId := f.stopId, doors := if k = 0 then 0b1111 else f.doors.setWidth 4,
             budget := min 3600 f.budget.toNat, settle := max 10 (min 600 f.settle.toNat) }

/-- R115: the door set given is held as it is, but for a dock's that leaves a door out. -/
theorem heldDoors_eq_iff {k : Fin 25} {doors : Byte} (h : doors.toNat < 16) :
    (if k = 0 then 0b1111 else doors.setWidth 4) = (doors.setWidth 4 : DoorSet) ↔ (k = 0 → doors = 0b1111) := by
  by_cases hk : k = 0
  · rw [if_pos hk, forall_prop_of_true hk, BitVec.toNat_eq, BitVec.toNat_eq, BitVec.toNat_setWidth]
    show 15 = doors.toNat % 16 ↔ doors.toNat = 15
    omega
  · exact iff_of_true (if_neg hk) fun h => absurd h hk

/-- R116 rows 4 and 5: a taken write is answered Done when every field is held as given. -/
theorem stopWrite_taken {f : StopFields} {s : State} {k : Fin 25} (hv : k = 0 ∨ (s.trip.stops.get k).visited = false)
    (hd : f.doors.toNat < 16) : stopWrite (BitVec.ofNat 8 k.val) f s =
      ({ s with trip := { s.trip with stops := s.trip.stops.set k.val (stopEntryOf k f (s.trip.stops.get k)) k.isLt } },
       if f.budget.toNat ≤ 3600 ∧ (10 ≤ f.settle.toNat ∧ f.settle.toNat ≤ 600) ∧ (k = 0 → f.doors = 0b1111) then .done
       else .adjusted) := by
  have budget : clamp 0 3600 f.budget.toNat = min 3600 f.budget.toNat := Nat.zero_max _
  have inBudget : min 3600 f.budget.toNat = f.budget.toNat ↔ f.budget.toNat ≤ 3600 := min_eq_right_iff
  simp only [stopWrite, stopOf_number, if_neg (stop_unlocked hv), maskOf_some (n := 4) hd, doneOr, decide_eq_true_eq, ne_eq,
    ← not_and_or, ite_not, clamp_eq_iff (lo := 10) (hi := 600) (by decide), heldDoors_eq_iff hd, budget, inBudget]
  rfl

/-- Settles O18, row by row (R116). -/
theorem stopWritesFollowTheirRows : Obligations.StopWritesFollowTheirRows := fun _ _ _ ht =>
  ⟨fun _ hi => replies_of rfl ht (stopWrite_noEntry hi), fun _ hk hv => replies_of rfl ht (stopWrite_locked hk hv),
   fun _ hv hd => replies_of rfl ht (stopWrite_badValue hv hd), fun _ hv hd => replies_of rfl ht (stopWrite_taken hv hd)⟩

end Sys2Proof.Machine
end

section
/-! PROOFS. TRIP_OPEN and ARRIVE (O20, O22; spec 06 R109 to R111, R113; spec 05 R98). -/

namespace Sys2Proof.Machine

/-! ### TRIP_OPEN (R110, R111) -/

/-- R110: a mode that does not exist. -/
theorem tripModeOf_none {x : Byte} (h : 1 < x.toNat) : tripModeOf x = none := by
  have h0 : x ≠ 0 := by rintro rfl; exact absurd h (by decide)
  have h1 : x ≠ 1 := by rintro rfl; exact absurd h (by decide)
  rw [tripModeOf, if_neg h0, if_neg h1]

/-- R110: a mode that exists. -/
theorem tripModeOf_some {x : Byte} (h : x.toNat ≤ 1) : ∃ mode, tripModeOf x = some mode := by
  rcases byte_le_one h with rfl | rfl
  · exact ⟨.van, rfl⟩
  · exact ⟨.room, rfl⟩

section
variable {p : TripOpenParams} {s : State}

theorem tripOpen_badValue (h : 1 < p.mode.toNat) : tripOpen p s = (s, .badValue) := by rw [tripOpen, tripModeOf_none h]

/-- R110: no trip is opened while one is open. -/
theorem tripOpen_badState (hm : p.mode.toNat ≤ 1) (h : s.trip.record.state ≠ .noTrip) : tripOpen p s = (s, .badState) := by
  obtain ⟨mode, hmode⟩ := tripModeOf_some hm
  rw [tripOpen, hmode]
  exact if_pos ((tripIsOpen_iff s).2 h)

theorem tripOpen_taken {mode : TripMode} (hm : tripModeOf p.mode = some mode) (h : s.trip.record.state = .noTrip) :
    tripOpen p s = (openTrip mode p s, doneOr (tripAdjusted mode p)) := by
  rw [tripOpen, hm]
  exact if_neg fun hopen => (tripIsOpen_iff s).1 hopen h

end

/-- R110 row 3: a parameter was brought into range. -/
theorem tripAdjusted_iff (mode : TripMode) (p : TripOpenParams) : tripAdjusted mode p = true ↔
    (∃ r, p.retention = some r ∧ (r = 0 ∨ 168 < r.toNat)) ∨
      (∃ c, p.stopCount = some c ∧ (24 < c.toNat ∨ (mode = .room ∧ c ≠ 0))) := by
  have outside (r : Byte) : clamp 1 168 r.toNat ≠ r.toNat ↔ r = 0 ∨ 168 < r.toNat := by
    rw [ne_eq, clamp_eq_iff (by decide), BitVec.toNat_eq]
    show ¬(1 ≤ r.toNat ∧ r.toNat ≤ 168) ↔ r.toNat = 0 ∨ 168 < r.toNat
    omega
  unfold tripAdjusted
  rw [Bool.or_eq_true]
  refine or_congr ?_ ?_
  · cases p.retention with
    | none => simp
    | some r => simp [outside]
  · cases p.stopCount with
    | none => simp
    | some c => simp

/-- Settles O20, from the rows of R110 and the append that ends an opening (R111). -/
theorem tripOpenOpensTheTrip : Obligations.TripOpenOpensTheTrip := by
  intro h p s ht
  refine ⟨fun hb => replies_of rfl ht (tripOpen_badValue hb), fun hm ho => replies_of rfl ht (tripOpen_badState hm ho),
    fun mode hm hn => ?_⟩
  intro record
  have hmode : tripModeOf p.mode = some mode := by
    rw [hm]
    cases mode <;> rfl
  have hrecord : record = openedRecord mode p := by
    obtain ⟨_, _, _, retention, stopCount⟩ := p
    cases retention <;> cases stopCount <;> cases mode <;> rfl
  have taken := (tripOpen_taken hmode hn).trans (congrArg (_, ·) (doneOr_iff (tripAdjusted_iff mode p)))
  rw [hrecord]
  cases mode with
  | van => exact repliesRecording_of rfl ht taken (append_recorded _ _) (append_appends _ _)
  | room => exact repliesRecording_of rfl ht taken (append_recorded _ _) (append_appends _ _)

/-! ### ARRIVE (R113) -/

section
variable {s : State}

theorem arrive_badState {j : Byte} (h : s.trip.record.mode = .room ∨ s.trip.record.state ≠ .transit) :
    arrive j s = (s, .badState) := if_pos h

variable (hm : s.trip.record.mode = .van) (ht : s.trip.record.state = .transit)
include hm ht

/-- R113: a van in Transit, and an index that names an entry of the stop table. -/
theorem arrive_named {j : Byte} {k : Fin 25} (hj : stopOf j = some k) : arrive j s =
    if k = 0 ∨ s.trip.record.stopCount < k.val then (s, .badValue) else (arriveAt k s, .done) := by
  rw [arrive, if_neg fun h => h.elim (fun hr => nomatch hm.symm.trans hr) fun hn => hn ht, hj]

/-- R113: a van in Transit, and an index that names none. -/
theorem arrive_unnamed {j : Byte} (hj : stopOf j = none) : arrive j s = (s, .badValue) := by
  rw [arrive, if_neg fun h => h.elim (fun hr => nomatch hm.symm.trans hr) fun hn => hn ht, hj]

/-- R113: the dock, and what lies past the stop count, are no stops to arrive at. -/
theorem arrive_badValue {j : Byte} (h : j = 0 ∨ s.trip.record.stopCount < j.toNat) : arrive j s = (s, .badValue) := by
  cases hj : stopOf j with
  | none => exact arrive_unnamed hm ht hj
  | some k =>
    obtain ⟨hlt, hk⟩ := Option.dite_none_right_eq_some.1 hj
    obtain rfl := Option.some.inj hk
    exact (arrive_named hm ht hj).trans (if_pos (h.imp_left fun h0 => by subst h0; rfl))

/-- R113: a stop of the trip is arrived at. -/
theorem arrive_taken {k : Fin 25} (hk : k ≠ 0) (hc : k.val ≤ s.trip.record.stopCount) :
    arrive (BitVec.ofNat 8 k.val) s = (arriveAt k s, .done) := by
  rw [arrive_named hm ht (stopOf_number k)]
  exact if_neg fun h => h.elim hk (Nat.not_lt.2 hc)

end

/-- R113: the entry of an arrival names the stop and its stop id, which the visited mark leaves. -/
theorem arriveAt_eq (k : Fin 25) (s : State) : arriveAt k s =
    append { kind := .arrive, v1 := BitVec.ofNat 32 k.val, v2 := (s.trip.stops.get k).stopId }
      (beginVisit k { s with trip := { s.trip with
        record := { s.trip.record with state := .atStop k },
        stops := s.trip.stops.set k.val { s.trip.stops.get k with visited := true } k.isLt } }) := by
  have stopId : ((upd s.trip.stops k fun e => { e with visited := true }).get k).stopId = (s.trip.stops.get k).stopId := by
    rw [get_upd_self]
  rw [← stopId]
  rfl

/-- Settles O22, from the rows of R113 and the append that ends an arrival. -/
theorem arriveEntersTheStop : Obligations.ArriveEntersTheStop := fun _ s ht =>
  ⟨fun _ hb => replies_of rfl ht (arrive_badState hb), fun _ hm hs _ hb => replies_of rfl ht (arrive_badValue hm hs hb),
   fun k hk hc hm hs => repliesRecording_of rfl ht ((arrive_taken hm hs hk hc).trans (congrArg (·, _) (arriveAt_eq k s)))
     (append_recorded _ _) (append_appends _ _)⟩

end Sys2Proof.Machine
end

section
/-! PROOFS. DEPART and TRIP_CLOSE (O21, O23; spec 06 R112, R114; spec 04 R78, R79, R81; spec 05 R98; spec 07 R124, R140;
spec 08 R149, R152, R156). -/

namespace Sys2Proof.Machine

/-! ### Lots sealed and lots converted (R78, R79, R81, R140) -/

/-- The lots in a state, in index order. -/
def lotsIn (x : LotState) (s : State) : List (Fin 96) := (List.finRange 96).filter fun i => decide ((s.lots.get i).state = x)

theorem mem_lotsIn {x : LotState} {s : State} {i : Fin 96} : i ∈ lotsIn x s ↔ (s.lots.get i).state = x := by
  simp [lotsIn]

/-- R78, R79, R81: a lot entry as a conversion to a state writes it. -/
def LotEntry.convert (l : LotEntry) (new : LotState) (due : Clock) : LotEntry := { l with state := new, retention := some due }

/-- Marks stand apart from what a conversion writes. -/
theorem Marked.convert {a b : LotEntry} (h : Marked a b) (new : LotState) (due : Clock) :
    Marked (a.convert new due) (b.convert new due) := by
  unfold Marked at h ⊢
  rw [h]
  rfl

/-- A gap count raised leaves the Unconfirmed mark. -/
theorem Gapped.unconfirmed {a b : LotEntry} (h : Gapped a b) : b.unconfirmed = a.unconfirmed := by
  unfold Gapped at h
  rw [h]

/-- R140, R81: the seal of every lot in Handover. -/
def sealAll (c : SealCause) (s : State) : State := sealLots c (fun l => decide (l.state = .handover)) s

/-- R78, R79: every lot of one state converted to another, each with an entry told to the journal. -/
structure Converts (old new : LotState) (d : LotEntry → Draft) (s t : State) : Prop where
  changed : ∀ i, (s.lots.get i).state = old → Gapped ((s.lots.get i).convert new (retentionDeadline s.trip)) (t.lots.get i)
  kept    : ∀ i, (s.lots.get i).state ≠ old → Gapped (s.lots.get i) (t.lots.get i)
  tells   : Tells s t ((lotsIn old s).map fun i => d (s.lots.get i))
  rest    : Recorded { s with lots := t.lots } t

/-- R78, R160: the entry of a Short lot. -/
def shortDraft (stop : Nat) (l : LotEntry) : Draft :=
  { kind := .short, lot := some l.lot, zone := some l.zone, v1 := natWord stop }

/-- R79, R160: the entry of a Returned lot. -/
def returnedDraft (l : LotEntry) : Draft :=
  { kind := .returned, lot := some l.lot, zone := some l.zone, v1 := natWord l.grade.number, v2 := natWord (shown l.total) }

theorem shortAll_converts (stop : Nat) (s : State) : Converts .expected .short (shortDraft stop) s (shortAll stop s) := by
  obtain ⟨changed, kept, tells⟩ := shortAll_lots stop s
  refine ⟨changed, kept, ?_, shortAll_rest stop s⟩
  rw [lotsIn, filter_map_flatMap]
  simp only [decide_eq_true_eq]
  exact tells

theorem returnAll_converts (s : State) : Converts .onBoard .returned returnedDraft s (returnAll s) := by
  obtain ⟨changed, kept, tells⟩ := returnAll_lots s
  refine ⟨changed, kept, ?_, returnAll_rest s⟩
  rw [lotsIn, filter_map_flatMap]
  simp only [decide_eq_true_eq]
  exact tells

/-- R78, R79, R140: a lot table before and after every lot in Handover has been sealed and every lot of one state converted to
another: every other lot is marked at most. -/
structure Accounted (c : SealCause) (old new : LotState) (clock due : Clock) (v w : Vector LotEntry 96) : Prop where
  sealed    : ∀ i, (v.get i).state = .handover → SealedAt c clock due (v.get i) (w.get i)
  converted : ∀ i, (v.get i).state = old → Marked ((v.get i).convert new due) (w.get i)
  others    : ∀ i, (v.get i).state ≠ .handover → (v.get i).state ≠ old → Marked (v.get i) (w.get i)

/-- What marks lots keeps them accounted for. -/
theorem Accounted.marked {c : SealCause} {old new : LotState} {clock due : Clock} {v w x : Vector LotEntry 96}
    (h : Accounted c old new clock due v w) (g : ∀ i, Marked (w.get i) (x.get i)) : Accounted c old new clock due v x :=
  ⟨fun i hi => (h.sealed i hi).marked (g i), fun i hi => (h.converted i hi).trans (g i),
   fun i hh ho => (h.others i hh ho).trans (g i)⟩

/-- R149: the Seal entries of the lots in Handover, from their entries before the seals and after them. -/
def sealDrafts (s : State) (v : Vector LotEntry 96) : List Draft :=
  (lotsIn .handover s).map fun i => sealDraft (s.lots.get i) (v.get i)

/-- What marks a lot leaves what its Seal entry says. -/
theorem Marked.sealDraft {b c : LotEntry} (h : Marked b c) (a : LotEntry) :
    Machine.sealDraft a c = Machine.sealDraft a b := by
  unfold Marked at h
  rw [Machine.sealDraft, h]
  rfl

/-- What marks lots leaves what their Seal entries say. -/
theorem sealDrafts_marked {s : State} {v w : Vector LotEntry 96} (g : ∀ i, Marked (v.get i) (w.get i)) :
    sealDrafts s w = sealDrafts s v := List.map_congr_left fun i _ => (g i).sealDraft _

/-- R140, R152: the lots in Handover sealed, and those of one state converted: what stands beside the lots, what the proof
list gained and dropped, and what the journal was told. -/
structure SealedOff (c : SealCause) (old new : LotState) (d : LotEntry → Draft) (s t : State)
    (dropped items : List ProofItem) : Prop where
  custody   : CustodyOnly s t
  doors     : t.doors = s.doors
  record    : t.trip.record = { s.trip.record with nextProof := t.trip.record.nextProof }
  accounted : Accounted c old new s.trip.clock (retentionDeadline s.trip) s.lots t.lots
  tells     : Tells s t (sealDrafts s t.lots ++ (lotsIn old s).map fun i => d (s.lots.get i))
  index     : items.map ProofItem.index = lotsIn .handover s
  named     : items.map ProofItem.lot = (lotsIn .handover s).map fun i => (s.lots.get i).lot
  list      : s.proofs.list ++ items = dropped ++ t.proofs.list
  room      : s.proofs.list.length + (lotsIn .handover s).length ≤ 16 → dropped = []
  last      : s.proofs.list ++ items ≠ [] → t.proofs.list ≠ []
  marks     : ∀ j, (t.lots.get j).unconfirmed = ((s.lots.get j).unconfirmed || dropped.any fun q => q.index == j)

section
variable {c : SealCause} {old new : LotState} {d : LotEntry → Draft} {s t : State}

/-- Sealing the lots in Handover leaves the lots of any state but Handover and Delivered as they were, marks apart. -/
theorem sealAll_state (hr : HandoversRecorded s) (ho : old ≠ .handover) (hd : old ≠ .delivered) (i : Fin 96) :
    ((sealAll c s).lots.get i).state = old ↔ (s.lots.get i).state = old := by
  obtain ⟨-, -, -, sealed, others, -⟩ := seal_all c s hr
  by_cases hi : (s.lots.get i).state = .handover
  · obtain ⟨p, -, -, e⟩ := sealed i hi
    have : ((sealAll c s).lots.get i).state = .delivered := by rw [sealAll, e]
    rw [this, hi]
    exact iff_of_false (Ne.symm hd) (Ne.symm ho)
  · have e := others i hi
    unfold Marked at e
    rw [sealAll, e]

theorem sealAll_lotsIn (hr : HandoversRecorded s) (ho : old ≠ .handover) (hd : old ≠ .delivered) :
    lotsIn old (sealAll c s) = lotsIn old s :=
  List.filter_congr fun i _ => decide_eq_decide.2 (sealAll_state hr ho hd i)

/-- Writing the lots alone leaves all but custody as it was. -/
theorem withLots_custody (s : State) (v : Vector LotEntry 96) : CustodyOnly s { s with lots := v } := by
  constructor <;> rfl

/-- R81: the retention deadline of a trip goes by its clock and its retention hours. -/
theorem retentionDeadline_sealAll (c : SealCause) (s : State) :
    retentionDeadline (sealAll c s).trip = retentionDeadline s.trip := by
  unfold retentionDeadline sealAll
  rw [(sealLots_custody c _ s).clock, sealLots_record]

/-- R78, R79, R140: the seals, and then a conversion of the lots of a state that no seal touches. -/
theorem sealedOff_of (hr : HandoversRecorded s) (ho : old ≠ .handover) (hd : old ≠ .delivered)
    (hm : ∀ a b, Marked a b → d b = d a) (h : Converts old new d (sealAll c s) t) :
    ∃ dropped items, SealedOff c old new d s t dropped items := by
  have states := sealAll_state (c := c) hr ho hd
  have lists := sealAll_lotsIn (c := c) hr ho hd
  have due := retentionDeadline_sealAll c s
  have all := seal_all c s hr
  rw [← sealAll] at all
  generalize sealAll c s = m at h states lists due all
  obtain ⟨custody, doors, record, sealed, others, tells, dropped, items, index, named, list, room, last, marks⟩ := all
  have proofs : t.proofs = m.proofs := h.rest.proofs
  have sealedKept (i : Fin 96) (hi : (s.lots.get i).state = .handover) : Gapped (m.lots.get i) (t.lots.get i) :=
    h.kept i fun e => ho (((states i).1 e).symm.trans hi)
  have accounted : Accounted c old new s.trip.clock (retentionDeadline s.trip) s.lots t.lots := by
    refine ⟨fun i hi => (sealed i hi).marked (sealedKept i hi).marked, fun i hi => ?_, fun i hh hi =>
      (others i hh).trans (h.kept i fun e => hi ((states i).1 e)).marked⟩
    have changed := (h.changed i ((states i).2 hi)).marked
    rw [due] at changed
    exact Marked.trans ((others i fun e => ho (hi.symm.trans e)).convert new _) changed
  have told : Tells s t (sealDrafts s t.lots ++ (lotsIn old s).map fun i => d (s.lots.get i)) := by
    have seals : sealDrafts s t.lots = sealDrafts s m.lots := List.map_congr_left fun i hi =>
      (sealedKept i (mem_lotsIn.1 hi)).marked.sealDraft _
    have drafts : (lotsIn old m).map (fun i => d (m.lots.get i)) = (lotsIn old s).map fun i => d (s.lots.get i) := by
      rw [lists]
      exact List.map_congr_left fun i hi => hm _ _ (others i fun e => ho ((mem_lotsIn.1 hi).symm.trans e))
    rw [seals, ← drafts]
    exact Tells.trans tells h.tells ⟨custody.clock, custody.unsynced⟩
  have sameMark (j : Fin 96) : (t.lots.get j).unconfirmed = (m.lots.get j).unconfirmed := by
    by_cases hj : (m.lots.get j).state = old
    · exact (h.changed j hj).unconfirmed
    · exact (h.kept j hj).unconfirmed
  exact ⟨dropped, items, (custody.trans (withLots_custody _ t.lots)).trans h.rest.custody, h.rest.doors.trans doors,
    by rw [show t.trip = m.trip from h.rest.trip]; exact record, accounted, told, index, named, by rw [proofs]; exact list, room,
    by rw [proofs]; exact last, fun j => (sameMark j).trans (marks j)⟩

end

/-! ### The end of a visit (R98) -/

/-- R98: a door's runtime before the end of a visit and after it: an open stretch counts up to this moment. -/
def VisitEnds (now visitStart : Nat) (r x : DoorRt) : Prop :=
  x = { r with visit := none, openSeconds := x.openSeconds } ∧
  (r.state ≠ .opened → x.openSeconds = r.openSeconds) ∧
  (∀ start, r.state = .opened → r.stretchAt = some start →
    let seconds := r.openSeconds.toNat + (now - max start visitStart) / 1000
    seconds < 4294967296 → x.openSeconds = BitVec.ofNat 32 seconds)

theorem endVisit_ends (s : State) (d : Fin 4) :
    VisitEnds s.ref s.trip.visitStart (s.doors.rts.get d) ((endVisit s).doors.rts.get d) := by
  rw [endVisit, get_mapV]
  refine ⟨rfl, fun h => if_neg h, fun start h hs => ?_⟩
  intro seconds hlt
  dsimp only
  rw [if_pos h, stretchInVisit, hs]
  exact countWord_eq hlt

/-! ### DEPART (R112) -/

/-- R124: every scan memory loses its pending advisory, and keeps its number and its verdict. -/
theorem dropAdvisories_mem (s : State) (n : Fin 32) :
    (dropAdvisories s).scans.mem.get n = { s.scans.mem.get n with pending := none } := get_mapV _ _ n

theorem departFrom_none {r : TripRecord} (h : r.mode = .room ∨ (r.state ≠ .loading ∧ ∀ k, r.state ≠ .atStop k)) :
    departFrom r = none := by
  unfold departFrom
  split
  next hm hs => exact absurd hs (h.resolve_left (by rw [hm]; decide)).1
  next k hm hs => exact absurd hs ((h.resolve_left (by rw [hm]; decide)).2 k)
  next => rfl

theorem departFrom_some {r : TripRecord} {k : Fin 25} (hm : r.mode = .van) (h : (r.state = .loading ∧ k = 0) ∨ r.state = .atStop k) :
    departFrom r = some k := by
  unfold departFrom
  rw [hm]
  rcases h with ⟨hs, rfl⟩ | hs <;> rw [hs]

/-- R112, R124: the state that a DEPART's seals and Short conversions leave. -/
def sealedShort (k : Fin 25) (s : State) : State := shortAll k.val (sealAll .depart (dropAdvisories s))

/-- R112, R98: the visit ended and the trip in Transit. -/
def inTransit (s : State) : State := (endVisit s).modTrip fun r => { r with state := .transit }

/-- R112, R160: the entry of a DEPART. -/
def departDraft (k : Fin 25) (s : State) : Draft :=
  { kind := .depart, v1 := BitVec.ofNat 32 k.val, v2 := (s.trip.stops.get k).stopId }

theorem sealedShort_off (k : Fin 25) {s : State} (hr : HandoversRecorded s) :
    ∃ dropped items, SealedOff .depart .expected .short (shortDraft k.val) (dropAdvisories s) (sealedShort k s) dropped items :=
  sealedOff_of hr (by decide) (by decide) (fun a b h => by unfold Marked at h; rw [h]; rfl) (shortAll_converts _ _)

section
variable {k : Fin 25} {s u t : State} {dropped items : List ProofItem}
  (off : SealedOff .depart .expected .short (shortDraft k.val) (dropAdvisories s) u dropped items)
include off

theorem departTrip_eq (hu : sealedShort k s = u) : departTrip k s = append (departDraft k s) (inTransit u) := by
  rw [departTrip_of hu, off.custody.stops]
  rfl

variable (beside : Recorded (inTransit u) t)
include beside

/-- R112: of the trip a DEPART writes the state and the next proof number. -/
theorem depart_trip :
    t.trip = { s.trip with record := { s.trip.record with state := .transit, nextProof := t.trip.record.nextProof } } := by
  have sealed := off.custody.trip_of off.record
  rw [beside.trip, inTransit, modTrip_trip]
  show { u.trip with record := { u.trip.record with state := .transit } } = _
  rw [sealed]
  rfl

/-- R112, R78, R140: every lot is accounted for. -/
theorem depart_lots :
    Accounted .depart .expected .short s.trip.clock (retentionDeadline s.trip) s.lots t.lots :=
  off.accounted.marked fun i => (beside.gapped i).marked

/-- R152: with room in the proof list no lot is marked. -/
theorem depart_room (hl : s.proofs.list.length + (lotsIn .handover s).length ≤ 16) :
    (∀ i, (t.lots.get i).unconfirmed = (s.lots.get i).unconfirmed) ∧
      ∃ items : List ProofItem, t.proofs.list = s.proofs.list ++ items ∧ items.map ProofItem.index = lotsIn .handover s := by
  have none_dropped : dropped = [] := off.room hl
  refine ⟨fun i => ?_, items, ?_, off.index⟩
  · rw [(beside.gapped i).unconfirmed]
    refine (off.marks i).trans ?_
    rw [none_dropped]
    exact Bool.or_false _
  · rw [beside.proofs]
    refine Eq.trans ?_ off.list.symm
    rw [none_dropped]
    rfl

/-- R98: at every door the visit ends. -/
theorem depart_doors (d : Fin 4) : VisitEnds s.ref s.trip.visitStart (s.doors.rts.get d) (t.doors.rts.get d) := by
  have ends := endVisit_ends u d
  rw [off.custody.ref, off.custody.visit, off.doors] at ends
  rw [beside.doors]
  exact ends

end

/-- R112, R160: what a DEPART tells the journal. -/
theorem depart_tells {k : Fin 25} {s u : State} {dropped items : List ProofItem}
    (off : SealedOff .depart .expected .short (shortDraft k.val) (dropAdvisories s) u dropped items) (f : OutFrame) (d : Draft) :
    let t := (hand f (append d (inTransit u))).1
    Tells s t (sealDrafts s t.lots ++ (lotsIn .expected s).map (fun i => shortDraft k.val (s.lots.get i)) ++ [d]) := by
  intro t
  have beside : Recorded (inTransit u) t := (append_recorded _ _).trans (hand_sent _ _).recorded
  rw [sealDrafts_marked fun i => (beside.gapped i).marked]
  have last : Tells u t [d] := (append_tells d (inTransit u)).congr rfl ⟨rfl, rfl⟩ (hand_sent _ _).journal
  exact Tells.trans off.tells last ⟨off.custody.clock, off.custody.unsynced⟩

/-- Settles O21: a DEPART that is taken seals and converts the lots, ends the visit and appends (R112); its reply changes
nothing more. -/
theorem departEntersTransit : Obligations.DepartEntersTransit := by
  intro h s ht
  refine ⟨fun hb => replies_of rfl ht (by rw [depart, departFrom_none hb]), fun k hr hm hs => ?_⟩
  intro due sealed short
  obtain ⟨dropped, items, off⟩ := sealedShort_off k hr
  have replies : Replies (.depart h) s (departTrip k s) h kMgCmd .done :=
    replies_of rfl ht (by rw [depart, departFrom_some hm hs])
  generalize hu : sealedShort k s = u at off
  rw [departTrip_eq off hu] at replies
  obtain ⟨answer, sent⟩ := replies
  have beside := (append_recorded (departDraft k s) (inTransit u)).trans sent.recorded
  have custody := off.custody
  have lots := depart_lots off beside
  have doors := depart_doors off beside
  have scans := beside.scans.trans custody.scans
  have deadline : retentionDeadline s.trip = due := deadline_eq _ _
  rw [deadline] at lots
  exact ⟨append (departDraft k s) (inTransit u), _, answer, rfl, sent, depart_trip off beside, lots.sealed, lots.converted,
    lots.others, depart_room off beside, depart_tells off _ _,
    fun n => by rw [scans, dropAdvisories_mem]; exact ⟨rfl, rfl, rfl⟩,
    doors, by rw [beside.doors]; exact custody.doors, beside.sensor.trans custody.sensor, beside.zones.trans custody.zones,
    beside.engine.trans custody.engine, by rw [beside.proofs]; exact custody.acks, by rw [scans]; rfl,
    beside.window.trans custody.window, beside.ref.trans custody.ref, beside.pending.trans custody.pending⟩

/-! ### TRIP_CLOSE (R114) -/

/-- R98, R114: the visit ended when one is open. -/
def endOpenVisit (s : State) : State := if s.trip.record.state.stop.isSome then endVisit s else s

theorem endOpenVisit_doors_only (s : State) : endOpenVisit s = { s with doors := (endOpenVisit s).doors } := by
  unfold endOpenVisit
  split <;> rfl

theorem endOpenVisit_entries (s : State) : (endOpenVisit s).doors.entries = s.doors.entries := by
  unfold endOpenVisit
  split <;> rfl

/-- R98: an open visit ends at every door. -/
theorem endOpenVisit_ends {s : State} (h : s.trip.record.state.stop ≠ none) (d : Fin 4) :
    VisitEnds s.ref s.trip.visitStart (s.doors.rts.get d) ((endOpenVisit s).doors.rts.get d) := by
  rw [endOpenVisit, if_pos (Option.isSome_iff_ne_none.2 h)]
  exact endVisit_ends s d

/-- R98: with no visit open the doors stand. -/
theorem endOpenVisit_stands {s : State} (h : s.trip.record.state.stop = none) : endOpenVisit s = s := by
  rw [endOpenVisit, h]
  rfl

/-- R114, R117, R156: the proof list emptied, the visited marks cleared and the trip closed. -/
def tripClosed (s : State) : State :=
  (clearVisited (emptyProofs (endOpenVisit s).proofs.list.length (endOpenVisit s))).modTrip fun r => { r with state := .noTrip }

/-- R114, R117: the trip unit as a TRIP_CLOSE leaves it. -/
def Trip.shut (x : Trip) : Trip :=
  { x with record := { x.record with state := .noTrip }, stops := mapV (fun e => { e with visited := false }) x.stops }

/-- R114, R156: everything that the emptying of the proof list and the closing of the trip do. -/
theorem tripClosed_spec (s : State) :
    let t := tripClosed s
    Raised { s with doors := (endOpenVisit s).doors, trip := s.trip.shut, lots := t.lots, proofs := { s.proofs with list := [] } } t ∧
    (∀ i, t.lots.get i = { s.lots.get i with
      unconfirmed := (s.lots.get i).unconfirmed || s.proofs.list.any fun q => q.index == i }) ∧
    (∀ a p, s.proofs.list = a ++ [p] →
      t.trunk.flags.get EventKind.proofUnconfirmed.index = { raised := true, subject := .lot p.lot }) := by
  intro t
  have only := endOpenVisit_doors_only s
  have ht : t = (clearVisited (emptyProofs (endOpenVisit s).proofs.list.length (endOpenVisit s))).modTrip fun r =>
    { r with state := .noTrip } := rfl
  clear_value t
  generalize (endOpenVisit s).doors = doors at only ⊢
  rw [only] at ht
  dsimp only at ht
  obtain ⟨raised, proofs, lots, flag⟩ := emptyProofs_spec s.proofs.list.length { s with doors := doors } le_rfl
  generalize emptyProofs s.proofs.list.length { s with doors := doors } = e at ht raised proofs lots flag
  subst ht
  have trip : e.trip = s.trip := raised.trip
  refine ⟨⟨raised.pending, raised.ref, raised.straps, raised.free, raised.sensor, raised.zones, raised.engine, rfl, raised.doors,
    raised.beacons, ?_, raised.scans, proofs, raised.journal, raised.claims, raised.trunk⟩, lots, flag⟩
  show e.trip.shut = s.trip.shut
  rw [trip]

/-- R156: the close marks lots at most. -/
theorem tripClosed_marked {s t : State} (beside : Recorded (tripClosed s) t) (i : Fin 96) :
    Marked (s.lots.get i) (t.lots.get i) := by
  refine Marked.trans ?_ (beside.gapped i).marked
  rw [(tripClosed_spec s).2.1 i]
  rfl

/-- R114, R124: the state that a TRIP_CLOSE's seals and Returned conversions leave. -/
def sealedReturned (s : State) : State := returnAll (sealAll .closure (dropAdvisories s))

/-- R114: a TRIP_CLOSE, from the state that its seals and Returned conversions leave. -/
theorem closeTrip_of {s u : State} (hu : sealedReturned s = u) :
    closeTrip s = append
      { kind := .tripClose, v1 := (tripClosed u).trip.record.tripId,
        v2 := natWord (countV (fun l => decide (l.state = .onBoard)) (sealAll .closure (dropAdvisories s)).lots) }
      (tripClosed u) := by
  unfold sealedReturned at hu
  unfold closeTrip
  rw [← sealAll]
  dsimp only
  rw [hu]
  rfl

/-- R114, R160: the entry of a TRIP_CLOSE. -/
def tripCloseDraft (s : State) : Draft :=
  { kind := .tripClose, v1 := s.trip.record.tripId, v2 := BitVec.ofNat 32 (lotsIn .onBoard s).length }

theorem sealedReturned_off {s : State} (hr : HandoversRecorded s) :
    ∃ dropped items, SealedOff .closure .onBoard .returned returnedDraft (dropAdvisories s) (sealedReturned s) dropped items :=
  sealedOff_of hr (by decide) (by decide) (fun a b h => by unfold Marked at h; rw [h]; rfl) (returnAll_converts _)

/-- R79: the lots made Returned are those that stood OnBoard before the seals. -/
theorem countV_onBoard {s : State} (hr : HandoversRecorded s) :
    countV (fun l => decide (l.state = .onBoard)) (sealAll .closure (dropAdvisories s)).lots = (lotsIn .onBoard s).length := by
  rw [countV_eq, List.countP_eq_length_filter]
  exact congrArg List.length (sealAll_lotsIn (s := dropAdvisories s) hr (by decide) (by decide))

section
variable {s u t : State} {dropped items : List ProofItem}
  (off : SealedOff .closure .onBoard .returned returnedDraft (dropAdvisories s) u dropped items)
include off

/-- R114: the trip unit before the close is that of the request, but for the next proof number. -/
theorem close_trip : u.trip = { s.trip with record := { s.trip.record with nextProof := u.trip.record.nextProof } } :=
  off.custody.trip_of off.record

theorem closeTrip_eq (hr : HandoversRecorded s) (hu : sealedReturned s = u) :
    closeTrip s = append (tripCloseDraft s) (tripClosed u) := by
  have tripId : (tripClosed u).trip.record.tripId = s.trip.record.tripId := by
    rw [(tripClosed_spec u).1.trip, close_trip off]
    rfl
  rw [closeTrip_of hu, tripId, countV_onBoard hr]
  rfl

/-- R156: the proofs dropped by the seals and those left in the list are those listed before and those of the seals. -/
theorem close_listed (p : ProofItem → Bool) : (dropped.any p || u.proofs.list.any p) = (s.proofs.list.any p || items.any p) := by
  rw [← List.any_append, ← List.any_append]
  exact congrArg (List.any · p) off.list.symm

/-- R152: a lot has a proof added exactly when it was in Handover. -/
theorem close_added (i : Fin 96) : (items.any fun q => q.index == i) = decide ((s.lots.get i).state = .handover) := by
  have index : (items.any fun q => q.index == i) = (items.map ProofItem.index).any (· == i) := by
    rw [List.any_map]
    rfl
  rw [index, off.index, Bool.eq_iff_iff, decide_eq_true_iff, List.any_beq']
  exact List.contains_iff_mem.trans (mem_lotsIn (s := s))

variable (beside : Recorded (tripClosed u) t)
include beside

/-- R156: a lot is marked when its proof was listed or it has been sealed here. -/
theorem close_marks (i : Fin 96) : (t.lots.get i).unconfirmed =
    ((s.lots.get i).unconfirmed || ((s.proofs.list.any fun q => q.index == i) || decide ((s.lots.get i).state = .handover))) := by
  rw [(beside.gapped i).unconfirmed, (tripClosed_spec u).2.1 i, ← close_added off i, ← close_listed off, ← Bool.or_assoc]
  exact congrArg (· || _) (off.marks i)

/-- R114, R79, R140: every lot is accounted for. -/
theorem close_lots :
    Accounted .closure .onBoard .returned s.trip.clock (retentionDeadline s.trip) s.lots t.lots :=
  off.accounted.marked (tripClosed_marked beside)

/-- R98: at every door an open visit ends; with none open the doors stand. -/
theorem close_doors : t.doors.entries = s.doors.entries ∧
    ∀ d, (s.trip.record.state.stop = none → t.doors.rts.get d = s.doors.rts.get d) ∧
      (s.trip.record.state.stop ≠ none → VisitEnds s.ref s.trip.visitStart (s.doors.rts.get d) (t.doors.rts.get d)) := by
  have doors : t.doors = (endOpenVisit u).doors := beside.doors.trans (tripClosed_spec u).1.doors
  have same : u.doors = s.doors := off.doors
  have stop : u.trip.record.state = s.trip.record.state := by rw [close_trip off]
  refine ⟨by rw [doors, endOpenVisit_entries, same], fun d => ⟨fun h => ?_, fun h => ?_⟩⟩
  · rw [doors, endOpenVisit_stands (by rw [stop]; exact h), same]
  · have ends := endOpenVisit_ends (s := u) (by rw [stop]; exact h) d
    rw [off.custody.ref, off.custody.visit, same] at ends
    rw [doors]
    exact ends

end

section
variable {s u : State} {dropped items : List ProofItem}
  (off : SealedOff .closure .onBoard .returned returnedDraft (dropAdvisories s) u dropped items)
include off

/-- R156: ProofUnconfirmed stands raised for the newest proof of the list, after the append and the reply. -/
theorem close_flag (f : OutFrame) (d : Draft) {before : List Word} {lot : Word}
    (h : s.proofs.list.map ProofItem.lot ++ (lotsIn .handover s).map (fun i => (s.lots.get i).lot) = before ++ [lot]) :
    (hand f (append d (tripClosed u))).1.trunk.flags.get EventKind.proofUnconfirmed.index =
      { raised := true, subject := .lot lot } := by
  have named : (dropped ++ u.proofs.list).map ProofItem.lot = before ++ [lot] := by
    rw [← off.list, List.map_append, off.named]
    exact h
  have listed : u.proofs.list ≠ [] := off.last fun e => by
    rw [← off.list, e] at named
    exact absurd named.symm (List.append_ne_nil_of_right_ne_nil _ (List.cons_ne_nil _ _))
  obtain ⟨a, p, hp⟩ := (List.eq_nil_or_concat u.proofs.list).resolve_left listed
  rw [List.concat_eq_append] at hp
  rw [hp, ← List.append_assoc, List.map_append] at named
  have newest : p.lot = lot := (List.cons.inj (List.append_inj_right' named rfl)).1
  rw [(hand_sent _ _).flags, append_flag _ _ (by decide), (tripClosed_spec u).2.2 a p hp, newest]

/-- R114, R160: what a TRIP_CLOSE tells the journal. -/
theorem close_tells (f : OutFrame) (d : Draft) :
    let t := (hand f (append d (tripClosed u))).1
    Tells s t (sealDrafts s t.lots ++ (lotsIn .onBoard s).map (fun i => returnedDraft (s.lots.get i)) ++ [d]) := by
  intro t
  have beside : Recorded (tripClosed u) t := (append_recorded _ _).trans (hand_sent _ _).recorded
  have closed := (tripClosed_spec u).1
  have clock : u.trip.clock = s.trip.clock ∧ u.trip.unsynced = s.trip.unsynced := ⟨off.custody.clock, off.custody.unsynced⟩
  have last : Tells u t [d] := (append_tells d (tripClosed u)).congr closed.journal.symm (by rw [closed.trip]; exact ⟨rfl, rfl⟩)
    (hand_sent _ _).journal
  rw [sealDrafts_marked (tripClosed_marked beside)]
  exact Tells.trans off.tells last clock

end

/-- R160: the values of a Returned entry. -/
theorem returnedDraft_eq (l : LotEntry) : returnedDraft l =
    { kind := .returned, lot := some l.lot, zone := some l.zone, v1 := BitVec.ofNat 32 l.grade.number,
      v2 := BitVec.ofNat 32 (min 4294967295 (l.inherited.toNat + l.handling.toNat + l.equipment.toNat) / 60) } := by
  rw [returnedDraft, shown, total_toNat]
  rfl

theorem tripClose_badState {s : State} (h : s.trip.record.state = .noTrip) : tripClose s = (s, .badState) :=
  if_neg fun hopen => (tripIsOpen_iff s).1 hopen h

theorem tripClose_taken {s : State} (h : s.trip.record.state ≠ .noTrip) : tripClose s = (closeTrip s, .done) :=
  if_pos ((tripIsOpen_iff s).2 h)

/-- Settles O23: a TRIP_CLOSE that is taken seals and converts the lots, empties the proof list, ends an open visit and
appends (R114, R156); its reply changes nothing more. -/
theorem tripCloseClosesTheTrip : Obligations.TripCloseClosesTheTrip := by
  intro h s ht
  refine ⟨fun hn => replies_of rfl ht (tripClose_badState hn), fun ho hr => ?_⟩
  intro due sealed returned
  obtain ⟨dropped, items, off⟩ := sealedReturned_off hr
  have replies : Replies (.tripClose h) s (closeTrip s) h kMgCmd .done := replies_of rfl ht (tripClose_taken ho)
  generalize hu : sealedReturned s = u at off
  rw [closeTrip_eq off hr hu] at replies
  obtain ⟨answer, sent⟩ := replies
  have beside := (append_recorded (tripCloseDraft s) (tripClosed u)).trans sent.recorded
  have custody := off.custody
  have closed := (tripClosed_spec u).1
  have trip := (beside.trip.trans closed.trip).trans (congrArg Trip.shut (close_trip off))
  have scans := beside.scans.trans (closed.scans.trans custody.scans)
  have lots := close_lots off beside
  have marks := close_marks off beside
  have tells := close_tells off (rsp h kMgCmd .done) (tripCloseDraft s)
  have doors := close_doors off beside
  have deadline : retentionDeadline s.trip = due := deadline_eq _ _
  rw [deadline] at lots
  simp only [returnedDraft_eq] at tells
  refine ⟨append (tripCloseDraft s) (tripClosed u), _, answer, rfl, sent, ?_, ?_, ?_, ?_, fun i hi => ?_, lots.converted,
    lots.others, fun i hi => ?_, fun before lot hl => close_flag off _ _ hl, tells, ?_, ?_, doors.2, doors.1, ?_, ?_, ?_⟩
  · rw [trip]
    rfl
  · rw [trip]
    rfl
  · rw [trip]
    rfl
  · intro k
    rw [trip]
    exact get_mapV _ _ k
  · obtain ⟨p, cause, clock, entry⟩ := lots.sealed i hi
    refine ⟨p, cause, clock, ?_⟩
    rw [marks i, decide_eq_true hi, Bool.or_true, Bool.or_true] at entry
    exact entry
  · rw [marks i, decide_eq_false hi, Bool.or_false]
  · rw [beside.proofs, closed.proofs]
  · intro n
    rw [scans, dropAdvisories_mem]
  · exact beside.sensor.trans (closed.sensor.trans custody.sensor)
  · exact beside.zones.trans (closed.zones.trans custody.zones)
  · exact beside.engine.trans (closed.engine.trans custody.engine)

end Sys2Proof.Machine
end

section
/-! PROOFS. What every command keeps: a property that the blocks behind the commands keep, where it rests on the lots, the
proof list, the trip record, the claim slots and the scan memories alone (O57). -/

namespace Sys2Proof.Machine

/-- A property that rests on what `Steady` names, and that each block keeps that writes some of it. -/
structure BlocksKeep (P : State → Prop) : Prop where
  steady     : ∀ {s t}, P s → Steady s t → P t
  powerOn    : ∀ now straps clock unsynced addr s, P (powerOnState now straps clock unsynced addr s)
  frame      : ∀ {s}, P s → ∀ ok f, P (takeSensorFrame ok f s)
  miss       : ∀ {s}, P s → ∀ n a k, P (takeMiss n a k s)
  zones      : ∀ {s}, P s → P (computeZones s)
  updates    : ∀ {s}, P s → P (updateLots s)
  node       : ∀ {s}, P s → ∀ n e, P (writeNode n e s)
  linkReset  : ∀ {s}, P s → P (linkReset s)
  add        : ∀ {s}, P s → ∀ f, P (manifestAdd f s).1
  delete     : ∀ {s}, P s → ∀ lot, P (manifestDelete lot s).1
  move       : ∀ {s}, P s → ∀ lot z, P (moveLot lot z s).1
  expire     : ∀ {s}, P s → ∀ i, P (expireLot i s)
  door       : ∀ {s}, P s → ∀ d e, P (writeDoor d e s)
  line       : ∀ {s}, P s → ∀ d, P (settleLine d s)
  close      : ∀ {s}, P s → ∀ d, P (closeDoor d s)
  tripOpen   : ∀ {s}, P s → ∀ p, P (tripOpen p s).1
  depart     : ∀ {s}, P s → P (depart s).1
  arrive     : ∀ {s}, P s → ∀ k, P (arrive k s).1
  tripClose  : ∀ {s}, P s → P (tripClose s).1
  time       : ∀ {s}, P s → ∀ v, P (setTime v s)
  settle     : ∀ {s}, P s → ∀ i, P (sealLot .settle i s)
  confirm    : ∀ {s}, P s → ∀ p, P (s.modList fun l => l.erase p)
  lapse      : ∀ {s}, P s → ∀ p ∈ s.proofs.list, P (markUnconfirmed p (s.modList fun l => l.erase p))
  journal    : ∀ {s}, P s → ∀ r m n count, P (jrnlReq r m n count s)
  claim      : ∀ {s}, P s → ∀ q, P (claimQuery q s)
  read       : ∀ {s}, P s → ∀ r table first count, P (tableRead r table first count s)
  piece      : ∀ {s}, P s → ∀ r, P (sendPiece r s)

section

variable {P : State → Prop} {s t : State}

/-- The parts that `Steady` names are as they were. -/
theorem BlocksKeep.only (hP : BlocksKeep P) (hs : P s) (h1 : t.lots = s.lots := by rfl) (h2 : t.proofs = s.proofs := by rfl)
    (h3 : t.trip.record = s.trip.record := by rfl) (h4 : t.claims = s.claims := by rfl) (h5 : t.scans = s.scans := by rfl) :
    P t :=
  hP.steady hs (.of_eq h1 h2 h3 h4 h5)

theorem BlocksKeep.sensor (hP : BlocksKeep P) (hs : P s) (f : Sensor → Sensor) : P (s.modSensor f) := hP.only hs

theorem BlocksKeep.engine (hP : BlocksKeep P) (hs : P s) (e : Engine) : P { s with engine := e } := hP.only hs

/-- R132: scan memories whose advisories have gone, and nothing else. -/
theorem modMem_steady (s : State) (n : Fin 32) : Steady s (s.modMem n fun m => { m with pending := none }) := by
  refine ⟨fun _ => ⟨rfl, rfl, rfl, rfl, rfl⟩, rfl, ⟨rfl, rfl⟩, Claims.Kept.refl _, fun m hm => ?_⟩
  rw [modMem_scans, get_upd] at hm
  split at hm
  · exact absurd rfl hm
  · exact hm

theorem BlocksKeep.sent (hP : BlocksKeep P) (hs : P s) (h : Sent s t) : P t := hP.steady hs h.steady

/-- R183: a request keeps what its block keeps. -/
theorem BlocksKeep.onRequest (hP : BlocksKeep P) (hs : P s) {h : ReqHdr} {g : State → State} (e : onRequest h s g = .next t)
    (hg : P (g s)) : P t :=
  onRequest_keeps P e hs hg (hP.only hs)

/-- R188, R189: a request that answers with a code keeps what its effects keep. -/
theorem BlocksKeep.answered (hP : BlocksKeep P) (hs : P s) {h : ReqHdr} {k : Byte} {g : State → State × ReplyCode}
    (e : Machine.onRequest h s (fun s => Machine.answered h k (g s)) = .next t) (hg : P (g s).1) : P t :=
  hP.onRequest hs e (hP.sent hg (reply_sent _ _ _))

theorem next_of {u : State} (h : (.next u : Answer) = .next t) (hu : P u) : P t := by
  cases h
  exact hu

/-- What either branch of an event keeps, the event keeps. -/
theorem keeps_ite {c : Prop} [Decidable c] {u v : State} (hu : c → P u) (hv : P v) : P (if c then u else v) := by
  split
  next h => exact hu h
  next => exact hv

/-! ### Writes of parts that the property does not rest on -/

theorem BlocksKeep.zoneWrite (hP : BlocksKeep P) (hs : P s) (i : Byte) (f : ZoneFields) : P (zoneWrite i f s).1 := by
  unfold Machine.zoneWrite
  repeat' split
  all_goals exact hP.only hs

theorem BlocksKeep.classWrite (hP : BlocksKeep P) (hs : P s) (i : Byte) (f : ClassFields) : P (classWrite i f s).1 := by
  unfold Machine.classWrite
  dsimp only
  repeat' split
  all_goals exact hP.only hs

theorem BlocksKeep.engineWrite (hP : BlocksKeep P) (hs : P s) (i : Byte) (f : EngineFields) : P (engineWrite i f s).1 := by
  unfold Machine.engineWrite
  dsimp only
  repeat' split
  all_goals exact hP.only hs

theorem BlocksKeep.stopWrite (hP : BlocksKeep P) (hs : P s) (i : Byte) (f : StopFields) : P (stopWrite i f s).1 := by
  unfold Machine.stopWrite
  repeat' split
  all_goals exact hP.only hs

theorem BlocksKeep.beaconWrite (hP : BlocksKeep P) (hs : P s) (i : Byte) (f : BeaconFields) : P (beaconWrite i f s).1 := by
  unfold Machine.beaconWrite
  repeat' split
  all_goals exact hP.only hs

theorem BlocksKeep.beaconClear (hP : BlocksKeep P) (hs : P s) (set : Byte) : P (beaconClear set s).1 := by
  unfold Machine.beaconClear stopTrains
  dsimp only
  repeat' split
  all_goals exact hP.only hs

theorem BlocksKeep.armSeal (hP : BlocksKeep P) (hs : P s) (d : Byte) : P (armSeal d s).1 := by
  unfold Machine.armSeal
  dsimp only
  repeat' split
  all_goals exact hP.only hs

theorem BlocksKeep.eventClear (hP : BlocksKeep P) (hs : P s) (kinds : Half) : P (eventClear kinds s).1 := by
  unfold Machine.eventClear
  split
  all_goals exact hP.only hs

theorem BlocksKeep.eventSettingsWrite (hP : BlocksKeep P) (hs : P s) (i : Byte) (kinds : Half) :
    P (eventSettingsWrite i kinds s).1 := by
  unfold Machine.eventSettingsWrite
  repeat' split
  all_goals exact hP.only hs

theorem BlocksKeep.setAddress (hP : BlocksKeep P) (hs : P s) (a : Byte) : P (setAddress a s).1 := by
  unfold Machine.setAddress
  split
  all_goals exact hP.only hs

theorem BlocksKeep.lineWrite (hP : BlocksKeep P) (hs : P s) (i : Byte) (f : LineFields) : P (lineWrite i f s).1 := by
  unfold Machine.lineWrite
  dsimp only
  split
  all_goals exact hP.only hs

/-- R125, R151, R173: the windows of the scan, the proof and the claim unit are none of what the property rests on. -/
theorem BlocksKeep.scanSettingsWrite (hP : BlocksKeep P) (hs : P s) (i w : Byte) : P (scanSettingsWrite i w s).1 := by
  unfold Machine.scanSettingsWrite
  dsimp only
  split
  · exact hs
  · exact hP.steady hs ⟨fun _ => ⟨rfl, rfl, rfl, rfl, rfl⟩, rfl, ⟨rfl, rfl⟩, Claims.Kept.refl _, fun _ h => h⟩

theorem BlocksKeep.proofSettingsWrite (hP : BlocksKeep P) (hs : P s) (i : Byte) (w : Half) :
    P (proofSettingsWrite i w s).1 := by
  unfold Machine.proofSettingsWrite
  dsimp only
  split
  · exact hs
  · exact hP.steady hs ⟨fun _ => ⟨rfl, rfl, rfl, rfl, rfl⟩, rfl, ⟨rfl, rfl⟩, Claims.Kept.refl _, fun _ h => h⟩

theorem BlocksKeep.claimSettingsWrite (hP : BlocksKeep P) (hs : P s) (i : Byte) (w : Half) :
    P (claimSettingsWrite i w s).1 := by
  unfold Machine.claimSettingsWrite
  dsimp only
  split
  · exact hs
  · exact hP.steady hs ⟨fun _ => ⟨rfl, rfl, rfl, rfl, rfl⟩, rfl, ⟨rfl, rfl⟩, fun j x hx => ⟨x, hx, rfl⟩, fun _ h => h⟩

/-! ### Requests and events by their blocks -/

theorem BlocksKeep.nodeWrite (hP : BlocksKeep P) (hs : P s) (i : Byte) (f : NodeFields) : P (nodeWrite i f s).1 := by
  unfold Machine.nodeWrite
  repeat' split
  · exact hs
  · exact hs
  · exact hP.node hs _ _
  · exact hs

theorem BlocksKeep.doorWrite (hP : BlocksKeep P) (hs : P s) (i : Byte) (f : DoorFields) : P (doorWrite i f s).1 := by
  unfold Machine.doorWrite
  repeat' split
  · exact hs
  · exact hs
  · exact hP.door hs _ _

/-- R154: a proof that is confirmed leaves the list, and Confirm is appended. -/
theorem BlocksKeep.proofAck (hP : BlocksKeep P) (hs : P s) (number : Half) (check : Word) :
    P (proofAck number check s).1 := by
  unfold Machine.proofAck
  repeat' split
  · exact hP.steady (hP.confirm hs _) (append_steady _ _)
  all_goals exact hs

theorem BlocksKeep.takeThrough (hP : BlocksKeep P) (hs : P s) (f : Frame) : P (takeThrough f s) := by
  unfold Machine.takeThrough
  split
  · exact hP.sent hs (replyBody_sent _ _ _ s)
  · exact keeps_ite (fun _ => hP.sent hs (replyBody_sent _ _ _ s)) (hP.only hs)

theorem BlocksKeep.beginThrough (hP : BlocksKeep P) (hs : P s) : P (beginThrough s) := by
  unfold Machine.beginThrough
  split
  · exact hs
  · exact hP.only hs

/-- R176: a build completion and the builder's going on put no lot into a slot. -/
theorem BlocksKeep.buildCompletion (hP : BlocksKeep P) (hs : P s) (b : Build) :
    P (runBuilder { s with claims := s.claims.complete b s.clock s.trip.unsynced s.lots }) :=
  hP.steady hs ⟨fun _ => ⟨rfl, rfl, rfl, rfl, rfl⟩, rfl, ⟨rfl, rfl⟩,
    (complete_kept _ _ _ _ _).trans (run_kept _ _ _ _ _ _ _), fun _ h => h⟩

/-- R99: a door that is overlong is marked, raised and told to the journal. -/
theorem BlocksKeep.overlong (hP : BlocksKeep P) (hs : P s) (d : Fin 4) (x : Draft) :
    P (append x (raise .doorOverlong (.door d) (s.modDoorRt d fun r => { r with overlong := true }))) := by
  have marked : P (s.modDoorRt d fun r => { r with overlong := true }) := hP.only hs
  exact hP.steady (hP.steady marked (raise_raised _ _ _).steady) (append_steady _ _)

/-- R184: the end of a transmission touches the trunk port and the export alone. -/
theorem BlocksKeep.transmissionEnd (hP : BlocksKeep P) (hs : P s) :
    P (offer offerFuel { s with trunk := s.trunk.doneSent.endTx }) :=
  hP.sent (hP.only hs (t := { s with trunk := s.trunk.doneSent.endTx })) (offer_sent _ _)

/-! The rows of frames that may belong to another row (log 4): such a frame is refused, and leaves no state. -/

theorem BlocksKeep.throughFrame (hP : BlocksKeep P) (hs : P s) {f : Frame} (h : execThroughFrame f s = .next t) : P t := by
  unfold execThroughFrame at h
  split at h
  · refine next_of h ?_
    split
    · exact hs
    · exact hP.takeThrough hs f
  · exact nomatch h

theorem BlocksKeep.mgWriteRefused (hP : BlocksKeep P) (hs : P s) {hd : ReqHdr} {payload : List Byte}
    (h : execMgWriteRefused hd payload s = .next t) : P t := by
  unfold execMgWriteRefused at h
  split at h
  · exact hP.onRequest hs h (hP.sent hs (reply_sent _ _ s))
  · exact nomatch h

theorem BlocksKeep.mgCmdInvalid (hP : BlocksKeep P) (hs : P s) {hd : ReqHdr} {payload : List Byte}
    (h : execMgCmdInvalid hd payload s = .next t) : P t := by
  unfold execMgCmdInvalid at h
  split at h
  · exact hP.onRequest hs h (hP.sent hs (reply_sent _ _ s))
  · exact nomatch h

theorem BlocksKeep.frameError (hP : BlocksKeep P) (hs : P s) {f : Frame} {check : Half}
    (h : execFrameError f check s = .next t) : P t := by
  unfold execFrameError at h
  split at h
  · refine next_of h ?_
    split
    · exact hs
    · exact hP.only hs
  · exact nomatch h

/-- What the blocks keep, every command keeps. -/
theorem BlocksKeep.exec (hP : BlocksKeep P) (hs : P s) {c : Instr} (h : exec c s = .next t) : P t := by
  cases c
  all_goals unfold Machine.exec at h
  case throughFrame => exact hP.throughFrame hs h
  case mgWriteRefused => exact hP.mgWriteRefused hs h
  case mgCmdInvalid => exact hP.mgCmdInvalid hs h
  case frameError => exact hP.frameError hs h
  case powerOnReset => exact next_of h (hP.powerOn _ _ _ _ _ s)
  case resetFullTakesEffect => exact next_of h (keeps_ite (fun _ => hP.powerOn _ _ _ _ _ s) hs)
  case roundStart =>
    refine next_of h ?_
    repeat' split
    all_goals exact hP.only hs
  case poll =>
    refine next_of h ?_
    repeat' split
    all_goals exact hP.only hs
  case thruOut => exact next_of h (keeps_ite (fun _ => hP.beginThrough hs) hs)
  case replyReading | replyScan | replyIdle | badReply | straySensorFrame | thruBack | thruWindowOtherFrame =>
    exact next_of h (hP.frame hs _ _)
  case replyWindowExpiry =>
    refine next_of h ?_
    split
    · exact keeps_ite (fun _ => hP.miss (hP.sensor hs _) _ _ _) hs
    · exact hs
  case throughWindowExpiry =>
    refine next_of h ?_
    split
    · exact keeps_ite (fun _ => hP.sent (hP.sensor hs _) (replyBody_sent _ _ _ _)) hs
    · exact hs
  case roundEnd =>
    refine next_of h ?_
    split
    · exact hs
    · exact keeps_ite (fun _ => hP.sensor (hP.zones hs) _) hs
  case updateEvent => exact next_of h (keeps_ite (fun _ => hP.engine (hP.updates hs) _) hs)
  case mgRead =>
    refine hP.onRequest hs h ?_
    split
    · exact hP.read hs _ _ _ _
    · exact hP.sent hs (reply_sent _ _ s)
  case mgReadNextFrame =>
    refine next_of h ?_
    split
    · exact keeps_ite (fun _ => hP.piece hs _) hs
    · exact hs
  case nodeTableWrite => exact hP.answered hs h (hP.nodeWrite hs _ _)
  case lineSettingsWrite => exact hP.answered hs h (hP.lineWrite hs _ _)
  case zoneTableWrite => exact hP.answered hs h (hP.zoneWrite hs _ _)
  case classTableWrite => exact hP.answered hs h (hP.classWrite hs _ _)
  case engineSettingsWrite => exact hP.answered hs h (hP.engineWrite hs _ _)
  case manifestAdd => exact hP.answered hs h (hP.add hs _)
  case manifestDelete => exact hP.answered hs h (hP.delete hs _)
  case doorTableWrite => exact hP.answered hs h (hP.doorWrite hs _ _)
  case beaconTableWrite => exact hP.answered hs h (hP.beaconWrite hs _ _)
  case stopTableWrite => exact hP.answered hs h (hP.stopWrite hs _ _)
  case scanSettingsWrite => exact hP.answered hs h (hP.scanSettingsWrite hs _ _)
  case proofSettingsWrite => exact hP.answered hs h (hP.proofSettingsWrite hs _ _)
  case claimSettingsWrite => exact hP.answered hs h (hP.claimSettingsWrite hs _ _)
  case eventSettingsWrite => exact hP.answered hs h (hP.eventSettingsWrite hs _ _)
  case tripOpen => exact hP.answered hs h (hP.tripOpen hs _)
  case depart => exact hP.answered hs h (hP.depart hs)
  case arrive => exact hP.answered hs h (hP.arrive hs _)
  case tripClose => exact hP.answered hs h (hP.tripClose hs)
  case moveLot => exact hP.answered hs h (hP.move hs _ _)
  case armSeal => exact hP.answered hs h (hP.armSeal hs _)
  case beaconClear => exact hP.answered hs h (hP.beaconClear hs _)
  case timeSet => exact hP.answered (g := fun s => (setTime _ s, .done)) hs h (hP.time hs _)
  case eventClear => exact hP.answered hs h (hP.eventClear hs _)
  case setAddress => exact hP.answered hs h (hP.setAddress hs _)
  case resetLink => exact hP.answered (g := fun s => (Machine.linkReset s, .done)) hs h (hP.linkReset hs)
  case resetFull => exact hP.onRequest hs h (hP.only hs)
  case doorLineChange =>
    refine next_of h ?_
    split
    · exact hs
    · exact hP.line (hP.only (hP.line hs _)) _
  case debounceExpiry => exact next_of h (hP.line hs _)
  case assumedOpenTimeExpiry => exact next_of h (keeps_ite (fun _ => hP.close hs _) hs)
  case recoveryWindowEnd => exact next_of h hs
  case doorOverlong => exact next_of h (keeps_ite (fun _ => hP.overlong hs _ _) hs)
  case beaconPhaseEnd =>
    refine next_of h ?_
    split
    · exact keeps_ite (fun _ => hP.only hs) hs
    · exact hs
  case advisoryExpiry => exact next_of h (keeps_ite (fun _ => hP.steady hs (modMem_steady s _)) hs)
  case settleDeadline => exact next_of h (keeps_ite (fun _ => hP.settle hs _) hs)
  case ackDeadline =>
    refine next_of h ?_
    split
    next p hp => exact hP.lapse hs p (List.mem_of_find?_eq_some hp)
    next => exact hs
  case proofAck =>
    refine hP.answered hs h ?_
    split
    · exact hP.proofAck hs _ _
    · exact hs
  case retentionExpiry => exact next_of h (keeps_ite (fun _ => hP.expire hs _) hs)
  case jrnlReq =>
    refine hP.onRequest hs h ?_
    repeat' split
    · exact hP.sent hs (reply_sent _ _ s)
    · exact hP.journal hs _ _ _ _
    · exact hP.sent hs (reply_sent _ _ s)
  case claimQ =>
    refine hP.onRequest hs h ?_
    split
    · exact hP.claim hs _
    · exact hP.sent hs (reply_sent _ _ s)
  case buildCompletion =>
    refine next_of h ?_
    split
    · exact hs
    · exact hP.buildCompletion hs _
  case claimWindowDeadline => exact next_of h (keeps_ite (fun _ => hP.steady hs (discardSlot_steady _ s)) hs)
  case transmissionEnd =>
    refine next_of h ?_
    split
    · exact hs
    · exact hP.transmissionEnd hs

/-- R118: a step runs a command, of the queue or due, or lets a millisecond pass, which nothing here rests on. -/
theorem BlocksKeep.step (hP : BlocksKeep P) (hs : P s) (h : step s = .next t) : P t := by
  unfold Machine.step at h
  split at h
  · exact hP.exec (hP.only hs) h
  · unfold idleStep at h
    split at h
    · exact hP.exec hs h
    · exact next_of h (hP.only hs)

end

/-! ### The agreements among lots, advisories, proofs and claim slots -/

/-- R152: the proof of a lot that leaves the list was the only one of its lot. -/
theorem erase_index_ne {l : List ProofItem} (h : l.Pairwise fun p q => p.index ≠ q.index) {p q : ProofItem} (hp : p ∈ l)
    (hq : q ∈ l.erase p) : q.index ≠ p.index := by
  have nodup : l.Nodup := h.imp fun hne e => hne (congrArg ProofItem.index e)
  obtain ⟨hqp, hql⟩ := nodup.mem_erase_iff.1 hq
  have : Std.Symm fun p q : ProofItem => p.index ≠ q.index := ⟨fun _ _ hxy => hxy.symm⟩
  exact h.forall hql hp hqp

/-- R62, R114, R132, R147, R152, R172: every block keeps the agreements together. -/
theorem custodyHeld_blocks : BlocksKeep CustodyHeld where
  steady := .steady
  powerOn := .powerOn
  frame := .takeSensorFrame
  miss := .takeMiss
  zones := .computeZones
  updates := .updateLots
  node := .writeNode
  linkReset := .linkReset
  add := .manifestAdd
  delete := .manifestDelete
  move := .moveLot
  expire := .expireLot
  door := .writeDoor
  line := .settleLine
  close := .closeDoor
  tripOpen := .tripOpen
  depart := .depart
  arrive := .arrive
  tripClose := .tripClose
  time := .setTime
  settle h i := h.sealLot _ i
  confirm h _ := h.sublist _ List.erase_sublist
  lapse h p hp := h.dropMark p _ hp List.erase_sublist fun _ hq => erase_index_ne h.proofs.1 hp hq
  journal := .jrnlReq
  claim := .claimQuery
  read := .tableRead
  piece := .sendPiece

end Sys2Proof.Machine
end

section
/-! PROOFS. The handovers and their records, what a lot id finds and the slot of a lot (O57; spec 04 R62; spec 07 R135 to R137;
spec 08 R149; spec 10 R172). -/

namespace Sys2Proof.Machine

/-! ### The handovers and their records (R135 to R137, R149) -/

/-- The state and the handover record of every lot. -/
def State.handed (s : State) (i : Fin 96) : LotState × Option Handover := ((s.lots.get i).state, (s.lots.get i).handover)

/-- R135, R136, R137, R149: at most 8 lots are in Handover, and each of them, and no other, holds a record. -/
structure HandoversHeld (s : State) : Prop where
  bounded  : HandoversBounded s
  recorded : HandoversRecorded s

/-- They rest on the states and the records of the lots alone. -/
theorem HandoversHeld.of_handed {s t : State} (h : HandoversHeld s) (e : t.handed = s.handed) : HandoversHeld t := by
  have same : ∀ i, (t.lots.get i).state = (s.lots.get i).state ∧ (t.lots.get i).handover = (s.lots.get i).handover :=
    fun i => Prod.mk.inj (congrFun e i)
  refine ⟨Nat.le_trans (countV_mono _ fun i hi => ?_) h.bounded, fun i => ?_⟩
  · rwa [(same i).1] at hi
  · rw [(same i).1, (same i).2]
    exact h.recorded i

/-- A lot is written that is not in Handover then, or was before. -/
theorem HandoversHeld.modLot {s : State} (h : HandoversHeld s) (i : Fin 96) (f : LotEntry → LotEntry)
    (hr : (f (s.lots.get i)).state = .handover ↔ (f (s.lots.get i)).handover.isSome = true)
    (hb : (f (s.lots.get i)).state = .handover → (s.lots.get i).state = .handover) : HandoversHeld (s.modLot i f) := by
  refine ⟨Nat.le_trans (countV_mono _ fun j hj => ?_) h.bounded, fun j => ?_⟩
  · rw [modLot_lots, get_upd] at hj
    split at hj
    next e => exact e ▸ decide_eq_true (hb (of_decide_eq_true hj))
    next => exact hj
  · rw [modLot_lots, get_upd]
    split
    · exact hr
    · exact h.recorded j

/-- R137, R149: a lot is written that is in no handover then. -/
theorem HandoversHeld.ended {s : State} (h : HandoversHeld s) (i : Fin 96) (f : LotEntry → LotEntry)
    (hf : (f (s.lots.get i)).state ≠ .handover ∧ (f (s.lots.get i)).handover = none) : HandoversHeld (s.modLot i f) := by
  refine h.modLot i f ?_ fun e => absurd e hf.1
  rw [hf.2]
  exact ⟨fun e => absurd e hf.1, fun e => nomatch e⟩

/-- R135: a lot that is not in Handover holds no record. -/
theorem HandoversHeld.none {s : State} (h : HandoversHeld s) {i : Fin 96} (hi : (s.lots.get i).state ≠ .handover) :
    (s.lots.get i).handover = none :=
  Option.not_isSome_iff_eq_none.1 fun hs => hi ((h.recorded i).2 hs)

/-- A lot that is not in Handover goes to another such state, its record untouched. -/
theorem HandoversHeld.moved {s : State} (h : HandoversHeld s) (i : Fin 96) (f : LotEntry → LotEntry)
    (hi : (s.lots.get i).state ≠ .handover) (hs : (f (s.lots.get i)).state ≠ .handover)
    (hh : (f (s.lots.get i)).handover = (s.lots.get i).handover) : HandoversHeld (s.modLot i f) :=
  h.ended i f ⟨hs, hh.trans (h.none hi)⟩

/-! ### Operations that leave every handover as it was

Frames, raisings, appends and discards; then the operations of each unit, in the order of the units. -/

theorem Steady.handed {s t : State} (h : Steady s t) : t.handed = s.handed :=
  funext fun i => by
    obtain ⟨-, hs, -, -, hh⟩ := h.lots i
    exact Prod.ext hs hh

/-- Gap counts and Unconfirmed marks are no part of a handover. -/
theorem handed_of_marked {s t : State} (h : ∀ i, Marked (s.lots.get i) (t.lots.get i)) : t.handed = s.handed :=
  funext fun i => by
    have e := h i
    unfold Marked at e
    unfold State.handed
    rw [e]

@[simp] theorem hand_handed (f : OutFrame) (s : State) : (hand f s).1.handed = s.handed := (hand_sent f s).steady.handed

@[simp] theorem offer_handed (n : Nat) (s : State) : (offer n s).handed = s.handed := (offer_sent n s).steady.handed

@[simp] theorem reply_handed (r : ReplyTo) (c : ReplyCode) (s : State) : (reply r c s).handed = s.handed :=
  (reply_sent r c s).steady.handed

@[simp] theorem raise_handed (k : EventKind) (sub : Subject) (s : State) : (raise k sub s).handed = s.handed :=
  (raise_raised k sub s).steady.handed

@[simp] theorem append_handed (d : Draft) (s : State) : (append d s).handed = s.handed := (append_steady d s).handed

@[simp] theorem discardFor_handed (lot : Word) (s : State) : (discardFor lot s).handed = s.handed :=
  (discardFor_steady lot s).handed

@[simp] theorem discardSlot_handed (k : Fin 4) (s : State) : (discardSlot k s).handed = s.handed := rfl
@[simp] theorem runBuilder_handed (s : State) : (runBuilder s).handed = s.handed := rfl
theorem withZones_handed (s : State) (z : Zones) : { s with zones := z }.handed = s.handed := rfl
@[simp] theorem withClaims_handed (s : State) (c : Claims) : { s with claims := c }.handed = s.handed := rfl
@[simp] theorem modNodeRt_handed (s : State) (n : Fin 32) (f : NodeRt → NodeRt) : (s.modNodeRt n f).handed = s.handed := rfl
@[simp] theorem modMem_handed (s : State) (n : Fin 32) (f : ScanMem → ScanMem) : (s.modMem n f).handed = s.handed := rfl
@[simp] theorem modDoorRt_handed (s : State) (d : Fin 4) (f : DoorRt → DoorRt) : (s.modDoorRt d f).handed = s.handed := rfl
@[simp] theorem modTrip_handed (s : State) (f : TripRecord → TripRecord) : (s.modTrip f).handed = s.handed := rfl
@[simp] theorem modSensor_handed (s : State) (f : Sensor → Sensor) : (s.modSensor f).handed = s.handed := rfl
@[simp] theorem setRead_handed (r : Option ReadRec) (s : State) : (setRead r s).handed = s.handed := rfl
@[simp] theorem endExport_handed (s : State) : (endExport s).handed = s.handed := rfl
@[simp] theorem endVisit_handed (s : State) : (endVisit s).handed = s.handed := rfl
@[simp] theorem clearVisited_handed (s : State) : (clearVisited s).handed = s.handed := rfl
@[simp] theorem dropAdvisories_handed (s : State) : (dropAdvisories s).handed = s.handed := rfl
@[simp] theorem setDoorEntry_handed (d : Fin 4) (e : DoorEntry) (s : State) : (setDoorEntry d e s).handed = s.handed := rfl

/-- A lot is written, but neither its state nor its record. -/
theorem modLot_handed {s : State} {i : Fin 96} {f : LotEntry → LotEntry} (hs : (f (s.lots.get i)).state = (s.lots.get i).state)
    (hh : (f (s.lots.get i)).handover = (s.lots.get i).handover) : (s.modLot i f).handed = s.handed := by
  funext j
  unfold State.handed
  rw [modLot_lots, get_upd]
  split
  next e => rw [e, hs, hh]
  next => rfl

/-! The sensor line, readings and zones (spec 01, 02). -/

@[simp] theorem goodNode_handed (n : Fin 32) (s : State) : (goodNode n s).handed = s.handed := by
  simp [goodNode, nodeEvent, apply_ite State.handed]

@[simp] theorem takeMiss_handed (n : Fin 32) (a : Byte) (k : MissKind) (s : State) : (takeMiss n a k s).handed = s.handed := by
  simp [takeMiss, nodeEvent, apply_ite State.handed]

@[simp] theorem report_handed (n : Fin 32) (v : Int) (s : State) : (report n v s).handed = s.handed := by
  simp [report, apply_ite State.handed]

@[simp] theorem takeReading_handed (n : Fin 32) (raw : Half) (q : Byte) (s : State) : (takeReading n raw q s).handed = s.handed := by
  have policy (v : Int) (u : State) : (applyPolicy n v u).handed = u.handed := by
    unfold applyPolicy
    cases (u.sensor.nodes.get n).policy <;> simp [apply_ite State.handed]
  simp [takeReading, policy, apply_ite State.handed]

theorem computeZones_handed (s : State) : (computeZones s).handed = s.handed :=
  (handed_of_marked (computeZones_spec s).1.marked).trans (withZones_handed s _)

theorem writeNode_handed (n : Fin 32) (e : NodeEntry) (s : State) : (writeNode n e s).handed = s.handed := by
  rw [writeNode_eq, (foldl_hand_sent _ _).steady.handed]
  rfl

/-! Lots and trips (spec 03, 04, 06). -/

/-- R46: an update leaves a lot in its state and its record as it was. -/
theorem updated_handed (l : LotEntry) (s : State) :
    (l.updated s).state = l.state ∧ (l.updated s).handover = l.handover := by
  have stages (blind : Bool) (c : ClassEntry) (p : Nat) (air : Int) (served : Bool) (k : Clock) :
      (l.stages blind c p air served k).state = l.state ∧ (l.stages blind c p air served k).handover = l.handover := by
    obtain ⟨-, hs, -, -, hh⟩ := expose_key { l with blind := l.blind || blind } c p air served k
    unfold LotEntry.stages LotEntry.graded
    split
    · exact ⟨hs, hh⟩
    · exact ⟨hs, hh⟩
  unfold LotEntry.updated LotEntry.staged
  dsimp only
  split
  · exact ⟨rfl, rfl⟩
  · exact stages _ _ _ _ _ _

/-- R45 to R58: an update event changes the dose, the core, the grade and the marks of lots. -/
theorem updateLots_handed (s : State) : (updateLots s).handed = s.handed := by
  obtain ⟨taken, left, -⟩ := updateLots_lots s
  funext i
  unfold State.handed
  cases hi : (s.lots.get i).inCustody with
  | true =>
    obtain ⟨hs, hh⟩ := updated_handed (s.lots.get i) s
    have e := taken i hi
    unfold Gapped at e
    rw [e]
    exact Prod.ext hs hh
  | false =>
    have e := left i hi
    unfold Gapped at e
    rw [e]

theorem moveLot_handed (lot : Word) (z : Byte) (s : State) : (moveLot lot z s).1.handed = s.handed := by
  unfold moveLot
  repeat' split
  all_goals first
    | rfl
    | exact (append_handed _ _).trans (modLot_handed rfl rfl)

theorem addProof_handed (p : ProofItem) (s : State) : (addProof p s).handed = s.handed :=
  handed_of_marked (addProof_marked p s).1

theorem markUnconfirmed_handed (p : ProofItem) (s : State) : (markUnconfirmed p s).handed = s.handed :=
  (raise_handed _ _ _).trans (modLot_handed rfl rfl)

@[simp] theorem emptyProofs_handed (n : Nat) (s : State) : (emptyProofs n s).handed = s.handed := by
  induction n generalizing s with
  | zero => rfl
  | succ n ih =>
    unfold emptyProofs
    split
    · rfl
    · rw [ih, markUnconfirmed_handed]
      rfl

/-- R71, R111: a trip that opens drops planned stops of Expected lots alone. -/
theorem tripOpen_handed (p : TripOpenParams) (s : State) : (tripOpen p s).1.handed = s.handed := by
  have dropped (m : TripMode) (u : State) : (dropPlanned m u).handed = u.handed := by
    cases m with
    | van => rfl
    | room =>
      funext i
      unfold State.handed dropPlanned
      rw [get_mapV]
      split <;> rfl
  unfold tripOpen
  split
  · rfl
  · split
    · rfl
    · exact (append_handed _ _).trans (dropped _ _)

theorem arrive_handed (stop : Byte) (s : State) : (arrive stop s).1.handed = s.handed := by
  unfold arrive
  repeat' split
  all_goals first
    | rfl
    | exact append_handed _ _

theorem setTime_handed (v : Clock) (s : State) : (setTime v s).handed = s.handed := by
  unfold setTime
  dsimp only
  split
  · rw [append_handed, raise_handed]
    rfl
  · rfl

/-! Doors (spec 05). -/

@[simp] theorem openDoor_handed (d : Fin 4) (s : State) : (openDoor d s).handed = s.handed := by
  simp [openDoor, apply_ite State.handed]

theorem breakSeal_handed (d : Fin 4) (s : State) : (breakSeal d s).handed = s.handed := by simp [breakSeal]

/-! Exports, claims and reads (spec 09, 10, 11). -/

theorem jrnlReq_handed (r : ReplyTo) (m : JrnlMode) (n : Word) (count : Half) (s : State) :
    (jrnlReq r m n count s).handed = s.handed := by
  unfold jrnlReq
  repeat' split
  · simp
  · simp
  · rw [startExport, offer_handed]
    exact (reply_handed _ _ _).trans (endExport_handed s)

theorem answerPlain_handed (q : Query) (a : ClaimAnswer) (s : State) : (answerPlain q a s).handed = s.handed :=
  hand_handed _ _

@[simp] theorem openFor_handed (q : Query) (s : State) : (openFor q s).handed = s.handed := by
  unfold openFor
  split
  · exact (hand_handed _ _).trans (runBuilder_handed _)
  · exact answerPlain_handed q _ s

theorem sendStatement_handed (q : Query) (k : Fin 4) (x : Statement) (s : State) :
    (sendStatement q k x s).handed = s.handed := by
  have handed (fs : List OutFrame) (u : State) : (handAll fs u).1.handed = u.handed := by
    induction fs generalizing u with
    | nil => rfl
    | cons f fs ih =>
      unfold handAll
      dsimp only
      split
      · rw [ih, hand_handed]
      · exact hand_handed f u
  unfold sendStatement
  dsimp only
  split
  · rw [withClaims_handed, handed]
  · exact handed _ s

theorem claimQuery_handed (q : Query) (s : State) : (claimQuery q s).handed = s.handed := by
  unfold claimQuery answerFromSlots
  repeat' split
  all_goals simp [answerPlain_handed, answerSlot, sendStatement_handed]

theorem sendPiece_handed (r : ReadRec) (s : State) : (sendPiece r s).handed = s.handed := by
  simp [sendPiece, apply_ite State.handed]

theorem tableRead_handed (r : ReplyTo) (table first count : Nat) (s : State) :
    (tableRead r table first count s).handed = s.handed := by
  unfold tableRead
  dsimp only
  split
  · simp
  · simp
  · exact sendPiece_handed _ _

/-! ### Scans (R128 to R137) -/

section

variable {s : State}

theorem HandoversHeld.append (h : HandoversHeld s) (d : Draft) : HandoversHeld (append d s) := h.of_handed (append_handed d s)

/-- R74: a load takes an Expected lot to OnBoard. -/
theorem HandoversHeld.loadLot (h : HandoversHeld s) (i : Fin 96) (scanner : Byte)
    (hi : (s.lots.get i).state = .expected) : HandoversHeld (loadLot i scanner s) := by
  refine (h.moved i _ ?_ ?_ ?_).append _
  · rw [hi]
    decide
  all_goals
    unfold LotEntry.loaded LotEntry.raisePeak
    split
  · exact fun e => nomatch e
  · exact fun e => nomatch e
  · rfl
  · rfl

/-- R135, R136: a handover opens while fewer than 8 lots are in Handover. -/
theorem HandoversHeld.openHandoverOf (h : HandoversHeld s) (i : Fin 96) (scanner : Byte) (token : Word) (marks : Advisory)
    (hroom : handovers s.lots < 8) : HandoversHeld (openHandoverOf i scanner token marks s) := by
  refine HandoversHeld.append ⟨Nat.le_trans (countV_upd_le _ s.lots i _) hroom, fun j => ?_⟩ _
  rw [modLot_lots, get_upd]
  split
  · exact iff_of_true rfl rfl
  · exact h.recorded j

/-- R137: a handover that is cancelled ends. -/
theorem HandoversHeld.cancelHandover (h : HandoversHeld s) (i : Fin 96) (scanner reason : Byte) :
    HandoversHeld (cancelHandover i scanner reason s) := by
  refine (h.ended i _ ?_).append _
  exact ⟨fun e => (nomatch e), rfl⟩

theorem HandoversHeld.modMem (h : HandoversHeld s) (n : Fin 32) (f : ScanMem → ScanMem) : HandoversHeld (s.modMem n f) :=
  h.of_handed rfl

theorem HandoversHeld.judgeLoad (h : HandoversHeld s) (scanner : Byte) (lot : Word) :
    HandoversHeld (judgeLoad scanner lot s).1 := by
  unfold Machine.judgeLoad
  split
  · exact h
  · split
    · exact h
    · split
      · exact h
      next hi => exact h.loadLot _ _ (not_not.1 hi)

theorem HandoversHeld.judgeUnload (h : HandoversHeld s) (n : Fin 32) (scanner : Byte) (f : ScanFields) :
    HandoversHeld (judgeUnload n scanner f s).1 := by
  unfold Machine.judgeUnload
  dsimp only
  split
  · exact h
  · split
    · exact h
    · split_ifs with held aboard full advised
      · exact h
      · exact h
      · exact h
      · exact h.modMem _ _
      · exact h.openHandoverOf _ _ _ _ (Nat.not_le.1 full)

theorem HandoversHeld.judgeConfirm (h : HandoversHeld s) (n : Fin 32) (scanner : Byte) (f : ScanFields) :
    HandoversHeld (judgeConfirm n scanner f s).1 := by
  unfold Machine.judgeConfirm
  dsimp only
  split
  · exact h
  · split
    · exact h
    · split
      · exact h.modMem _ _
      · split_ifs with aboard full
        · exact h.modMem _ _
        · exact h.modMem _ _
        · exact (h.modMem _ _).openHandoverOf _ _ _ _ (Nat.not_le.1 full)

theorem HandoversHeld.judgeRefuse (h : HandoversHeld s) (scanner : Byte) (f : ScanFields) :
    HandoversHeld (judgeRefuse scanner f s).1 := by
  unfold Machine.judgeRefuse
  split
  · exact h
  · split
    · exact h
    · exact h.cancelHandover _ _ _

theorem HandoversHeld.judgeScan (h : HandoversHeld s) (n : Fin 32) (scanner : Byte) (a : ScanAction) (f : ScanFields) :
    HandoversHeld (judgeScan n scanner a f s).1 := by
  cases a with
  | load => exact h.judgeLoad scanner f.lot
  | unload => exact (h.modMem n _).judgeUnload n scanner f
  | confirm => exact h.judgeConfirm n scanner f
  | refuse => exact h.judgeRefuse scanner f

theorem HandoversHeld.takeScan (h : HandoversHeld s) (n : Fin 32) (f : ScanFields) : HandoversHeld (takeScan n f s) := by
  unfold Machine.takeScan
  split
  · exact h
  · split
    · exact h
    · exact (h.judgeScan n _ _ f).modMem _ _

theorem HandoversHeld.takeSensorFrame (h : HandoversHeld s) (ok : Bool) (f : Frame) :
    HandoversHeld (takeSensorFrame ok f s) := by
  have handOn (n : Fin 32) {u : State} (hu : HandoversHeld u) : HandoversHeld (handOn n f u) := by
    unfold Machine.handOn
    repeat' split
    · exact hu.of_handed (takeReading_handed _ _ _ u)
    · exact hu
    · exact hu.takeScan _ _
    · exact hu
    · exact hu
  unfold Machine.takeSensorFrame
  split
  · exact h
  · unfold takeReply
    dsimp only
    split
    · exact h.of_handed (takeMiss_handed _ _ _ _)
    · exact handOn _ (h.of_handed (goodNode_handed _ _))
  · split
    · exact h.of_handed (hand_handed _ _)
    · exact h

/-! ### Lots, seals and trips (R68 to R82, R112, R114, R141, R149) -/

/-- R63: an entry becomes Free. -/
theorem HandoversHeld.freeLot (h : HandoversHeld s) (i : Fin 96) : HandoversHeld (freeLot i s) :=
  h.ended i _ ⟨fun e => (nomatch e), rfl⟩

theorem HandoversHeld.manifestAdd (h : HandoversHeld s) (f : ManifestFields) : HandoversHeld (manifestAdd f s).1 := by
  have placed (cls : Fin 8) (zone : Fin 12) (given : Option (Fin 25)) :
      HandoversHeld (manifestPlace f cls zone given s).1 := by
    unfold manifestPlace
    dsimp only
    split
    · exact h
    · split
      · split
        next hi => exact h.moved _ _ (by rw [hi]; decide) (fun e => nomatch e) rfl
        next => exact h
      · split
        · exact h
        · exact h.ended _ _ ⟨fun e => (nomatch e), rfl⟩
  unfold Machine.manifestAdd
  repeat' split
  · exact h
  · exact placed _ _ _
  · exact h
  · exact h

theorem HandoversHeld.manifestDelete (h : HandoversHeld s) (lot : Word) : HandoversHeld (manifestDelete lot s).1 := by
  unfold Machine.manifestDelete
  repeat' split
  · exact h
  · exact (h.of_handed (discardFor_handed lot s)).freeLot _
  · exact h

theorem HandoversHeld.expireLot (h : HandoversHeld s) (i : Fin 96) : HandoversHeld (expireLot i s) :=
  (h.of_handed (t := (discardFor (s.lots.get i).lot s).modList fun l => l.filter fun p => p.index != i)
    (discardFor_handed _ s)).freeLot i

/-- R149: a seal ends the handover. -/
theorem HandoversHeld.sealLot (h : HandoversHeld s) (c : SealCause) (i : Fin 96) : HandoversHeld (sealLot c i s) := by
  unfold Machine.sealLot
  dsimp only
  split
  · refine HandoversHeld.of_handed ?_ ((hand_handed _ _).trans ((addProof_handed _ _).trans (append_handed _ _)))
    exact HandoversHeld.ended (h.of_handed (modTrip_handed _ _)) i _ ⟨fun e => (nomatch e), rfl⟩
  · exact h

theorem HandoversHeld.sealLots (h : HandoversHeld s) (c : SealCause) (pick : LotEntry → Bool) :
    HandoversHeld (sealLots c pick s) := by
  refine foldl_keeps HandoversHeld _ _ (fun u i hu => ?_) s h
  split
  · exact hu.sealLot c i
  · exact hu

theorem HandoversHeld.shortAll (h : HandoversHeld s) (stop : Nat) : HandoversHeld (shortAll stop s) := by
  refine foldl_keeps HandoversHeld _ _ (fun u i hu => ?_) s h
  split
  next hi =>
    refine (hu.moved i _ ?_ ?_ rfl).append _
    · rw [hi]
      decide
    · exact fun e => nomatch e
  next => exact hu

theorem HandoversHeld.returnAll (h : HandoversHeld s) : HandoversHeld (returnAll s) := by
  refine foldl_keeps HandoversHeld _ _ (fun u i hu => ?_) s h
  split
  next hi =>
    refine (hu.moved i _ ?_ ?_ rfl).append _
    · rw [hi]
      decide
    · exact fun e => nomatch e
  next => exact hu

theorem HandoversHeld.depart (h : HandoversHeld s) : HandoversHeld (depart s).1 := by
  unfold Machine.depart
  split
  next k _ =>
    have sealed := (h.of_handed (dropAdvisories_handed s)).sealLots .depart fun l => decide (l.state = .handover)
    exact (sealed.shortAll k.val).of_handed (by simp [departTrip])
  next => exact h

theorem HandoversHeld.tripClose (h : HandoversHeld s) : HandoversHeld (tripClose s).1 := by
  unfold Machine.tripClose
  split
  · have sealed := (h.of_handed (dropAdvisories_handed s)).sealLots .closure fun l => decide (l.state = .handover)
    exact sealed.returnAll.of_handed (by simp [closeTrip, apply_ite State.handed])
  · exact h

/-! ### Doors (R87 to R101) -/

theorem HandoversHeld.closeDoor (h : HandoversHeld s) (d : Fin 4) : HandoversHeld (closeDoor d s) := by
  unfold Machine.closeDoor sealByDoor
  exact HandoversHeld.sealLots (h.of_handed (by simp)) _ _

theorem HandoversHeld.judgeContact (h : HandoversHeld s) (d : Fin 4) : HandoversHeld (judgeContact d s) := by
  unfold Machine.judgeContact
  dsimp only
  repeat' split
  · exact h
  · exact h.of_handed (openDoor_handed d s)
  · exact h.closeDoor d
  · exact h

theorem HandoversHeld.settleLine (h : HandoversHeld s) (d : Fin 4) : HandoversHeld (settleLine d s) := by
  unfold Machine.settleLine edge
  dsimp only
  repeat' split
  · exact HandoversHeld.judgeContact (h.of_handed (modDoorRt_handed _ _ _)) d
  · exact h.of_handed (openDoor_handed _ _)
  · exact h.of_handed (modDoorRt_handed _ _ _)
  · exact h.of_handed (breakSeal_handed _ _)
  all_goals first
    | exact h
    | exact h.of_handed (modDoorRt_handed _ _ _)

theorem HandoversHeld.enterMode (h : HandoversHeld s) (d : Fin 4) (m : DoorMode) : HandoversHeld (enterMode d m s) := by
  cases m with
  | contact => exact HandoversHeld.judgeContact (h.of_handed (modDoorRt_handed _ _ _)) d
  | _ => exact h.of_handed (modDoorRt_handed _ _ _)

theorem HandoversHeld.writeDoor (h : HandoversHeld s) (d : Fin 4) (e : DoorEntry) : HandoversHeld (writeDoor d e s) := by
  have changed : HandoversHeld (changeMode d e s) := by
    have closed : HandoversHeld (if (s.doors.rts.get d).state = .opened then Machine.closeDoor d s else s) :=
      keeps_ite (fun _ => h.closeDoor d) h
    exact HandoversHeld.enterMode (closed.of_handed (by simp)) d e.mode
  have kept : HandoversHeld (keepMode d e s) :=
    keeps_ite (fun _ => HandoversHeld.judgeContact (h.of_handed (setDoorEntry_handed d e s)) d)
      (h.of_handed (setDoorEntry_handed d e s))
  have written : HandoversHeld (if (s.doors.entries.get d).mode ≠ e.mode then changeMode d e s else keepMode d e s) :=
    keeps_ite (fun _ => changed) kept
  exact keeps_ite (fun _ => written.settleLine d) written

end

/-- R195: no lot is in Handover, nor holds a record, at power-on. -/
theorem HandoversHeld.powerOn (now : Nat) (straps : BitVec 2) (clock : Clock) (unsynced : Bool) (addr : Byte) (s : State) :
    HandoversHeld (powerOnState now straps clock unsynced addr s) := by
  have free (i : Fin 96) : (powerOnState now straps clock unsynced addr s).lots.get i = LotEntry.free := get_replicate _ i
  refine ⟨?_, fun i => ?_⟩
  · have none : handovers (powerOnState now straps clock unsynced addr s).lots = 0 := by
      rw [handovers, countV_eq, List.countP_eq_zero]
      intro i _
      rw [free]
      decide
    unfold HandoversBounded
    omega
  · rw [free]
    decide

/-- R135, R136, R137, R149: every block keeps the handovers and their records. -/
theorem handoversHeld_blocks : BlocksKeep HandoversHeld where
  steady h g := h.of_handed g.handed
  powerOn := .powerOn
  frame := .takeSensorFrame
  miss h _ _ _ := h.of_handed (takeMiss_handed _ _ _ _)
  zones h := h.of_handed (computeZones_handed _)
  updates h := h.of_handed (updateLots_handed _)
  node h _ _ := h.of_handed (writeNode_handed _ _ _)
  linkReset h := h.of_handed rfl
  add := .manifestAdd
  delete := .manifestDelete
  move h _ _ := h.of_handed (moveLot_handed _ _ _)
  expire := .expireLot
  door := .writeDoor
  line := .settleLine
  close := .closeDoor
  tripOpen h _ := h.of_handed (tripOpen_handed _ _)
  depart := .depart
  arrive h _ := h.of_handed (arrive_handed _ _)
  tripClose := .tripClose
  time h _ := h.of_handed (setTime_handed _ _)
  settle h i := h.sealLot _ i
  confirm h _ := h.of_handed rfl
  lapse h _ _ := h.of_handed (markUnconfirmed_handed _ _)
  journal h _ _ _ _ := h.of_handed (jrnlReq_handed _ _ _ _ _)
  claim h _ := h.of_handed (claimQuery_handed _ _)
  read h _ _ _ _ := h.of_handed (tableRead_handed _ _ _ _ _)
  piece h _ := h.of_handed (sendPiece_handed _ _)

/-! ### What a lot id finds, and the slot of a lot (R62, R172) -/

/-- R136: the lots in Handover, counted entry by entry. -/
theorem handovers_eq (lots : Vector LotEntry 96) :
    handovers lots = ((List.finRange 96).filter fun i => decide ((lots.get i).state = .handover)).length := by
  rw [handovers, countV_eq, List.countP_eq_length_filter]

/-- R62: while no lot id stands in two entries, a lot id finds the occupied entry that holds it. -/
theorem findLot_iff {s : State} (h : OneEntryForEachLot s) (id : Word) (i : Fin 96) :
    findLot s.lots id = some i ↔ (s.lots.get i).state ≠ .free ∧ (s.lots.get i).lot = id := by
  refine ⟨findLot_some, fun ⟨occupied, held⟩ => ?_⟩
  obtain ⟨free, one⟩ := h
  cases hf : findLot s.lots id with
  | none => exact absurd held ((findLot_none.1 hf i).resolve_left occupied)
  | some j =>
    obtain ⟨occupied', held'⟩ := findLot_some hf
    rw [one j i (fun e => occupied' ((free j).2 e)) (held'.trans held.symm)]

/-- R172: while no lot id has two slots, the slot of a lot is the one that holds it. -/
theorem slotFor_iff {s : State} (h : OneSlotForEachLot s) (lot : Word) (k : Fin 4) :
    s.claims.slotFor lot = some k ↔ ∃ x, s.claims.slots.get k = some x ∧ x.lot = lot := by
  refine ⟨slotFor_some, fun ⟨x, hx, held⟩ => ?_⟩
  cases hf : s.claims.slotFor lot with
  | none => exact absurd held (slotFor_none.1 hf k x hx)
  | some j =>
    obtain ⟨y, hy, held'⟩ := slotFor_some hf
    rw [h j k y x hy hx (held'.trans held.symm)]

/-- Settles O57: the handovers and the agreements are kept by every block, and so by every step. -/
theorem everyStepKeepsTheHandovers : Obligations.EveryStepKeepsTheHandovers := by
  refine ⟨handovers_eq, fun s t hb hr h => ?_, fun _ _ hs h => custodyHeld_blocks.step hs h,
    fun _ hs => findLot_iff hs, fun _ hs => slotFor_iff hs⟩
  obtain ⟨bounded, recorded⟩ := handoversHeld_blocks.step ⟨hb, hr⟩ h
  exact ⟨bounded, recorded⟩

end Sys2Proof.Machine
end

section
/-! PROOFS. The deadlines of advisories, retentions and claim windows (O36; spec 04 R82; spec 07 R124, R132; spec 10 R177). -/

namespace Sys2Proof.Machine

/-! ### When a deadline is due (log 3) -/

section
variable {s : State}

/-- R132: a pending advisory is due once the clock has reached its confirm deadline. -/
theorem advisoryDue_iff {n : Fin 32} {p : Pending} (hp : (s.scans.mem.get n).pending = some p) :
    advisoryDue s n = true ↔ p.confirmBy.toNat ≤ s.trip.clock.toNat := by
  rw [advisoryDue, hp]
  exact reached_iff _ _

/-- R82: an entry is due once the clock has reached its retention deadline. -/
theorem retentionDue_iff {i : Fin 96} {x : Clock} (hx : (s.lots.get i).retention = some x) :
    retentionDue s i = true ↔ x.toNat ≤ s.trip.clock.toNat := by
  rw [retentionDue, hx]
  exact reached_iff _ _

/-- R177: a slot in use is due once it is Ready and the clock has reached its window deadline. -/
theorem claimDue_iff {k : Fin 4} {y : Slot} {x : Clock} (hy : s.claims.slots.get k = some y) (hx : y.deadline = some x) :
    claimDue s k = true ↔ y.state = .ready ∧ x.toNat ≤ s.trip.clock.toNat := by
  rw [claimDue, hy]
  dsimp only
  rw [hx, Bool.and_eq_true, decide_eq_true_eq]
  exact and_congr_right' (reached_iff _ _)

/-! ### Retentions (R82) -/

/-- R82: an entry at its retention deadline: Free, out of the proof list, its claim slot discarded. -/
theorem expireLot_eq (i : Fin 96) (s : State) : expireLot i s =
    { s with lots := s.lots.set i.val LotEntry.free i.isLt,
             proofs := { s.proofs with list := s.proofs.list.filter fun p => p.index != i },
             claims := (discardFor (s.lots.get i).lot s).claims } := by
  unfold expireLot
  rw [discardFor_claims_only]
  rfl

/-! ### Claim windows (R177) -/

/-- R177: a discard changes the claim slots alone. -/
theorem discardSlot_claims_only (k : Fin 4) (s : State) : discardSlot k s = { s with claims := (discardSlot k s).claims } := rfl

/-- R176, R177: with no slot Queued and no build of the slot, a discard frees the slot and takes it from the order. -/
theorem discardSlot_quiet {k : Fin 4} (hq : ∀ j y, s.claims.slots.get j = some y → y.state ≠ .queued)
    (hb : ∀ b, s.claims.builder = some b → b.slot ≠ k) :
    discardSlot k s = { s with claims := { s.claims with
      slots := s.claims.slots.set k.val none k.isLt, order := s.claims.order.filter (fun j => j != k) } } := by
  have builder : (s.claims.release k).builder = s.claims.builder := by
    unfold Claims.release
    dsimp only
    split
    next b h => rw [if_neg (hb b h), h]
    next h => exact h.symm
  have released : s.claims.release k = { s.claims with
      slots := s.claims.slots.set k.val none k.isLt, order := s.claims.order.filter (fun j => j != k),
      builder := (s.claims.release k).builder } := rfl
  have runs : (discardSlot k s).claims = s.claims.release k := by
    rw [discardSlot, runBuilder_claims]
    cases h : (s.claims.release k).builder with
    | some b => exact run_busy _ _ _ _ _ _ _ b h
    | none =>
      refine run_idle _ _ _ _ _ _ _ h fun j _ y hy => ?_
      have hjk : j ≠ k := fun e => by
        rw [e, show (s.claims.release k).slots.get k = none from get_upd_self _ _ _] at hy
        exact nomatch hy
      rw [show (s.claims.release k).slots.get j = s.claims.slots.get j from get_upd_ne _ hjk _] at hy
      exact hq j y hy
  rw [discardSlot_claims_only, runs, released, builder]

end

/-- Settles O36: each event is its operation where it is due (R132, R82, R177), and leaves the part as it is where it is
not. -/
theorem passedDeadlinesRemoveWhatTheyHold : Obligations.PassedDeadlinesRemoveWhatTheyHold := by
  have advisory (n : Fin 32) (s : State) : exec (.advisoryExpiry n) s =
      .next (if advisoryDue s n then s.modMem n (fun m => { m with pending := none }) else s) := rfl
  have retention (i : Fin 96) (s : State) : exec (.retentionExpiry i) s =
      .next (if retentionDue s i then expireLot i s else s) := rfl
  have window (k : Fin 4) (s : State) : exec (.claimWindowDeadline k) s =
      .next (if claimDue s k then discardSlot k s else s) := rfl
  refine ⟨fun s => ⟨fun n p hp hlt => ?_, fun i x hx hlt => ?_, fun k y x hy hx hlt => ?_⟩, fun n s p hp hle => ?_,
    fun i s x hx hle => ⟨expireLot i s, ?_, ?_, ?_, ?_, ?_⟩, fun s k y x hy hready hx hle => ?_⟩
  · rw [advisory, if_neg fun due => Nat.not_le.2 hlt ((advisoryDue_iff hp).1 due)]
  · rw [retention, if_neg fun due => Nat.not_le.2 hlt ((retentionDue_iff hx).1 due)]
  · rw [window, if_neg fun due => Nat.not_le.2 hlt ((claimDue_iff hy hx).1 due).2]
  · rw [advisory, if_pos ((advisoryDue_iff hp).2 hle)]
    rfl
  · rw [retention, if_pos ((retentionDue_iff hx).2 hle)]
  · rw [expireLot_eq]
  · intro hn
    rw [expireLot_eq, discardFor_noSlot hn]
  · rw [expireLot_eq]
    exact (discardFor_recorded _ s).window
  · intro k hk
    rw [expireLot_eq, discardFor_slot hk]
    exact discardSlot_slots k s
  · have runs := (window k s).trans (congrArg _ (if_pos ((claimDue_iff hy hx).2 ⟨hready, hle⟩)))
    refine ⟨⟨discardSlot k s, runs, discardSlot_claims_only k s, (discardSlot_recorded k s).window, discardSlot_slots k s⟩,
      fun hq hb => runs.trans (congrArg _ (discardSlot_quiet hq hb))⟩

end Sys2Proof.Machine
end

section
/-! PROOFS. Settle deadlines (O37; spec 07 R139; spec 08 R145 to R150, R152; spec 11 R197). -/

namespace Sys2Proof.Machine

/-! ### The proof record, its bytes and its check word (R147, R148, R197) -/

/-- R197: the code of a grade in one byte. -/
theorem grade_byte (g : Grade) : b1 g.number = [match g with | .good => (0 : Byte) | .watch => 1 | .hold => 2] := by
  cases g <;> rfl

/-- R56, R60: the total dose as shown. -/
theorem shown_total (l : LotEntry) :
    shown l.total = min 4294967295 (l.inherited.toNat + l.handling.toNat + l.equipment.toNat) / 60 := by
  rw [shown, total_toNat]

/-- R146: what the number of the next seal passes over, and that it is free below 65,535. -/
theorem takeNumber_passes (lots : Vector LotEntry 96) (r : TripRecord) :
    let held (m : Nat) : Prop := ∃ j p, (lots.get j).state ≠ .free ∧ (lots.get j).proof = some p ∧
      p.record.tripId = r.tripId ∧ p.record.number = m
    r.nextProof ≤ takeNumber lots r ∧ (∀ m, r.nextProof ≤ m → m < takeNumber lots r → m < 65535 ∧ held m) ∧
      (takeNumber lots r < 65535 → ¬held (takeNumber lots r)) := by
  obtain ⟨above, passed, free⟩ := takeNumber_spec lots r
  refine ⟨above, fun m h1 h2 => ?_, fun hlt => ?_⟩
  · obtain ⟨hm, taken⟩ := passed m h1 h2
    exact ⟨hm, numberTaken_iff.1 taken⟩
  · intro held
    have e := free hlt
    rw [numberTaken_iff.2 held] at e
    exact nomatch e

/-! ### What a seal writes (R145, R149) -/

/-- R146, R149: the state in which the next proof number and the entry of a sealed lot have been written. -/
def sealWritten (n : Nat) (i : Fin 96) (p : ProofFields) (retention : Clock) (s : State) : State :=
  State.modLot (s.modTrip fun t => { t with nextProof := min 65535 (n + 1) }) i fun l => l.sealed p retention

section
variable {n : Nat} {i : Fin 96} {p : ProofFields} {retention : Clock} {s : State} {d : Draft} {item : ProofItem} {frame : OutFrame}

/-- R149, R164: the sealed lot once its Seal entry has been handed to the journal. -/
theorem sealAppended_own : ∃ gaps, (append d (sealWritten n i p retention s)).lots.get i =
    { s.lots.get i with state := .delivered, handover := none, gaps := gaps, proof := some p, retention := some retention } := by
  refine ⟨((append d (sealWritten n i p retention s)).lots.get i).gaps, ((append_recorded d _).lots i).trans ?_⟩
  rw [show (sealWritten n i p retention s).lots.get i = (s.lots.get i).sealed p retention from get_upd_self _ _ _]
  rfl

theorem sealAppended_other {j : Fin 96} (hj : j ≠ i) : (append d (sealWritten n i p retention s)).lots.get j =
    { s.lots.get j with gaps := ((append d (sealWritten n i p retention s)).lots.get j).gaps } :=
  ((append_recorded d _).lots j).trans (by
    rw [show (sealWritten n i p retention s).lots.get j = s.lots.get j from get_upd_ne _ hj _])

/-- R161: with room in the journal the Seal entry is at its tail when the proof has joined the list. -/
theorem sealFinished_entry (h : s.journal.entries.length < 6144) :
    let e := entryOf d (sealWritten n i p retention s)
    e ∈ (hand frame (addProof item (append d (sealWritten n i p retention s)))).1.journal.entries := by
  intro e
  rw [(hand_sent _ _).journal, (addProof_marked _ _).2, append_appends d (sealWritten n i p retention s) h]
  exact List.mem_append_right _ (List.mem_singleton.2 rfl)

/-- R152: a list with room takes the proof, and nothing else of the lots is written. -/
theorem sealFinished_room (h : s.proofs.list.length < 16) :
    let t := (hand frame (addProof item (append d (sealWritten n i p retention s)))).1
    t.proofs.list = s.proofs.list ++ [item] ∧ t.lots = (append d (sealWritten n i p retention s)).lots := by
  have proofs : (append d (sealWritten n i p retention s)).proofs = s.proofs := (append_recorded d _).proofs
  have joined := addProof_room item (append d (sealWritten n i p retention s)) (by rw [proofs]; exact h)
  refine ⟨?_, ?_⟩
  · rw [(hand_sent _ _).proofs, joined, proofs]
  · rw [(hand_sent _ _).lots, joined]

/-- R152: a full list loses its head, whose lot is marked Unconfirmed and named. -/
theorem sealFinished_full {old : ProofItem} {rest : List ProofItem} (h : s.proofs.list = old :: rest) (hl : 15 ≤ rest.length) :
    let t := (hand frame (addProof item (append d (sealWritten n i p retention s)))).1
    let u := append d (sealWritten n i p retention s)
    t.proofs.list = rest ++ [item] ∧
      t.trunk.flags.get EventKind.proofUnconfirmed.index = { raised := true, subject := .lot old.lot } ∧
      ∀ j, t.lots.get j = { u.lots.get j with unconfirmed := (u.lots.get j).unconfirmed || decide (j = old.index) } := by
  have proofs : (append d (sealWritten n i p retention s)).proofs = s.proofs := (append_recorded d _).proofs
  obtain ⟨list, flag, lots⟩ :=
    addProof_full item old rest (append d (sealWritten n i p retention s)) (by rw [proofs]; exact h) hl
  intro t u
  have sent : Sent _ t := hand_sent frame (addProof item u)
  exact ⟨by rw [sent.proofs]; exact list, by rw [sent.flags]; exact flag, fun j => by rw [sent.lots]; exact lots j⟩

/-- R150: with room in the journal and the list and no export running, the trunk port stands as before when the PROOF
frame is handed over. -/
theorem sealFinished_quiet (h1 : s.journal.entries.length < 6144) (h2 : s.proofs.list.length < 16) (h3 : s.exporter.run = none) :
    (addProof item (append d (sealWritten n i p retention s))).trunk = s.trunk := by
  have proofs : (append d (sealWritten n i p retention s)).proofs = s.proofs := (append_recorded d _).proofs
  rw [addProof_room _ _ (by rw [proofs]; exact h2)]
  exact append_quiet d (sealWritten n i p retention s) h1 h3

/-- R146: the trip record is left with its next proof number alone changed. -/
theorem sealFinished_record : (hand frame (addProof item (append d (sealWritten n i p retention s)))).1.trip.record =
    { s.trip.record with nextProof := min 65535 (n + 1) } := by
  rw [(hand_sent _ _).trip, addProof_trip, (append_recorded d _).trip]
  rfl

end

/-- R139: a lot in Handover is due once the clock has reached its settle deadline. -/
theorem settleDeadline_due {s : State} {i : Fin 96} {h : Handover} (hs : (s.lots.get i).state = .handover)
    (hh : (s.lots.get i).handover = some h) (hle : h.settleAt.toNat ≤ s.trip.clock.toNat) :
    exec (.settleDeadline i) s = .next (sealLot .settle i s) := by
  have due : settleDue s i = true := by
    rw [settleDue, hs, hh]
    exact (reached_iff _ _).2 hle
  show execSettleDeadline i s = _
  rw [execSettleDeadline, if_pos due]

/-- Settles O37: the steps of the seal (R145), each by what it leaves. -/
theorem settleDeadlinesSealTheLot : Obligations.SettleDeadlinesSealTheLot := by
  intro i s h hs hh hle l held
  refine ⟨takeNumber s.lots s.trip.record, takeNumber_passes s.lots s.trip.record, ?_⟩
  generalize hn : takeNumber s.lots s.trip.record = n
  intro total record bit bytes check proof retention item frame
  have built : buildRecord s.trip l h n .settle = record := by
    unfold buildRecord
    rw [shown_total]
    rfl
  have encoded : record.bytes = bytes := by
    rw [← built, buildRecord_bytes, grade_byte, shown_total]
    rfl
  have checked : record.check s.trip.record.sealWord = check := by
    rw [ProofRecord.check, encoded]
    rfl
  have framed : proofFrame record check = frame := by
    rw [proofFrame, encoded]
    rfl
  have runs := sealLot_run .settle i s h n hs hh hn record check proof retention item frame built checked rfl
    ((deadline_eq _ _).trans rfl) (by rw [deadline_eq]) framed
  let d : Draft := { kind := .seal, lot := some l.lot, zone := some l.zone, v1 := natWord n, v2 := check }
  let u := append d (sealWritten n i proof retention s)
  have ended : sealLot .settle i s = (hand frame (addProof item u)).1 := runs
  clear_value frame item retention proof check
  refine ⟨addProof item u, sealLot .settle i s, settleDeadline_due hs hh hle, ended, ?_, sealLot_custody .settle i s,
    sealFinished_quiet, ?_, fun hroom => ⟨entryOf d (sealWritten n i proof retention s), ?_, rfl, rfl, rfl, rfl, rfl, rfl⟩,
    fun hroom => ?_, fun old rest hl hlen => ?_⟩
  all_goals rw [ended]
  · exact hand_sent _ _
  · exact sealFinished_record
  · exact sealFinished_entry hroom
  · obtain ⟨list, lots⟩ := sealFinished_room (n := n) (i := i) (p := proof) (retention := retention) (d := d) hroom
    rw [lots]
    exact ⟨list, sealAppended_own, fun j hj => sealAppended_other hj⟩
  · obtain ⟨list, flag, lots⟩ := sealFinished_full (n := n) (i := i) (p := proof) (retention := retention) (d := d) hl hlen
    obtain ⟨gaps, own⟩ := sealAppended_own (n := n) (i := i) (p := proof) (retention := retention) (s := s) (d := d)
    refine ⟨list, flag, ⟨gaps, ?_⟩, fun j hj => ?_⟩
    · rw [lots, own]
    · rw [lots, sealAppended_other hj]

end Sys2Proof.Machine
end

section
/-! PROOFS. How a REPLY_SCAN reaches the scan unit, and the rows of its judgments (O47, O48; spec 07 R126 to R137). -/

namespace Sys2Proof.Machine

/-! ### The part that a good reply leaves to its scan (R15, log 18) -/

theorem goodNode_scans (n : Fin 32) (s : State) : (goodNode n s).scans = s.scans := by
  unfold goodNode
  dsimp only
  split
  · rw [nodeEvent, append_scans, (raise_raised _ _ _).scans]
    rfl
  · rfl

theorem goodNode_nodes (n : Fin 32) (s : State) : (goodNode n s).sensor.nodes = s.sensor.nodes := by
  unfold goodNode
  dsimp only
  split
  · rw [nodeEvent_sensor]
    rfl
  · rfl

section
variable {s : State} {n : Fin 32} {accessory : Bool} {sent : Frame} {windowEnd : Nat}

/-- R15, R126: a good REPLY_SCAN of the polled scanner is taken in the state that its REPLY_IDLE leaves. -/
theorem replyScan_good (hx : s.sensor.exchange = some (.poll n accessory sent windowEnd))
    (hk : (s.sensor.nodes.get n).kind = .scanner) (tag : Byte) (f : ScanFields) :
    exec (.replyScan sent.dest tag f) s = .next (takeScan n f (goodNode n (s.modSensor fun x => x.endPoll accessory))) := by
  have good : judgeReply (s.sensor.nodes.get n).kind sent.dest true (scanFrame sent.dest tag f) = none := by
    rw [hk]
    simp [judgeReply, mayReply, replyLength, scanFrame, b4, kReplyScan, kReplyReading, kReplyIdle]
  have handed (u : State) : handOn n (scanFrame sent.dest tag f) u = takeScan n f u := by
    have fields := word_b4 f.lot
    have token := word_b4 f.token
    unfold handOn scanFrame b4
    rw [if_neg (show ¬kReplyScan = kReplyReading by decide), if_pos rfl]
    dsimp only [List.cons_append, List.nil_append]
    rw [fields, token]
  show execReplyScan _ _ _ s = _
  rw [execReplyScan, takeSensorFrame, hx]
  dsimp only
  unfold takeReply
  dsimp only
  rw [good]
  dsimp only
  rw [handed]

/-- R15: a scanner that was not Lost leaves to its scan a part in which only the line has changed. -/
theorem replyScan_alive (hx : s.sensor.exchange = some (.poll n accessory sent windowEnd))
    (hk : (s.sensor.nodes.get n).kind = .scanner) (hl : (s.sensor.rts.get n).state ≠ .lost) (tag : Byte) (f : ScanFields) :
    ∃ x, x.exchange = none ∧ x.nodes = s.sensor.nodes ∧
      exec (.replyScan sent.dest tag f) s = .next (takeScan n f (s.modSensor fun _ => x)) := by
  obtain ⟨taken, alive, -⟩ := goodNode_spec s n accessory
  refine ⟨(goodNode n (s.modSensor fun x => x.endPoll accessory)).sensor, by rw [taken.sensor], by rw [taken.sensor],
    (replyScan_good hx hk tag f).trans ?_⟩
  exact congrArg (fun v => Host.Outcome.next (takeScan n f v)) (alive hl)

end

/-! ### Malformed, duplicate and judged scans (R126) -/

theorem scanActionOf_number (a : ScanAction) : scanActionOf (BitVec.ofNat 8 a.number) = some a := by
  cases a <;> rfl

theorem scanActionOf_none {x : Byte} (h : x = 0 ∨ 4 < x.toNat) : scanActionOf x = none := by
  unfold scanActionOf
  split_ifs with h1 h2 h3 h4
  all_goals first
    | rfl
    | (subst x; revert h; decide)

/-- R126: the number 0, an action that does not exist, and a Refuse with a reason out of range make a scan malformed. -/
theorem wellFormedScan_none {f : ScanFields}
    (h : f.number = 0 ∨ f.action = 0 ∨ 4 < f.action.toNat ∨ (f.action = 4 ∧ (f.reason = 0 ∨ 15 < f.reason.toNat))) :
    wellFormedScan f = none := by
  unfold wellFormedScan
  split
  · rfl
  next hn =>
    rcases h with h | h | h | ⟨h, hr⟩
    · exact absurd h hn
    · rw [scanActionOf_none (Or.inl h)]
    · rw [scanActionOf_none (Or.inr h)]
    · rw [h, show scanActionOf 4 = some .refuse from rfl]
      refine if_neg fun ⟨low, high⟩ => ?_
      rcases hr with hr | hr
      · rw [hr] at low
        exact absurd low (by decide)
      · omega

theorem wellFormedScan_some {f : ScanFields} {a : ScanAction} (hn : f.number ≠ 0) (ha : f.action = BitVec.ofNat 8 a.number)
    (hr : a = .refuse → 1 ≤ f.reason.toNat ∧ f.reason.toNat ≤ 15) : wellFormedScan f = some a := by
  unfold wellFormedScan
  rw [if_neg hn, ha, scanActionOf_number]
  cases a with
  | refuse => exact if_pos (hr rfl)
  | load => rfl
  | unload => rfl
  | confirm => rfl

section
variable {n : Fin 32} {f : ScanFields} {s : State}

/-- R126: a malformed scan does nothing. -/
theorem takeScan_malformed (h : wellFormedScan f = none) : takeScan n f s = s := by rw [takeScan, h]

/-- R126: a scan with the number of the last one does nothing. -/
theorem takeScan_duplicate (h : f.number = (s.scans.mem.get n).number) : takeScan n f s = s := by
  unfold takeScan
  split
  · rfl
  · exact if_pos h

/-- R126, R127: any other scan is judged, and its number and its verdict are stored. -/
theorem takeScan_judged {a : ScanAction} (hf : wellFormedScan f = some a) (hn : f.number ≠ (s.scans.mem.get n).number) :
    let r := judgeScan n (s.sensor.nodes.get n).address a f s
    takeScan n f s = r.1.modMem n fun m =>
      { m with number := f.number, verdict := some { action := a, lot := f.lot, outcome := r.2 } } := by
  rw [takeScan, hf]
  exact if_neg hn

end

/-! ### Loads (R74, R75, R128) -/

section
variable {s : State} {scanner : Byte} {lot : Word} {i : Fin 96}

theorem judgeLoad_noVisit (h : s.trip.record.state.stop = none) : judgeLoad scanner lot s = (s, .rejected .wrongTripState) := by
  rw [judgeLoad, h]
  rfl

theorem judgeLoad_notManifested (hv : s.trip.record.state.stop ≠ none) (h : findLot s.lots lot = none) :
    judgeLoad scanner lot s = (s, .rejected .notManifested) := by
  rw [judgeLoad, if_neg (mt Option.isNone_iff_eq_none.1 hv), h]

theorem judgeLoad_wrongState (hv : s.trip.record.state.stop ≠ none) (h : findLot s.lots lot = some i)
    (hs : (s.lots.get i).state ≠ .expected) : judgeLoad scanner lot s = (s, .rejected .wrongState) := by
  rw [judgeLoad, if_neg (mt Option.isNone_iff_eq_none.1 hv), h]
  exact if_pos hs

theorem judgeLoad_loads (hv : s.trip.record.state.stop ≠ none) (h : findLot s.lots lot = some i)
    (hs : (s.lots.get i).state = .expected) : judgeLoad scanner lot s = (loadLot i scanner s, .accepted) := by
  rw [judgeLoad, if_neg (mt Option.isNone_iff_eq_none.1 hv), h]
  exact if_neg (not_not.2 hs)

/-- R55, R75: the peak and its clock, in one equation. -/
theorem raisePeak_eq (l : LotEntry) (clock : Clock) : l.raisePeak clock =
    { l with peak := max l.peak l.core, peakClock := if l.peak < l.core then clock else l.peakClock } := by
  unfold LotEntry.raisePeak
  by_cases h : l.peak < l.core
  · rw [if_pos h, if_pos h, max_eq_right (Int.le_of_lt h)]
  · rw [if_neg h, if_neg h, max_eq_left (Int.not_lt.1 h)]

/-- R74, R75: a lot entry as a load leaves it, its peak included. -/
theorem loaded_eq (l : LotEntry) (core : Int) (blind : Bool) (clock : Clock) : l.loaded core blind clock =
    { l with state := .onBoard, core := core, blind := l.blind || blind, updates := 0,
             loadClock := some (l.loadClock.getD clock), peak := max l.peak core,
             peakClock := if l.peak < core then clock else l.peakClock } :=
  raisePeak_eq _ clock

/-- R74: the core of a load: the arrival temperature, or else the zone's air, or the class's Tw while the zone is Unset. -/
theorem loadCore_core (l : LotEntry) (z : ZoneRt) (c : ClassEntry) : (loadCore l z c).1 = match l.arrival, z.state with
    | some t, _ => t
    | none, .unset => c.tw
    | none, _ => z.air.getD 0 := by
  unfold loadCore
  cases l.arrival with
  | some t => rfl
  | none => cases z.state <;> rfl

/-- R74: a load sets Blind when there is no arrival temperature and the zone is not Live. -/
theorem loadCore_blind (l : LotEntry) (z : ZoneRt) (c : ClassEntry) : (loadCore l z c).2 = match l.arrival, z.state with
    | some _, _ => false
    | none, .live => false
    | none, _ => true := by
  unfold loadCore
  cases l.arrival with
  | some t => rfl
  | none => cases z.state <;> rfl

/-- R74, R75: a load leaves the lot so, and nothing else but what the Load entry may change. -/
theorem loadLot_own (i : Fin 96) (scanner : Byte) (s : State) :
    let l := s.lots.get i
    let c := loadCore l (s.zones.rts.get l.zone) (s.engine.classes.get l.cls)
    ∃ gaps, (loadLot i scanner s).lots.get i = { l with
      state := .onBoard, core := c.1, blind := l.blind || c.2, updates := 0, gaps := gaps,
      loadClock := some (l.loadClock.getD s.trip.clock), peak := max l.peak c.1,
      peakClock := if l.peak < c.1 then s.trip.clock else l.peakClock } := by
  intro l c
  refine ⟨((loadLot i scanner s).lots.get i).gaps, ((append_recorded _ _).lots i).trans ?_⟩
  rw [modLot_lots, get_upd_self, loaded_eq]
  rfl

theorem loadLot_sensor : (loadLot i scanner s).sensor = s.sensor := (append_recorded _ _).sensor

theorem loadLot_scans : (loadLot i scanner s).scans = s.scans := append_scans _ _

theorem loadLot_other {j : Fin 96} (hj : j ≠ i) : (loadLot i scanner s).lots.get j =
    { s.lots.get j with gaps := ((loadLot i scanner s).lots.get j).gaps } := by
  refine ((append_recorded _ _).lots j).trans ?_
  rw [modLot_lots, get_upd_ne _ hj]
  rfl

/-- R75, R161: with room in the journal the Load entry is at its tail. -/
theorem loadLot_entry (h : s.journal.entries.length < 6144) : ∃ e, (loadLot i scanner s).journal.entries = s.journal.entries ++ [e] ∧
    e.kind = .load ∧ e.lot = some (s.lots.get i).lot ∧ e.zone = some (s.lots.get i).zone ∧
    e.v1 = BitVec.ofInt 32 (loadCore (s.lots.get i) (s.zones.rts.get (s.lots.get i).zone) (s.engine.classes.get (s.lots.get i).cls)).1 ∧
    e.v2 = scanner.setWidth 32 ∧ e.clock = s.trip.clock :=
  ⟨_, congrArg Journal.entries (append_appends _ (s.modLot i _) h), rfl, rfl, rfl, rfl, rfl, rfl⟩

end

/-- Settles O47: the scan is judged in the state that its REPLY_IDLE leaves (R15, R126), where it loads the lot. -/
theorem loadScansLoadTheLot : Obligations.LoadScansLoadTheLot := by
  intro s src tag f n acc sent windowEnd i hx hdest hk haddr hlost ha hnum hnew hvisit hfind hs l z core blind
  subst hdest
  obtain ⟨x, free, nodes, runs⟩ := replyScan_alive hx hk hlost tag f
  have address : ((s.modSensor fun _ => x).sensor.nodes.get n).address = sent.dest := by
    rw [modSensor_sensor, nodes, haddr]
  have judged := takeScan_judged (s := s.modSensor fun _ => x) (a := .load)
    (wellFormedScan_some hnum ha fun e => nomatch e) hnew
  have loads : judgeScan n sent.dest .load f (s.modSensor fun _ => x) =
      (loadLot i sent.dest (s.modSensor fun _ => x), .accepted) := judgeLoad_loads hvisit hfind hs
  dsimp only at judged
  rw [address, loads] at judged
  have hcore : (loadCore l z (s.engine.classes.get l.cls)).1 = core := loadCore_core l z _
  have hblind : (loadCore l z (s.engine.classes.get l.cls)).2 = blind := loadCore_blind l z _
  refine ⟨_, runs.trans (congrArg _ judged), ?_, ?_, ?_, fun j hj => loadLot_other hj, fun hroom => ?_⟩
  · rw [modMem_sensor, loadLot_sensor]
    exact free
  · rw [modMem_scans, get_upd_self, loadLot_scans]
    rfl
  · rw [← hcore, ← hblind]
    exact loadLot_own i sent.dest (s.modSensor fun _ => x)
  · rw [← hcore]
    exact loadLot_entry (s := s.modSensor fun _ => x) hroom

end Sys2Proof.Machine
end

section
/-! PROOFS. Unload, Confirm and Refuse scans (O48; spec 07 R126, R128 to R133, R135, R137). -/

namespace Sys2Proof.Machine

/-! ### What a scan reads of the trip and of a lot (R109, R129, R131) -/

/-- R129: an Unload is taken at a stop and at the dock. -/
theorem unloadState_false {t : TripState} : unloadState t = false ↔ t ≠ .dock ∧ ∀ k, t ≠ .atStop k := by
  cases t <;> simp [unloadState]

/-- R129: whether a lot is in Handover under a scanner. -/
theorem heldBy_iff {l : LotEntry} {scanner : Byte} :
    heldBy l scanner = true ↔ l.state = .handover ∧ ∃ h, l.handover = some h ∧ h.scanner = scanner := by
  unfold heldBy
  rw [Bool.and_eq_true, decide_eq_true_eq]
  cases l.handover <;> simp

/-- R109: the stop index of a stop, and that of the dock. -/
theorem currentStop_eq {s : State} {k : Fin 25} (h : s.trip.record.state = .atStop k ∨ (s.trip.record.state = .dock ∧ k = 0)) :
    currentStop s = k := by
  unfold currentStop
  rcases h with h | ⟨h, hk⟩
  · rw [h]
    rfl
  · rw [h, hk]
    rfl

theorem unloadState_at {s : State} {k : Fin 25} (h : s.trip.record.state = .atStop k ∨ (s.trip.record.state = .dock ∧ k = 0)) :
    unloadState s.trip.record.state = true := by
  rcases h with h | ⟨h, -⟩
  · rw [h]
    rfl
  · rw [h]
    rfl

/-- R131: the advisory kinds of a lot at a stop. -/
theorem advisoryKinds_eq {s : State} {k : Fin 25} (hk : currentStop s = k) (l : LotEntry) : advisoryKinds s l =
    { hold := decide (l.grade = .hold), misdrop := match l.planned with | some p => decide (p ≠ k) | none => false } := by
  subst hk
  rfl

/-- R197: a HandoverOpen entry's second value as a number. -/
theorem handoverValue_eq (h : Handover) : handoverValue h =
    BitVec.ofNat 32 (h.scanner.toNat * 16777216 + h.stop.val * 65536 + (if h.hold then 2 else 0) + (if h.misdrop then 1 else 0)) := by
  have joined {a b : Nat} (x : BitVec a) (y : BitVec b) : (x ++ y).toNat = x.toNat * 2 ^ b + y.toNat := by
    rw [BitVec.toNat_append, ← Nat.shiftLeft_add_eq_or_of_lt y.isLt, Nat.shiftLeft_eq]
  have marks : (if h.hold then 2 else 0) + (if h.misdrop then 1 else 0) < 256 := by split_ifs <;> decide
  have stop : h.stop.val < 256 := Nat.lt_trans h.stop.isLt (by decide)
  have value : (handoverValue h).toNat = (h.scanner.toNat * 2 ^ 8 + h.stop.val) * 2 ^ (8 + 8) +
      (0 * 2 ^ 8 + ((if h.hold then 2 else 0) + (if h.misdrop then 1 else 0))) := by
    rw [handoverValue, joined, joined, joined, BitVec.toNat_ofNat, BitVec.toNat_ofNat, Nat.mod_eq_of_lt stop,
      Nat.mod_eq_of_lt marks]
    rfl
  rw [← BitVec.setWidth_eq (handoverValue h), ← BitVec.ofNat_toNat, value]
  refine congrArg (BitVec.ofNat 32) ?_
  ring

/-! ### Unloads (R129) -/

section
variable {s : State} {n : Fin 32} {scanner : Byte} {f : ScanFields} {i : Fin 96}

theorem judgeUnload_closed (h : unloadState s.trip.record.state = false) :
    judgeUnload n scanner f s = (s, .rejected .wrongTripState) := by
  rw [judgeUnload, h]
  rfl

theorem judgeUnload_noLot (ht : unloadState s.trip.record.state = true) (h : findLot s.lots f.lot = none) :
    judgeUnload n scanner f s = (s, .rejected .noSuchLot) := by
  rw [judgeUnload, ht, h]
  rfl

/-- R129 rows 3 to 7: an Unload of a lot that is found, while the trip state takes one. -/
theorem judgeUnload_found (ht : unloadState s.trip.record.state = true) (h : findLot s.lots f.lot = some i) :
    judgeUnload n scanner f s =
      if heldBy (s.lots.get i) scanner then (s, .accepted)
      else if (s.lots.get i).state ≠ .onBoard then (s, .rejected .wrongState)
      else if 8 ≤ handovers s.lots then (s, .rejected .busy)
      else if (advisoryKinds s (s.lots.get i)).any then
        (s.modMem n (fun m => { m with pending := some (adviseRecord s f (advisoryKinds s (s.lots.get i))) }),
          .advise (advisoryKinds s (s.lots.get i)))
      else (openHandoverOf i scanner f.token { hold := false, misdrop := false } s, .accepted) := by
  rw [judgeUnload, ht, h]
  rfl

theorem judgeUnload_held (ht : unloadState s.trip.record.state = true) (h : findLot s.lots f.lot = some i)
    (hh : heldBy (s.lots.get i) scanner = true) : judgeUnload n scanner f s = (s, .accepted) := by
  rw [judgeUnload_found ht h, if_pos hh]

theorem judgeUnload_wrongState (ht : unloadState s.trip.record.state = true) (h : findLot s.lots f.lot = some i)
    (hh : heldBy (s.lots.get i) scanner ≠ true) (hs : (s.lots.get i).state ≠ .onBoard) :
    judgeUnload n scanner f s = (s, .rejected .wrongState) := by
  rw [judgeUnload_found ht h, if_neg hh, if_pos hs]

/-- R129: a lot OnBoard is in no scanner's Handover. -/
theorem not_heldBy_onBoard (hs : (s.lots.get i).state = .onBoard) : heldBy (s.lots.get i) scanner ≠ true := fun hh => by
  rw [(heldBy_iff.1 hh).1] at hs
  exact nomatch hs

theorem judgeUnload_busy (ht : unloadState s.trip.record.state = true) (h : findLot s.lots f.lot = some i)
    (hs : (s.lots.get i).state = .onBoard) (hc : 8 ≤ handovers s.lots) :
    judgeUnload n scanner f s = (s, .rejected .busy) := by
  rw [judgeUnload_found ht h, if_neg (not_heldBy_onBoard hs), if_neg (not_not.2 hs), if_pos hc]

theorem judgeUnload_advises (ht : unloadState s.trip.record.state = true) (h : findLot s.lots f.lot = some i)
    (hs : (s.lots.get i).state = .onBoard) (hc : handovers s.lots < 8) (hk : (advisoryKinds s (s.lots.get i)).any = true) :
    judgeUnload n scanner f s =
      (s.modMem n (fun m => { m with pending := some (adviseRecord s f (advisoryKinds s (s.lots.get i))) }),
        .advise (advisoryKinds s (s.lots.get i))) := by
  rw [judgeUnload_found ht h, if_neg (not_heldBy_onBoard hs), if_neg (not_not.2 hs), if_neg (Nat.not_le.2 hc), if_pos hk]

theorem judgeUnload_opens (ht : unloadState s.trip.record.state = true) (h : findLot s.lots f.lot = some i)
    (hs : (s.lots.get i).state = .onBoard) (hc : handovers s.lots < 8) (hk : (advisoryKinds s (s.lots.get i)).any ≠ true) :
    judgeUnload n scanner f s = (openHandoverOf i scanner f.token { hold := false, misdrop := false } s, .accepted) := by
  rw [judgeUnload_found ht h, if_neg (not_heldBy_onBoard hs), if_neg (not_not.2 hs), if_neg (Nat.not_le.2 hc), if_neg hk]

/-! ### Confirms (R133) -/

theorem judgeConfirm_noPending (h : ¬∃ p, (s.scans.mem.get n).pending = some p ∧ p.lot = f.lot) :
    judgeConfirm n scanner f s = (s, .rejected .noPending) := by
  unfold judgeConfirm
  split
  · rfl
  next p hp => exact if_pos fun e => h ⟨p, hp, e⟩

section
variable {p : Pending} (hp : (s.scans.mem.get n).pending = some p) (hl : p.lot = f.lot)
include hp hl

theorem judgeConfirm_noLot (h : findLot s.lots f.lot = none) :
    judgeConfirm n scanner f s = (s.modMem n fun m => { m with pending := none }, .rejected .noSuchLot) := by
  rw [judgeConfirm, hp, h]
  exact if_neg (not_not.2 hl)

/-- R133: a Confirm of a lot that is found consumes the pending advisory, and is judged by the lot. -/
theorem judgeConfirm_found (h : findLot s.lots f.lot = some i) :
    let s1 := s.modMem n fun m => { m with pending := none }
    judgeConfirm n scanner f s =
      if (s.lots.get i).state ≠ .onBoard then (s1, .rejected .wrongState)
      else if 8 ≤ handovers s.lots then (s1, .rejected .busy)
      else (openHandoverOf i scanner p.token (p.kinds.both (advisoryKinds s (s.lots.get i))) s1, .accepted) := by
  rw [judgeConfirm, hp, h]
  exact if_neg (not_not.2 hl)

theorem judgeConfirm_wrongState (h : findLot s.lots f.lot = some i) (hs : (s.lots.get i).state ≠ .onBoard) :
    judgeConfirm n scanner f s = (s.modMem n fun m => { m with pending := none }, .rejected .wrongState) := by
  rw [judgeConfirm_found hp hl h]
  exact if_pos hs

theorem judgeConfirm_busy (h : findLot s.lots f.lot = some i) (hs : (s.lots.get i).state = .onBoard)
    (hc : 8 ≤ handovers s.lots) :
    judgeConfirm n scanner f s = (s.modMem n fun m => { m with pending := none }, .rejected .busy) := by
  rw [judgeConfirm_found hp hl h, if_neg (not_not.2 hs), if_pos hc]

theorem judgeConfirm_opens (h : findLot s.lots f.lot = some i) (hs : (s.lots.get i).state = .onBoard)
    (hc : handovers s.lots < 8) :
    judgeConfirm n scanner f s = (openHandoverOf i scanner p.token (p.kinds.both (advisoryKinds s (s.lots.get i)))
      (s.modMem n fun m => { m with pending := none }), .accepted) := by
  rw [judgeConfirm_found hp hl h, if_neg (not_not.2 hs), if_neg (Nat.not_le.2 hc)]

end

/-! ### Refuses (R137) -/

theorem judgeRefuse_noLot (h : findLot s.lots f.lot = none) : judgeRefuse scanner f s = (s, .rejected .noSuchLot) := by
  rw [judgeRefuse, h]

theorem judgeRefuse_wrongState (h : findLot s.lots f.lot = some i) (hs : (s.lots.get i).state ≠ .handover) :
    judgeRefuse scanner f s = (s, .rejected .wrongState) := by
  rw [judgeRefuse, h]
  exact if_pos hs

theorem judgeRefuse_cancels (h : findLot s.lots f.lot = some i) (hs : (s.lots.get i).state = .handover) :
    judgeRefuse scanner f s = (cancelHandover i scanner f.reason s, .accepted) := by
  rw [judgeRefuse, h]
  exact if_neg (not_not.2 hs)

/-! ### Handovers that open (R135) -/

/-- R135, R197: a handover that opens at a stop: its record, and its HandoverOpen entry. -/
theorem openHandoverOf_opens {k : Fin 25} (hk : currentStop s = k) (token : Word) (marks : Advisory) :
    let l := s.lots.get i
    let record : Handover :=
      { scanner := scanner, token := token, clock := s.trip.clock, stop := k, hold := marks.hold, misdrop := marks.misdrop,
        settleAt := BitVec.ofNat 32 (min 4294967295 (s.trip.clock.toNat + (s.trip.stops.get k).settle)) }
    let u := s.modLot i fun l => { l with state := .handover, handover := some record }
    Recorded u (openHandoverOf i scanner token marks s) ∧ Appends u (openHandoverOf i scanner token marks s)
      { kind := .handoverOpen, lot := some l.lot, zone := some l.zone, v1 := token,
        v2 := BitVec.ofNat 32 (scanner.toNat * 16777216 + k.val * 65536 +
          (if marks.hold then 2 else 0) + (if marks.misdrop then 1 else 0)) } := by
  intro l record u
  have opened : openingRecord s scanner token marks = record := by
    rw [openingRecord, hk, deadline_eq]
  unfold openHandoverOf
  dsimp only
  rw [opened, handoverValue_eq]
  exact ⟨append_recorded _ _, append_appends _ _⟩

end

/-! ### A pending advisory written over a removed one -/

theorem modMem_pending_pending (s : State) (n : Fin 32) (old new : Option Pending) :
    (s.modMem n fun m => { m with pending := old }).modMem n (fun m => { m with pending := new }) =
      s.modMem n fun m => { m with pending := new } := by
  have twice : upd (upd s.scans.mem n fun m => { m with pending := old }) n (fun m => { m with pending := new }) =
      upd s.scans.mem n fun m => { m with pending := new } := table_ext fun j => by
    simp only [get_upd]
    split <;> simp only [if_true]
  unfold State.modMem
  simp only [twice]

/-! ### The scan in its poll (R126, log 18) -/

/-- R126: a good REPLY_SCAN does in the state that the REPLY_IDLE leaves nothing when malformed or a duplicate, and is
judged there otherwise. -/
theorem replyScan_rows {s : State} {n : Fin 32} {accessory : Bool} {sent : Frame} {windowEnd : Nat}
    (hx : s.sensor.exchange = some (.poll n accessory sent windowEnd)) (hk : (s.sensor.nodes.get n).kind = .scanner)
    (tag : Byte) (f : ScanFields) :
    ∃ v, exec (.replyIdle sent.dest tag) s = .next v ∧
      (wellFormedScan f = none ∨ f.number = (s.scans.mem.get n).number → exec (.replyScan sent.dest tag f) s = .next v) ∧
      (∀ a, wellFormedScan f = some a → f.number ≠ (s.scans.mem.get n).number →
        let r := judgeScan n (s.sensor.nodes.get n).address a f v
        exec (.replyScan sent.dest tag f) s = .next (r.1.modMem n fun m =>
          { m with number := f.number, verdict := some { action := a, lot := f.lot, outcome := r.2 } })) := by
  have good := replyScan_good hx hk tag f
  have nodes : (goodNode n (s.modSensor fun x => x.endPoll accessory)).sensor.nodes = s.sensor.nodes := by
    rw [goodNode_nodes, modSensor_sensor, endPoll_rest]
  have scans : (goodNode n (s.modSensor fun x => x.endPoll accessory)).scans = s.scans := by
    rw [goodNode_scans, modSensor_scans]
  refine ⟨_, replyIdle_good hx tag, fun idle => ?_, fun a hf hn => ?_⟩
  · rw [good]
    rcases idle with malformed | duplicate
    · rw [takeScan_malformed malformed]
    · rw [takeScan_duplicate (by rw [scans]; exact duplicate)]
  · have judged := takeScan_judged (n := n) (s := goodNode n (s.modSensor fun x => x.endPoll accessory)) hf
      (by rw [scans]; exact hn)
    rw [nodes] at judged
    exact good.trans (congrArg _ judged)

/-- Settles O48: the scan reaches its row in the state that its REPLY_IDLE leaves (R126), and each row is one of the
judgments' branches (R128, R129, R133, R137). -/
theorem unloadConfirmAndRefuseScansFollowTheirRows : Obligations.UnloadConfirmAndRefuseScansFollowTheirRows := by
  refine ⟨fun s src tag f n accessory sent windowEnd hx hdest hk => ?_, fun s n scanner f => ?_⟩
  · subst hdest
    obtain ⟨v, idle, nothing, judged⟩ := replyScan_rows hx hk tag f
    refine ⟨v, idle, fun h => nothing ?_, fun a hnum ha hr hn => judged a (wellFormedScan_some hnum ha hr) hn⟩
    rcases h with h | h | h | h | h
    · exact Or.inl (wellFormedScan_none (.inl h))
    · exact Or.inl (wellFormedScan_none (.inr (.inl h)))
    · exact Or.inl (wellFormedScan_none (.inr (.inr (.inl h))))
    · exact Or.inl (wellFormedScan_none (.inr (.inr (.inr h))))
    · exact Or.inr h
  intro cleared closed confirming
  have isOpen (h : ¬closed) : unloadState cleared.trip.record.state = true :=
    Bool.of_not_eq_false fun e => h (unloadState_false.1 e)
  refine ⟨judgeLoad_noVisit, fun h => judgeUnload_closed (unloadState_false.2 h), judgeConfirm_noPending,
    fun absent => ⟨fun visit => judgeLoad_notManifested visit absent, fun h => judgeUnload_noLot (isOpen h) absent, ?_,
      judgeRefuse_noLot absent⟩, fun i found => ?_⟩
  · rintro ⟨p, hp, hl⟩
    exact judgeConfirm_noLot hp hl absent
  intro l held
  refine ⟨fun visit => judgeLoad_wrongState visit found,
    fun h hh => judgeUnload_held (isOpen h) found (heldBy_iff.2 hh),
    fun h hh => judgeUnload_wrongState (isOpen h) found (mt heldBy_iff.1 hh),
    fun h => judgeUnload_busy (isOpen h) found, ?_, ?_, judgeRefuse_wrongState found, ?_, ?_⟩
  · rintro ⟨p, hp, hl⟩
    exact judgeConfirm_wrongState hp hl found
  · rintro ⟨p, hp, hl⟩
    exact judgeConfirm_busy hp hl found
  · intro hs back u
    exact ⟨_, judgeRefuse_cancels found hs, append_recorded _ _, append_appends _ _⟩
  · intro k hk hs room kinds opens
    have stop : currentStop cleared = k := currentStop_eq hk
    have same : advisoryKinds cleared l = kinds := advisoryKinds_eq stop l
    have taken : unloadState cleared.trip.record.state = true := unloadState_at hk
    refine ⟨fun applies => ?_, fun noHold noMisdrop => ?_, fun p hp hl => ?_⟩
    · have advised := judgeUnload_advises (n := n) (scanner := scanner) taken found hs room
        (by rw [same, Advisory.any, Bool.or_eq_true]; exact applies)
      rw [same, adviseRecord, deadline_eq] at advised
      exact advised.trans (congrArg (·, ScanOutcome.advise kinds) (modMem_pending_pending s n none _))
    · have unmarked : kinds = { hold := false, misdrop := false } := congrArg₂ Advisory.mk noHold noMisdrop
      have quiet : ¬(advisoryKinds cleared l).any = true := by
        rw [same, unmarked]
        decide
      rw [unmarked]
      exact ⟨_, judgeUnload_opens taken found hs room quiet, openHandoverOf_opens stop f.token _⟩
    · rw [← same]
      exact ⟨_, judgeConfirm_opens hp hl found hs room, openHandoverOf_opens stop p.token _⟩

end Sys2Proof.Machine
end

section
/-! PROOFS. Ack deadlines and PROOF_ACK (O38, O39; spec 08 R153, R154; spec 11 R191). -/

namespace Sys2Proof.Machine

/-! ### Ack deadlines (R153) -/

/-- R153: the entry of a lot is due once the clock has reached its ack deadline. -/
theorem ackDue_of_reached {i : Fin 96} {s : State} {p : ProofItem}
    (hp : s.proofs.list.find? (fun q => q.index == i) = some p) (hle : p.ackBy.toNat ≤ s.trip.clock.toNat) :
    ackDue s i = some p := by
  obtain ⟨named, as, bs, he, earlier⟩ := List.find?_eq_some_iff_append.1 hp
  refine List.find?_eq_some_iff_append.2 ⟨?_, as, bs, he, fun q hq => ?_⟩
  · rw [named, Bool.true_and]
    exact (reached_iff _ _).2 hle
  · have other : (q.index == i) = false := by simpa using earlier q hq
    rw [other]
    rfl

/-- Settles O38: the entry is due, and marking its lot is a raising beside the list and the lot so changed. -/
theorem ackDeadlinesMarkTheLot : Obligations.AckDeadlinesMarkTheLot := by
  intro i s p hp hle u
  have named := List.find?_some hp
  obtain rfl : p.index = i := beq_iff_eq.1 named
  have runs : exec (.ackDeadline p.index) s = .next (match ackDue s p.index with
      | some q => markUnconfirmed q (s.modList fun l => l.erase q)
      | none => s) := rfl
  rw [ackDue_of_reached hp hle] at runs
  exact ⟨_, runs, rfl, raise_raised _ _ u, raise_flag _ _ u⟩

/-! ### The rows of PROOF_ACK (R154) -/

/-- Some entry of a table passes a test exactly when the test is true of the entry at some index. -/
theorem any_table_iff {α : Type} {n : Nat} {v : Vector α n} {p : α → Bool} :
    v.toList.any p = true ↔ ∃ i, p (v.get i) = true := by
  rw [List.any_eq_true]
  constructor
  · rintro ⟨x, hx, h⟩
    obtain ⟨i, hi, rfl⟩ := List.mem_iff_getElem.1 hx
    exact ⟨⟨i, by simpa using hi⟩, by simpa [Vector.get] using h⟩
  · rintro ⟨i, h⟩
    exact ⟨v.get i, by simp [Vector.get], h⟩

/-- R154 row 3: a proof comes too late exactly when a Delivered and Unconfirmed lot holds it under the trip's id. -/
theorem tooLate_iff {s : State} {n : Nat} : tooLate s n = true ↔
    ∃ i p, (s.lots.get i).state = .delivered ∧ (s.lots.get i).unconfirmed = true ∧ (s.lots.get i).proof = some p ∧
      p.record.tripId = s.trip.record.tripId ∧ p.record.number = n := by
  rw [tooLate, any_table_iff]
  refine exists_congr fun i => ?_
  cases (s.lots.get i).proof with
  | none => simp
  | some p => simp [and_assoc]

section
variable {n : Half} {c : Word} {s : State}

/-- R154 row 1: the number and the check word of an entry of the list. -/
theorem proofAck_done {p : ProofItem} (h : s.proofs.list.find? (fun q => q.number == n.toNat && q.check == c) = some p) :
    proofAck n c s = (confirmProof p s, .done) := by
  rw [proofAck, h]

/-- R154 rows 2 to 4: no entry of the list holds both the number and the check word. -/
theorem proofAck_unmatched (h : ∀ p ∈ s.proofs.list, ¬(p.number = n.toNat ∧ p.check = c)) :
    proofAck n c s = if s.proofs.list.any (fun p => p.number == n.toNat) then (s, .mismatch)
      else if tooLate s n.toNat then (s, .tooLate) else (s, .noSuchProof) := by
  rw [proofAck, List.find?_eq_none.2 fun p hp => by simpa using h p hp]

/-- R154 row 2: an entry holds the number, and none holds the check word with it. -/
theorem proofAck_mismatch (h : ∀ p ∈ s.proofs.list, ¬(p.number = n.toNat ∧ p.check = c))
    (held : ∃ p ∈ s.proofs.list, p.number = n.toNat) : proofAck n c s = (s, .mismatch) := by
  rw [proofAck_unmatched h, if_pos (List.any_eq_true.2 (by simpa using held))]

/-- R154 rows 3 and 4: no entry holds the number. -/
theorem proofAck_unheld (h : ∀ p ∈ s.proofs.list, p.number ≠ n.toNat) :
    proofAck n c s = if tooLate s n.toNat then (s, .tooLate) else (s, .noSuchProof) := by
  rw [proofAck_unmatched fun p hp both => h p hp both.1, if_neg]
  simpa using h

end

/-- Settles O39, row by row of R154; a confirmation ends with the append of its Confirm entry. -/
theorem proofAcksFollowTheirRows : Obligations.ProofAcksFollowTheirRows := by
  intro h n1 n0 c3 c2 c1 c0 s ht c number check
  refine ⟨fun p hp => ?_, fun unmatched held => ?_, fun unheld => ⟨fun late => ?_, fun notLate => ?_⟩⟩
  · exact repliesRecording_of rfl ht (proofAck_done hp) (append_recorded _ _) (append_appends _ _)
  · exact replies_of rfl ht (proofAck_mismatch unmatched held)
  · exact replies_of rfl ht ((proofAck_unheld unheld).trans (if_pos (tooLate_iff.2 late)))
  · refine replies_of rfl ht ((proofAck_unheld unheld).trans (if_neg fun late => ?_))
    obtain ⟨i, p, delivered, unconfirmed, proof, trip, same⟩ := tooLate_iff.1 late
    exact notLate i p delivered unconfirmed proof trip same

end Sys2Proof.Machine
end

section
/-! PROOFS. What a removal leaves of the journal, and the journal export: offers, admissions, steps back and skips (O60;
spec 09 R159, R160, R163, R167 to R169; spec 10 R176; spec 11 R196, R197). -/

namespace Sys2Proof.Machine

/-! ### Entries and their places (R158, R159, R163) -/

/-- The first member of a list that passes a test is what a search for it finds. -/
theorem find?_first {α : Type} {p : α → Bool} {a b : List α} {x : α} (hx : p x = true) (ha : ∀ y ∈ a, p y = false) :
    (a ++ x :: b).find? p = some x :=
  List.find?_eq_some_iff_append.2 ⟨hx, a, b, rfl, fun y hy => by rw [ha y hy]; rfl⟩

section
variable {j : Journal} {a b : List JEntry} {e : JEntry} {n : Nat}

/-- R163: a removal takes out the entry and leaves the others in their order. -/
theorem remove_split (hj : j.entries = a ++ e :: b) (ha : e ∉ a) : j.remove e = { j with entries := a ++ b } := by
  rw [Journal.remove, hj, List.erase_append_right _ ha, List.erase_cons_head]

/-- R167: the entry that stands at a place. -/
theorem entryAt_split (hj : j.entries = a ++ e :: b) (he : e.place = n) (ha : ∀ y ∈ a, y.place ≠ n) :
    j.entryAt n = some e := by
  rw [Journal.entryAt, hj]
  exact find?_first (beq_iff_eq.2 he) fun y hy => beq_eq_false_iff_ne.2 (ha y hy)

/-- R167: no entry stands at a place that none held has. -/
theorem entryAt_none (h : ∀ y ∈ j.entries, y.place ≠ n) : j.entryAt n = none :=
  List.find?_eq_none.2 fun y hy he => h y hy (beq_iff_eq.1 he)

/-- R167: the entries after the one at a place. -/
theorem after_split (hj : j.entries = a ++ e :: b) (he : e.place = n) (ha : ∀ y ∈ a, y.place ≠ n) : j.after n = b := by
  rw [Journal.after, hj, List.dropWhile_append_of_pos fun y hy => bne_iff_ne.2 (ha y hy),
    List.dropWhile_cons_of_neg (by simp [he])]
  rfl

/-- R158: an entry held stands after those placed before it, before those placed after it, and before what comes next. -/
theorem JournalOrdered.places {s : State} (h : JournalOrdered s) (hj : s.journal.entries = a ++ e :: b) :
    (∀ y ∈ a, y.place < e.place) ∧ (∀ y ∈ b, e.place < y.place) ∧ e.place < s.journal.appended := by
  obtain ⟨sorted, held, -⟩ := h
  rw [hj] at sorted held
  obtain ⟨-, tail, cross⟩ := List.pairwise_append.1 sorted
  exact ⟨fun y hy => cross y hy e List.mem_cons_self, (List.pairwise_cons.1 tail).1, (held e (by simp)).1⟩

end

/-! ### The bytes of an entry (R160, R197) -/

/-- R197: the marks byte of an entry. -/
def JEntry.marks (e : JEntry) (gap : Bool) : Nat :=
  (if e.unsynced then 128 else 0) + (if e.kind.isKey then 0 else 64) + (if e.lot.isSome then 32 else 0)
    + (if e.zone.isSome then 16 else 0) + (if e.zones.isSome then 8 else 0) + (if e.door.isSome then 4 else 0)
    + (if gap then 2 else 0)

/-- R197: the marks stand in the ninth byte of a JRNL_DATA frame. -/
theorem bytes_marks (e : JEntry) (gap : Bool) : (e.bytes gap)[8]? = some (BitVec.ofNat 8 (e.marks gap)) := rfl

/-- R197: Gap is the second bit of the marks. -/
theorem marks_gap (e : JEntry) (gap : Bool) : (BitVec.ofNat 8 (e.marks gap)).getLsbD 1 = gap := by
  unfold JEntry.marks
  generalize e.unsynced = u, e.kind.isKey = k, e.lot.isSome = l, e.zone.isSome = z, e.zones.isSome = m, e.door.isSome = d
  revert u k l z m d gap
  decide

/-- R197: the two bytes that hold an entry's zone or its zone set. -/
def JEntry.zoneBytes (e : JEntry) : List Byte := match e.zone, e.zones with
  | some z, _ => b2 (BitVec.ofNat 16 (z.val + 1))
  | none, some m => b2 (m.setWidth 16)
  | none, none => [0, 0]

/-- R197: the parts of a JRNL_DATA frame in their order. -/
theorem bytes_eq (e : JEntry) (gap : Bool) : e.bytes gap = b4 e.seq ++ b4 e.clock
    ++ [BitVec.ofNat 8 (e.marks gap), BitVec.ofNat 8 e.kind.number] ++ b4 (e.lot.getD 0) ++ e.zoneBytes
    ++ [BitVec.ofNat 8 ((e.door.map doorNo).getD 0)] ++ b4 e.v1 ++ b4 e.v2 := by
  obtain ⟨_, _, _, _, _, _, zone, zones, _, _, _⟩ := e
  cases zone <;> cases zones <;> rfl

/-- R197: a JRNL_DATA frame holds 25 bytes. -/
theorem bytes_length (e : JEntry) (gap : Bool) : (e.bytes gap).length = 25 := by
  have zone : e.zoneBytes.length = 2 := by
    unfold JEntry.zoneBytes
    cases e.zone <;> cases e.zones <;> rfl
  simp [bytes_eq, zone, b4]

/-! ### What an export offers, and what an admission makes of it (R167, R168) -/

section
variable {j : Journal} {x : ExportRec}

/-- R167: the frame of a Single carries Last. -/
theorem isLast_single (h : x.mode = .single) : x.isLast j = true := by rw [ExportRec.isLast, h]

/-- R167: the last frame of a Block carries Last. -/
theorem isLast_block (h : x.mode = .block) : x.isLast j = decide (x.remaining ≤ 1 ∨ j.after x.place = []) := by
  rw [ExportRec.isLast, h, Bool.decide_or]
  cases j.after x.place <;> rfl

/-- R167: no frame of a Follow carries Last. -/
theorem isLast_follow (h : x.mode = .follow) : x.isLast j = false := by rw [ExportRec.isLast, h]

/-- R167: an export whose frame carried Last has ended. -/
theorem advance_last (e : JEntry) (h : x.isLast j = true) : x.advance j e = none := by rw [ExportRec.advance, if_pos h]

/-- R168: the export after a frame without Last. -/
theorem advance_more (e : JEntry) (h : x.isLast j = false) : x.advance j e =
    let y := x.moveTo j (j.after x.place).head?
    some { y with firstSent := true, frames := x.frames + 1, gap := decide (y.cursor ≠ e.seq + 1),
                  remaining := if x.mode = .block then x.remaining - 1 else x.remaining } := by
  rw [ExportRec.advance, if_neg (by rw [h]; decide)]

/-- R186, R196: the tag of a frame that an export offers. -/
theorem frame_tag (epoch : Nat) (e : JEntry) : (x.frame j epoch e).tag =
    BitVec.ofNat 8 ((if x.firstSent then 0 else 128) + (if x.isLast j then 64 else 0) + x.frames % 64) := by
  rw [ExportRec.frame, tagOf]
  cases x.firstSent <;> rfl

end

section
variable {s : State} {x : ExportRec} {e : JEntry}

/-- R167: with no export running nothing is offered. -/
theorem offer_idle (h : s.exporter.run = none) (n : Nat) : offer n s = s := by
  cases n with
  | zero => rfl
  | succ n => rw [offer, h]

/-- R167: with no entry at the cursor nothing is offered. -/
theorem offer_waits (hx : s.exporter.run = some x) (he : s.journal.entryAt x.place = none) (n : Nat) : offer n s = s := by
  cases n with
  | zero => rfl
  | succ n => simp only [offer, hx, he]

/-- R168: a frame that is not admitted changes nothing. -/
theorem offer_refused (hx : s.exporter.run = some x) (he : s.journal.entryAt x.place = some e)
    (hf : s.trunk.enqueue (x.frame s.journal s.exporter.epoch e) = none) (n : Nat) : offer (n + 1) s = s := by
  simp only [offer, hx, he, hf]

/-- R167, R168: an admitted frame moves the export on, and it offers again. -/
theorem offer_admitted (hx : s.exporter.run = some x) (he : s.journal.entryAt x.place = some e) {t : Trunk}
    {removed : Option OutFrame} (hf : s.trunk.enqueue (x.frame s.journal s.exporter.epoch e) = some (t, removed)) (n : Nat) :
    offer (n + 1) s = offer n { s with trunk := t, exporter := { s.exporter with run := x.advance s.journal e } } := by
  simp only [offer, hx, he, hf]

/-! ### What handing a frame makes of the export (R168, R185) -/

variable {f g : OutFrame} {t : Trunk}

/-- R185: a frame that is not admitted leaves the part as it was. -/
theorem hand_unadmitted (h : s.trunk.enqueue f = none) : hand f s = (s, false) := by rw [hand, admitFrame, h]

/-- R185, R168: an admission takes back what it removed, and the export offers again. -/
theorem hand_admitted {removed : Option OutFrame} (h : s.trunk.enqueue f = some (t, removed)) : hand f s =
    (offer offerFuel { s with trunk := t, exporter := s.exporter.stepBack s.journal removed }, true) := by
  rw [hand, admitFrame, h]

/-- R168: the removal of a frame of the running export takes it back, past an entry since removed. -/
theorem stepBack_own {j : Journal} {x : Export} {before : ExportRec} (h : g.origin = .journal x.epoch before) :
    x.stepBack j (some g) = { x with run := some (before.skip j) } := by simp only [Export.stepBack, h, if_true]

/-- R168: the removal of any other frame takes nothing back. -/
theorem stepBack_other {j : Journal} {x : Export} (h : ∀ before, g.origin ≠ .journal x.epoch before) :
    x.stepBack j (some g) = x := by
  cases hg : g.origin with
  | journal epoch before =>
    have ended : epoch ≠ x.epoch := fun same => h before (same ▸ hg)
    simp only [Export.stepBack, hg, if_neg ended]
  | plain => simp only [Export.stepBack, hg]
  | read id => simp only [Export.stepBack, hg]
  | resetDone => simp only [Export.stepBack, hg]

end

/-! ### Where the cursor goes when its entry is gone (R169) -/

section
variable {j : Journal} {x : ExportRec}

/-- R169: past every entry held, the cursor waits at the next sequence number. -/
theorem skip_toNext (h : ∀ y ∈ j.entries, y.place < x.place) (hn : x.place ≠ j.appended) :
    x.skip j = { x with cursor := j.nextSeq, place := j.appended, gap := true } := by
  have newer : j.entries.find? (fun e => decide (x.place < e.place)) = none :=
    List.find?_eq_none.2 fun y hy => by simpa using (h y hy).le
  rw [skip_gone (fun y hy => (h y hy).ne) hn, newer]
  rfl

/-- R169: the cursor moves to the oldest entry held that is newer. -/
theorem skip_toNewer {a b : List JEntry} {y : JEntry} (hj : j.entries = a ++ y :: b)
    (h : ∀ z ∈ j.entries, z.place ≠ x.place) (hn : x.place ≠ j.appended) (ha : ∀ z ∈ a, z.place < x.place)
    (hy : x.place < y.place) : x.skip j = { x with cursor := y.seq, place := y.place, gap := true } := by
  have newer : j.entries.find? (fun e => decide (x.place < e.place)) = some y := by
    rw [hj]
    exact find?_first (decide_eq_true hy) fun z hz => decide_eq_false (ha z hz).le.not_gt
  rw [skip_gone h hn, newer]
  rfl

end

/-! ### Removals (R163, R169, R176) -/

section
variable {s : State} {x : ExportRec} {a b : List JEntry} {e : JEntry}

/-- R163: the journal after a removal. -/
theorem evict_journal (hj : s.journal.entries = a ++ e :: b) (ha : e ∉ a) :
    (evict e s).journal = { s.journal with entries := a ++ b } := remove_split hj ha

/-- R169: a running export skips over the entry removed. -/
theorem evict_run (hx : s.exporter.run = some x) : (evict e s).exporter.run = some (x.skip (evict e s).journal) := by
  rw [evict, hx]
  rfl

/-- R169: the cursor of an export whose entry is removed moves to the entry after it, or to the next sequence number. -/
theorem evict_cursor (hs : JournalOrdered s) (hx : s.exporter.run = some x) (hj : s.journal.entries = a ++ e :: b)
    (hp : x.place = e.place) :
    (evict e s).exporter.run = some { x.moveTo s.journal b.head? with gap := true } := by
  obtain ⟨older, newer, next⟩ := hs.places hj
  rw [← hp] at older newer next
  rw [evict_run hx, evict_journal hj fun h => (older e h).ne hp.symm]
  cases b with
  | nil => exact congrArg some (skip_toNext (by simpa using older) next.ne)
  | cons y b =>
    have gone : ∀ z ∈ a ++ y :: b, z.place ≠ x.place := fun z hz =>
      (List.mem_append.1 hz).elim (fun h => (older z h).ne) (fun h => (newer z h).ne')
    exact congrArg some (skip_toNewer rfl gone next.ne older (newer y List.mem_cons_self))

/-- R169: the removal of an entry away from the cursor leaves the export as it was. -/
theorem evict_elsewhere (hx : s.exporter.run = some x) (hj : s.journal.entries = a ++ e :: b) (ha : e ∉ a)
    (h : x.place = s.journal.appended ∨ ∃ y ∈ a ++ b, y.place = x.place) : (evict e s).exporter.run = some x := by
  rw [evict_run hx, evict_journal hj ha]
  exact congrArg some (h.elim (fun next => skip_next next) fun held => skip_held held)

end

/-- Settles O60, part by part: the export's offers (R167, R168), what handing a frame takes back (R168), what a removal
leaves (R163, R169, R176), and the bytes of an entry (R160, R197). -/
theorem journalExportsOfferAdvanceAndStepBack : Obligations.JournalExportsOfferAdvanceAndStepBack := by
  refine ⟨?_, fun s fuel => ⟨fun idle => offer_idle idle fuel, fun x hx none => offer_waits hx (entryAt_none none) fuel⟩, ?_, ?_, ?_,
    fun _ => rfl, fun _ => rfl, ?_⟩
  · intro s fuel x a b e hx hj he ha last frame cursor place moved
    have entry : s.journal.entryAt x.place = some e := entryAt_split hj he ha
    have after : s.journal.after x.place = b := after_split hj he ha
    have isLast : x.isLast s.journal = last := by
      cases hm : x.mode
      case single => simp only [isLast_single hm, last, hm]
      case block => simp only [isLast_block hm, after, last, hm]
      case follow => simp only [isLast_follow hm, last, hm]
    have hframe : x.frame s.journal s.exporter.epoch e = frame := by
      have tag := frame_tag (j := s.journal) (x := x) s.exporter.epoch e
      rw [isLast] at tag
      simp only [frame, ← tag]
      rfl
    have advance : x.advance s.journal e = if last then none else some moved := by
      cases h : last with
      | true => exact advance_last e (isLast.trans h)
      | false =>
        rw [advance_more e (isLast.trans h), after]
        cases b <;> rfl
    refine ⟨?_, fun refused => offer_refused hx entry (hframe ▸ refused) fuel, fun t removed admitted => ?_⟩
    · rw [bytes_marks, Option.map_some, marks_gap]
    · rw [offer_admitted hx entry (hframe ▸ admitted), advance]
  · refine fun f s => ⟨hand_unadmitted, fun t admitted => hand_admitted admitted, fun t g admitted => ?_⟩
    intro back
    have handed := hand_admitted admitted
    refine ⟨fun before own => ?_, fun other => ?_⟩
    · rw [stepBack_own own] at handed
      have skips : ∀ x, before.skip s.journal = x → back (some x) := fun x hx => by rw [hx] at handed; exact handed
      exact ⟨fun stands => skips _ (stands.elim skip_next skip_held), fun notNext older => skips _ (skip_toNext older notNext),
        fun a b y hj gone notNext older newer => skips _ (skip_toNewer hj gone notNext older newer)⟩
    · rw [stepBack_other other] at handed
      exact handed
  · intro s x a b e hx hj ordered t
    have first : e ∉ a := fun h => lt_irrefl _ ((ordered.places hj).1 e h)
    refine ⟨evict_journal hj first, fun hp => ?_, evict_elsewhere hx hj first⟩
    rw [evict_cursor ordered hx hj hp]
    cases b <;> rfl
  · intro s e t
    refine ⟨rfl, fun idle => ?_, fun idle => ?_, fun b build => ⟨Config.walkAdvance s.free, ?_⟩⟩
    · simp only [t, evict, idle, Option.map_none]
    · simp only [t, evict, idle, Option.map_none, Option.isSome_none, Bool.false_eq_true, if_false, and_self]
    · simp only [t, evict, build, Option.map_some, Build.onEvict]
  · intro e gap bit kind zones door marks
    have hkind : BitVec.ofNat 8 e.kind.number = kind := by simp only [kind]; cases e.kind <;> rfl
    have hdoor : BitVec.ofNat 8 ((e.door.map doorNo).getD 0) = door := by simp only [door]; cases e.door <;> rfl
    have notKey : (if e.kind.isKey then 0 else 64) = bit (decide (e.kind = .summary)) 64 := by cases e.kind <;> rfl
    have hmarks : e.marks gap = marks := by rw [JEntry.marks, notKey]
    refine ⟨?_, bytes_length e gap⟩
    rw [bytes_eq, hkind, hdoor, hmarks]
    rfl

end Sys2Proof.Machine
end

section
/-! PROOFS. JRNL_REQ and its start points (O41; spec 09 R159, R165, R166). -/

namespace Sys2Proof.Machine

/-! ### Start points (R166) -/

section
variable {j : Journal} {n : Word}

/-- R159, R166: which numbers lie ahead of the journal. -/
theorem ahead_iff : j.ahead n = true ↔ (j.nextSeq - n).toNat = 0 ∨ 2147483648 ≤ (j.nextSeq - n).toNat := decide_eq_true_iff

/-- R166: the start point is the oldest entry held with the number (log 45). -/
theorem startPoint_held {a b : List JEntry} {e : JEntry} (hj : j.entries = a ++ e :: b) (he : e.seq = n)
    (ha : ∀ y ∈ a, y.seq ≠ n) : j.startPoint n = some (e, false) := by
  have numbered : j.numbered n = some e := by
    rw [Journal.numbered, hj]
    exact find?_first (beq_iff_eq.2 he) fun y hy => beq_eq_false_iff_ne.2 (ha y hy)
  rw [Journal.startPoint, numbered]

/-- R166: no entry held carries the number. -/
theorem numbered_none (h : ∀ y ∈ j.entries, y.seq ≠ n) : j.numbered n = none :=
  List.find?_eq_none.2 fun y hy he => h y hy (beq_iff_eq.1 he)

/-- R166: a number not held that is ahead of the journal has no start point (log 48). -/
theorem startPoint_ahead (h : ∀ y ∈ j.entries, y.seq ≠ n) (ha : j.ahead n = true) : j.startPoint n = none := by
  rw [Journal.startPoint, numbered_none h]
  exact if_pos ha

/-- R166: the start point of a number not held is the oldest entry held that is newer. -/
theorem startPoint_behind (h : ∀ y ∈ j.entries, y.seq ≠ n) (ha : ¬j.ahead n = true) :
    j.startPoint n = (j.newerThan n).map fun e => (e, true) := by
  rw [Journal.startPoint, numbered_none h]
  exact if_neg ha

/-- R159, R166: no entry held is newer. -/
theorem newerThan_none (h : ∀ y ∈ j.entries, (j.nextSeq - n).toNat ≤ (j.nextSeq - y.seq).toNat) : j.newerThan n = none :=
  List.find?_eq_none.2 fun y hy newer => (h y hy).not_gt (of_decide_eq_true newer)

/-- R159, R166: the oldest entry held that is newer. -/
theorem newerThan_split {a b : List JEntry} {e : JEntry} (hj : j.entries = a ++ e :: b)
    (he : (j.nextSeq - e.seq).toNat < (j.nextSeq - n).toNat)
    (ha : ∀ y ∈ a, (j.nextSeq - n).toNat ≤ (j.nextSeq - y.seq).toNat) : j.newerThan n = some e := by
  rw [Journal.newerThan, hj]
  exact find?_first (decide_eq_true he) fun y hy => decide_eq_false (ha y hy).not_gt

/-! ### The export that a request starts (R165) -/

variable {m : ExportMode} {dest : Byte} {count : Half}

/-- R165: an export that starts at a start point. -/
theorem startFor_some {e : JEntry} {gap : Bool} (h : j.startPoint n = some (e, gap)) : j.startFor m n dest count =
    some { startRecord j m dest count with cursor := e.seq, place := e.place, gap := gap } := by
  simp only [Journal.startFor, h]
  rfl

/-- R165: with no start point a Follow waits at the next sequence number. -/
theorem startFor_follow (h : j.startPoint n = none) : j.startFor .follow n dest count =
    some (startRecord j .follow dest count) := by
  simp only [Journal.startFor, h]

/-- R165: with no start point a Single or a Block does not start. -/
theorem startFor_none (hm : m ≠ .follow) (h : j.startPoint n = none) : j.startFor m n dest count = none := by
  cases m with
  | single => simp only [Journal.startFor, h]
  | block => simp only [Journal.startFor, h]
  | follow => exact absurd rfl hm

/-- R165 row 4: a Block whose count is brought into range is Adjusted. -/
theorem startAnswer_block (count : Half) :
    startAnswer .block count = if 1 ≤ count.toNat ∧ count.toNat ≤ 1024 then .done else .adjusted :=
  doneOr_clamp (by decide)

/-! ### Requests by their mode (R165) -/

/-- R197: the mode bytes that name no mode. -/
theorem jrnlModeOf_none {x : Byte} (h : x = 0 ∨ 4 < x.toNat) : jrnlModeOf x = none := by
  have ne : ∀ k : Byte, 0 < k.toNat → k.toNat ≤ 4 → x ≠ k := fun k lo hi e => by
    subst e
    rcases h with rfl | h
    · exact absurd lo (by decide)
    · omega
  simp only [jrnlModeOf, if_neg (ne 1 (by decide) (by decide)), if_neg (ne 2 (by decide) (by decide)),
    if_neg (ne 3 (by decide) (by decide)), if_neg (ne 4 (by decide) (by decide))]

end

section
variable {h : ReqHdr} {m s3 s2 s1 s0 c1 c0 : Byte} {s : State}

/-- R165, R183: a request of a mode reaches the export. -/
theorem exec_jrnlReq {mode : JrnlMode} (ht : Taken h s) (hm : jrnlModeOf m = some mode) :
    exec (.jrnlReq h [m, s3, s2, s1, s0, c1, c0]) s =
      .next (jrnlReq (replyTo h kJrnlReq) mode (word s3 s2 s1 s0) (half c1 c0) s) := by
  show execJrnlReq h [m, s3, s2, s1, s0, c1, c0] s = _
  rw [execJrnlReq, onRequest_taken _ _ _ ht]
  simp only [hm]

/-- R165, R183: a request of no mode is BadValue. -/
theorem exec_jrnlReq_noMode (ht : Taken h s) (hm : jrnlModeOf m = none) :
    exec (.jrnlReq h [m, s3, s2, s1, s0, c1, c0]) s = .next (reply (replyTo h kJrnlReq) .badValue s) := by
  show execJrnlReq h [m, s3, s2, s1, s0, c1, c0] s = _
  rw [execJrnlReq, onRequest_taken _ _ _ ht]
  simp only [hm]

/-- R165: an answer in which no export starts ends the one in progress. -/
theorem jrnlReq_noEntry {mode : ExportMode} {n : Word} {count : Half} {to_ : ReplyTo}
    (hs : s.journal.startFor mode n to_.dest count = none) :
    jrnlReq to_ (.start mode) n count s = reply to_ .noEntry (endExport s) := by simp only [jrnlReq, hs]

/-- R165: an export that starts. -/
theorem jrnlReq_starts {mode : ExportMode} {n : Word} {count : Half} {to_ : ReplyTo} {x : ExportRec}
    (hs : s.journal.startFor mode n to_.dest count = some x) :
    jrnlReq to_ (.start mode) n count s = startExport to_ (startAnswer mode count) x s := by simp only [jrnlReq, hs]

end

/-- Settles O41: the modes of a request (R165) and its start points (R166). -/
theorem journalRequestsFollowTheirRows : Obligations.JournalRequestsFollowTheirRows := by
  refine ⟨fun h m s3 s2 s1 s0 c1 c0 s ht => ?_, fun j n => ?_⟩
  · intro c from_ count ended starts
    have start : ∀ {mode code cursor place gap}, jrnlModeOf m = some (.start mode) → startAnswer mode (half c1 c0) = code →
        s.journal.startFor mode from_ h.src (half c1 c0) =
          some { startRecord s.journal mode h.src (half c1 c0) with cursor := cursor, place := place, gap := gap } →
        starts mode code cursor place gap := by
      intro mode code cursor place gap hm hcode hx
      refine ⟨hand_sent _ _, (exec_jrnlReq ht hm).trans (congrArg _ ((jrnlReq_starts hx).trans ?_))⟩
      rw [hcode]
      rfl
    have noStart : ∀ {mode}, jrnlModeOf m = some (.start mode) → mode ≠ .follow → s.journal.startPoint from_ = none →
        Replies c s ended h kJrnlReq .noEntry := fun hm hf hn =>
      ⟨(exec_jrnlReq ht hm).trans (congrArg _ (jrnlReq_noEntry (startFor_none hf hn))), hand_sent _ _⟩
    refine ⟨fun hm => ⟨exec_jrnlReq_noMode ht (jrnlModeOf_none hm), hand_sent _ _⟩, ?_, ?_, ?_, fun e gap hp => ⟨?_, ?_, ?_⟩⟩
    · rintro rfl
      exact ⟨exec_jrnlReq (mode := .stop) ht rfl, hand_sent _ _⟩
    · rintro (rfl | rfl) hn
      · exact noStart rfl (by decide) hn
      · exact noStart rfl (by decide) hn
    · rintro rfl hn
      exact start rfl rfl (startFor_follow hn)
    · rintro rfl
      exact start rfl rfl (startFor_some hp)
    · rintro rfl
      exact start rfl (startAnswer_block _) (startFor_some hp)
    · rintro rfl
      exact start rfl rfl (startFor_some hp)
  · intro age
    refine ⟨fun a e b hj he ha => startPoint_held hj he ha, fun unheld => ⟨fun none => ?_, fun a e b hj behind newer older => ?_⟩⟩
    · by_cases ahead : j.ahead n = true
      · exact startPoint_ahead unheld ahead
      · have none := none.elim (fun h => absurd (ahead_iff.2 (.inl h)) ahead)
          fun h => h.resolve_left fun h => ahead (ahead_iff.2 (.inr h))
        rw [startPoint_behind unheld ahead, newerThan_none none]
        rfl
    · have notAhead : ¬j.ahead n = true := fun h => by
        have h := ahead_iff.1 h
        simp only [age] at behind newer
        omega
      rw [startPoint_behind unheld notAhead, newerThan_split hj newer older]
      rfl

end Sys2Proof.Machine
end

section
/-! PROOFS. The pin horizon, and what an append does with room, in a full journal, and refused (O40; spec 09 R158, R159,
R161 to R164, R167; spec 10 R176, R177). -/

namespace Sys2Proof.Machine

/-! ### The entry that makes room (R162, R163) -/

section
variable {es a b : List JEntry} {x : JEntry} {horizon : Option Clock}

/-- R160: which kinds are of class Key. -/
theorem isKey_eq (k : EntryKind) : k.isKey = decide (k ≠ .summary) := by cases k <;> rfl

/-- R163: the oldest Summary entry makes room. -/
theorem removable_summary (hx : x.kind = .summary) (ha : ∀ y ∈ a, y.kind ≠ .summary) :
    removable horizon (a ++ x :: b) = some x := by
  have oldest : (a ++ x :: b).find? (fun e => !e.kind.isKey) = some x :=
    find?_first (by simp [isKey_eq, hx]) fun y hy => by simpa [isKey_eq] using ha y hy
  rw [removable, oldest]

/-- R163: with no Summary entry it is a Key entry that makes room, if any does. -/
theorem removable_noSummary (h : ∀ y ∈ es, y.kind ≠ .summary) :
    removable horizon es = es.find? fun e => !e.pinned horizon := by
  have none : es.find? (fun e => !e.kind.isKey) = none :=
    List.find?_eq_none.2 fun y hy => by simpa [isKey_eq] using h y hy
  rw [removable, none]

/-- R163: with no Summary entry the oldest Key entry that is not pinned makes room. -/
theorem removable_key (h : ∀ y ∈ a ++ x :: b, y.kind ≠ .summary) (hx : x.pinned horizon = false)
    (ha : ∀ y ∈ a, y.pinned horizon = true) : removable horizon (a ++ x :: b) = some x :=
  (removable_noSummary h).trans (find?_first (by simp [hx]) fun y hy => by simp [ha y hy])

/-- R164: while every entry is a pinned Key entry none makes room. -/
theorem removable_none (h : ∀ y ∈ es, y.kind ≠ .summary ∧ y.pinned horizon = true) : removable horizon es = none :=
  (removable_noSummary fun y hy => (h y hy).1).trans (List.find?_eq_none.2 fun y hy => by simp [(h y hy).2])

end

/-! ### The three ways of an append (R161, R163, R164) -/

section
variable {d : Draft} {s : State} {x : JEntry}

/-- R161: with room the entry is placed. -/
theorem append_room (h : s.journal.entries.length < 6144) : append d s = placeEntry d s := if_pos h

/-- R163: a full journal first makes room. -/
theorem append_evicts (h : s.journal.entries.length = 6144) (hx : removable (pinHorizon s.lots) s.journal.entries = some x) :
    append d s = placeEntry d (evict x s) := by
  rw [append, if_neg (show ¬_ < Config.journalCap from h.not_lt), hx]

/-- R164: a full journal in which nothing makes room refuses. -/
theorem append_refuses (h : s.journal.entries.length = 6144) (hx : removable (pinHorizon s.lots) s.journal.entries = none) :
    append d s = refuseAppend s := by
  rw [append, if_neg (show ¬_ < Config.journalCap from h.not_lt), hx]

/-- R164: a refused append leaves the claim unit as it was. -/
theorem refuseAppend_claims (s : State) : (refuseAppend s).claims = s.claims := (raise_raised .journalFull .none _).claims

/-- R164: a refused append raises the gap count of every lot that fixes the pin horizon, and changes no other lot. -/
theorem refuseAppend_lot (s : State) (i : Fin 96) : (refuseAppend s).lots.get i =
    if (s.lots.get i).pins then { s.lots.get i with gaps := min 65535 ((s.lots.get i).gaps + 1) } else s.lots.get i := by
  rw [refuseAppend, (raise_raised .journalFull .none _).lots]
  exact get_mapV _ _ _

/-! ### An entry placed and handed on (R161) -/

/-- R172: a slot that holds a lot no other slot holds is the one found for it. -/
theorem slotFor_only {c : Claims} {lot : Word} {k : Fin 4} {x : Slot} (hk : c.slots.get k = some x) (hx : x.lot = lot)
    (only : ∀ j y, c.slots.get j = some y → y.lot = lot → j = k) : c.slotFor lot = some k := by
  cases found : c.slotFor lot with
  | none => exact absurd hx (slotFor_none.1 found k x hk)
  | some j =>
    obtain ⟨y, hy, hl⟩ := slotFor_some found
    rw [only j y hy hl]

/-- R158, R159: the part with the entry of a draft at the tail of its journal. -/
def entryPlaced (d : Draft) (s : State) : State := { s with journal := s.journal.push (entryOf d s) }

/-- R161 step 1: the part after an entry has been placed and the claim unit has taken it. -/
def handedToClaims (d : Draft) (s : State) : State := claimsOnEntry (entryOf d s) (entryPlaced d s)

/-- R161: the placing of an entry ends with its offer to the export. -/
theorem placeEntry_eq (d : Draft) (s : State) : placeEntry d s = exportOnEntry (entryOf d s) (handedToClaims d s) := rfl

/-- R161: beside the entry placed, only the claim unit takes part in step 1. -/
theorem handedToClaims_rest (d : Draft) (s : State) : handedToClaims d s =
    { s with claims := (handedToClaims d s).claims, journal := s.journal.push (entryOf d s) } := claimsOnEntry_claims_only _ _

/-- R161: the export waits for step 2. -/
theorem handedToClaims_run (d : Draft) (s : State) : (handedToClaims d s).exporter.run = s.exporter.run := by
  rw [handedToClaims_rest]

/-- R161 step 1: an entry with no lot, or a Summary entry, leaves the claim unit as it was. -/
theorem handedToClaims_other (h : d.lot = none ∨ d.kind = .summary) : (handedToClaims d s).claims = s.claims := by
  rw [handedToClaims, claimsOnEntry_other (e := entryOf d s) h]
  rfl

/-- R161 step 1: an entry whose lot has no slot leaves the claim unit as it was. -/
theorem handedToClaims_noSlot {lot : Word} (hl : d.lot = some lot)
    (h : ∀ k x, s.claims.slots.get k = some x → x.lot ≠ lot) : (handedToClaims d s).claims = s.claims := by
  have noSlot : (entryPlaced d s).claims.slotFor lot = none := slotFor_none.2 h
  rw [handedToClaims, claimsOnEntry_noSlot (e := entryOf d s) hl noSlot]
  rfl

/-- R161 step 1, R177: a Key entry discards the slot for its lot. -/
theorem handedToClaims_slot {lot : Word} {k : Fin 4} (hl : d.lot = some lot) (hd : d.kind ≠ .summary)
    (hk : s.claims.slotFor lot = some k) :
    Discarded k s.ref (s.journal.entries ++ [entryOf d s]) s.claims (handedToClaims d s).claims := by
  have discards : handedToClaims d s = discardSlot k (entryPlaced d s) := claimsOnEntry_slot hl hd hk
  rw [discards]
  exact discardSlot_discarded k (entryPlaced d s) (List.concat_ne_nil _ _)

/-- R161 step 2: an entry away from the export's cursor is not offered. -/
theorem placeEntry_unoffered (h : ∀ x, s.exporter.run = some x → x.place ≠ s.journal.appended) :
    placeEntry d s = handedToClaims d s :=
  exportOnEntry_other fun x hx => h x ((handedToClaims_run d s).symm.trans hx)

/-- R161 step 2, R167: an entry at the export's cursor is offered. -/
theorem placeEntry_offered {x : ExportRec} (hx : s.exporter.run = some x) (hp : x.place = s.journal.appended) :
    placeEntry d s = offer offerFuel (handedToClaims d s) :=
  exportOnEntry_cursor ((handedToClaims_run d s).trans hx) hp

/-- R163: an append for which an entry made room: the journal it leaves. -/
theorem placeEntry_evict {a b : List JEntry} (hj : s.journal.entries = a ++ x :: b) (ha : x ∉ a) :
    (placeEntry d (evict x s)).journal =
      { entries := a ++ b ++ [entryOf d s], nextSeq := s.journal.nextSeq + 1, appended := s.journal.appended + 1 } := by
  rw [placeEntry_journal, Journal.push, evict_journal hj ha]
  rfl

end

/-- Settles O40: the pin horizon (R162), and the three ways of an append (R161, R163, R164). -/
theorem fullJournalsMakeRoomOrRefuse : Obligations.FullJournalsMakeRoomOrRefuse := by
  refine ⟨fun lots => ?_, pinned_iff, fun d s => ?_⟩
  · intro pins
    have holds : ∀ i c, pins i c ↔ (lots.get i).pinClock = some c := fun i c => (pinClock_iff _ c).symm
    obtain ⟨none, earliest⟩ := pinHorizon_spec lots
    simp only [holds, none, earliest, Option.eq_none_iff_forall_ne_some, ne_eq, implies_true, and_self]
  intro e placed
  have places : ∀ v : State, v.journal.nextSeq = s.journal.nextSeq → v.journal.appended = s.journal.appended →
      entryOf d v = e → v.ref = s.ref → append d s = placeEntry d v → placed v := by
    intro v hseq hplace he href happ
    refine ⟨handedToClaims d v, ?_, handedToClaims_other, fun lot hl hn => handedToClaims_noSlot hl hn,
      fun lot k x hl hd hk hx only => ?_, fun away => ?_, fun x hx hp => ?_⟩
    · rw [← hseq, ← hplace, ← he]
      exact handedToClaims_rest d v
    · rw [← href, ← he]
      exact handedToClaims_slot hl hd (slotFor_only hk hx only)
    · rw [happ]
      exact placeEntry_unoffered fun x hx => hplace ▸ away x hx
    · rw [happ]
      exact placeEntry_offered hx (hp.trans hplace.symm)
  have evicts : s.journal.entries.length = 6144 → ∀ a x b, s.journal.entries = a ++ x :: b → x ∉ a →
      removable (pinHorizon s.lots) (a ++ x :: b) = some x → (append d s).journal =
        { entries := a ++ b ++ [e], nextSeq := s.journal.nextSeq + 1, appended := s.journal.appended + 1 } ∧
      placed (evict x s) := by
    intro full a x b hj hx room
    have happ : append d s = placeEntry d (evict x s) := append_evicts full (by rw [hj]; exact room)
    exact ⟨by rw [happ]; exact placeEntry_evict hj hx, places _ rfl rfl rfl rfl happ⟩
  refine ⟨fun room => places s rfl rfl rfl rfl (append_room room), fun full => ⟨?_, ?_, fun pinned => ?_⟩⟩
  · exact fun a x b hj hx ha => evicts full a x b hj (fun h => ha x h hx) (removable_summary hx ha)
  · intro a x b hj keys hx ha
    exact evicts full a x b hj (fun h => by simp [ha x h] at hx) (removable_key (hj ▸ keys) hx ha)
  · rw [append_refuses full (removable_none pinned)]
    refine ⟨refuseAppend_journal s, refuseAppend_claims s, raise_flag _ _ _, fun i => ?_⟩
    rw [refuseAppend_lot, LotEntry.pins]
    cases (s.lots.get i).state <;> rfl

end Sys2Proof.Machine
end

section
/-! PROOFS. The walk of a claim statement and what a build completion leaves (O43; spec 10 R176, R179 to R181). -/

namespace Sys2Proof.Machine

/-! ### The walk, entry by entry (R180, R181) -/

/-- R180: a list of items, or a part of one, in which there is no Handover item. -/
def NoHandover (items : List Item) : Prop := ∀ k t a p h m c, Item.handover k t a p h m c ∉ items

theorem NoHandover.reverse {o : List Item} (h : NoHandover o) : NoHandover o.reverse :=
  fun k t a p m y c found => h k t a p m y c (List.mem_reverse.1 found)

/-- R180: items that are no Handover do not change which Handover item is the last. -/
theorem openHandover_skip {o rest : List Item} (h : NoHandover o) : openHandover (o ++ rest) = openHandover rest := by
  induction o with
  | nil => rfl
  | cons i o ih =>
    have skip := ih fun k t a p m y c found => h k t a p m y c (List.mem_cons_of_mem i found)
    cases i with
    | handover k t a p m y c => exact absurd List.mem_cons_self (h k t a p m y c)
    | _ => exact skip

/-- R180: a cancellation passes over items that are no Handover. -/
theorem cancelLast_skip {o rest : List Item} (x : Cancel) (h : NoHandover o) :
    cancelLast x (o ++ rest) = o ++ cancelLast x rest := by
  induction o with
  | nil => rfl
  | cons i o ih =>
    have skip := ih fun k t a p m y c found => h k t a p m y c (List.mem_cons_of_mem i found)
    cases i with
    | handover k t a p m y c => exact absurd List.mem_cons_self (h k t a p m y c)
    | _ => exact congrArg (List.cons _) skip

/-- R180: with no Handover item none is open. -/
theorem openHandover_none {items : List Item} (h : NoHandover items) : openHandover items.reverse = false := by
  have skip := openHandover_skip (rest := []) h.reverse
  rwa [List.append_nil] at skip

/-- R180: whether a Handover item is open is whether the last one has no cancellation. -/
theorem openHandover_last {items a o : List Item} {k : Clock} {t : Word} {p m : Byte} {y x : Bool} {c : Option Cancel}
    (hi : items = a ++ .handover k t p m y x c :: o) (ho : NoHandover o) : openHandover items.reverse = c.isNone := by
  have newestFirst : items.reverse = o.reverse ++ .handover k t p m y x c :: a.reverse := by simp [hi]
  rw [newestFirst, openHandover_skip ho.reverse]
  rfl

/-- R180: the cancellation of the last Handover item, which has none yet. -/
theorem cancelLast_last {items a o : List Item} {k : Clock} {t : Word} {p m : Byte} {y x : Bool} {c : Cancel}
    (hi : items = a ++ .handover k t p m y x none :: o) (ho : NoHandover o) :
    (cancelLast c items.reverse).reverse = a ++ .handover k t p m y x (some c) :: o := by
  have newestFirst : items.reverse = o.reverse ++ .handover k t p m y x none :: a.reverse := by simp [hi]
  rw [newestFirst, cancelLast_skip c ho.reverse]
  simp [cancelLast]

/-- R180: the lowest byte of a value. -/
theorem byteAt_zero (w : Word) : byteAt w 0 = w.setWidth 8 := (BitVec.setWidth_eq_extractLsb' (by decide)).symm

section
variable {w : Walk} {e : JEntry}

theorem own_load (hk : e.kind = .load) : w.own e = { w with
    inCustody := true, zone := e.zone, items := w.items ++ [.load e.clock e.zoneOr (e.v1.setWidth 16) (e.v2.setWidth 8)] } := by
  rw [Walk.own, hk, byteAt_zero]

theorem own_move (hk : e.kind = .move) : w.own e = { w with
    zone := e.zone, items := w.items ++ [.move e.clock (BitVec.ofNat 8 (zoneNo e.zoneOr)) (e.v1.setWidth 8)] } := by
  rw [Walk.own, hk, byteAt_zero e.v1]

theorem own_handoverOpen (hk : e.kind = .handoverOpen) : w.own e = { w with items := w.items ++
    [.handover e.clock e.v1 (byteAt e.v2 24) (byteAt e.v2 16) (e.v2.getLsbD 1) (e.v2.getLsbD 0) none] } := by
  rw [Walk.own, hk]

/-- R180: a HandoverCancel while a Handover item is open. -/
theorem own_cancel (hk : e.kind = .handoverCancel) (h : openHandover w.items.reverse = true) :
    let cancel : Cancel := { clock := e.clock, reason := e.v1.setWidth 8, scanner := e.v2.setWidth 8 }
    w.own e = { w with items := (cancelLast cancel w.items.reverse).reverse } := by
  rw [Walk.own, hk, byteAt_zero, byteAt_zero]
  exact if_pos h

/-- R180: a HandoverCancel while none is. -/
theorem own_cancelLost (hk : e.kind = .handoverCancel) (h : openHandover w.items.reverse = false) :
    w.own e = { w with cancelLost := true } := by
  rw [Walk.own, hk]
  exact if_neg (by rw [h]; exact Bool.false_ne_true)

theorem own_seal (hk : e.kind = .seal) : w.own e = { w with sealFound := true, inCustody := false } := by
  rw [Walk.own, hk]

theorem own_returned (hk : e.kind = .returned) : w.own e = { w with
    inCustody := false, items := w.items ++ [.ret e.clock e.zoneOr (e.v1.setWidth 8) e.v2] } := by
  rw [Walk.own, hk, byteAt_zero e.v1]

theorem own_short (hk : e.kind = .short) : w.own e = { w with
    inCustody := false, items := w.items ++ [.short e.clock e.zoneOr (e.v1.setWidth 8)] } := by
  rw [Walk.own, hk, byteAt_zero e.v1]

/-- R180: GradeRaise, Confirm and Summary entries add nothing. -/
theorem own_nothing (hk : e.kind = .gradeRaise ∨ e.kind = .confirm ∨ e.kind = .summary) : w.own e = w := by
  rcases hk with hk | hk | hk
  all_goals rw [Walk.own, hk]

/-- R181: an opening in the lot's zone, in custody. -/
theorem door_listed {d : Fin 4} {z : Fin 12} {m : ZoneSet} (hk : e.kind = .doorOpen) (hd : e.door = some d)
    (hz : w.zone = some z) (hm : e.zones = some m) (hc : w.inCustody = true) (hb : m.getLsbD z.val = true) :
    w.door e = { w with openings := w.openings ++
      [{ door := d, clock := e.clock, authorized := decide (e.v1 ≠ 0), duration := none }] } := by
  simp only [Walk.door, hk, hd, hz, hm]
  exact if_pos ⟨hc, hb⟩

/-- R181: an opening out of custody, with no zone walked yet, or in other zones. -/
theorem door_unlisted (hk : e.kind = .doorOpen) (h : w.inCustody = false ∨ w.zone = none ∨
    ∃ z m, w.zone = some z ∧ e.zones = some m ∧ m.getLsbD z.val = false) : w.door e = w := by
  cases hd : e.door with
  | none => simp only [Walk.door, hk, hd]
  | some d =>
    simp only [Walk.door, hk, hd]
    split
    next z m hz hm =>
      refine if_neg fun ⟨inCustody, held⟩ => ?_
      obtain out | noZone | ⟨z', m', hz', hm', other⟩ := h
      · rw [out] at inCustody
        exact nomatch inCustody
      · rw [noZone] at hz
        exact nomatch hz
      · cases hz.symm.trans hz'
        cases hm.symm.trans hm'
        rw [other] at held
        exact nomatch held
    next => rfl

/-- R181: a DoorClose ends the openings of its door that are still open. -/
theorem door_closes {d : Fin 4} (hk : e.kind = .doorClose) (hd : e.door = some d) :
    w.door e = { w with openings := closeOpenings d e.v1 w.openings } := by
  simp only [Walk.door, hk, hd]

/-- R181: no other entry of another lot or of none adds anything. -/
theorem door_other (ho : e.kind ≠ .doorOpen) (hc : e.kind ≠ .doorClose) : w.door e = w := by
  unfold Walk.door
  split
  next hk _ => exact absurd hk ho
  next hk _ => exact absurd hk hc
  next => rfl

end

section
variable {lot : Word} {es : List JEntry} {e : JEntry}

/-- R176: the walk goes on by one entry. -/
theorem walkOver_concat (lot : Word) (es : List JEntry) (e : JEntry) :
    walkOver lot (es ++ [e]) = (walkOver lot es).take lot e := List.foldl_concat ..

/-- R180: the walk takes an entry that names the lot. -/
theorem walkOver_own (h : e.lot = some lot) : walkOver lot (es ++ [e]) = (walkOver lot es).own e :=
  (walkOver_concat ..).trans (if_pos h)

/-- R181: the walk takes an entry that does not name the lot. -/
theorem walkOver_door (h : e.lot ≠ some lot) : walkOver lot (es ++ [e]) = (walkOver lot es).door e :=
  (walkOver_concat ..).trans (if_neg h)

end

/-! ### What a statement lists (R179, R180) -/

section
variable {items : List Item} {l : LotEntry}

/-- R180: 24 items or fewer are all kept. -/
theorem keptItems_all (h : items.length ≤ 24) : keptItems items = items := if_pos h

/-- R180: of more than 24 items the first 23 and the last one are kept. -/
theorem keptItems_long {kept mid : List Item} {last : Item} (hi : items = kept ++ mid ++ [last]) (hk : kept.length = 23)
    (hm : mid ≠ []) : keptItems items = kept ++ [last] ∧ items.length - 24 = mid.length := by
  have nonempty : 0 < mid.length := List.length_pos_iff.2 hm
  have count : items.length = 23 + mid.length + 1 := by simp [hi, hk]; omega
  have first : items.take 23 = kept := by rw [hi, List.append_assoc, ← hk, List.take_left]
  have final : items.drop (items.length - 1) = [last] := by
    rw [count, Nat.add_sub_cancel, hi, ← hk, ← List.length_append, List.drop_left]
  refine ⟨?_, by omega⟩
  rw [keptItems, if_neg (by omega), first, final]

/-- R179, log 46: a Short lot with no load clock lists no item. -/
theorem segments_never (hs : l.state = .short) (hl : l.loadClock = none) : segments l items = ([], 0) :=
  if_pos (by rw [LotEntry.neverInCustody, hs, hl]; rfl)

/-- R180: any other lot lists the items kept. -/
theorem segments_kept (h : l.state ≠ .short ∨ l.loadClock ≠ none) :
    segments l items = (keptItems items, items.length - 24) := by
  refine if_neg fun never => ?_
  rw [LotEntry.neverInCustody, Bool.and_eq_true, decide_eq_true_eq, Option.isNone_iff_eq_none] at never
  exact h.elim (absurd never.1) (absurd never.2)

/-- R180: any other lot lists all of up to 24 items. -/
theorem segments_all (h : l.state ≠ .short ∨ l.loadClock ≠ none) (few : items.length ≤ 24) :
    segments l items = (items, 0) := by
  rw [segments_kept h, keptItems_all few, Nat.sub_eq_zero_of_le few]

/-- R180: any other lot lists the first 23 and the last one of more than 24 items. -/
theorem segments_long (h : l.state ≠ .short ∨ l.loadClock ≠ none) {kept mid : List Item} {last : Item}
    (hi : items = kept ++ mid ++ [last]) (hk : kept.length = 23) (hm : mid ≠ []) :
    segments l items = (kept ++ [last], mid.length) := by
  obtain ⟨listed, passedOver⟩ := keptItems_long hi hk hm
  rw [segments_kept h, listed, passedOver]

/-- R179: with no item found none is listed. -/
theorem segments_nil : segments l [] = ([], 0) := by
  unfold segments
  split
  · rfl
  · rfl

/-! ### How a custody stands at the end of a statement (R180) -/

/-- R180: the clock of the last Short item. -/
theorem lastShortClock_last {a o : List Item} {k : Clock} {z : Fin 12} {m : Byte} (hi : items = a ++ .short k z m :: o)
    (ho : ∀ k z m, Item.short k z m ∉ o) : lastShortClock items = k := by
  rw [lastShortClock, hi, List.foldl_append, List.foldl_cons]
  refine List.foldlRecOn (motive := (· = k)) o _ rfl fun c hc i found => ?_
  cases i with
  | short k z m => exact absurd found (ho k z m)
  | _ => exact hc

/-- R180: with no Short item the end clock of a Short lot is 0. -/
theorem lastShortClock_none (h : ∀ k z m, Item.short k z m ∉ items) : lastShortClock items = 0 := by
  refine List.foldlRecOn (motive := (· = 0)) items _ rfl fun c hc i found => ?_
  cases i with
  | short k z m => exact absurd found (h k z m)
  | _ => exact hc

/-- R180: the clock of the last Return item. -/
theorem lastReturnClock_last {a o : List Item} {k : Clock} {z : Fin 12} {g : Byte} {d : Word}
    (hi : items = a ++ .ret k z g d :: o) (ho : ∀ k z g d, Item.ret k z g d ∉ o) : lastReturnClock items = k := by
  rw [lastReturnClock, hi, List.foldl_append, List.foldl_cons]
  refine List.foldlRecOn (motive := (· = k)) o _ rfl fun c hc i found => ?_
  cases i with
  | ret k z g d => exact absurd found (ho k z g d)
  | _ => exact hc

/-- R180: with no Return item the end clock of a Returned lot is 0. -/
theorem lastReturnClock_none (h : ∀ k z g d, Item.ret k z g d ∉ items) : lastReturnClock items = 0 := by
  refine List.foldlRecOn (motive := (· = 0)) items _ rfl fun c hc i found => ?_
  cases i with
  | ret k z g d => exact absurd found (h k z g d)
  | _ => exact hc

theorem endOf_onBoard {clock : Clock} (hs : l.state = .onBoard) : endOf clock l items = .inCustody clock := by
  simp only [endOf, hs]

theorem endOf_delivered {clock : Clock} {p : ProofFields} (hs : l.state = .delivered) (hp : l.proof = some p) :
    endOf clock l items = .sealed p.cause p.sealClock := by
  simp only [endOf, hs, hp]

theorem endOf_short {clock : Clock} (hs : l.state = .short) : endOf clock l items = .short (lastShortClock items) := by
  simp only [endOf, hs]

theorem endOf_returned {clock : Clock} (hs : l.state = .returned) :
    endOf clock l items = .returned (lastReturnClock items) := by
  simp only [endOf, hs]

/-! ### When a statement is Incomplete (R180) -/

theorem noLoad_iff : items.any Item.isLoad = false ↔ ∀ k z e c, Item.load k z e c ∉ items := by
  rw [List.any_eq_false]
  refine ⟨fun h k z e c found => h _ found rfl, fun h i found isLoad => ?_⟩
  cases i with
  | load => exact h _ _ _ _ found
  | _ => exact nomatch isLoad

theorem noShort_iff : items.any Item.isShort = false ↔ ∀ k z m, Item.short k z m ∉ items := by
  rw [List.any_eq_false]
  refine ⟨fun h k z m found => h _ found rfl, fun h i found isShort => ?_⟩
  cases i with
  | short => exact h _ _ _ found
  | _ => exact nomatch isShort

theorem noReturn_iff : items.any Item.isReturn = false ↔ ∀ k z g d, Item.ret k z g d ∉ items := by
  rw [List.any_eq_false]
  refine ⟨fun h k z g d found => h _ found rfl, fun h i found isReturn => ?_⟩
  cases i with
  | ret => exact h _ _ _ _ found
  | _ => exact nomatch isReturn

/-- R180: the four reasons of Incomplete, the second for each of its two states. -/
theorem incomplete_iff (l : LotEntry) (w : Walk) : incomplete l w = true ↔
    (l.loadClock ≠ none ∧ ∀ k z e c, Item.load k z e c ∉ w.items) ∨
    (l.state = .short ∧ ∀ k z m, Item.short k z m ∉ w.items) ∨
    (l.state = .returned ∧ ∀ k z g d, Item.ret k z g d ∉ w.items) ∨
    (l.state = .delivered ∧ w.sealFound = false) ∨ w.cancelLost = true := by
  simp only [incomplete, Bool.or_eq_true, Bool.and_eq_true, Bool.not_eq_true', decide_eq_true_eq, noLoad_iff, noShort_iff,
    noReturn_iff, Option.isSome_iff_ne_none, or_assoc]

end

/-! ### Builds and releases of slots (R176, R177) -/

/-- R176: the states of a lot for which a statement is built. -/
def LotState.stated (x : LotState) : Prop := x = .onBoard ∨ x = .delivered ∨ x = .short ∨ x = .returned

/-- R176, R179: a slot Ready with the statement of a lot and of the entries walked. -/
def Slot.stated (x : Slot) (clock : Clock) (unsynced : Bool) (window : Nat) (l : LotEntry) (es : List JEntry) : Slot :=
  { x with
    state := .ready
    deadline := some (Machine.deadline clock window)
    statement := some (buildStatement clock unsynced x l es) }

section
variable {c : Claims} {b : Build} {clock : Clock} {unsynced : Bool} {lots : Vector LotEntry 96} {x : Slot} {i : Fin 96}

/-- R177: the release of the slot that is built, or with no build, leaves the builder idle. -/
theorem release_idle {k : Fin 4} (h : ∀ b, c.builder = some b → b.slot = k) : (c.release k).builder = none := by
  unfold Claims.release
  dsimp only
  split
  next b hb => exact if_pos (h b hb)
  next => rfl

/-- R177: a released slot is free. -/
theorem release_self (c : Claims) (k : Fin 4) : (c.release k).slots.get k = none := get_upd_self _ _ _

/-- R176: a completion for a lot in OnBoard, Delivered, Short or Returned. -/
theorem complete_ready (hx : c.slots.get b.slot = some x) (hi : findLot lots x.lot = some i)
    (hs : (lots.get i).state.stated) :
    c.complete b clock unsynced lots = { c with
      builder := none
      slots := upd c.slots b.slot fun _ => some (x.stated clock unsynced c.window (lots.get i) (b.taken ++ b.left)) } := by
  simp only [Claims.complete, hx, hi]
  rcases hs with hs | hs | hs | hs
  all_goals
    rw [hs]
    rfl

/-- R176: a completion for a lot in Expected or Handover. -/
theorem complete_discards (hx : c.slots.get b.slot = some x) (hi : findLot lots x.lot = some i)
    (hs : (lots.get i).state = .expected ∨ (lots.get i).state = .handover) :
    c.complete b clock unsynced lots = c.release b.slot := by
  simp only [Claims.complete, hx, hi]
  rcases hs with hs | hs
  all_goals rw [hs]

/-- R62: a lot that is found is occupied, so a completion finds it in one of six states. -/
theorem found_states {lot : Word} (hi : findLot lots lot = some i) :
    (lots.get i).state.stated ∨ (lots.get i).state = .expected ∨ (lots.get i).state = .handover := by
  have occupied := (findLot_some hi).1
  unfold LotState.stated
  cases h : (lots.get i).state with
  | free => exact absurd h occupied
  | _ => simp

/-- R176: what every completion leaves: an idle builder, no Queued slot where the build was, and the opening order but for
that slot. -/
theorem complete_rest (hb : c.builder = some b) (hx : c.slots.get b.slot = some x) (hi : findLot lots x.lot = some i) :
    (c.complete b clock unsynced lots).builder = none ∧
    (∀ y, (c.complete b clock unsynced lots).slots.get b.slot = some y → y.state ≠ .queued) ∧
    ∀ o k p, c.order = o ++ k :: p → k ≠ b.slot →
      ∃ o' p', (c.complete b clock unsynced lots).order = o' ++ k :: p' ∧ ∀ j ∈ o', j ∈ o := by
  rcases found_states hi with hs | hs
  · rw [complete_ready hx hi hs]
    refine ⟨rfl, fun y hy => ?_, fun o k p ho _ => ⟨o, p, ho, fun _ hj => hj⟩⟩
    cases (get_upd_self ..).symm.trans hy
    exact (nomatch ·)
  · rw [complete_discards hx hi hs]
    refine ⟨release_idle fun b' hb' => ?_, fun y hy => ?_, fun o k p ho hk => ?_⟩
    · cases hb.symm.trans hb'
      rfl
    · rw [release_self] at hy
      exact nomatch hy
    · refine ⟨o.filter (· != b.slot), p.filter (· != b.slot), ?_, fun j hj => (List.mem_filter.1 hj).1⟩
      have kept : (k != b.slot) = true := bne_iff_ne.2 hk
      show c.order.filter (· != b.slot) = _
      rw [ho, List.filter_append, List.filter_cons, if_pos kept]

end

/-! ### Build completions (R176) -/

section
variable {s : State} {b : Build} {x : Slot} {i : Fin 96}

/-- R176: the claim unit at a build completion, before the builder goes on. -/
def completed (s : State) (b : Build) : Claims := s.claims.complete b s.clock s.trip.unsynced s.lots

/-- R176: a build completion: the slot, and then the next one. -/
theorem exec_buildCompletion (hb : s.claims.builder = some b) :
    exec .buildCompletion s = .next (runBuilder { s with claims := completed s b }) := by
  show execBuildCompletion s = _
  rw [execBuildCompletion, hb]
  rfl

/-- R176: the builder's going on leaves a slot that is not Queued as it stands. -/
theorem runBuilder_slot {k : Fin 4} (h : ∀ y, s.claims.slots.get k = some y → y.state ≠ .queued) :
    (runBuilder s).claims.slots.get k = s.claims.slots.get k := run_slot _ _ _ _ _ _ _ h

/-- R176: with no slot Queued an idle builder stays idle. -/
theorem runBuilder_idle (hb : s.claims.builder = none) (hq : ∀ k y, s.claims.slots.get k = some y → y.state ≠ .queued) :
    (runBuilder s).claims = s.claims := run_idle _ _ _ _ _ _ _ hb fun k _ => hq k

/-- R176: with a journal that holds entries an idle builder takes the first Queued slot in the opening order. -/
theorem runBuilder_takes {newest : JEntry} {o p : List (Fin 4)} {k : Fin 4} {y : Slot}
    (hj : s.journal.entries.getLast? = some newest) (hb : s.claims.builder = none) (ho : s.claims.order = o ++ k :: p)
    (hk : s.claims.slots.get k = some y) (hq : y.state = .queued)
    (older : ∀ j ∈ o, ∀ z, s.claims.slots.get j = some z → z.state ≠ .queued) :
    (runBuilder s).claims = { s.claims with
      slots := s.claims.slots.set k.val (some { y with state := .building, reach := some newest.seq }) k.isLt,
      builder := some { slot := k, began := s.ref, taken := [], left := s.journal.entries } } := by
  have held : s.journal.entries ≠ [] := fun none => by simp [none] at hj
  have takes := run_takes 4 _ s.ref s.clock s.trip.unsynced s.lots _ held hb ho hk hq older
  rw [runBuilder_claims, takes, Claims.start, upd, hk, hj]
  rfl

end

/-- Settles O43: a build completion (R176) with the statement it leaves (R179, R180), and the walk (R180, R181). -/
theorem buildCompletionsFillTheSlot : Obligations.BuildCompletionsFillTheSlot := by
  refine ⟨fun s b x i hb hx hi => ?_, fun lot => ⟨rfl, fun es e => ?_⟩⟩
  · intro l w
    obtain ⟨idle, notQueued, order⟩ := complete_rest (clock := s.clock) (unsynced := s.trip.unsynced) hb hx hi
    have others : ∀ k, k ≠ b.slot → (completed s b).slots.get k = s.claims.slots.get k := fun k hk =>
      complete_slot _ _ _ _ _ hk
    refine ⟨_, exec_buildCompletion hb, rfl, fun quiet => ?_, fun newest o k p y hj ho hk hy hq older => ?_,
      fun k hk quiet => ?_, fun hs => ?_, fun hs => ?_⟩
    · refine (congrArg Claims.builder (runBuilder_idle idle fun k y hy => ?_)).trans idle
      by_cases hk : k = b.slot
      · exact notQueued y (hk ▸ hy)
      · exact quiet k y hk ((others k hk).symm.trans hy)
    · obtain ⟨o', p', ho', sub⟩ := order o k p ho hk
      have takes := runBuilder_takes (s := { s with claims := completed s b }) hj idle ho' ((others k hk).trans hy) hq
        fun j hjo z hz => by
          by_cases hjb : j = b.slot
          · exact notQueued z (hjb ▸ hz)
          · exact ((older j (sub j hjo)).resolve_left hjb) z ((others j hjb).symm.trans hz)
      rw [takes]
      exact ⟨rfl, get_set_self ..⟩
    · exact (runBuilder_slot fun y hy => quiet y ((others k hk).symm.trans hy)).trans (others k hk)
    · rw [runBuilder_slot (s := { s with claims := completed s b }) notQueued]
      exact (congrArg (fun c => c.slots.get b.slot) (complete_discards hx hi hs)).trans (release_self ..)
    · have ready := congrArg (fun c => c.slots.get b.slot)
        (complete_ready (clock := s.clock) (unsynced := s.trip.unsynced) hx hi hs)
      simp only [get_upd_self, Slot.stated, deadline_eq] at ready
      rw [runBuilder_slot (s := { s with claims := completed s b }) notQueued]
      refine ⟨_, ready, rfl, rfl, rfl, rfl, rfl, rfl, rfl, rfl, rfl, rfl, rfl, rfl, shown_total l, rfl, rfl, rfl,
        rfl, rfl, rfl, rfl, rfl, rfl, rfl, fun short never => Prod.ext_iff.1 (segments_never short never),
        fun kept => ⟨fun few => Prod.ext_iff.1 (segments_all kept few),
          fun first mid last hw hf hm => Prod.ext_iff.1 (segments_long kept hw hf hm)⟩, rfl, rfl,
        endOf_onBoard, fun p => endOf_delivered, fun a k z m o short hw ho => ?_, fun short ho => ?_,
        fun a k z g d o returned hw ho => ?_, fun returned ho => ?_, incomplete_iff l w⟩
      · exact (endOf_short short).trans (congrArg End.short (lastShortClock_last hw ho))
      · exact (endOf_short short).trans (congrArg End.short (lastShortClock_none ho))
      · exact (endOf_returned returned).trans (congrArg End.returned (lastReturnClock_last hw ho))
      · exact (endOf_returned returned).trans (congrArg End.returned (lastReturnClock_none ho))
  · intro w next zone
    refine ⟨fun named => ?_, fun other => ?_⟩
    · have next_eq : next = w.own e := walkOver_own named
      rw [next_eq]
      refine ⟨own_load, own_move, own_handoverOpen, fun hk => ⟨?_, ?_, ?_⟩, own_seal, own_returned, own_short, own_nothing⟩
      · intro a k r p m y x o hw ho
        rw [own_cancel hk (openHandover_last hw ho), cancelLast_last hw ho]
      · exact fun a k r p m y x c o hw ho => own_cancelLost hk (openHandover_last hw ho)
      · exact fun ho => own_cancelLost hk (openHandover_none ho)
    · have next_eq : next = w.door e := walkOver_door other
      rw [next_eq]
      exact ⟨fun d z m => door_listed, door_unlisted, fun d => door_closes, door_other⟩

end Sys2Proof.Machine
end

section
/-! PROOFS. Claim queries, their answers' frames and the bytes of a statement (O42; spec 10 R172, R174 to R176, R179; spec 11
R184, R186, R196, R197). -/

namespace Sys2Proof.Machine

/-! ### Free slots and slots opened (R172, R174, R176) -/

section
variable {c : Claims} {n k : Fin 4} {lot : Word} {tag : Byte}

/-- R172: the free slot found is the lowest-numbered one. -/
theorem freeSlot_iff : c.freeSlot = some n ↔ c.slots.get n = none ∧ ∀ j, j < n → c.slots.get j ≠ none := by
  constructor
  · intro h
    obtain ⟨free, lower⟩ := findIndex_some h
    exact ⟨Option.isNone_iff_eq_none.1 free, fun j hj => by simpa [Option.isSome_iff_ne_none] using lower j hj⟩
  · rintro ⟨free, lower⟩
    exact findIndex_first (Option.isNone_iff_eq_none.2 free) fun j hj => by
      simpa [Option.isSome_iff_ne_none] using lower j hj

/-- R172: with every slot in use no free slot is found. -/
theorem freeSlot_none (used : ∀ k, c.slots.get k ≠ none) : c.freeSlot = none :=
  findIndex_none.2 fun k => by simpa [Option.isSome_iff_ne_none] using used k

/-- R172: while a slot is free one is found. -/
theorem freeSlot_exists (free : c.slots.get k = none) : ∃ n, c.freeSlot = some n := by
  refine Option.ne_none_iff_exists'.1 fun full => ?_
  have used := findIndex_none.1 full k
  rw [free] at used
  exact nomatch used

/-- R177: the release of a slot that is not the one built leaves the builder at work. -/
theorem release_busy {b : Build} (hb : c.builder = some b) (hk : b.slot ≠ k) : (c.release k).builder = some b := by
  rw [Claims.release, hb]
  exact if_neg hk

/-- R176: no slot is Queued. -/
def Claims.Quiet (c : Claims) : Prop := ∀ j y, c.slots.get j = some y → y.state ≠ .queued

/-- R176: no slot but `k` is Queued. -/
def Claims.QuietBut (c : Claims) (k : Fin 4) : Prop := ∀ j y, j ≠ k → c.slots.get j = some y → y.state ≠ .queued

/-- R177: while no other slot is Queued the release of a slot leaves none. -/
theorem released_quiet (quiet : c.QuietBut k) : (c.release k).Quiet := by
  intro j y hy
  rw [Claims.release, get_upd] at hy
  split at hy
  next => exact nomatch hy
  next hj => exact quiet j y hj hy

/-- R172: a slot in use under a lot id and a query tag. -/
def Claims.Holds (c : Claims) (n : Fin 4) (lot : Word) (tag : Byte) : Prop :=
  ∃ z, c.slots.get n = some z ∧ z.lot = lot ∧ z.tag = tag

theorem start_holds {now : Nat} {es : List JEntry} (h : c.Holds n lot tag) : (c.start k now es).Holds n lot tag := by
  obtain ⟨z, hz, hl, ht⟩ := h
  by_cases hk : n = k
  · subst hk
    exact ⟨_, (get_upd_self ..).trans (congrArg (Option.map _) hz), hl, ht⟩
  · exact ⟨z, (get_upd_ne _ hk _).trans hz, hl, ht⟩

section
variable {clock : Clock} {unsynced : Bool} {lots : Vector LotEntry 96} {i : Fin 96}

/-- R176: a completion keeps the slot of a lot for which a statement is built. -/
theorem complete_holds {b : Build} (h : c.Holds n lot tag) (hi : findLot lots lot = some i) (hs : (lots.get i).state.stated) :
    (c.complete b clock unsynced lots).Holds n lot tag := by
  obtain ⟨z, hz, rfl, rfl⟩ := h
  by_cases hk : n = b.slot
  · subst hk
    rw [complete_ready hz hi hs]
    exact ⟨_, get_upd_self .., rfl, rfl⟩
  · exact ⟨z, (complete_slot _ _ _ _ _ hk).trans hz, rfl, rfl⟩

/-- R176: the builder's going on keeps the slot of a lot for which a statement is built. -/
theorem run_holds (m : Nat) {now : Nat} {es : List JEntry} (h : c.Holds n lot tag) (hi : findLot lots lot = some i)
    (hs : (lots.get i).state.stated) : (c.run m now clock unsynced lots es).Holds n lot tag := by
  induction m generalizing c with
  | zero => exact h
  | succ m ih =>
    unfold Claims.run
    split
    · exact h
    · split
      · exact h
      · dsimp only
        split
        · exact ih (complete_holds (start_holds h) hi hs)
        · exact start_holds h

/-- R176: with an empty journal a build completes as it begins. -/
theorem start_complete {now : Nat} {y : Slot} (hk : c.slots.get k = some y) (hi : findLot lots y.lot = some i)
    (hs : (lots.get i).state.stated) :
    (c.start k now []).complete { slot := k, began := now, taken := [], left := [] } clock unsynced lots = { c with
      builder := none
      slots := upd c.slots k fun _ => some
        (Slot.stated { y with state := .building, reach := none } clock unsynced c.window (lots.get i) []) } := by
  have taken : (c.start k now []).slots.get k = some { y with state := .building, reach := none } :=
    (get_upd_self ..).trans (congrArg (Option.map _) hk)
  rw [complete_ready (x := { y with state := .building, reach := none }) taken hi hs]
  simp only [Claims.start, upd, Vector.set_set, List.append_nil]

/-- R176: with an empty journal an idle builder completes the one Queued slot when it takes it. -/
theorem run_ready (m : Nat) {now : Nat} {o p : List (Fin 4)} {y : Slot} (hb : c.builder = none) (ho : c.order = o ++ k :: p)
    (hk : c.slots.get k = some y) (hq : y.state = .queued)
    (older : ∀ j ∈ o, ∀ z, c.slots.get j = some z → z.state ≠ .queued)
    (others : c.QuietBut k) (hi : findLot lots y.lot = some i)
    (hs : (lots.get i).state.stated) :
    c.run (m + 1) now clock unsynced lots [] = { c with
      builder := none
      slots := upd c.slots k fun _ => some
        (Slot.stated { y with state := .building, reach := none } clock unsynced c.window (lots.get i) []) } := by
  rw [Claims.run, hb, oldestQueued_split ho hk hq older]
  dsimp only
  rw [if_pos List.isEmpty_nil, start_complete hk hi hs]
  refine run_idle _ _ _ _ _ _ _ rfl fun j _ z hz => ?_
  rw [get_upd] at hz
  split at hz
  next =>
    cases hz
    exact (nomatch ·)
  next hj => exact others j z hj hz

end
end

/-- R174: the slot that a query opens, before a builder takes it. -/
def Query.slot (q : Query) : Slot :=
  { lot := q.lot, tag := q.tag, state := .queued, reach := none, deadline := none, statement := none }

/-- R174: the part with a free slot come into use, last in the opening order, and a builder. -/
def opened (k : Fin 4) (x : Slot) (b : Option Build) (s : State) : State :=
  { s with claims := { s.claims with
    slots := s.claims.slots.set k.val (some x) k.isLt, order := s.claims.order ++ [k], builder := b } }

section
variable {q : Query} {k n : Fin 4} {s : State} {i : Fin 96}

/-- R174, R176: a slot opened is Queued and handed to the builder. -/
theorem openSlot_eq (q : Query) (k : Fin 4) (s : State) :
    openSlot q k s = runBuilder (opened k q.slot s.claims.builder s) := rfl

theorem opened_self (x : Slot) (b : Option Build) : (opened k x b s).claims.slots.get k = some x := get_set_self ..

theorem opened_ne {j : Fin 4} (h : j ≠ k) (x : Slot) (b : Option Build) :
    (opened k x b s).claims.slots.get j = s.claims.slots.get j := get_set_ne _ h _

/-- R174: the place of an opened slot in the opening order, where no slot before it is Queued. -/
theorem opened_order (x : Slot) (b : Option Build) (quiet : s.claims.Quiet) :
    ∃ o p, (opened k x b s).claims.order = o ++ k :: p ∧
      ∀ j ∈ o, ∀ z, (opened k x b s).claims.slots.get j = some z → z.state ≠ .queued := by
  obtain ⟨o, p, split, first⟩ :=
    List.eq_append_cons_of_mem (List.mem_append_right s.claims.order (List.mem_singleton_self k))
  refine ⟨o, p, split, fun j hj z hz => quiet j z ?_⟩
  have later : j ≠ k := fun e => first (e ▸ hj)
  rwa [opened_ne later] at hz

/-- R176: a slot opened while the builder is at work waits. -/
theorem openSlot_busy {b : Build} (hb : s.claims.builder = some b) : openSlot q k s = opened k q.slot (some b) s := by
  have waits : (runBuilder (opened k q.slot (some b) s)).claims = (opened k q.slot (some b) s).claims :=
    run_busy _ _ _ _ _ _ _ b rfl
  rw [openSlot_eq, hb, runBuilder, ← runBuilder_claims, waits]

/-- R176: a slot opened while the builder is idle and no slot waits is taken at once. -/
theorem openSlot_takes {newest : JEntry} (hb : s.claims.builder = none)
    (quiet : s.claims.Quiet) (hj : s.journal.entries.getLast? = some newest) :
    openSlot q k s = opened k { q.slot with state := .building, reach := some newest.seq }
      (some { slot := k, began := s.ref, taken := [], left := s.journal.entries }) s := by
  obtain ⟨o, p, order, older⟩ := opened_order (k := k) q.slot none quiet
  have takes := runBuilder_takes (s := opened k q.slot none s) hj rfl order (opened_self ..) rfl older
  rw [openSlot_eq, hb, runBuilder, ← runBuilder_claims, takes]
  simp only [opened, Vector.set_set]

/-- R176: with an empty journal it is Ready at once, with a statement of the lot as it stands. -/
theorem openSlot_ready (hb : s.claims.builder = none) (quiet : s.claims.Quiet)
    (hj : s.journal.entries = []) (hi : findLot s.lots q.lot = some i) (hs : (s.lots.get i).state.stated) :
    openSlot q k s =
      opened k (q.slot.stated s.trip.clock s.trip.unsynced s.claims.window (s.lots.get i) []) none s := by
  obtain ⟨o, p, order, older⟩ := opened_order (k := k) q.slot none quiet
  have ready := run_ready 4 (now := s.ref) (clock := s.trip.clock) (unsynced := s.trip.unsynced) rfl order (opened_self ..) rfl
    older (fun j z hk hz => quiet j z (by rwa [opened_ne hk] at hz)) hi hs
  have runs : openSlot q k s = { s with
      claims := (opened k q.slot none s).claims.run 5 s.ref s.trip.clock s.trip.unsynced s.lots s.journal.entries } := by
    rw [openSlot_eq, hb]
    rfl
  rw [runs, hj, ready]
  simp only [opened, upd, Vector.set_set]
  rfl

/-- R174: the slot opened for a lot with a statement to build holds the query's lot id and tag, whatever the builder does. -/
theorem openSlot_holds (hi : findLot s.lots q.lot = some i) (hs : (s.lots.get i).state.stated) :
    (openSlot q k s).claims.Holds k q.lot q.tag :=
  run_holds 5 ⟨q.slot, opened_self .., rfl, rfl⟩ hi hs

/-- R174, R176: opening a slot fills no other free slot. -/
theorem openSlot_free {j : Fin 4} (hj : j ≠ k) (free : s.claims.slots.get j = none) :
    (openSlot q k s).claims.slots.get j = none := by
  refine Option.eq_none_iff_forall_ne_some.2 fun z hz => ?_
  obtain ⟨y, hy, _⟩ := run_kept _ _ _ _ _ _ _ j z hz
  exact nomatch free.symm.trans ((opened_ne hj q.slot s.claims.builder).symm.trans hy)

/-- R174, R176: opening a slot touches no other slot that is not Queued. -/
theorem openSlot_ne {j : Fin 4} (hj : j ≠ k) (h : ∀ y, s.claims.slots.get j = some y → y.state ≠ .queued) :
    (openSlot q k s).claims.slots.get j = s.claims.slots.get j := by
  have kept : (opened k q.slot s.claims.builder s).claims.slots.get j = s.claims.slots.get j := opened_ne hj ..
  exact (runBuilder_slot fun y hy => h y (kept.symm.trans hy)).trans kept

/-! ### A slot discarded before another is opened (R174 row 6) -/

/-- R174, R176: while no other slot is Queued the discard of a slot ends with its release. -/
theorem discardSlot_releases (quiet : s.claims.QuietBut k) :
    discardSlot k s = { s with claims := s.claims.release k } := by
  have ends : (discardSlot k s).claims = s.claims.release k := by
    cases hb : (s.claims.release k).builder with
    | some b => exact run_busy _ _ _ _ _ _ _ b hb
    | none => exact run_idle _ _ _ _ _ _ _ hb fun j _ => released_quiet quiet j
  rw [discardSlot_claims_only, ends]

/-- R174, R176: with a journal that holds entries, or with no other slot Queued, a discard frees its slot alone. -/
theorem discardSlot_free_iff (h : s.journal.entries ≠ [] ∨ s.claims.QuietBut k) (j : Fin 4) :
    (discardSlot k s).claims.slots.get j = none ↔ j = k ∨ s.claims.slots.get j = none := by
  have released : (s.claims.release k).slots.get j = none ↔ j = k ∨ s.claims.slots.get j = none := by
    rw [Claims.release, get_upd]
    split
    next hj => simp [hj]
    next hj => simp [hj]
  refine Iff.trans ?_ released
  rcases h with held | quiet
  · exact run_none _ _ _ _ _ _ _ held j
  · rw [discardSlot_releases quiet]

/-- R174 row 6: the lowest-numbered slot that is free once the slot `k` is. -/
def Claims.Lowest (c : Claims) (k n : Fin 4) : Prop :=
  (n = k ∨ c.slots.get n = none) ∧ ∀ j, j < n → j ≠ k ∧ c.slots.get j ≠ none

/-- R174 row 6: the slot found after a discard. -/
theorem freeSlot_discarded (h : s.journal.entries ≠ [] ∨ s.claims.QuietBut k) :
    (discardSlot k s).claims.freeSlot = some n ↔ s.claims.Lowest k n := by
  simp only [freeSlot_iff, ne_eq, discardSlot_free_iff h, not_or, Claims.Lowest]

/-! ### The answer to a query, row by row (R174, R175) -/

variable {x : Slot} {y : Statement}

theorem claimQuery_noSuchLot (hn : findLot s.lots q.lot = none) : claimQuery q s = answerPlain q .noSuchLot s := by
  simp only [claimQuery, hn]

theorem claimQuery_noCustody (hi : findLot s.lots q.lot = some i) (hs : (s.lots.get i).state = .expected) :
    claimQuery q s = answerPlain q .noCustody s := by
  simp only [claimQuery, hi, hs]

theorem claimQuery_retry (hi : findLot s.lots q.lot = some i) (hs : (s.lots.get i).state = .handover) :
    claimQuery q s = answerPlain q .retry s := by
  simp only [claimQuery, hi, hs]

/-- R174: a lot in another state reaches the slots. -/
theorem claimQuery_slots (hi : findLot s.lots q.lot = some i) (hs : (s.lots.get i).state.stated) :
    claimQuery q s = answerFromSlots q s := by
  rcases hs with hs | hs | hs | hs
  all_goals simp only [claimQuery, hi, hs]

/-- R174 row 4: a Ready slot under the query's tag. -/
theorem answerFromSlots_ready (hk : s.claims.slotFor q.lot = some k) (hx : s.claims.slots.get k = some x) (ht : x.tag = q.tag)
    (hr : x.state = .ready) (hy : x.statement = some y) : answerFromSlots q s = sendStatement q k y s := by
  simp only [answerFromSlots, hk, hx, if_pos ht, hr, hy]

/-- R174 row 5: a slot under the query's tag that is not Ready. -/
theorem answerFromSlots_waits (hk : s.claims.slotFor q.lot = some k) (hx : s.claims.slots.get k = some x) (ht : x.tag = q.tag)
    (hr : x.state ≠ .ready) : answerFromSlots q s = answerSlot q k s := by
  simp only [answerFromSlots, hk, hx, if_pos ht]
  split
  next ready _ => exact absurd ready hr
  next => rfl

/-- R174 row 6: a slot under another tag. -/
theorem answerFromSlots_otherTag (hk : s.claims.slotFor q.lot = some k) (hx : s.claims.slots.get k = some x)
    (ht : x.tag ≠ q.tag) : answerFromSlots q s = openFor q (discardSlot k s) := by
  simp only [answerFromSlots, hk, hx, if_neg ht]

/-- R174 rows 7 and 8: no slot for the lot. -/
theorem answerFromSlots_none (hk : s.claims.slotFor q.lot = none) : answerFromSlots q s = openFor q s := by
  simp only [answerFromSlots, hk]

/-- R174: a slot is free, so one is opened and its number answered. -/
theorem openFor_free (hn : s.claims.freeSlot = some n) : openFor q s = answerSlot q n (openSlot q n s) := by
  simp only [openFor, hn]

/-- R174 row 8: no slot is free. -/
theorem openFor_full (hn : s.claims.freeSlot = none) : openFor q s = answerPlain q .retryLater s := by
  simp only [openFor, hn]

end

/-- R174, R183: a claim query that is taken. -/
theorem exec_claimQ {h : ReqHdr} {l3 l2 l1 l0 tag : Byte} {s : State} (ht : Taken h s) :
    exec (.claimQ h [l3, l2, l1, l0, tag]) s =
      .next (claimQuery { dest := h.src, lot := (l3 ++ l2) ++ (l1 ++ l0), tag := tag } s) := by
  show execClaimQ h [l3, l2, l1, l0, tag] s = _
  rw [execClaimQ, onRequest_taken _ _ _ ht]
  rfl

/-! ### Frames and bytes (R175, R179, R197) -/

/-- Everything that handing frames in order can do. -/
theorem handAll_sent (fs : List OutFrame) (s : State) : Sent s (handAll fs s).1 := by
  induction fs generalizing s with
  | nil => exact Sent.refl s
  | cons f fs ih =>
    rw [handAll]
    split
    · exact (hand_sent f s).trans (ih _)
    · exact hand_sent f s

section
variable {q : Query} {k : Fin 4} {y : Statement} {s : State} {r : State × Bool}

/-- R175: a statement whose frames were all admitted frees its slot. -/
theorem sendStatement_whole (hr : handAll (statementFrames q k 0 (pieces 49 y.bytes.length y.bytes)) s = r) (h : r.2 = true) :
    sendStatement q k y s = { r.1 with claims := (sendStatement q k y s).claims } ∧
    (sendStatement q k y s).claims.slots.get k = none ∧
    ∀ j, j ≠ k → (sendStatement q k y s).claims.slots.get j = s.claims.slots.get j := by
  have frees : sendStatement q k y s = { r.1 with claims := r.1.claims.release k } := by
    rw [sendStatement, Config.claimPiece, hr]
    exact if_pos h
  have claims : r.1.claims = s.claims := hr ▸ (handAll_sent _ s).claims
  rw [frees, claims]
  exact ⟨rfl, release_self .., fun j hj => get_upd_ne _ hj _⟩

/-- R175: a statement one of whose frames was not admitted leaves its slot as it stood. -/
theorem sendStatement_part (hr : handAll (statementFrames q k 0 (pieces 49 y.bytes.length y.bytes)) s = r) (h : r.2 = false) :
    sendStatement q k y s = r.1 := by
  rw [sendStatement, Config.claimPiece, hr]
  exact if_neg (ne_true_of_eq_false h)

end

/-- R179: a statement has bytes. -/
theorem statement_bytes_ne (y : Statement) : y.bytes ≠ [] := by
  obtain ⟨rest, lotFirst⟩ : ∃ rest, y.bytes = b4 y.lot ++ rest := by
    unfold Statement.bytes
    simp only [List.append_assoc]
    exact ⟨_, rfl⟩
  rw [lotFirst]
  exact List.cons_ne_nil _ _

/-- Settles O42: the slot of a lot (R172), the rows of a claim query (R174), the statement sent (R175), and the frames and
bytes of its answers (R175, R179, R197). -/
theorem claimQueriesFollowTheirRows : Obligations.ClaimQueriesFollowTheirRows := by
  refine ⟨fun c lot => ⟨fun k => slotFor_some, slotFor_none⟩, fun h l3 l2 l1 l0 tag s ht => ?_,
    fun h l3 l2 l1 l0 tag s i k x y ht => ?_, fun q answer slot tag piece => ?_, fun q k y => ?_,
    fun s => ⟨rfl, fun f fs => rfl⟩, fun y => ?_⟩
  · intro c lot q plain deferred slot noneQueued
    have plainOf : ∀ {answer}, claimQuery q s = answerPlain q answer s → plain answer := fun e =>
      ⟨_, (exec_claimQ ht).trans (congrArg _ e), hand_sent _ _⟩
    have deferredOf : ∀ {k u}, claimQuery q s = answerSlot q k u → deferred k u := fun e =>
      ⟨(exec_claimQ ht).trans (congrArg _ e), hand_sent _ _⟩
    refine ⟨fun hn => plainOf (claimQuery_noSuchLot hn), fun i hi => ⟨fun hs => plainOf (claimQuery_noCustody hi hs),
      fun hs => plainOf (claimQuery_retry hi hs), fun notExpected notHandover => ?_⟩⟩
    have stated : (s.lots.get i).state.stated :=
      (found_states hi).resolve_right fun hs => hs.elim notExpected notHandover
    have toSlots := claimQuery_slots (q := q) hi stated
    refine ⟨fun k x hk hx same waits => deferredOf (toSlots.trans (answerFromSlots_waits hk hx same waits)),
      fun hn used => plainOf ((toSlots.trans (answerFromSlots_none hn)).trans (openFor_full (freeSlot_none used))),
      fun hn k free lower => ?_, fun k x hk hx other => ?_⟩
    · have opens : claimQuery q s = answerSlot q k (openSlot q k s) :=
        (toSlots.trans (answerFromSlots_none hn)).trans (openFor_free (freeSlot_iff.2 ⟨free, lower⟩))
      intro becomes
      refine ⟨fun b hb => deferredOf ?_, fun newest hb quiet hj => deferredOf ?_, fun hb quiet hj =>
        ⟨buildStatement s.trip.clock s.trip.unsynced q.slot (s.lots.get i) [], deferredOf ?_, rfl, rfl, rfl, rfl, rfl, rfl,
          congrArg Prod.fst segments_nil, congrArg Prod.snd segments_nil, rfl, rfl⟩⟩
      · rw [opens, openSlot_busy hb]
        rfl
      · rw [opens, openSlot_takes hb quiet hj]
        rfl
      · rw [opens, openSlot_ready hb quiet hj hi stated, Slot.stated, deadline_eq]
        rfl
    · intro othersQueued lowest
      have opens : claimQuery q s = openFor q (discardSlot k s) :=
        toSlots.trans (answerFromSlots_otherTag hk hx other)
      have quiet : ¬othersQueued → s.claims.QuietBut k :=
        fun no j y hj hy hq => no ⟨j, y, hj, hy, hq⟩
      refine ⟨?_, fun n low no => ?_⟩
      · obtain ⟨n, hn⟩ := freeSlot_exists (discardSlot_slots k s).1
        obtain ⟨z, hz, hl, htag⟩ := openSlot_holds (q := q) (k := n) (s := discardSlot k s) hi stated
        refine ⟨n, _, z, deferredOf (opens.trans (openFor_free hn)), rfl, ?_, hz, hl, htag,
          fun hnk => openSlot_free hnk.symm (discardSlot_slots k s).1, fun j hjn hjk notQueued => ?_, fun h => ?_⟩
        · exact (claims_run_window ..).trans (discardSlot_recorded k s).window
        · have stands := (discardSlot_slots k s).2 j hjk notQueued
          exact (openSlot_ne hjn fun y hy => notQueued y (stands.symm.trans hy)).trans stands
        · exact (freeSlot_discarded (h.imp_right quiet)).1 hn
      · have opens := opens.trans (openFor_free ((freeSlot_discarded (.inr (quiet no))).2 low))
        rw [discardSlot_releases (quiet no)] at opens
        refine ⟨fun b hb hbk => deferredOf ?_, fun newest hb hj => deferredOf ?_⟩
        · rw [opens, openSlot_busy (release_busy hb hbk)]
          rfl
        · rw [opens, openSlot_takes (s := { s with claims := s.claims.release k }) (release_idle hb)
            (released_quiet (quiet no)) hj]
          rfl
  · intro lot hi notExpected notHandover hk hx same ready hy r
    have stated : (s.lots.get i).state.stated :=
      (found_states hi).resolve_right fun hs => hs.elim notExpected notHandover
    let q : Query := { dest := h.src, lot := lot, tag := tag }
    have sends : claimQuery q s = sendStatement q k y s :=
      (claimQuery_slots hi stated).trans (answerFromSlots_ready hk hx same ready hy)
    have runs : exec (.claimQ h [l3, l2, l1, l0, tag]) s = .next (sendStatement q k y s) := by rw [exec_claimQ ht, ← sends]
    exact ⟨handAll_sent _ s, _, runs, sendStatement_part rfl, sendStatement_whole rfl⟩
  · cases answer <;> rfl
  · obtain ⟨whole, nonempty, each⟩ := pieces_spec y.bytes.length y.bytes le_rfl (statement_bytes_ne y)
    obtain ⟨count, frames⟩ := statementFrames_get q k (pieces 49 y.bytes.length y.bytes) 0
    refine ⟨whole, count, nonempty, fun j p hp => ?_⟩
    obtain ⟨hasBytes, short, full⟩ := each j p hp
    have frame := frames j p hp
    rw [Nat.zero_add] at frame
    exact ⟨hasBytes, short, full, frame⟩
  · intro u1 u2 u4 yes opt cause state item ending opening
    have hyes : ∀ b, flag b = yes b := fun b => by cases b <;> rfl
    have hcause : ∀ c : SealCause, b1 c.number = cause c := fun c => by cases c <;> rfl
    have hopt : ∀ (α : Type) (f : α → List Byte) (x : Option α), optional f x = opt α f x := fun α f x => by
      cases x <;> rfl
    have hitem : Item.bytes = item := funext fun i => by
      cases i with
      | handover k token scanner stop hold misdrop cancel => cases cancel <;> rfl
      | _ => rfl
    have hending : y.ending.bytes = ending := by
      simp only [ending]
      cases y.ending with
      | sealed c k => cases c <;> rfl
      | _ => rfl
    have hopening : Opening.bytes = opening := funext fun o => by
      simp only [Opening.bytes, hyes, hopt, opening]
      rfl
    have hproof : ProofMark.bytes = fun p => u2 p.number ++ cause p.cause ++ b4 p.check := funext fun p => by
      rw [ProofMark.bytes, hcause]
      rfl
    have hstate : b1 y.state.number = state := by
      simp only [state]
      cases y.state <;> rfl
    have hgrade : b1 y.grade.number = match y.grade with | .good => [0] | .watch => [1] | .hold => [2] := by
      cases y.grade <;> rfl
    refine ⟨?_, statement_bytes_le y⟩
    unfold Statement.bytes
    rw [hitem, hopening, hending, hproof, hstate, hgrade]
    simp only [hyes, hopt]
    rfl

end Sys2Proof.Machine
end

section
/-! PROOFS. The bounds of the queue, the journal, the proof list and the through queue, and the order of the journal: what
every step keeps of them (O56; spec 11 R184; spec 09 R158, R159, R163; spec 08 R152; spec 01 R19). -/

namespace Sys2Proof.Machine

/-! ### What a later state keeps -/

/-- R184, R163, R158, R159, R152, R19: each bound that an earlier state has, a later one has. -/
structure ListsKept (s t : State) : Prop where
  queue   : QueueBounded s → QueueBounded t
  journal : JournalBounded s → JournalBounded t
  ordered : JournalOrdered s → JournalOrdered t
  proofs  : ProofsBounded s → ProofsBounded t
  through : ThroughBounded s → ThroughBounded t

/-- The journal, and the lists that have a bound. -/
def State.lists (s : State) : List OutFrame × Journal × List ProofItem × List ThroughEntry :=
  (s.trunk.queue, s.journal, s.proofs.list, s.sensor.throughQ)

theorem ListsKept.refl (s : State) : ListsKept s s := ⟨id, id, id, id, id⟩

theorem ListsKept.trans {s t u : State} (h : ListsKept s t) (g : ListsKept t u) : ListsKept s u :=
  ⟨g.queue ∘ h.queue, g.journal ∘ h.journal, g.ordered ∘ h.ordered, g.proofs ∘ h.proofs, g.through ∘ h.through⟩

section

variable {s t u : State}

/-- The journal stands, and no list that has a bound grows. -/
theorem ListsKept.fewer (h : ListsKept s t) (hj : u.journal = t.journal) (hq : u.trunk.queue.length ≤ t.trunk.queue.length)
    (hp : u.proofs.list.length ≤ t.proofs.list.length) (hx : u.sensor.throughQ.length ≤ t.sensor.throughQ.length) :
    ListsKept s u where
  queue a := hq.trans (h.queue a)
  journal a := by unfold JournalBounded; rw [hj]; exact h.journal a
  ordered a := by unfold JournalOrdered; rw [hj]; exact h.ordered a
  proofs a := hp.trans (h.proofs a)
  through a := hx.trans (h.through a)

/-- The bounds read the lists and the journal alone. -/
theorem ListsKept.same (h : ListsKept s t) (e : u.lists = t.lists) : ListsKept s u := by
  obtain ⟨hq, e⟩ := Prod.mk.inj e
  obtain ⟨hj, e⟩ := Prod.mk.inj e
  obtain ⟨hp, hx⟩ := Prod.mk.inj e
  exact h.fewer hj (by rw [hq]) (by rw [hp]) (by rw [hx])

/-- The proof list loses entries, and nothing else that has a bound changes. -/
theorem ListsKept.fewerProofs (h : ListsKept s t) {l : List ProofItem} (hl : l.length ≤ t.proofs.list.length) :
    ListsKept s (t.modList fun _ => l) := h.fewer rfl (Nat.le_refl _) hl (Nat.le_refl _)

/-- The sensor line is written, and the through queue does not grow. -/
theorem ListsKept.sensor (h : ListsKept s t) (f : Sensor → Sensor)
    (hf : (f t.sensor).throughQ.length ≤ t.sensor.throughQ.length) : ListsKept s (t.modSensor f) :=
  h.fewer rfl (Nat.le_refl _) (Nat.le_refl _) hf

/-- An operation over custody, which the through queue is no part of. -/
theorem ListsKept.custody (h : ListsKept s t) (c : CustodyOnly t u) (hP : ∀ {P : State → Prop}, Logged P → P t → P u)
    (hp : ProofsBounded t → ProofsBounded u) : ListsKept s u where
  queue := hP logged_queue ∘ h.queue
  journal := hP logged_journal ∘ h.journal
  ordered := hP logged_ordered ∘ h.ordered
  proofs := hp ∘ h.proofs
  through a := by unfold ThroughBounded; rw [c.sensor]; exact h.through a

/-- An operation of the trunk port or the journal. -/
theorem ListsKept.recorded (h : ListsKept s t) (r : Recorded t u) (hP : ∀ {P : State → Prop}, Logged P → P t → P u) :
    ListsKept s u :=
  h.custody r.custody hP fun a => by unfold ProofsBounded; rw [r.proofs]; exact a

theorem ListsKept.hand (h : ListsKept s t) (f : OutFrame) : ListsKept s (hand f t).1 :=
  h.recorded (hand_sent f t).recorded fun hP => hP.hand f t

theorem ListsKept.raise (h : ListsKept s t) (k : EventKind) (sub : Subject) : ListsKept s (raise k sub t) :=
  h.recorded (raise_raised k sub t).recorded fun hP => hP.raise k sub t

theorem ListsKept.append (h : ListsKept s t) (d : Draft) : ListsKept s (append d t) :=
  h.recorded (append_recorded d t) fun hP => hP.append d t

/-- R167: the export's offers fill the queue at most. -/
theorem ListsKept.offer (h : ListsKept s t) (n : Nat) : ListsKept s (offer n t) where
  queue := offer_queue_le n t ∘ h.queue
  journal a := by unfold JournalBounded; rw [(offer_sent n t).journal]; exact h.journal a
  ordered a := by unfold JournalOrdered; rw [(offer_sent n t).journal]; exact h.ordered a
  proofs a := by unfold ProofsBounded; rw [(offer_sent n t).proofs]; exact h.proofs a
  through a := by unfold ThroughBounded; rw [(offer_sent n t).sensor]; exact h.through a

theorem ListsKept.reply (h : ListsKept s t) (r : ReplyTo) (c : ReplyCode) : ListsKept s (reply r c t) := h.hand _

theorem ListsKept.sealLot (h : ListsKept s t) (c : SealCause) (i : Fin 96) : ListsKept s (sealLot c i t) :=
  h.custody (sealLot_custody c i t) (fun hP => sealLot_logged hP c i t) (sealLot_proofs_le c i t)

theorem ListsKept.sealLots (h : ListsKept s t) (c : SealCause) (p : LotEntry → Bool) : ListsKept s (sealLots c p t) :=
  h.custody (sealLots_custody c p t) (fun hP => sealLots_logged hP c p t) (sealLots_proofs_le c p t)

theorem ListsKept.markUnconfirmed (h : ListsKept s t) (p : ProofItem) : ListsKept s (markUnconfirmed p t) :=
  ListsKept.raise (h.same (by rfl)) _ _

theorem ListsKept.discardFor (h : ListsKept s t) (lot : Word) : ListsKept s (discardFor lot t) := by
  unfold Machine.discardFor
  split
  · exact h.same (by rfl)
  · exact h

/-- A fold of operations that keep the bounds keeps them. -/
theorem ListsKept.foldl {α : Type} (h : ListsKept s t) {f : State → α → State}
    (hf : ∀ a {u}, ListsKept s u → ListsKept s (f u a)) (l : List α) : ListsKept s (l.foldl f t) :=
  foldl_keeps (ListsKept s) f l (fun _ a hu => hf a hu) t h

/-! ### The sensor line and the zones (spec 01, 02) -/

theorem ListsKept.nodeEvent (h : ListsKept s t) (n : Fin 32) (k : EventKind) (kind : EntryKind) :
    ListsKept s (nodeEvent n k kind t) := (h.raise _ _).append _

theorem ListsKept.goodNode (h : ListsKept s t) (n : Fin 32) : ListsKept s (goodNode n t) :=
  keeps_ite (fun _ => ListsKept.nodeEvent (h.same (by rfl)) _ _ _) (h.same (by rfl))

theorem ListsKept.takeMiss (h : ListsKept s t) (n : Fin 32) (a : Byte) (k : MissKind) : ListsKept s (takeMiss n a k t) :=
  keeps_ite (fun _ => ListsKept.nodeEvent (h.same (by rfl)) _ _ _) (h.same (by rfl))

theorem ListsKept.report (h : ListsKept s t) (n : Fin 32) (v : Int) : ListsKept s (report n v t) :=
  keeps_ite (fun _ => (h.hand _).same (by rfl)) (h.hand _)

/-- R36 to R38: a reading's report policy. -/
theorem ListsKept.applyPolicy (h : ListsKept s t) (n : Fin 32) (v : Int) : ListsKept s (applyPolicy n v t) := by
  unfold Machine.applyPolicy
  dsimp only
  split
  · exact h.report n v
  · exact h
  · exact keeps_ite (fun _ => ListsKept.report (h.same (by rfl)) n v) (h.same (by rfl))
  · exact keeps_ite (fun _ => h.report n v) h

theorem ListsKept.takeReading (h : ListsKept s t) (n : Fin 32) (raw : Half) (q : Byte) : ListsKept s (takeReading n raw q t) :=
  keeps_ite (fun _ => ListsKept.applyPolicy (h.same (by rfl)) n _) h

/-- R33, R34: a step, and the raising and the append of one that no door explains. -/
theorem ListsKept.takeStep (h : ListsKept s t) (z : Fin 12) (held new : Int) : ListsKept s (takeStep z held new t) := by
  have raised : ListsKept s (Machine.raise .step (.zone z) (t.modZoneRt z fun r => { r with stepFlag := true })) :=
    ListsKept.raise (h.same (by rfl)) _ _
  exact keeps_ite (fun _ => raised) ((raised.raise _ _).append _)

theorem ListsKept.computeZone (h : ListsKept s t) (z : Fin 12) : ListsKept s (computeZone z t) := by
  unfold Machine.computeZone
  dsimp only
  split
  · exact keeps_ite (fun _ => ListsKept.raise (h.same (by rfl)) _ _) h
  · exact keeps_ite (fun _ => ListsKept.takeStep (h.same (by rfl)) _ _ _) (h.same (by rfl))

theorem ListsKept.computeZones (h : ListsKept s t) : ListsKept s (computeZones t) :=
  h.foldl (fun z _ hu => keeps_ite (fun _ => hu.computeZone z) hu) _

/-- R19: a through frame joins the queue while it holds fewer than 4. -/
theorem ListsKept.takeThrough (h : ListsKept s t) (f : Frame) : ListsKept s (takeThrough f t) := by
  unfold Machine.takeThrough
  split
  · exact h.hand _
  · split
    · exact h.hand _
    next room =>
      refine ⟨h.queue, h.journal, h.ordered, h.proofs, fun _ => ?_⟩
      have shorter : t.sensor.throughQ.length < 4 := Nat.not_le.1 room
      show (t.sensor.throughQ ++ [_]).length ≤ 4
      rw [List.length_append]
      exact shorter

/-- R20: the exchange that begins takes its frame from the through queue. -/
theorem ListsKept.beginThrough (h : ListsKept s t) : ListsKept s (beginThrough t) := by
  unfold Machine.beginThrough
  split
  · exact h
  next q rest hq => exact h.fewer rfl (Nat.le_refl _) (Nat.le_refl _) (by rw [hq]; exact Nat.le_succ _)

/-- R3, R22: a node's write takes its frames from the through queue and answers each. -/
theorem ListsKept.writeNode (h : ListsKept s t) (n : Fin 32) (e : NodeEntry) : ListsKept s (writeNode n e t) := by
  rw [writeNode_eq]
  refine ListsKept.foldl (ListsKept.sensor (t := nodeWritten n e t) ?_ _ ?_) (fun f _ hu => hu.hand f) _
  · exact h.fewer rfl (Nat.le_refl _) (Nat.le_refl _) (List.length_filter_le _ _)
  · rw [release_rest]

/-! ### Scans and handovers (spec 07) -/

theorem ListsKept.judgeScan (h : ListsKept s t) (n : Fin 32) (scanner : Byte) (a : ScanAction) (f : ScanFields) :
    ListsKept s (judgeScan n scanner a f t).1 := by
  cases a
  case load =>
    unfold Machine.judgeScan judgeLoad
    dsimp only
    repeat' split
    · exact h
    · exact h
    · exact h
    · exact ListsKept.append (h.same (by rfl)) _
  case unload =>
    unfold Machine.judgeScan judgeUnload
    dsimp only
    split
    · exact h.same (by rfl)
    · split
      · exact h.same (by rfl)
      · split_ifs
        · exact h.same (by rfl)
        · exact h.same (by rfl)
        · exact h.same (by rfl)
        · exact h.same (by rfl)
        · exact ListsKept.append (h.same (by rfl)) _
  case confirm =>
    unfold Machine.judgeScan judgeConfirm
    dsimp only
    repeat' split
    · exact h
    · exact h
    · exact h.same (by rfl)
    · exact h.same (by rfl)
    · exact h.same (by rfl)
    · exact ListsKept.append (h.same (by rfl)) _
  case refuse =>
    unfold Machine.judgeScan judgeRefuse
    dsimp only
    repeat' split
    · exact h
    · exact h
    · exact ListsKept.append (h.same (by rfl)) _

theorem ListsKept.takeScan (h : ListsKept s t) (n : Fin 32) (f : ScanFields) : ListsKept s (takeScan n f t) := by
  unfold Machine.takeScan
  split
  · exact h
  · exact keeps_ite (fun _ => h) ((h.judgeScan n _ _ f).same (by rfl))

theorem ListsKept.handOn (h : ListsKept s t) (n : Fin 32) (f : Frame) : ListsKept s (handOn n f t) := by
  unfold Machine.handOn
  repeat' split
  · exact h.takeReading n _ _
  · exact h
  · exact h.takeScan n _
  · exact h
  · exact h

/-- R6, R10: what the arbiter holds, the round and the rotation are beside the through queue. -/
theorem endPoll_throughQ (x : Sensor) (accessory : Bool) : (x.endPoll accessory).throughQ = x.throughQ := by
  rw [endPoll_rest]

theorem ListsKept.endPoll (h : ListsKept s t) (accessory : Bool) : ListsKept s (t.modSensor fun x => x.endPoll accessory) :=
  h.sensor _ (by rw [endPoll_throughQ])

theorem ListsKept.takeSensorFrame (h : ListsKept s t) (ok : Bool) (f : Frame) : ListsKept s (takeSensorFrame ok f t) := by
  unfold Machine.takeSensorFrame
  split
  · exact h
  · unfold takeReply
    dsimp only
    split
    · exact (h.endPoll _).takeMiss _ _ _
    · exact ((h.endPoll _).goodNode _).handOn _ f
  · exact keeps_ite (fun _ => ListsKept.hand (h.same (by rfl)) _) h

/-! ### Lots, trips and proofs (spec 03, 04, 06, 08) -/

theorem ListsKept.updateLot (h : ListsKept s t) (i : Fin 96) : ListsKept s (updateLot i t) := by
  have count {u : State} (hu : ListsKept s u) : ListsKept s (countUpdate i u) :=
    keeps_ite (fun _ => ListsKept.append (hu.same (by rfl)) _) (hu.same (by rfl))
  have grade {u : State} (hu : ListsKept s u) : ListsKept s (gradeLot i u) :=
    keeps_ite (fun _ => (ListsKept.raise (hu.same (by rfl)) _ _).append _) hu
  unfold Machine.updateLot
  dsimp only
  refine count ?_
  split
  · exact grade (h.same (by rfl))
  · exact grade (h.same (by rfl))
  · exact h.same (by rfl)

theorem ListsKept.updateLots (h : ListsKept s t) : ListsKept s (updateLots t) :=
  h.foldl (fun i _ hu => keeps_ite (fun _ => hu.updateLot i) hu) _

theorem ListsKept.manifestAdd (h : ListsKept s t) (f : ManifestFields) : ListsKept s (manifestAdd f t).1 := by
  unfold Machine.manifestAdd manifestPlace
  dsimp only
  repeat' split
  all_goals exact h.same (by rfl)

theorem ListsKept.manifestDelete (h : ListsKept s t) (lot : Word) : ListsKept s (manifestDelete lot t).1 := by
  unfold Machine.manifestDelete
  repeat' split
  · exact h
  · exact (h.discardFor lot).same (by rfl)
  · exact h

theorem ListsKept.expireLot (h : ListsKept s t) (i : Fin 96) : ListsKept s (expireLot i t) :=
  (h.discardFor _).fewer rfl (Nat.le_refl _) (List.length_filter_le _ _) (Nat.le_refl _)

theorem ListsKept.moveLot (h : ListsKept s t) (lot : Word) (z : Byte) : ListsKept s (moveLot lot z t).1 := by
  unfold Machine.moveLot
  repeat' split
  · exact h
  · exact h
  · exact h
  · exact h
  · exact h
  · exact ListsKept.append (h.same (by rfl)) _

theorem ListsKept.shortAll (h : ListsKept s t) (stop : Nat) : ListsKept s (shortAll stop t) :=
  h.foldl (fun _ _ hu => keeps_ite (fun _ => ListsKept.append (hu.same (by rfl)) _) hu) _

theorem ListsKept.returnAll (h : ListsKept s t) : ListsKept s (returnAll t) :=
  h.foldl (fun _ _ hu => keeps_ite (fun _ => ListsKept.append (hu.same (by rfl)) _) hu) _

theorem ListsKept.emptyProofs (h : ListsKept s t) (n : Nat) : ListsKept s (emptyProofs n t) := by
  induction n generalizing t with
  | zero => exact h
  | succ n ih =>
    unfold Machine.emptyProofs
    split
    · exact h
    next p rest hl =>
      exact ih (ListsKept.markUnconfirmed (h.fewerProofs (l := rest) (by rw [hl]; exact Nat.le_succ _)) p)

theorem ListsKept.tripOpen (h : ListsKept s t) (p : TripOpenParams) : ListsKept s (tripOpen p t).1 := by
  have dropped (m : TripMode) {u : State} (hu : ListsKept s u) : ListsKept s (dropPlanned m u) := by
    cases m with
    | van => exact hu
    | room => exact hu.same (by rfl)
  unfold Machine.tripOpen
  repeat' split
  · exact h
  · exact h
  next m _ _ =>
    have opened := dropped m (u := clearVisited (t.modTrip fun _ => openedRecord m p)) (h.same (by rfl))
    exact ListsKept.append (opened.same (by rfl)) _

theorem ListsKept.depart (h : ListsKept s t) : ListsKept s (depart t).1 := by
  unfold Machine.depart
  split
  next k _ =>
    have sealed := ListsKept.sealLots (t := dropAdvisories t) (h.same (by rfl)) .depart fun l => decide (l.state = .handover)
    have left {u : State} (hu : ListsKept s u) (f : TripRecord → TripRecord) : ListsKept s ((endVisit u).modTrip f) :=
      hu.same (by rfl)
    unfold departTrip
    dsimp only
    exact (left (sealed.shortAll k.val) _).append _
  next => exact h

theorem ListsKept.arrive (h : ListsKept s t) (stop : Byte) : ListsKept s (arrive stop t).1 := by
  unfold Machine.arrive
  repeat' split
  · exact h
  · exact h
  · exact ListsKept.append (h.same (by rfl)) _
  · exact h

theorem ListsKept.tripClose (h : ListsKept s t) : ListsKept s (tripClose t).1 := by
  unfold Machine.tripClose
  split
  · have sealed := ListsKept.sealLots (t := dropAdvisories t) (h.same (by rfl)) .closure fun l => decide (l.state = .handover)
    have left {u : State} (hu : ListsKept s u) :
        ListsKept s (if u.trip.record.state.stop.isSome then endVisit u else u) := keeps_ite (fun _ => hu.same (by rfl)) hu
    have closed {u : State} (hu : ListsKept s u) (f : TripRecord → TripRecord) : ListsKept s ((clearVisited u).modTrip f) :=
      hu.same (by rfl)
    unfold closeTrip
    dsimp only
    exact (closed ((left sealed.returnAll).emptyProofs _) _).append _
  · exact h

theorem ListsKept.setTime (h : ListsKept s t) (v : Clock) : ListsKept s (setTime v t) :=
  keeps_ite (fun _ => (ListsKept.raise (h.same (by rfl)) _ _).append _) (h.same (by rfl))

/-- R154: a proof that is confirmed leaves the list, and Confirm is appended. -/
theorem ListsKept.proofAck (h : ListsKept s t) (number : Half) (check : Word) : ListsKept s (proofAck number check t).1 := by
  unfold Machine.proofAck
  repeat' split
  · exact ListsKept.append (h.fewerProofs List.length_erase_le) _
  all_goals exact h

/-! ### Doors and beacons (spec 05) -/

theorem ListsKept.openDoor (h : ListsKept s t) (d : Fin 4) : ListsKept s (openDoor d t) :=
  have told := ListsKept.append (h.same (by rfl)) _
  keeps_ite (fun _ => told) (told.raise _ _)

theorem ListsKept.closeDoor (h : ListsKept s t) (d : Fin 4) : ListsKept s (closeDoor d t) := by
  unfold Machine.closeDoor sealByDoor
  exact (ListsKept.append (h.same (by rfl)) _).sealLots _ _

theorem ListsKept.judgeContact (h : ListsKept s t) (d : Fin 4) : ListsKept s (judgeContact d t) :=
  keeps_ite (fun _ => keeps_ite (fun _ => h) (h.openDoor d)) (keeps_ite (fun _ => h.closeDoor d) h)

theorem ListsKept.edge (h : ListsKept s t) (d : Fin 4) : ListsKept s (edge d t) := by
  have level : ListsKept s (t.modDoorRt d fun r => { r with level := r.line, changedAt := none }) := h.same (by rfl)
  unfold Machine.edge
  dsimp only
  split
  · exact level.judgeContact d
  · exact keeps_ite (fun _ => (level.openDoor d).same (by rfl)) level
  · exact keeps_ite (fun _ => (ListsKept.raise (level.same (by rfl)) _ _).append _) level
  · exact level
  · exact level

theorem ListsKept.settleLine (h : ListsKept s t) (d : Fin 4) : ListsKept s (settleLine d t) :=
  keeps_ite (fun _ => h.edge d) h

theorem ListsKept.enterMode (h : ListsKept s t) (d : Fin 4) (m : DoorMode) : ListsKept s (enterMode d m t) := by
  cases m with
  | contact => exact ListsKept.judgeContact (h.same (by rfl)) d
  | _ => exact h.same (by rfl)

theorem ListsKept.writeDoor (h : ListsKept s t) (d : Fin 4) (e : DoorEntry) : ListsKept s (writeDoor d e t) := by
  have closed : ListsKept s (if (t.doors.rts.get d).state = .opened then Machine.closeDoor d t else t) :=
    keeps_ite (fun _ => h.closeDoor d) h
  have changed : ListsKept s (changeMode d e t) := ListsKept.enterMode (closed.same (by rfl)) d e.mode
  have kept : ListsKept s (keepMode d e t) := keeps_ite (fun _ => ListsKept.judgeContact (h.same (by rfl)) d) (h.same (by rfl))
  have written : ListsKept s (if (t.doors.entries.get d).mode ≠ e.mode then changeMode d e t else keepMode d e t) :=
    keeps_ite (fun _ => changed) kept
  exact keeps_ite (fun _ => written.settleLine d) written

/-! ### Exports, claims and reads (spec 09, 10, 11) -/

theorem ListsKept.jrnlReq (h : ListsKept s t) (r : ReplyTo) (m : JrnlMode) (n : Word) (count : Half) :
    ListsKept s (jrnlReq r m n count t) := by
  have ended : ListsKept s (endExport t) := h.same (by rfl)
  unfold Machine.jrnlReq
  repeat' split
  · exact ended.reply _ _
  · exact ended.reply _ _
  · exact ListsKept.offer ((ended.reply _ _).same (by rfl)) _

theorem ListsKept.answerPlain (h : ListsKept s t) (q : Query) (a : ClaimAnswer) : ListsKept s (answerPlain q a t) :=
  ListsKept.hand (h.same (by rfl)) _

theorem ListsKept.openFor (h : ListsKept s t) (q : Query) : ListsKept s (openFor q t) := by
  unfold Machine.openFor
  split
  · exact ListsKept.hand (h.same (by rfl)) _
  · exact h.answerPlain q _

theorem ListsKept.handAll (h : ListsKept s t) (fs : List OutFrame) : ListsKept s (handAll fs t).1 := by
  induction fs generalizing t with
  | nil => exact h
  | cons f fs ih =>
    unfold Machine.handAll
    dsimp only
    split
    · exact ih (h.hand f)
    · exact h.hand f

theorem ListsKept.sendStatement (h : ListsKept s t) (q : Query) (k : Fin 4) (x : Statement) :
    ListsKept s (sendStatement q k x t) := by
  have freed {u : State} (hu : ListsKept s u) : ListsKept s { u with claims := u.claims.release k } := hu.same (by rfl)
  unfold Machine.sendStatement
  dsimp only
  split
  · exact freed (h.handAll _)
  · exact h.handAll _

theorem ListsKept.claimQuery (h : ListsKept s t) (q : Query) : ListsKept s (claimQuery q t) := by
  have fromSlots : ListsKept s (answerFromSlots q t) := by
    unfold answerFromSlots
    repeat' split
    · exact h.openFor q
    · exact h.openFor q
    · exact h.sendStatement q _ _
    · exact h.hand _
    · exact ListsKept.openFor (h.same (by rfl)) q
  unfold Machine.claimQuery
  repeat' split
  · exact h.answerPlain q _
  · exact h.answerPlain q _
  · exact h.answerPlain q _
  · exact fromSlots

theorem ListsKept.sendPiece (h : ListsKept s t) (r : ReadRec) : ListsKept s (sendPiece r t) := by
  have sent := ListsKept.hand (s := s) (t := setRead ((r.fill Config.readPiece t).after t) t) (h.same (by rfl))
    ((r.fill Config.readPiece t).frame t)
  exact keeps_ite (fun _ => sent) (sent.same (by rfl))

theorem ListsKept.tableRead (h : ListsKept s t) (r : ReplyTo) (table first count : Nat) :
    ListsKept s (tableRead r table first count t) := by
  unfold Machine.tableRead
  dsimp only
  split
  · exact ListsKept.reply (h.same (by rfl)) _ _
  · exact ListsKept.hand (h.same (by rfl)) _
  · exact ListsKept.sendPiece (h.same (by rfl)) _

/-! ### Resets and the end of a transmission (R184, R194, R195) -/

/-- R195: the queue holds the Done of a RESET_FULL alone, or nothing. -/
theorem beginFull_queue_le (r : ReplyTo) (x : Trunk) : (x.beginFull r).queue.length ≤ 24 :=
  (begin_queue_le _).trans (show 1 ≤ 24 by decide)

theorem ListsKept.beginFull (h : ListsKept s t) (r : ReplyTo) :
    ListsKept s { t with trunk := t.trunk.beginFull r } :=
  ⟨fun _ => beginFull_queue_le r _, h.journal, h.ordered, h.proofs, h.through⟩

/-- R195: at power-on every list is empty, and the next entry has place 0 and number 1. -/
theorem ListsKept.powerOn (s : State) (now : Nat) (straps : BitVec 2) (clock : Clock) (unsynced : Bool) (addr : Byte)
    (t : State) : ListsKept s (powerOnState now straps clock unsynced addr t) :=
  ⟨fun _ => Nat.zero_le _, fun _ => Nat.zero_le _, fun _ => ⟨List.Pairwise.nil, fun _ he => (nomatch he), rfl⟩,
   fun _ => Nat.zero_le _, fun _ => Nat.zero_le _⟩

/-- R184: the transmission that ends takes no place of the queue. -/
theorem doneSent_endTx_queue_le (x : Trunk) : x.doneSent.endTx.queue.length ≤ x.queue.length := by
  refine (begin_queue_le _).trans ?_
  unfold Trunk.doneSent
  repeat' split
  all_goals exact Nat.le_refl _

theorem ListsKept.transmissionEnd (h : ListsKept s t) :
    ListsKept s (Machine.offer offerFuel { t with trunk := t.trunk.doneSent.endTx }) :=
  ListsKept.offer (h.fewer (u := { t with trunk := t.trunk.doneSent.endTx }) rfl (doneSent_endTx_queue_le t.trunk)
    (Nat.le_refl _) (Nat.le_refl _)) _

/-! ### Every command and every step -/

/-- R183: a request keeps the bounds when its block does. -/
theorem ListsKept.onRequest {hd : ReqHdr} {g : State → State} (e : onRequest hd s g = .next t) (hg : ListsKept s (g s)) :
    ListsKept s t :=
  onRequest_keeps (ListsKept s) e (.refl s) hg ((ListsKept.refl s).same (by rfl))

/-- R188, R189: a request that answers with a code keeps the bounds when its effects do. -/
theorem ListsKept.answered {hd : ReqHdr} {k : Byte} {g : State → State × ReplyCode}
    (e : Machine.onRequest hd s (fun s => Machine.answered hd k (g s)) = .next t) (hg : ListsKept s (g s).1) : ListsKept s t :=
  ListsKept.onRequest e (hg.reply _ _)

/-! Writes whose unit holds none of the bounded lists. -/

theorem nodeWrite_listsKept (i : Byte) (f : NodeFields) (s : State) : ListsKept s (nodeWrite i f s).1 := by
  unfold nodeWrite
  repeat' split
  · exact .refl s
  · exact .refl s
  · exact (ListsKept.refl s).writeNode _ _
  · exact .refl s

theorem doorWrite_listsKept (i : Byte) (f : DoorFields) (s : State) : ListsKept s (doorWrite i f s).1 := by
  unfold doorWrite
  repeat' split
  · exact .refl s
  · exact .refl s
  · exact (ListsKept.refl s).writeDoor _ _

theorem zoneWrite_listsKept (i : Byte) (f : ZoneFields) (s : State) : ListsKept s (zoneWrite i f s).1 := by
  unfold zoneWrite
  repeat' split
  all_goals exact (ListsKept.refl s).same (by rfl)

theorem classWrite_listsKept (i : Byte) (f : ClassFields) (s : State) : ListsKept s (classWrite i f s).1 := by
  unfold classWrite
  dsimp only
  repeat' split
  all_goals exact (ListsKept.refl s).same (by rfl)

theorem engineWrite_listsKept (i : Byte) (f : EngineFields) (s : State) : ListsKept s (engineWrite i f s).1 := by
  unfold engineWrite
  dsimp only
  repeat' split
  all_goals exact (ListsKept.refl s).same (by rfl)

theorem stopWrite_listsKept (i : Byte) (f : StopFields) (s : State) : ListsKept s (stopWrite i f s).1 := by
  unfold stopWrite
  repeat' split
  all_goals exact (ListsKept.refl s).same (by rfl)

theorem beaconWrite_listsKept (i : Byte) (f : BeaconFields) (s : State) : ListsKept s (beaconWrite i f s).1 := by
  unfold beaconWrite
  repeat' split
  all_goals exact (ListsKept.refl s).same (by rfl)

theorem beaconClear_listsKept (set : Byte) (s : State) : ListsKept s (beaconClear set s).1 := by
  unfold beaconClear stopTrains
  dsimp only
  repeat' split
  all_goals exact (ListsKept.refl s).same (by rfl)

theorem armSeal_listsKept (d : Byte) (s : State) : ListsKept s (armSeal d s).1 := by
  unfold armSeal
  dsimp only
  repeat' split
  all_goals exact (ListsKept.refl s).same (by rfl)

theorem eventClear_listsKept (kinds : Half) (s : State) : ListsKept s (eventClear kinds s).1 := by
  unfold eventClear
  split
  all_goals exact (ListsKept.refl s).same (by rfl)

theorem setAddress_listsKept (a : Byte) (s : State) : ListsKept s (setAddress a s).1 := by
  unfold setAddress
  split
  all_goals exact (ListsKept.refl s).same (by rfl)

/-- R5, R125, R151, R173, R192: the settings records. -/
theorem settingsWrites_listsKept (s : State) :
    (∀ i f, ListsKept s (lineWrite i f s).1) ∧ (∀ i w, ListsKept s (scanSettingsWrite i w s).1) ∧
    (∀ i w, ListsKept s (proofSettingsWrite i w s).1) ∧ (∀ i w, ListsKept s (claimSettingsWrite i w s).1) ∧
    (∀ i w, ListsKept s (eventSettingsWrite i w s).1) := by
  refine ⟨fun i f => ?_, fun i w => ?_, fun i w => ?_, fun i w => ?_, fun i w => ?_⟩
  · rw [lineWrite_eq]
    exact keeps_ite (fun _ => (ListsKept.refl s).same (by rfl)) (.refl s)
  · rw [scanSettingsWrite_eq]
    exact keeps_ite (fun _ => (ListsKept.refl s).same (by rfl)) (.refl s)
  · rw [proofSettingsWrite_eq]
    exact keeps_ite (fun _ => (ListsKept.refl s).same (by rfl)) (.refl s)
  · rw [claimSettingsWrite_eq]
    exact keeps_ite (fun _ => (ListsKept.refl s).same (by rfl)) (.refl s)
  · rw [eventSettingsWrite_eq]
    exact keeps_ite (fun _ => (ListsKept.refl s).same (by rfl)) (.refl s)

/-! The rows of frames that may belong to another row (log 4): such a frame is refused, and leaves no state. -/

theorem throughFrame_listsKept {f : Frame} (h : execThroughFrame f s = .next t) : ListsKept s t := by
  unfold execThroughFrame at h
  split at h
  · exact next_of h (keeps_ite (fun _ => .refl s) ((ListsKept.refl s).takeThrough f))
  · exact nomatch h

theorem mgWriteRefused_listsKept {hd : ReqHdr} {payload : List Byte} (h : execMgWriteRefused hd payload s = .next t) :
    ListsKept s t := by
  unfold execMgWriteRefused at h
  split at h
  · exact ListsKept.onRequest h ((ListsKept.refl s).reply _ _)
  · exact nomatch h

theorem mgCmdInvalid_listsKept {hd : ReqHdr} {payload : List Byte} (h : execMgCmdInvalid hd payload s = .next t) :
    ListsKept s t := by
  unfold execMgCmdInvalid at h
  split at h
  · exact ListsKept.onRequest h ((ListsKept.refl s).reply _ _)
  · exact nomatch h

theorem frameError_listsKept {f : Frame} {check : Half} (h : execFrameError f check s = .next t) : ListsKept s t := by
  unfold execFrameError at h
  split at h
  · exact next_of h (keeps_ite (fun _ => .refl s) ((ListsKept.refl s).same (by rfl)))
  · exact nomatch h

/-- R184, R163, R158, R159, R152, R19: every command keeps the bounds. -/
theorem exec_listsKept {c : Instr} (h : exec c s = .next t) : ListsKept s t := by
  have hs := ListsKept.refl s
  obtain ⟨line, scan, proof, claim, event⟩ := settingsWrites_listsKept s
  cases c
  all_goals unfold exec at h
  case throughFrame => exact throughFrame_listsKept h
  case mgWriteRefused => exact mgWriteRefused_listsKept h
  case mgCmdInvalid => exact mgCmdInvalid_listsKept h
  case frameError => exact frameError_listsKept h
  case powerOnReset => exact next_of h (.powerOn s _ _ _ _ _ s)
  case resetFullTakesEffect => exact next_of h (keeps_ite (fun _ => .powerOn s _ _ _ _ _ s) hs)
  case roundStart =>
    refine next_of h ?_
    repeat' split
    all_goals exact hs.same (by rfl)
  case poll =>
    refine next_of h ?_
    repeat' split
    all_goals exact hs.same (by rfl)
  case thruOut => exact next_of h (keeps_ite (fun _ => hs.beginThrough) hs)
  case replyReading | replyScan | replyIdle | badReply | straySensorFrame | thruBack | thruWindowOtherFrame =>
    exact next_of h (hs.takeSensorFrame _ _)
  case replyWindowExpiry =>
    refine next_of h ?_
    split
    · exact keeps_ite (fun _ => (hs.endPoll _).takeMiss _ _ _) hs
    · exact hs
  case throughWindowExpiry =>
    refine next_of h ?_
    split
    · exact keeps_ite (fun _ => ListsKept.hand (hs.same (by rfl)) _) hs
    · exact hs
  case roundEnd =>
    have ended {u : State} (hu : ListsKept s u) (f : Sensor → Sensor) (hf : ∀ x, (f x).throughQ = x.throughQ) :
        ListsKept s (u.modSensor f) := hu.sensor f (by rw [hf])
    refine next_of h ?_
    split
    · exact hs
    · exact keeps_ite (fun _ => ended hs.computeZones _ fun _ => rfl) hs
  case updateEvent =>
    have timed {u : State} (hu : ListsKept s u) (e : Engine) : ListsKept s { u with engine := e } := hu.same (by rfl)
    exact next_of h (keeps_ite (fun _ => timed hs.updateLots _) hs)
  case mgRead =>
    refine ListsKept.onRequest h ?_
    split
    · exact hs.tableRead _ _ _ _
    · exact hs.reply _ _
  case mgReadNextFrame =>
    refine next_of h ?_
    split
    · exact keeps_ite (fun _ => hs.sendPiece _) hs
    · exact hs
  case nodeTableWrite => exact ListsKept.answered h (nodeWrite_listsKept _ _ s)
  case lineSettingsWrite => exact ListsKept.answered h (line _ _)
  case zoneTableWrite => exact ListsKept.answered h (zoneWrite_listsKept _ _ s)
  case classTableWrite => exact ListsKept.answered h (classWrite_listsKept _ _ s)
  case engineSettingsWrite => exact ListsKept.answered h (engineWrite_listsKept _ _ s)
  case manifestAdd => exact ListsKept.answered h (hs.manifestAdd _)
  case manifestDelete => exact ListsKept.answered h (hs.manifestDelete _)
  case doorTableWrite => exact ListsKept.answered h (doorWrite_listsKept _ _ s)
  case beaconTableWrite => exact ListsKept.answered h (beaconWrite_listsKept _ _ s)
  case stopTableWrite => exact ListsKept.answered h (stopWrite_listsKept _ _ s)
  case scanSettingsWrite => exact ListsKept.answered h (scan _ _)
  case proofSettingsWrite => exact ListsKept.answered h (proof _ _)
  case claimSettingsWrite => exact ListsKept.answered h (claim _ _)
  case eventSettingsWrite => exact ListsKept.answered h (event _ _)
  case tripOpen => exact ListsKept.answered h (hs.tripOpen _)
  case depart => exact ListsKept.answered h hs.depart
  case arrive => exact ListsKept.answered h (hs.arrive _)
  case tripClose => exact ListsKept.answered h hs.tripClose
  case moveLot => exact ListsKept.answered h (hs.moveLot _ _)
  case armSeal => exact ListsKept.answered h (armSeal_listsKept _ s)
  case beaconClear => exact ListsKept.answered h (beaconClear_listsKept _ s)
  case timeSet => exact ListsKept.answered (g := fun s => (setTime _ s, .done)) h (hs.setTime _)
  case eventClear => exact ListsKept.answered h (eventClear_listsKept _ s)
  case setAddress => exact ListsKept.answered h (setAddress_listsKept _ s)
  case resetLink =>
    exact ListsKept.answered (g := fun s => (linkReset s, .done)) h
      (hs.fewer (u := linkReset s) rfl (Nat.zero_le _) (Nat.le_refl _) (Nat.zero_le _))
  case resetFull => exact ListsKept.onRequest h (hs.beginFull _)
  case doorLineChange =>
    have lined {u : State} (hu : ListsKept s u) (d : Fin 4) (f : DoorRt → DoorRt) : ListsKept s (u.modDoorRt d f) :=
      hu.same (by rfl)
    exact next_of h (keeps_ite (fun _ => hs) ((lined (hs.settleLine _) _ _).settleLine _))
  case debounceExpiry => exact next_of h (hs.settleLine _)
  case assumedOpenTimeExpiry => exact next_of h (keeps_ite (fun _ => hs.closeDoor _) hs)
  case recoveryWindowEnd => exact next_of h hs
  case doorOverlong => exact next_of h (keeps_ite (fun _ => (ListsKept.raise (hs.same (by rfl)) _ _).append _) hs)
  case beaconPhaseEnd =>
    refine next_of h ?_
    split
    · exact keeps_ite (fun _ => hs.same (by rfl)) hs
    · exact hs
  case advisoryExpiry => exact next_of h (keeps_ite (fun _ => hs.same (by rfl)) hs)
  case settleDeadline => exact next_of h (keeps_ite (fun _ => hs.sealLot _ _) hs)
  case ackDeadline =>
    refine next_of h ?_
    split
    · exact ListsKept.markUnconfirmed (hs.fewerProofs List.length_erase_le) _
    · exact hs
  case proofAck =>
    refine ListsKept.answered h ?_
    split
    · exact hs.proofAck _ _
    · exact hs
  case retentionExpiry => exact next_of h (keeps_ite (fun _ => hs.expireLot _) hs)
  case jrnlReq =>
    refine ListsKept.onRequest h ?_
    repeat' split
    · exact hs.reply _ _
    · exact hs.jrnlReq _ _ _ _
    · exact hs.reply _ _
  case claimQ =>
    refine ListsKept.onRequest h ?_
    split
    · exact hs.claimQuery _
    · exact hs.reply _ _
  case buildCompletion =>
    refine next_of h ?_
    split
    all_goals exact hs.same (by rfl)
  case claimWindowDeadline => exact next_of h (keeps_ite (fun _ => hs.same (by rfl)) hs)
  case transmissionEnd =>
    refine next_of h ?_
    split
    · exact hs
    · exact hs.transmissionEnd

end

/-- Settles O56: a step runs a command, of the queue or due, or lets a millisecond pass, which touches no list. -/
theorem everyStepKeepsTheListsBounded : Obligations.EveryStepKeepsTheListsBounded := by
  intro s t h
  have kept : ListsKept s t := by
    unfold step at h
    split at h
    · exact ((ListsKept.refl s).same (by rfl)).trans (exec_listsKept h)
    · unfold idleStep at h
      split at h
      · exact exec_listsKept h
      · exact next_of h ((ListsKept.refl s).same (by rfl))
  exact ⟨kept.queue, kept.journal, kept.ordered, kept.proofs, kept.through⟩

end Sys2Proof.Machine
end

section
/-! PROOFS. A step's command, the commands that complete, frame errors, admission to the outbound queue and what the end of a
transmission begins (O1, O3, O4, O5, O6; spec 11 R183 to R187, R195). -/

namespace Sys2Proof.Machine

/-- Settles O1: a step of a waiting command is that command's execution, by computation. -/
theorem stepRunsTheFrontCommand : Obligations.StepRunsTheFrontCommand := fun _ _ _ => rfl

/-- R183: a request completes, whether it is taken or not. -/
theorem onRequest_completes (h : ReqHdr) (s : State) (g : State → State) : ∃ t, onRequest h s g = .next t := ⟨_, rfl⟩

/-- R183, R195: a frame to an alias address goes to the through unit, unless a RESET Full is pending. -/
theorem throughFrame_exec {f : Frame} (s : State) (hw : (Instr.throughFrame f).wellFormed = true) :
    exec (.throughFrame f) s = .next (if s.trunk.reset ≠ .none then s else takeThrough f s) := by
  have spelled : isAlias f.dest = true ∧ f.payload.length ≤ 56 := by
    simpa [Instr.wellFormed, shortPayload] using hw
  show execThroughFrame f s = _
  rw [execThroughFrame, if_pos spelled]

/-- Settles O3: a request completes at its head; the other rows that can be refused are refused to frames that they do not
spell. -/
theorem wellFormedCommandsComplete : Obligations.WellFormedCommandsComplete := by
  intro c s hw hf
  cases hc : requestHeader c with
  | some h =>
    obtain ⟨g, e⟩ := request_exec s hc hw
    exact e ▸ onRequest_completes h s g
  | none =>
    cases c
    case throughFrame f => exact ⟨_, throughFrame_exec s hw⟩
    case frameError f check =>
      show ∃ t, execFrameError f check s = .next t
      rw [execFrameError, if_pos (hf f check rfl)]
      exact ⟨_, rfl⟩
    all_goals cases hc
    all_goals exact ⟨_, rfl⟩

/-! ### The ranks of a queue (R184, R185) -/

theorem lowestRank_le {q : List OutFrame} {x : OutFrame} (hx : x ∈ q) : lowestRank q ≤ x.cls.rank := by
  unfold lowestRank
  generalize 3 = m
  induction q generalizing m with
  | nil => cases hx
  | cons a q ih =>
    rw [List.foldl_cons]
    rcases List.mem_cons.1 hx with rfl | hx
    · exact (min_fold_le q _).trans (Nat.min_le_right _ _)
    · exact ih hx _

theorem le_lowestRank {q : List OutFrame} (hq : q ≠ []) {n : Nat} (h : ∀ x ∈ q, n ≤ x.cls.rank) : n ≤ lowestRank q := by
  obtain ⟨x, hx, e⟩ := lowest_attained q hq
  exact e ▸ h x hx

theorem max_fold_le {q : List OutFrame} {n m : Nat} (hm : m ≤ n) (h : ∀ x ∈ q, x.cls.rank ≤ n) :
    q.foldl (fun m f => max m f.cls.rank) m ≤ n := by
  induction q generalizing m with
  | nil => exact hm
  | cons a q ih =>
    exact ih (Nat.max_le.2 ⟨hm, h a List.mem_cons_self⟩) fun x hx => h x (List.mem_cons_of_mem a hx)

theorem le_max_fold (q : List OutFrame) (m : Nat) : m ≤ q.foldl (fun m f => max m f.cls.rank) m := by
  induction q generalizing m with
  | nil => exact Nat.le_refl m
  | cons a q ih => exact (Nat.le_max_left _ _).trans (ih _)

theorem le_highestRank {q : List OutFrame} {x : OutFrame} (hx : x ∈ q) : x.cls.rank ≤ highestRank q := by
  unfold highestRank
  generalize 0 = m
  induction q generalizing m with
  | nil => cases hx
  | cons a q ih =>
    rw [List.foldl_cons]
    rcases List.mem_cons.1 hx with rfl | hx
    · exact (Nat.le_max_right _ _).trans (le_max_fold q _)
    · exact ih hx _

/-- The first element of a list that has a property is found, and its erasure leaves the list around it. -/
theorem first_at {α : Type} {p : α → Bool} {a b : List α} {g : α} (ha : ∀ x ∈ a, p x = false) (hg : p g = true) :
    (a ++ g :: b).find? p = some g ∧ (a ++ g :: b).eraseP p = a ++ b := by
  have none_before : ∀ x ∈ a, ¬ p x = true := fun x hx => by rw [ha x hx]; decide
  constructor
  · rw [List.find?_append, List.find?_eq_none.2 none_before, Option.none_or, List.find?_cons_of_pos hg]
  · rw [List.eraseP_append_right _ none_before, List.eraseP_cons_of_pos hg]

/-- R185: the most recent frame of the lowest class present, and the queue without it. -/
theorem newestLowest_at {a b : List OutFrame} {g : OutFrame} (ha : ∀ x ∈ a, g.cls.rank ≤ x.cls.rank)
    (hb : ∀ x ∈ b, g.cls.rank < x.cls.rank) :
    lowestRank (a ++ g :: b) = g.cls.rank ∧ newestLowest (a ++ g :: b) = some g ∧
    dropNewestLowest (a ++ g :: b) = a ++ b := by
  have least : lowestRank (a ++ g :: b) = g.cls.rank := by
    refine le_antisymm (lowestRank_le (by simp)) (le_lowestRank (by simp) fun x hx => ?_)
    rcases List.mem_append.1 hx with hx | hx
    · exact ha x hx
    · rcases List.mem_cons.1 hx with rfl | hx
      · exact Nat.le_refl _
      · exact (hb x hx).le
  have turned : (a ++ g :: b).reverse = b.reverse ++ g :: a.reverse := by simp
  obtain ⟨found, erased⟩ := first_at (p := fun f => f.cls.rank == g.cls.rank) (a := b.reverse) (b := a.reverse) (g := g)
    (fun x hx => beq_false_of_ne (hb x (List.mem_reverse.1 hx)).ne') (beq_self_eq_true _)
  refine ⟨least, ?_, ?_⟩
  · rw [newestLowest, least, turned, found]
  · rw [dropNewestLowest, least, turned, erased, List.reverse_append, List.reverse_reverse, List.reverse_reverse]

/-- R184: the oldest frame of the highest class present, and the queue without it. -/
theorem nextOut_at {a b : List OutFrame} {f : OutFrame} (ha : ∀ x ∈ a, x.cls.rank < f.cls.rank)
    (hb : ∀ x ∈ b, x.cls.rank ≤ f.cls.rank) :
    nextOut (a ++ f :: b) = some f ∧ dropNext (a ++ f :: b) = a ++ b := by
  have greatest : highestRank (a ++ f :: b) = f.cls.rank := by
    refine le_antisymm (max_fold_le (Nat.zero_le _) fun x hx => ?_) (le_highestRank (by simp))
    rcases List.mem_append.1 hx with hx | hx
    · exact (ha x hx).le
    · rcases List.mem_cons.1 hx with rfl | hx
      · exact Nat.le_refl _
      · exact hb x hx
  rw [nextOut, dropNext, greatest]
  exact first_at (fun x hx => beq_false_of_ne (ha x hx).ne) (beq_self_eq_true _)

/-- Settles O4: the four rows of R185 are the branches of the admission; the third row's queue has a lowest rank that its
frames attain. -/
theorem admissionFollowsTheFourRows : Obligations.AdmissionFollowsTheFourRows := by
  intro f t rank
  have full {n : Nat} (h : n = 24) : ¬ n < Config.queueCap := fun lt => absurd (h ▸ lt) (by decide)
  refine ⟨fun hr => if_pos hr, fun hr room => ?_, fun hr hl low => ?_, fun hr hl a b g hq lower ha hb => ?_⟩
  · rw [Trunk.enqueue, if_neg (not_not.2 hr), if_pos (show t.queue.length < Config.queueCap from room)]
    rfl
  · have held : t.queue ≠ [] := fun e => absurd (e ▸ hl) (by decide)
    rw [Trunk.enqueue, if_neg (not_not.2 hr), if_neg (full hl),
      if_neg (Nat.not_lt.2 (show f.cls.rank ≤ lowestRank t.queue from le_lowestRank held low))]
  · obtain ⟨least, removed, kept⟩ := newestLowest_at (a := a) (b := b) (g := g) ha hb
    rw [Trunk.enqueue, if_neg (not_not.2 hr), if_neg (full hl), hq, least, removed, kept,
      if_pos (show g.cls.rank < f.cls.rank from lower)]
    rfl

/-! ### The end of a transmission (R184, R187, R195) -/

theorem doneSent_of_tx {t : Trunk} {x : TxFrame} (h : t.tx = some x) :
    t.doneSent = { t with reset := if x.origin = .resetDone ∧ t.reset = .pending then .doneSent else t.reset } := by
  unfold Trunk.doneSent
  split
  next y hy =>
    obtain rfl : y = x := Option.some.inj (hy.symm.trans h)
    split_ifs <;> rfl
  next hn => exact nomatch hn.symm.trans h

theorem endTx_of_none {t : Trunk} (h : nextOut t.queue = none) : t.endTx = { t with tx := none } := by
  unfold Trunk.endTx Trunk.begin
  rw [h]

theorem endTx_of_some {t : Trunk} {f : OutFrame} (h : nextOut t.queue = some f) :
    t.endTx = { t with queue := dropNext t.queue, tx := some { frame := f.onLine t.addr, origin := f.origin },
                       read := markBegun f.origin t.read } := by
  unfold Trunk.endTx Trunk.begin
  rw [h]

theorem markBegun_none (o : FrameOrigin) : markBegun o none = none := by cases o <;> rfl

theorem markBegun_some (o : FrameOrigin) (r : ReadRec) :
    markBegun o (some r) = some (if o = .read r.id then { r with due := true } else r) := by
  cases o
  case read id =>
    by_cases h : r.id = id
    · rw [markBegun, if_pos h, if_pos (h ▸ rfl)]
    · rw [markBegun, if_neg h, if_neg (fun e => h (FrameOrigin.read.inj e).symm)]
  all_goals rfl

theorem transmissionEnd_exec {s : State} {x : TxFrame} (h : s.trunk.tx = some x) :
    exec .transmissionEnd s = .next (offer offerFuel { s with trunk := s.trunk.doneSent.endTx }) := by
  show execTransmissionEnd s = _
  rw [execTransmissionEnd, h]

/-- Settles O5: the next frame is the first of the highest rank; the port's end of a transmission then depends on whether the
queue holds one. -/
theorem transmissionEndSendsTheNextFrame : Obligations.TransmissionEndSendsTheNextFrame := by
  refine ⟨fun q a b f hq => hq ▸ nextOut_at, fun s x hx => ?_⟩
  refine ⟨_, _, transmissionEnd_exec hx, offer_sent _ _, rfl, rfl, ?_⟩
  have ended := doneSent_of_tx hx
  have queued : s.trunk.doneSent.queue = s.trunk.queue := by rw [ended]
  cases hn : nextOut s.trunk.queue with
  | none =>
    rw [endTx_of_none (queued ▸ hn), ended]
    exact ⟨rfl, rfl, rfl, rfl, rfl, rfl, id, fun _ => ⟨rfl, rfl, rfl⟩, fun f hf => nomatch hf⟩
  | some g =>
    rw [endTx_of_some (queued ▸ hn), ended]
    refine ⟨rfl, rfl, rfl, rfl, rfl, rfl, fun hr => ?_, nofun, fun f hf => ?_⟩
    · exact (congrArg _ hr).trans (markBegun_none _)
    · obtain rfl := Option.some.inj hf
      exact ⟨rfl, rfl, fun r hr => (congrArg _ hr).trans (markBegun_some _ r)⟩

/-! ### Frame errors (R183) -/

/-- Settles O6: the judgment of a frame is `isFrameError`; requests that are not taken stop at their head. -/
theorem frameErrorsAreCounted : Obligations.FrameErrorsAreCounted := by
  refine ⟨fun f check s => ⟨rfl, fun bad => ?_⟩, fun c h s hc hw => request_discarded s hc hw, fun f s hw hr => ?_⟩
  · have judged : isFrameError s.trunk.addr f check = true := by
      simp only [isFrameError, Bool.or_eq_true, Bool.and_eq_true, Bool.not_eq_true', decide_eq_true_eq]
      tauto
    show execFrameError f check s = _
    rw [execFrameError, if_pos judged, ite_not]
    rfl
  · rw [throughFrame_exec s hw, if_pos hr]

end Sys2Proof.Machine
end

section
/-! PROOFS. Event clears, the three resets, and what the reset state holds (O11, O28, O29, O55; spec 11 R192 to R195). -/

namespace Sys2Proof.Machine

/-! ### EVENT_CLEAR (R192) -/

theorem get_lowerFlags (set : KindSet) (flags : Vector EventFlag 13) (k : Fin 13) :
    (lowerFlags set flags).get k = if set.getLsbD k.val then EventFlag.lowered else flags.get k := by
  simp [lowerFlags, Vector.get_eq_getElem]

theorem get_clearSteps (set : KindSet) (x : Zones) (z : Fin 12) :
    (clearSteps set x).rts.get z = if set.getLsbD 3 then { x.rts.get z with stepFlag := false } else x.rts.get z := by
  show (if set.getLsbD 3 then _ else x : Zones).rts.get z = _
  split
  · exact get_mapV _ _ z
  · rfl

theorem raisedSet_getLsbD (flags : Vector EventFlag 13) (k : Fin 13) :
    (raisedSet flags).getLsbD k.val = (flags.get k).raised := by
  rw [raisedSet, foldl_or_bits (Nat.le_refl 13) (fun i => (flags.get i).raised) k.val k.isLt, dif_pos k.isLt]

/-- R105: a cause set meets no raised kind exactly when each of its kinds is lowered. -/
theorem and_raisedSet_eq_zero (causes : KindSet) (flags : Vector EventFlag 13) :
    causes &&& raisedSet flags = 0 ↔ ∀ k : Fin 13, causes.getLsbD k.val = true → (flags.get k).raised = false := by
  constructor
  · intro h k hk
    have bit : (causes &&& raisedSet flags).getLsbD k.val = false := by rw [h]; exact BitVec.getLsbD_zero
    rw [BitVec.getLsbD_and, hk, Bool.true_and, raisedSet_getLsbD] at bit
    exact bit
  · intro h
    refine BitVec.eq_of_getLsbD_eq fun i hi => ?_
    have bit := raisedSet_getLsbD flags ⟨i, hi⟩
    dsimp only at bit
    rw [BitVec.getLsbD_and, bit, show (0 : KindSet).getLsbD i = false from BitVec.getLsbD_zero]
    cases hc : causes.getLsbD i with
    | false => rfl
    | true => rw [h ⟨i, hi⟩ hc]; rfl

theorem get_onClear (x : Beacons) (flags : Vector EventFlag 13) (b : Fin 2) :
    (x.onClear (raisedSet flags)).trains.get b =
      match x.trains.get b with
      | none => none
      | some r => if r.remaining = none ∧ (∀ k : Fin 13, (x.entries.get b).causes.getLsbD k.val = true →
          (flags.get k).raised = false) then none else some r := by
  rw [Beacons.onClear]
  simp only [Vector.get_eq_getElem, Vector.getElem_ofFn]
  simp only [← Vector.get_eq_getElem, ← and_raisedSet_eq_zero]
  cases x.trains.get b <;> rfl

theorem clearSteps_rest (set : KindSet) (x : Zones) : clearSteps set x = { x with rts := (clearSteps set x).rts } := by
  unfold clearSteps
  split <;> rfl

theorem clearEvents_rest (set : KindSet) (s : State) :
    clearEvents set s = { s with trunk := { s.trunk with flags := (clearEvents set s).trunk.flags },
                                 zones := { s.zones with rts := (clearEvents set s).zones.rts },
                                 beacons := { s.beacons with trains := (clearEvents set s).beacons.trains } } :=
  congrArg (fun z => { clearEvents set s with zones := z }) (clearSteps_rest set s.zones)

theorem setWidth13_getLsbD (kinds : Half) (k : Fin 13) : (kinds.setWidth 13).getLsbD k.val = kinds.getLsbD k.val := by
  rw [BitVec.getLsbD_setWidth, decide_eq_true k.isLt, Bool.true_and]

/-- Settles O11: a mask of the 13 kinds names the flags that are lowered. -/
theorem eventClearLowersTheNamedFlags : Obligations.EventClearLowersTheNamedFlags := by
  intro h kinds s ht
  refine ⟨fun high => replies_of (g := eventClear kinds) rfl ht ?_, fun low => ?_⟩
  · rw [eventClear, maskOf_none high]
  · refine ⟨clearEvents (kinds.setWidth 13) s, replies_of (g := eventClear kinds) rfl ht ?_, ?_, fun k => ?_, fun z => ?_,
      fun b => ?_⟩
    · rw [eventClear, maskOf_some low]
    · exact clearEvents_rest _ s
    · have named : (kinds.setWidth 13).getLsbD k.val = kinds.getLsbD k.val := setWidth13_getLsbD kinds k
      exact (get_lowerFlags _ _ k).trans (by rw [named]; rfl)
    · have step : (kinds.setWidth 13).getLsbD 3 = kinds.getLsbD 3 := setWidth13_getLsbD kinds 3
      exact (get_clearSteps _ _ z).trans (by rw [step])
    · exact get_onClear _ _ b

/-! ### The resets (R194, R195) -/

/-- Settles O28: each field of the state that RESET Link leaves, by computation. -/
theorem resetLinkClearsTheLink : Obligations.ResetLinkClearsTheLink := by
  intro h s ht
  refine ⟨linkReset s, replies_of (g := fun s => (linkReset s, .done)) rfl ht rfl, rfl, rfl, rfl, rfl, rfl, rfl, rfl,
    rfl, rfl, fun n => ?_, fun k => ?_, rfl, rfl, rfl, fun n => ?_, fun b => ?_⟩
  all_goals exact get_replicate _ _

theorem beginFull_of_busy {x : Trunk} {f : TxFrame} (r : ReplyTo) (h : x.tx = some f) :
    x.beginFull r = { x with queue := [rspFrame r .done tagSingle false [] .resetDone], read := none, reset := .pending } := by
  unfold Trunk.beginFull Trunk.begin
  split
  · rfl
  next hn => exact nomatch h.symm.trans hn

theorem beginFull_of_idle {x : Trunk} (r : ReplyTo) (h : x.tx = none) :
    x.beginFull r =
      { x with queue := [], read := none, reset := .pending,
               tx := some { frame := (rspFrame r .done tagSingle false [] .resetDone).onLine x.addr, origin := .resetDone } } := by
  unfold Trunk.beginFull Trunk.begin
  split
  next hs => exact nomatch hs.symm.trans h
  · rfl

theorem resetFull_taken {h : ReqHdr} {s : State} (ht : Taken h s) :
    exec (.resetFull h) s = .next { s with trunk := s.trunk.beginFull (replyTo h kMgCmd) } :=
  onRequest_taken h s (fun s => { s with trunk := s.trunk.beginFull (replyTo h kMgCmd) }) ht

/-- Settles O29: the Done of a RESET_FULL waits for the line or takes it; the resets' state is `powerOnState`. -/
theorem resetsTakePowerOnValues : Obligations.ResetsTakePowerOnValues := by
  refine ⟨fun h s ht => ⟨fun x hx => ?_, fun hx => ?_⟩, fun s => ⟨fun straps => ?_, fun sent => ?_, fun waits => ?_⟩⟩
  · exact (resetFull_taken ht).trans (by rw [beginFull_of_busy _ hx])
  · exact (resetFull_taken ht).trans (by rw [beginFull_of_idle _ hx]; rfl)
  · exact ⟨_, rfl, powerOnState_spec .., rfl, rfl, rfl, rfl⟩
  · refine ⟨fullReset s, ?_, powerOnState_spec .., rfl, rfl, rfl, rfl⟩
    show execResetFullTakesEffect s = _
    rw [execResetFullTakesEffect, if_pos sent]
  · show execResetFullTakesEffect s = _
    rw [execResetFullTakesEffect, if_neg waits]

/-- Settles O55: the reset state is a power-on state but for its export's epoch, of which no invariant speaks. -/
theorem theInvariantsHoldAtReset : Obligations.TheInvariantsHoldAtReset := by
  have legal : SettingsLegal State.reset :=
    (powerOnState_legal 0 0 0 true State.reset (strapAddress_range 0)).of_settings rfl
  have handed : HandoversHeld State.reset :=
    (HandoversHeld.powerOn 0 0 0 true (strapAddress 0) State.reset).of_handed rfl
  have custody : CustodyHeld State.reset := (CustodyHeld.powerOn 0 0 0 true (strapAddress 0) State.reset).only
  have air : AirWhileSet State.reset := powerOnState_air 0 0 0 true (strapAddress 0) State.reset
  exact ⟨Nat.zero_le _, Nat.zero_le _, ⟨List.Pairwise.nil, fun _ he => (nomatch he), rfl⟩, Nat.zero_le _, Nat.zero_le _,
    handed.bounded, handed.recorded, custody, legal.dock, legal.classes, air, legal.address⟩

end Sys2Proof.Machine
end

section
/-! PROOFS. How a read is judged, its frames, and the bytes of every table (O7; spec 11 R187, R190, R196, R197). -/

namespace Sys2Proof.Machine

/-! ### The judgment and the frames of a read (R187) -/

section
variable {s : State} {table first count lo n : Nat}

theorem judgeRead_badValue (h : tableSpan s table = none ∨ count = 0 ∨ ∃ lo n, tableSpan s table = some (lo, n) ∧ first < lo) :
    judgeRead s table first count = .badValue := by
  unfold judgeRead
  split
  · rfl
  next lo n hs =>
    refine if_pos ?_
    rcases h with h | h | ⟨lo', n', h, below⟩
    · exact nomatch hs.symm.trans h
    · exact Or.inl h
    · obtain ⟨rfl, -⟩ := Prod.mk.inj (Option.some.inj (hs.symm.trans h))
      exact Or.inr below

theorem judgeRead_empty (hs : tableSpan s table = some (lo, n)) (hc : count ≠ 0) (past : lo + n ≤ first) :
    judgeRead s table first count = .empty := by
  unfold judgeRead
  rw [hs]
  dsimp only
  rw [if_neg (by omega), if_pos past]

theorem judgeRead_entries (hs : tableSpan s table = some (lo, n)) (hc : count ≠ 0) (hlo : lo ≤ first) (held : first < lo + n) :
    judgeRead s table first count = .entries := by
  unfold judgeRead
  rw [hs]
  dsimp only
  rw [if_neg (by omega), if_neg (by omega)]

end

/-- R187: an MG_READ of three bytes is a read of its table. -/
theorem mgRead_taken {h : ReqHdr} {s : State} (table first count : Byte) (ht : Taken h s) :
    exec (.mgRead h [table, first, count]) s =
      .next (tableRead (replyTo h kMgRead) table.toNat first.toNat count.toNat s) :=
  onRequest_taken h s (fun s => tableRead (replyTo h kMgRead) table.toNat first.toNat count.toNat s) ht

theorem toNat_ne_zero {x : Byte} (h : x ≠ 0) : x.toNat ≠ 0 := fun e => h (BitVec.eq_of_toNat_eq e)

/-- R187: with no read due the event of a read's next frame does nothing. -/
theorem mgReadNextFrame_idle {s : State} (h : s.trunk.read = none ∨ ∃ r, s.trunk.read = some r ∧ r.due = false) :
    exec .mgReadNextFrame s = .next s := by
  show execMgReadNextFrame s = _
  unfold execMgReadNextFrame
  rcases h with h | ⟨r, h, waits⟩
  · rw [h]
  · rw [h]
    dsimp only
    rw [waits]
    rfl

theorem mgReadNextFrame_due {s : State} {r : ReadRec} (h : s.trunk.read = some r) (due : r.due = true) :
    exec .mgReadNextFrame s = .next (sendPiece { r with due := false } s) := by
  show execMgReadNextFrame s = _
  unfold execMgReadNextFrame
  rw [h]
  dsimp only
  rw [if_pos due]

/-- R187, R196: the first frame of a read carries First. -/
theorem tagOf_frames (last : Bool) (m : Nat) :
    tagOf (decide (m = 0)) last m = BitVec.ofNat 8 ((if m = 0 then 128 else 0) + (if last then 64 else 0) + m % 64) := by
  simp only [tagOf, decide_eq_true_eq]

/-! ### The bytes of the fields (R196, R197) -/

theorem toList_eq_map_get {α : Type} {n : Nat} (v : Vector α n) : v.toList = (List.finRange n).map v.get :=
  List.ext_getElem (by simp) fun i _ _ => by simp [Vector.get_eq_getElem]

/-- R197: a node's address stands in the last of the subject's four bytes. -/
theorem n4_toNat (a : Byte) : n4 a.toNat = [0, 0, 0, a] := by
  have small := a.isLt
  have low : (BitVec.ofNat 32 a.toNat).toNat = a.toNat := Nat.mod_eq_of_lt (by omega)
  have byte (k : Nat) : ((BitVec.ofNat 32 a.toNat).extractLsb' k 8).toNat = a.toNat / 2 ^ k % 256 := by
    rw [BitVec.extractLsb'_toNat, low, Nat.shiftRight_eq_div_pow]
  have high (k : Nat) (hk : 8 ≤ k) : (BitVec.ofNat 32 a.toNat).extractLsb' k 8 = 0 := by
    have : 2 ^ 8 ≤ 2 ^ k := Nat.pow_le_pow_right (by decide) hk
    exact BitVec.eq_of_toNat_eq ((byte k).trans (by rw [Nat.div_eq_of_lt (by omega)]; rfl))
  have last : (BitVec.ofNat 32 a.toNat).extractLsb' 0 8 = a :=
    BitVec.eq_of_toNat_eq ((byte 0).trans (by omega))
  rw [n4, b4, high 24 (by decide), high 16 (by decide), high 8 (by decide), last]

theorem subject_layout (x : Subject) : x.bytes = match x with
    | .none => [0, 0, 0, 0, 0]
    | .node a => [1, 0, 0, 0, a]
    | .zone z => [2] ++ b4 (BitVec.ofNat 32 (z.val + 1))
    | .door d => [3] ++ b4 (BitVec.ofNat 32 (d.val + 1))
    | .lot id => [4] ++ b4 id := by
  cases x with
  | node a => exact congrArg (b1 1 ++ ·) (n4_toNat a)
  | _ => rfl

theorem policy_bytes (x : Policy) : x.bytes = match x with
    | .pass => [0, 0]
    | .everyN k => [1] ++ b1 k
    | .change k => [2] ++ b1 k
    | .silent => [3, 0] := by
  cases x <;> rfl

theorem nodeKind_byte (x : NodeKind) : b1 x.number = match x with | .probe => [0] | .scanner => [1] := by
  cases x <;> rfl

theorem nodeState_byte (x : NodeState) : b1 x.number = match x with | .new => [0] | .alive => [1] | .lost => [2] := by
  cases x <;> rfl

theorem zoneState_byte (x : ZoneState) : b1 x.number = match x with | .unset => [0] | .live => [1] | .stale => [2] := by
  cases x <;> rfl

theorem polarity_byte (x : Polarity) : b1 x.number = match x with | .highIsOpen => [0] | .lowIsOpen => [1] := by
  cases x <;> rfl

theorem tripMode_byte (x : TripMode) : b1 x.number = match x with | .van => [0] | .room => [1] := by
  cases x <;> rfl

theorem slotState_byte (x : SlotState) : b1 x.number = match x with | .queued => [0] | .building => [1] | .ready => [2] := by
  cases x <;> rfl

theorem lotCount_eq (lots : Vector LotEntry 96) (x : LotState) :
    lotCount lots x = ((List.finRange 96).filter fun i => decide ((lots.get i).state = x)).length := by
  rw [lotCount, countV_eq, List.countP_eq_length_filter]

theorem raisedSet_unique {flags : Vector EventFlag 13} {m : KindSet}
    (h : ∀ k : Fin 13, m.getLsbD k.val = (flags.get k).raised) : raisedSet flags = m :=
  BitVec.eq_of_getLsbD_eq fun i hi => (raisedSet_getLsbD flags ⟨i, hi⟩).trans (h ⟨i, hi⟩).symm

theorem stepSet_unique {x : Zones} {m : ZoneSet} (h : ∀ z : Fin 12, m.getLsbD z.val = (x.rts.get z).stepFlag) : stepSet x = m :=
  BitVec.eq_of_getLsbD_eq fun i hi => by
    rw [stepSet, foldl_or_bits (Nat.le_refl 12) (fun i => (x.rts.get i).stepFlag) i hi, dif_pos hi]
    exact (h ⟨i, hi⟩).symm

/-- R158: the oldest sequence held, and 0 while none is. -/
theorem oldest_unique {l : List JEntry} {x : Word} (none : l = [] → x = 0) (some : ∀ e es, l = e :: es → x = e.seq) :
    (l.head?.map JEntry.seq).getD 0 = x := by
  cases l with
  | nil => exact (none rfl).symm
  | cons e es => exact (some e es rfl).symm

/-- R158: the newest sequence held, and 0 while none is. -/
theorem newest_unique {l : List JEntry} {x : Word} (none : l = [] → x = 0) (some : ∀ es e, l = es ++ [e] → x = e.seq) :
    (l.getLast?.map JEntry.seq).getD 0 = x := by
  rcases List.eq_nil_or_concat l with rfl | ⟨es, e, rfl⟩
  · exact (none rfl).symm
  · rw [List.concat_eq_append, List.getLast?_concat]
    exact (some es e List.concat_eq_append).symm

/-- R98, R93: the open seconds of the visit where the door is not open in a visit. -/
theorem visitSeconds_closed {s : State} {d : Fin 4}
    (h : (s.doors.rts.get d).state ≠ .opened ∨ s.trip.record.state.stop = none ∨ (s.doors.rts.get d).stretchAt = none) :
    visitSeconds s d = (s.doors.rts.get d).openSeconds.toNat := by
  have none_added : (if (s.doors.rts.get d).state = .opened ∧ s.trip.record.state.stop.isSome then
      stretchInVisit s.ref s.trip.visitStart (s.doors.rts.get d) else 0) = 0 := by
    rcases h with h | h | h
    · exact if_neg fun c => h c.1
    · exact if_neg fun c => by rw [h] at c; exact nomatch c.2
    · rw [stretchInVisit, h, ite_self]
  exact congrArg ((s.doors.rts.get d).openSeconds.toNat + ·) none_added

/-- R98, R93: the open seconds of the visit, as judged now. -/
theorem visitSeconds_unique {s : State} {d : Fin 4} {seconds : Nat}
    (opened : ∀ start, (s.doors.rts.get d).state = .opened → s.trip.record.state.stop ≠ none →
      (s.doors.rts.get d).stretchAt = some start →
      seconds = (s.doors.rts.get d).openSeconds.toNat + (s.ref - max start s.trip.visitStart) / 1000)
    (closed : (s.doors.rts.get d).state ≠ .opened ∨ s.trip.record.state.stop = none ∨ (s.doors.rts.get d).stretchAt = none →
      seconds = (s.doors.rts.get d).openSeconds.toNat) : visitSeconds s d = seconds := by
  by_cases inVisit : (s.doors.rts.get d).state = .opened ∧ s.trip.record.state.stop ≠ none ∧
      (s.doors.rts.get d).stretchAt ≠ none
  · obtain ⟨hs, visit, stretch⟩ := inVisit
    obtain ⟨v, hv⟩ := Option.ne_none_iff_exists'.1 visit
    obtain ⟨start, hx⟩ := Option.ne_none_iff_exists'.1 stretch
    exact (visitSeconds_opened hv hs hx).trans (opened start hs visit hx).symm
  · have outside := by simpa only [not_and_or, ne_eq, not_not] using inVisit
    exact (visitSeconds_closed outside).trans (closed outside).symm

theorem entryBytes_doorRt (s : State) (d : Fin 4) : entryBytes s 10 (d.val + 1) = doorRtBytes s d := dif_pos d.isLt

/-- Settles O7: a read is judged and its frames are filled as the lemmas above say; the bytes of each table are those of its
entry, field by field. -/
theorem readsAreJudgedAndAnswered : Obligations.ReadsAreJudgedAndAnswered := by
  refine ⟨fun h table first count s ht => ⟨fun bad => ?_, fun lo n hs hc past hlo => ?_, fun lo n hs hc hlo held => ?_⟩,
    fun s => mgReadNextFrame_idle, fun s r lo n hr due hs hlo => ?_, fun s => ?_⟩
  · have judged : judgeRead s table.toNat first.toNat count.toNat = .badValue :=
      judgeRead_badValue (bad.imp id (Or.imp (fun e => by rw [e]; rfl) id))
    refine ⟨?_, hand_sent _ _⟩
    rw [mgRead_taken _ _ _ ht, tableRead, judged]
    rfl
  · refine ⟨?_, hand_sent _ _⟩
    rw [mgRead_taken _ _ _ ht, tableRead, judgeRead_empty hs (toNat_ne_zero hc) past]
  · have e := mgRead_taken table first count ht
    rw [tableRead, judgeRead_entries hs (toNat_ne_zero hc) hlo held] at e
    obtain ⟨fits, exceeds⟩ := sendPiece_spec { s with trunk := { s.trunk with read := none, reads := s.trunk.reads + 1 } }
      { id := s.trunk.reads, target := replyTo h kMgRead, table := table.toNat, next := first.toNat, left := count.toNat,
        carry := [], frames := 0, due := false } lo n hs hlo
    refine ⟨fun h => ⟨e.trans (congrArg _ (fits h)), hand_sent _ _⟩, fun h => ?_⟩
    obtain ⟨m, m1, m2, m3, sent⟩ := exceeds h
    exact ⟨m, m1, m2, m3, hand_sent _ _, e.trans (congrArg _ sent)⟩
  · have e := mgReadNextFrame_due hr due
    obtain ⟨fits, exceeds⟩ := sendPiece_spec s { r with due := false } lo n hs hlo
    rw [tagOf_frames] at fits exceeds
    refine ⟨fun h => ⟨e.trans (congrArg _ (fits h)), hand_sent _ _⟩, fun h => ?_⟩
    obtain ⟨m, m1, m2, m3, sent⟩ := exceeds h
    exact ⟨m, m1, m2, m3, hand_sent _ _, e.trans (congrArg _ sent)⟩
  · intro u1 u2 u4 yes tenths opt cause grade stateNo modeNo doorNo actionNo whyNo missNo kinds trip
    have hyes : flag = yes := funext fun b => by cases b <;> rfl
    have hopt : @optional = opt := by
      funext α f x
      cases x <;> rfl
    have hcause : ∀ c : SealCause, b1 c.number = cause c := fun c => by cases c <;> rfl
    have hgrade : ∀ g : Grade, b1 g.number = grade g := fun g => by cases g <;> rfl
    have hkinds : ∀ a : Advisory, a.byte = kinds a := fun ⟨hold, misdrop⟩ => by cases hold <;> cases misdrop <;> rfl
    have htrip : s.trip.record.state.bytes = trip := by
      simp only [trip]
      cases s.trip.record.state <;> rfl
    refine ⟨fun t ht => ?_, fun t ht => ?_, rfl, rfl, fun t ht => ?_, rfl, rfl, rfl, rfl, fun t ht => ?_, fun t ht => ?_,
      fun i => ?_, fun i => ?_, rfl, fun z => ?_, fun z => ?_, fun i => ?_, rfl, fun i => ?_, fun d => ?_,
      fun d seconds open_ closed small => ?_, fun b => ?_, ?_, fun k => ?_, rfl, fun i => ?_, rfl, fun k p hp => ?_, rfl,
      fun k => ?_, rfl, fun raised steps oldest newest hraised hsteps hnone hold hnew => ?_⟩
    · fin_cases ht <;> rfl
    · fin_cases ht <;> rfl
    · fin_cases ht <;> rfl
    · fin_cases ht <;> rfl
    · rcases ht with rfl | ht
      · rfl
      · obtain ⟨k, rfl⟩ := Nat.exists_eq_add_of_le' ht
        rfl
    · refine (rowBytes_get s.sensor.nodes i NodeEntry.bytes).trans ?_
      rw [NodeEntry.bytes, hyes, hopt, nodeKind_byte, policy_bytes]
      rfl
    · refine (rowBytes_get s.sensor.rts i NodeRt.bytes).trans ?_
      rw [NodeRt.bytes, hopt, nodeState_byte]
      rfl
    · refine (rowBytes_get s.zones.entries z ZoneEntry.bytes).trans ?_
      rw [ZoneEntry.bytes, hyes]
      rfl
    · refine (rowBytes_get s.zones.rts z ZoneRt.bytes).trans ?_
      rw [ZoneRt.bytes, hyes, hopt, zoneState_byte]
      rfl
    · exact rowBytes_get s.engine.classes i ClassEntry.bytes
    · refine (rowBytes_get s.lots i LotEntry.bytes).trans ?_
      generalize s.lots.get i = l
      delta LotEntry.bytes Handover.bytes ProofFields.bytes ProofRecord.bytes
      simp only [hcause, hgrade, hyes, hopt]
      rfl
    · refine (rowBytes_get s.doors.entries d DoorEntry.bytes).trans ?_
      rw [DoorEntry.bytes, polarity_byte]
      rfl
    · have judged : visitSeconds s d = seconds := visitSeconds_unique open_ closed
      rw [entryBytes_doorRt, doorRtBytes, judged, countWord_eq small, hyes, hopt]
      rfl
    · refine (rowBytes_get s.beacons.entries b BeaconEntry.bytes).trans ?_
      delta BeaconEntry.bytes Inhibit.bytes
      rw [hyes, hopt]
      rfl
    · show TripRecord.bytes _ = _
      rw [TripRecord.bytes, htrip, tripMode_byte]
      rfl
    · refine (rowBytes_get s.trip.stops k StopEntry.bytes).trans ?_
      rw [StopEntry.bytes, hyes]
      rfl
    · refine (rowBytes_get s.scans.mem i (ScanMem.bytes s.clock)).trans ?_
      have hverdict : verdictBytes s.clock (s.scans.mem.get i).pending = fun v =>
            (match v.outcome with | .accepted => [1] | .advise _ => [2] | .rejected _ => [3])
            ++ u1 (actionNo v.action) ++ b4 v.lot
            ++ (match v.outcome with
                | .accepted => [0, 0]
                | .advise a => kinds a ++ (match (s.scans.mem.get i).pending with
                    | some p => u1 (min 255 (p.confirmBy.toNat - s.trip.clock.toNat))
                    | none => [0])
                | .rejected why => u1 (whyNo why) ++ [0]) := funext fun v => by
        delta verdictBytes
        cases v.outcome with
        | accepted => rfl
        | advise a =>
          dsimp only
          rw [hkinds a]
          cases (s.scans.mem.get i).pending <;> rfl
        | rejected why => rfl
      delta ScanMem.bytes Pending.bytes
      simp only [hverdict, hkinds, hopt] <;> rfl
    · show ((s.proofs.list[k]?).map ProofItem.bytes).getD [] = _
      rw [hp]
      rfl
    · refine (rowBytes_get s.claims.slots k (optional Slot.bytes)).trans ?_
      delta Slot.bytes
      simp only [slotState_byte, hopt] <;> rfl
    · show statusBytes s = _
      delta statusBytes Journal.statusBytes LinkFault.bytes
      rw [htrip, hyes, raisedSet_unique hraised, stepSet_unique hsteps, oldest_unique (fun e => (hnone e).1) hold,
        newest_unique (fun e => (hnone e).2) hnew, toList_eq_map_get, List.flatMap_map]
      simp only [List.flatMap_cons, List.flatMap_nil, List.append_nil, List.append_assoc, lotCount_eq, subject_layout]
      rfl

end Sys2Proof.Machine
end

section
/-! PROOFS. Which payloads spell a write or a command, and the answers of those that do not (O8; spec 11 R183, R186, R188, R189,
R196, R197). -/

namespace Sys2Proof.Machine

/-! ### Optional fields (R196, R197) -/

/-- R196: the presence byte. -/
def presence (present : Bool) : Byte := if present then 1 else 0

/-- R196: the bytes of an optional field after its presence byte. -/
def fieldSize (present : Bool) (n : Nat) : Nat := if present then n else 0

/-- R196: a decoder that reads an optional field of a width reads it where the presence byte says. -/
theorem optional_then {α : Type} {enc : α → List Byte} {dec : List Byte → Option (Option α × List Byte)} {w : Nat}
    (reads : ∀ {l r x}, dec l = some (x, r) ↔ l = optionalBytes (x.map enc) ++ r) (width : ∀ a, (enc a).length = w)
    (onto : ∀ l : List Byte, l.length = w → ∃ a, enc a = l) (P : List Byte → Prop) (l : List Byte) :
    (∃ x r, dec l = some (x, r) ∧ P r) ↔
      ∃ p, l[0]? = some (presence p) ∧ 1 + fieldSize p w ≤ l.length ∧ P (l.drop (1 + fieldSize p w)) := by
  constructor
  · rintro ⟨x, r, h, hP⟩
    obtain rfl := reads.1 h
    cases x with
    | none => exact ⟨false, rfl, Nat.le_add_left 1 _, hP⟩
    | some a =>
      refine ⟨true, rfl, ?_, ?_⟩
      · show 1 + w ≤ (1 :: (enc a ++ r)).length
        rw [List.length_cons, List.length_append, width]
        omega
      · show P ((1 :: (enc a ++ r)).drop (1 + w))
        rw [Nat.add_comm, List.drop_succ_cons, ← width a, List.drop_left]
        exact hP
  · rintro ⟨p, hp, hl, hP⟩
    cases l with
    | nil => exact nomatch hp
    | cons b l =>
      obtain rfl : b = presence p := Option.some.inj hp
      cases p with
      | false => exact ⟨none, l, reads.2 rfl, hP⟩
      | true =>
        have room : w ≤ l.length := by
          have : 1 + w ≤ l.length + 1 := hl
          omega
        obtain ⟨a, ha⟩ := onto (l.take w) (List.length_take_of_le room)
        refine ⟨some a, l.drop w, reads.2 ?_, ?_⟩
        · show 1 :: l = 1 :: (enc a ++ l.drop w)
          rw [ha, List.take_append_drop]
        · have hP : P ((1 :: l).drop (1 + w)) := hP
          rwa [Nat.add_comm, List.drop_succ_cons] at hP

theorem optByte_then (P : List Byte → Prop) (l : List Byte) :
    (∃ x r, optByte l = some (x, r) ∧ P r) ↔
      ∃ p, l[0]? = some (presence p) ∧ 1 + fieldSize p 1 ≤ l.length ∧ P (l.drop (1 + fieldSize p 1)) :=
  optional_then (enc := fun a => [a]) optByte_iff (fun _ => rfl)
    (fun _ hl => let ⟨a, ha⟩ := List.length_eq_one_iff.1 hl; ⟨a, ha.symm⟩) P l

theorem optHalf_then (P : List Byte → Prop) (l : List Byte) :
    (∃ x r, optHalf l = some (x, r) ∧ P r) ↔
      ∃ p, l[0]? = some (presence p) ∧ 1 + fieldSize p 2 ≤ l.length ∧ P (l.drop (1 + fieldSize p 2)) :=
  optional_then optHalf_iff (fun _ => rfl) (fun l _ => let [a, b] := l; ⟨half a b, b2_half a b⟩) P l

theorem optWord_then (P : List Byte → Prop) (l : List Byte) :
    (∃ x r, optWord l = some (x, r) ∧ P r) ↔
      ∃ p, l[0]? = some (presence p) ∧ 1 + fieldSize p 4 ≤ l.length ∧ P (l.drop (1 + fieldSize p 4)) :=
  optional_then optWord_iff (fun _ => rfl) (fun l _ => let [a, b, c, d] := l; ⟨word a b c d, b4_word a b c d⟩) P l

/-- R197: the optional fields that end a TRIP_OPEN. -/
theorem decodeTripTail_spells (id : Word) (mode : Byte) (sealWord : Word) (l : List Byte) :
    decodeTripTail id mode sealWord l ≠ none ↔ ∃ p q, l.length = 2 + fieldSize p 1 + fieldSize q 1 ∧
      l[0]? = some (presence p) ∧ l[1 + fieldSize p 1]? = some (presence q) := by
  have reads : decodeTripTail id mode sealWord l ≠ none ↔
      ∃ x r, optByte l = some (x, r) ∧ ∃ y r', optByte r = some (y, r') ∧ r' = [] := by
    unfold decodeTripTail
    constructor
    · intro h
      split at h
      · exact absurd rfl h
      next x r hx =>
        split at h
        next y hy => exact ⟨x, r, hx, y, [], hy, rfl⟩
        next => exact absurd rfl h
    · rintro ⟨x, r, hx, y, r', hy, rfl⟩
      rw [hx]
      dsimp only
      rw [hy]
      exact Option.some_ne_none _
  rw [reads, optByte_then]
  simp only [optByte_then, List.getElem?_drop, List.length_drop, List.drop_drop, List.drop_eq_nil_iff, Nat.add_zero]
  constructor
  · rintro ⟨p, hp, hl, q, hq, hm, hn⟩
    exact ⟨p, q, by omega, hp, hq⟩
  · rintro ⟨p, q, hl, hp, hq⟩
    exact ⟨p, hp, by omega, q, hq, by omega, by omega⟩

/-- R197: the optional fields that end a manifest add. -/
theorem decodeManifestTail_spells (lot : Word) (cls zone : Byte) (l : List Byte) :
    decodeManifestTail lot cls zone l ≠ none ↔
      ∃ p q r, l.length = 3 + fieldSize p 1 + fieldSize q 4 + fieldSize r 2 ∧ l[0]? = some (presence p) ∧
        l[1 + fieldSize p 1]? = some (presence q) ∧ l[2 + fieldSize p 1 + fieldSize q 4]? = some (presence r) := by
  have reads : decodeManifestTail lot cls zone l ≠ none ↔
      ∃ x r, optByte l = some (x, r) ∧ ∃ y r', optWord r = some (y, r') ∧ ∃ z r'', optHalf r' = some (z, r'') ∧ r'' = [] := by
    unfold decodeManifestTail
    constructor
    · intro h
      split at h
      · exact absurd rfl h
      next x r hx =>
        split at h
        · exact absurd rfl h
        next y r' hy =>
          split at h
          next z hz => exact ⟨x, r, hx, y, r', hy, z, [], hz, rfl⟩
          next => exact absurd rfl h
    · rintro ⟨x, r, hx, y, r', hy, z, r'', hz, rfl⟩
      rw [hx]
      dsimp only
      rw [hy]
      dsimp only
      rw [hz]
      exact Option.some_ne_none _
  rw [reads, optByte_then]
  simp only [optWord_then, optHalf_then, List.getElem?_drop, List.length_drop, List.drop_drop, List.drop_eq_nil_iff,
    Nat.add_zero]
  constructor
  · rintro ⟨p, hp, hl, q, hq, hm, r, hr, hn, ho⟩
    refine ⟨p, q, r, by omega, hp, hq, ?_⟩
    rwa [show 2 + fieldSize p 1 + fieldSize q 4 = 1 + fieldSize p 1 + (1 + fieldSize q 4) by omega]
  · rintro ⟨p, q, r, hl, hp, hq, hr⟩
    rw [show 2 + fieldSize p 1 + fieldSize q 4 = 1 + fieldSize p 1 + (1 + fieldSize q 4) by omega] at hr
    exact ⟨p, hp, by omega, q, hq, by omega, r, hr, by omega, by omega⟩

/-! ### Writes (R188, R197) -/

/-- A list of a length is that many elements, one after another. -/
theorem exists_ofFn {α : Type} {l : List α} {n : Nat} (h : l.length = n) : ∃ v : Fin n → α, l = List.ofFn v := by
  subst h
  exact ⟨l.get, (List.ofFn_get l).symm⟩

theorem exists_ofFn_append {α : Type} {l : List α} {n : Nat} (h : n ≤ l.length) :
    ∃ (v : Fin n → α) (t : List α), l = List.ofFn v ++ t := by
  obtain ⟨v, hv⟩ := exists_ofFn (List.length_take_of_le h)
  exact ⟨v, l.drop n, by rw [← hv, List.take_append_drop]⟩

section
variable (h : ReqHdr) (index : Byte) (fields : List Byte)

/-- R188: the writable tables. -/
theorem decodeFields_writable {t : Nat} (ht : decodeFields h t index fields ≠ none) :
    t ∈ [1, 3, 4, 6, 7, 8, 9, 11, 13, 14, 16, 18, 20] := by
  unfold decodeFields at ht
  split at ht
  case h_14 => exact absurd rfl ht
  all_goals decide

/-- R197: the writes of one length. -/
theorem decodeFields_fixed {t n : Nat}
    (ht : (t, n) ∈ [(3, 2), (4, 4), (6, 14), (7, 6), (9, 9), (13, 10), (14, 1), (16, 2), (18, 2), (20, 2)]) :
    decodeFields h t index fields ≠ none ↔ fields.length = n := by
  constructor
  · intro hw
    fin_cases ht
    all_goals
      simp only [decodeFields] at hw
      split at hw
      · rfl
      · exact absurd rfl hw
  · intro hl
    obtain ⟨v, rfl⟩ := exists_ofFn hl
    fin_cases ht
    all_goals exact Option.some_ne_none _

/-- R197: a node table write, with or without an alias address. -/
theorem decodeFields_node : decodeFields h 1 index fields ≠ none ↔
    ∃ p, fields.length = 10 + fieldSize p 1 ∧ fields[8]? = some (presence p) := by
  constructor
  · intro hw
    simp only [decodeFields, ne_eq, Option.map_eq_none_iff] at hw
    unfold decodeNode at hw
    split at hw
    · exact ⟨false, rfl, rfl⟩
    · exact ⟨true, rfl, rfl⟩
    · exact absurd rfl hw
  · rintro ⟨p, hl, hp⟩
    cases p
    case false =>
      let [_, _, _, _, _, _, _, _, x, _] := fields
      obtain rfl : x = 0 := Option.some.inj hp
      exact Option.some_ne_none _
    case true =>
      let [_, _, _, _, _, _, _, _, x, _, _] := fields
      obtain rfl : x = 1 := Option.some.inj hp
      exact Option.some_ne_none _

/-- R197: a beacon table write, with or without an inhibit. -/
theorem decodeFields_beacon : decodeFields h 11 index fields ≠ none ↔
    ∃ p, fields.length = 6 + fieldSize p 2 ∧ fields[5]? = some (presence p) := by
  constructor
  · intro hw
    simp only [decodeFields, ne_eq, Option.map_eq_none_iff] at hw
    unfold decodeBeacon at hw
    split at hw
    · exact ⟨false, rfl, rfl⟩
    · exact ⟨true, rfl, rfl⟩
    · exact absurd rfl hw
  · rintro ⟨p, hl, hp⟩
    cases p
    case false =>
      let [_, _, _, _, _, x] := fields
      obtain rfl : x = 0 := Option.some.inj hp
      exact Option.some_ne_none _
    case true =>
      let [_, _, _, _, _, x, _, _] := fields
      obtain rfl : x = 1 := Option.some.inj hp
      exact Option.some_ne_none _

/-- R197: a manifest delete or a manifest add, by the delete mark. -/
theorem decodeFields_lot : decodeFields h 8 index fields ≠ none ↔
    (fields.length = 5 ∧ fields[4]? = some (presence true)) ∨
    ∃ p q r, fields.length = 10 + fieldSize p 1 + fieldSize q 4 + fieldSize r 2 ∧ fields[4]? = some (presence false) ∧
      fields[7]? = some (presence p) ∧ fields[8 + fieldSize p 1]? = some (presence q) ∧
      fields[9 + fieldSize p 1 + fieldSize q 4]? = some (presence r) := by
  constructor
  · intro hw
    simp only [decodeFields] at hw
    unfold decodeLotWrite at hw
    split at hw
    · exact Or.inl ⟨rfl, rfl⟩
    next l3 l2 l1 l0 cls zone rest =>
      obtain ⟨p, q, r, hl, hp, hq, hr⟩ := (decodeManifestTail_spells (word l3 l2 l1 l0) cls zone rest).1 fun e => by
        rw [e] at hw
        exact hw rfl
      refine Or.inr ⟨p, q, r, ?_, rfl, hp, ?_, ?_⟩
      · simp only [List.length_cons]
        omega
      · rw [show 8 + fieldSize p 1 = 1 + fieldSize p 1 + 7 by omega]
        exact hq
      · rw [show 9 + fieldSize p 1 + fieldSize q 4 = 2 + fieldSize p 1 + fieldSize q 4 + 7 by omega]
        exact hr
    · exact absurd rfl hw
  · rintro (⟨hl, hd⟩ | ⟨p, q, r, hl, hd, hp, hq, hr⟩)
    · let [_, _, _, _, x] := fields
      obtain rfl : x = 1 := Option.some.inj hd
      exact Option.some_ne_none _
    · obtain ⟨v, rest, rfl⟩ := exists_ofFn_append (n := 7) (l := fields) (by omega)
      rw [show 8 + fieldSize p 1 = 1 + fieldSize p 1 + 7 by omega] at hq
      rw [show 9 + fieldSize p 1 + fieldSize q 4 = 2 + fieldSize p 1 + fieldSize q 4 + 7 by omega] at hr
      rw [List.length_append, List.length_ofFn] at hl
      have spelled := (decodeManifestTail_spells (word (v 0) (v 1) (v 2) (v 3)) (v 5) (v 6) rest).2
        ⟨p, q, r, by omega, hp, hq, hr⟩
      obtain ⟨f, hf⟩ := Option.ne_none_iff_exists'.1 spelled
      have added : v 4 = 0 := Option.some.inj hd
      show decodeLotWrite h index (v 0 :: v 1 :: v 2 :: v 3 :: v 4 :: v 5 :: v 6 :: rest) ≠ none
      rw [added]
      show Option.map _ (decodeManifestTail _ _ _ rest) ≠ none
      rw [hf]
      exact Option.some_ne_none _

end

/-! ### Commands (R189, R197) -/

section
variable (h : ReqHdr) (params : List Byte)

/-- R189: the commands that exist. -/
theorem decodeParams_exists {t : Nat} (ht : decodeParams h t params ≠ none) : 1 ≤ t ∧ t ≤ 12 := by
  unfold decodeParams at ht
  split at ht
  case h_13 => exact absurd rfl ht
  all_goals decide

/-- R197: the commands of one length. -/
theorem decodeParams_fixed {t n : Nat}
    (ht : (t, n) ∈ [(2, 0), (3, 1), (4, 0), (5, 5), (6, 1), (7, 1), (8, 4), (9, 2), (10, 1), (11, 0), (12, 0)]) :
    decodeParams h t params ≠ none ↔ params.length = n := by
  constructor
  · intro hw
    fin_cases ht
    all_goals
      simp only [decodeParams] at hw
      split at hw
      · rfl
      · exact absurd rfl hw
  · intro hl
    obtain ⟨v, rfl⟩ := exists_ofFn hl
    fin_cases ht
    all_goals exact Option.some_ne_none _

/-- R197: TRIP_OPEN. -/
theorem decodeParams_tripOpen : decodeParams h 1 params ≠ none ↔
    ∃ p q, params.length = 11 + fieldSize p 1 + fieldSize q 1 ∧ params[9]? = some (presence p) ∧
      params[10 + fieldSize p 1]? = some (presence q) := by
  constructor
  · intro hw
    simp only [decodeParams] at hw
    split at hw
    next i3 i2 i1 i0 m w3 w2 w1 w0 rest =>
      obtain ⟨p, q, hl, hp, hq⟩ := (decodeTripTail_spells (word i3 i2 i1 i0) m (word w3 w2 w1 w0) rest).1 fun e => by
        rw [e] at hw
        exact hw rfl
      refine ⟨p, q, ?_, hp, ?_⟩
      · simp only [List.length_cons]
        omega
      · rw [show 10 + fieldSize p 1 = 1 + fieldSize p 1 + 9 by omega]
        exact hq
    · exact absurd rfl hw
  · rintro ⟨p, q, hl, hp, hq⟩
    obtain ⟨v, rest, rfl⟩ := exists_ofFn_append (n := 9) (l := params) (by omega)
    rw [show 10 + fieldSize p 1 = 1 + fieldSize p 1 + 9 by omega] at hq
    rw [List.length_append, List.length_ofFn] at hl
    have spelled := (decodeTripTail_spells (word (v 0) (v 1) (v 2) (v 3)) (v 4) (word (v 5) (v 6) (v 7) (v 8)) rest).2
      ⟨p, q, by omega, hp, hq⟩
    obtain ⟨f, hf⟩ := Option.ne_none_iff_exists'.1 spelled
    show Option.map (Instr.tripOpen h)
      (decodeTripTail (word (v 0) (v 1) (v 2) (v 3)) (v 4) (word (v 5) (v 6) (v 7) (v 8)) rest) ≠ none
    rw [hf]
    exact Option.some_ne_none _

end

/-! ### The answers (R183, R188, R189) -/

section
variable {h : ReqHdr} {payload : List Byte} {s : State}

/-- R188: a payload that spells no write is answered BadValue. -/
theorem mgWriteRefused_replies (hd : decodeWrite h payload = none) (ht : Taken h s) :
    Replies (.mgWriteRefused h payload) s s h kMgWrite .badValue := by
  refine replies_of (g := fun s => (s, .badValue)) ?_ ht rfl
  show execMgWriteRefused h payload s = _
  unfold execMgWriteRefused
  rw [hd]
  rfl

/-- R189: a payload that spells no command is answered BadValue. -/
theorem mgCmdInvalid_replies (hd : decodeCommand h payload = none) (ht : Taken h s) :
    Replies (.mgCmdInvalid h payload) s s h kMgCmd .badValue := by
  refine replies_of (g := fun s => (s, .badValue)) ?_ ht rfl
  show execMgCmdInvalid h payload s = _
  unfold execMgCmdInvalid
  rw [hd]
  rfl

theorem mgWriteRefused_spelled (hd : decodeWrite h payload ≠ none) :
    exec (.mgWriteRefused h payload) s = .refused .notThisRow := by
  obtain ⟨c, hc⟩ := Option.ne_none_iff_exists'.1 hd
  show execMgWriteRefused h payload s = _
  unfold execMgWriteRefused
  rw [hc]

theorem mgCmdInvalid_spelled (hd : decodeCommand h payload ≠ none) :
    exec (.mgCmdInvalid h payload) s = .refused .notThisRow := by
  obtain ⟨c, hc⟩ := Option.ne_none_iff_exists'.1 hd
  show execMgCmdInvalid h payload s = _
  unfold execMgCmdInvalid
  rw [hc]

/-- R183: a read whose payload has not three bytes. -/
theorem mgRead_misspelled (ht : Taken h s) (hl : payload.length ≠ 3) :
    Replies (.mgRead h payload) s s h kMgRead .badValue := by
  refine ⟨?_, hand_sent _ _⟩
  show execMgRead h payload s = _
  rw [execMgRead, onRequest_taken _ _ _ ht]
  split
  · exact absurd rfl hl
  · rfl

/-- R183: a proof acknowledgment whose payload has not six bytes. -/
theorem proofAck_misspelled (ht : Taken h s) (hl : payload.length ≠ 6) :
    Replies (.proofAck h payload) s s h kProofAck .badValue := by
  refine ⟨?_, hand_sent _ _⟩
  show execProofAck h payload s = _
  rw [execProofAck, onRequest_taken _ _ _ ht]
  split
  · exact absurd rfl hl
  · rfl

/-- R183: a journal request whose payload has not seven bytes. -/
theorem jrnlReq_misspelled (ht : Taken h s) (hl : payload.length ≠ 7) :
    Replies (.jrnlReq h payload) s s h kJrnlReq .badValue := by
  refine ⟨?_, hand_sent _ _⟩
  show execJrnlReq h payload s = _
  rw [execJrnlReq, onRequest_taken _ _ _ ht]
  split
  · exact absurd rfl hl
  · rfl

/-- R183: a claim query whose payload has not five bytes. -/
theorem claimQ_misspelled (ht : Taken h s) (hl : payload.length ≠ 5) :
    Replies (.claimQ h payload) s s h kClaimQ .badValue := by
  refine ⟨?_, hand_sent _ _⟩
  show execClaimQ h payload s = _
  rw [execClaimQ, onRequest_taken _ _ _ ht]
  split
  · exact absurd rfl hl
  · rfl

end

/-- A byte stands in a list of bytes where its number stands in the list of their numbers. -/
theorem byte_mem_map {x : Byte} {l : List Nat} (h : x.toNat ∈ l) : x ∈ l.map (BitVec.ofNat 8) :=
  List.mem_map.2 ⟨x.toNat, h, by simp⟩

theorem number_mem_map {x : Byte} {n : Nat} {l : List (Byte × Nat)} (h : (x, n) ∈ l) :
    (x.toNat, n) ∈ l.map fun y => (y.1.toNat, y.2) := List.mem_map.2 ⟨(x, n), h, rfl⟩

/-- Settles O8: the shapes of the payloads are those that the decoders read; the answers stop at a request's head. -/
theorem refusedWritesAndCommandsDoNothing : Obligations.RefusedWritesAndCommandsDoNothing := by
  refine ⟨fun h payload => ⟨fun c => ⟨payload_of_decodeWrite h payload c, decodeWrite_payload h payload c⟩,
      fun c => ⟨payload_of_decodeCommand h payload c, decodeCommand_payload h payload c⟩, fun hl => ?_, fun hn => hn ▸ rfl⟩,
    fun h number index fields => ?_, fun h payload s => ⟨mgWriteRefused_replies, mgCmdInvalid_replies, mgWriteRefused_spelled,
      mgCmdInvalid_spelled, fun ht => ⟨mgRead_misspelled ht, proofAck_misspelled ht, jrnlReq_misspelled ht, claimQ_misspelled ht⟩,
      ⟨rfl, rfl, rfl, rfl, rfl, rfl⟩, fun _ => rfl, fun _ code _ _ _ _ => ?_, fun _ _ => rfl⟩⟩
  · match payload, hl with
    | [], _ => rfl
    | [_], _ => rfl
  · intro size mark write command
    refine ⟨fun hn hw => hn (byte_mem_map (decodeFields_writable h index fields hw)), fun n hn => ?_,
      decodeFields_node h index fields, decodeFields_beacon h index fields, decodeFields_lot h index fields,
      fun hn hw => ?_, fun n hn => ?_, decodeParams_tripOpen h fields⟩
    · exact decodeFields_fixed h index fields (number_mem_map hn)
    · obtain ⟨lo, hi⟩ := decodeParams_exists h fields hw
      rcases hn with rfl | hn
      · exact absurd lo (by decide)
      · omega
    · exact decodeParams_fixed h fields (number_mem_map hn)
  · cases code <;> rfl

end Sys2Proof.Machine
end
